-- ==== Sys2Proof/Word.lean ====
section
/-! DEFINITION. Word.lean: the word types of SDSPI-CORE (00_scope.md R16, R17). -/

namespace Sys2Proof

/-- Every exchange, every response byte and every one-byte operand is 8 bits (R16). -/
abbrev Byte := BitVec 8

/-- The host request word HREQ (R80). -/
abbrev Request := BitVec 64

/-- A command frame as one 48-bit word, `frame[0]` in bits 47:40 (R70). -/
abbrev FrameWord := BitVec 48

end Sys2Proof
end

