-- ==== Sys2Proof/Syntax.lean ====
section
/-! DEFINITION. Syntax.lean: the instructions of spec/opcode_table.json (one constructor a row), the words they are given
in, and the lines of the assembler (30_encoding.md R80, R81, R87, R88). -/

namespace Sys2Proof

/-- The five rows of the command ROM, by the spec's ROM names (R105). -/
inductive RomCmd where
  | goIdle
  | ifCond
  | appCmd
  | opCond
  | readOcr
  deriving DecidableEq, Repr

/-- The sixteen rows of the opcode table: eleven host operations (R81) and the five frames of the command ROM (R105).
The widths of the operands are in their types (R16, R80), so every term is well formed (D6). -/
inductive Instr where
  /-- ENCODE (R103): IDX, ARG and BYTE, the CRC input. -/
  | encode (idx : BitVec 6) (arg : BitVec 32) (crc : Byte)
  /-- READ_R1 (R123). -/
  | readR1
  /-- READ_R3R7 (R125): BYTE, the R1 byte already read. -/
  | readR3R7 (r1 : Byte)
  /-- DECODE_R1 (R141): BYTE, an R1 byte. -/
  | decodeR1 (b : Byte)
  /-- DECODE_R7 (R143): ARG, R7 bytes 1 to 4. -/
  | decodeR7 (arg : BitVec 32)
  /-- DECODE_R3 (R145): ARG, R3 bytes 1 to 4. -/
  | decodeR3 (arg : BitVec 32)
  /-- GO_IDLE (R163). -/
  | goIdle
  /-- SEND_IF_COND (R164). -/
  | sendIfCond
  /-- APP_OP_COND (R165). -/
  | appOpCond
  /-- READ_OCR (R166). -/
  | readOcr
  /-- INIT (R181). -/
  | init
  /-- CMD0: the frame of ROM row GO_IDLE (R105; log 3). -/
  | cmd0
  /-- CMD8: the frame of ROM row IF_COND (R105; log 3). -/
  | cmd8
  /-- CMD55: the frame of ROM row APP_CMD (R105; log 3). -/
  | cmd55
  /-- ACMD41: the frame of ROM row OP_COND, sent only after its prefix (R78, R105; log 3). -/
  | acmd41
  /-- CMD58: the frame of ROM row READ_OCR (R105; log 3). -/
  | cmd58
  deriving DecidableEq, Repr

/-- The two formats of the opcode table: a host request (HREQ64, R80) and a command-ROM frame (FRAME48, R70, R105). -/
inductive InWord where
  | request (w : Request)
  | frame (f : FrameWord)
  deriving DecidableEq, Repr

/-- Which decoder the pseudo-instruction `DECODE_R7 resp` or `DECODE_R3 resp` stands for (R88). -/
inductive RespKind where
  | r7
  | r3
  deriving DecidableEq, Repr

/-- One line of the spec's assembly syntax (R87) with its pseudo-instructions (R88). Operands are the numbers as written:
whether they fit is checked in WellFormed.lean. -/
inductive AsmLine where
  | encode (idx arg crc : Nat)
  | encodeRom (c : RomCmd)
  | readR1
  | readR3R7 (r1 : Nat)
  | decodeR1 (b : Nat)
  | decodeR7 (b1 b2 b3 b4 : Nat)
  | decodeR7Resp
  | decodeR3 (b1 b2 b3 b4 : Nat)
  | decodeR3Resp
  | goIdle
  | sendIfCond
  | appOpCond
  | readOcr
  | init
  deriving DecidableEq, Repr

end Sys2Proof
end

