-- ==== Sys2Proof/Decode.lean ====
section
/-! DEFINITION. Decode.lean: the decoder of request words (30_encoding.md R80 to R83, R85) and of command-ROM frames (R70,
R105), total and rejecting by name; then the encoder; then the opcode table's rows as data. -/

namespace Sys2Proof

/-- Why a word selects no row of the opcode table. For a request every reason has the same effect, ILLEGAL (R83, R214);
the names are the model's (log 15). -/
inductive Reject where
  /-- OP is 0x0, 0x7, 0xD, 0xE or 0xF (R81). -/
  | reservedOp
  /-- RSV, bits 59:46, is not 0 (R80). -/
  | reservedBits
  /-- A field the operation does not use is not 0 (R82). -/
  | unusedField
  /-- The frame is none of the five frames of the command ROM (R79, R105). -/
  | notRomFrame
  deriving DecidableEq, Repr

/-! ## The fields of HREQ (R80) -/

def opField (w : Request) : BitVec 4 := w.extractLsb' 60 4
def rsvField (w : Request) : BitVec 14 := w.extractLsb' 46 14
def idxField (w : Request) : BitVec 6 := w.extractLsb' 40 6
def argField (w : Request) : BitVec 32 := w.extractLsb' 8 32
def byteField (w : Request) : Byte := w.extractLsb' 0 8

/-- R82, R83: RSV must be 0, and so must the fields the operation does not use. -/
def accepted (w : Request) (unusedZero : Bool) (i : Instr) : Except Reject Instr :=
  if rsvField w ≠ 0#14 then .error .reservedBits
  else if unusedZero then .ok i
  else .error .unusedField

/-- R81, R82, R85: the operation a request word selects. -/
def decodeRequest (w : Request) : Except Reject Instr :=
  let noIdx := idxField w == 0#6
  let noArg := argField w == 0#32
  let noByte := byteField w == 0#8
  match (opField w).toNat with
  | 0x1 => accepted w true (.encode (idxField w) (argField w) (byteField w))
  | 0x2 => accepted w (noIdx && noArg && noByte) .readR1
  | 0x3 => accepted w (noIdx && noArg) (.readR3R7 (byteField w))
  | 0x4 => accepted w (noIdx && noArg) (.decodeR1 (byteField w))
  | 0x5 => accepted w (noIdx && noByte) (.decodeR7 (argField w))
  | 0x6 => accepted w (noIdx && noByte) (.decodeR3 (argField w))
  | 0x8 => accepted w (noIdx && noArg && noByte) .goIdle
  | 0x9 => accepted w (noIdx && noArg && noByte) .sendIfCond
  | 0xA => accepted w (noIdx && noArg && noByte) .appOpCond
  | 0xB => accepted w (noIdx && noArg && noByte) .readOcr
  | 0xC => accepted w (noIdx && noArg && noByte) .init
  | _ => .error .reservedOp

/-- R105: the ROM row a frame word is, by the frames of the opcode table. -/
def decodeFrame (f : FrameWord) : Except Reject Instr :=
  if f = 0x400000000095#48 then .ok .cmd0
  else if f = 0x48000001AA87#48 then .ok .cmd8
  else if f = 0x770000000065#48 then .ok .cmd55
  else if f = 0x694000000077#48 then .ok .acmd41
  else if f = 0x7A00000000FD#48 then .ok .cmd58
  else .error .notRomFrame

def decode : InWord → Except Reject Instr
  | .request w => decodeRequest w
  | .frame f => decodeFrame f

/-- The word a table row's bits stand for: a row of at most 48 bits is a FRAME48 word, a longer one an HREQ64 word
(log 16). -/
def tableWord (nbits w : Nat) : InWord :=
  if nbits ≤ 48 then .frame (BitVec.ofNat 48 w) else .request (BitVec.ofNat 64 w)

/-- The instruction the decoder reads from a word numbered as spec/opcode_table.json numbers it. -/
def decodeTableWord (nbits w : Nat) : Option Instr :=
  match decode (tableWord nbits w) with
  | .ok i => some i
  | .error _ => none

/-! ## The encoder -/

/-- R80: the request word with the given fields and RSV = 0. -/
def packRequest (op : BitVec 4) (idx : BitVec 6) (arg : BitVec 32) (byte : Byte) : Request :=
  op ++ 0#14 ++ idx ++ arg ++ byte

/-- R70: a frame word from its fields: start bit 0, transmission bit 1, index, argument, CRC7, stop bit 1. -/
def packFrame (idx : BitVec 6) (arg : BitVec 32) (crc7 : BitVec 7) : FrameWord :=
  0#1 ++ 1#1 ++ idx ++ arg ++ crc7 ++ 1#1

/-- The word of each instruction, from the encodings of R103, R123, R125, R141, R143, R145, R163 to R166, R181 and the
ROM rows of R105. -/
def encode : Instr → InWord
  | .encode idx arg crc => .request (packRequest 0x1#4 idx arg crc)
  | .readR1 => .request (packRequest 0x2#4 0#6 0#32 0#8)
  | .readR3R7 r1 => .request (packRequest 0x3#4 0#6 0#32 r1)
  | .decodeR1 b => .request (packRequest 0x4#4 0#6 0#32 b)
  | .decodeR7 arg => .request (packRequest 0x5#4 0#6 arg 0#8)
  | .decodeR3 arg => .request (packRequest 0x6#4 0#6 arg 0#8)
  | .goIdle => .request (packRequest 0x8#4 0#6 0#32 0#8)
  | .sendIfCond => .request (packRequest 0x9#4 0#6 0#32 0#8)
  | .appOpCond => .request (packRequest 0xA#4 0#6 0#32 0#8)
  | .readOcr => .request (packRequest 0xB#4 0#6 0#32 0#8)
  | .init => .request (packRequest 0xC#4 0#6 0#32 0#8)
  | .cmd0 => .frame (packFrame 0#6 0x00000000#32 0x4A#7)
  | .cmd8 => .frame (packFrame 8#6 0x000001AA#32 0x43#7)
  | .cmd55 => .frame (packFrame 55#6 0x00000000#32 0x32#7)
  | .acmd41 => .frame (packFrame 41#6 0x40000000#32 0x3B#7)
  | .cmd58 => .frame (packFrame 58#6 0x00000000#32 0x7E#7)

/-! ## The opcode table's request rows as data (R82) -/

/-- One HREQ64 row of the opcode table: a word selects it exactly when `w &&& mask = code`. -/
structure RequestRow where
  mnemonic : String
  code : Request
  mask : Request
  deriving DecidableEq, Repr

def RequestRow.selects (r : RequestRow) (w : Request) : Bool := w &&& r.mask == r.code

/-- The eleven HREQ64 rows, with the table's match and mask. -/
def requestRows : List RequestRow :=
  [ ⟨"ENCODE", 0x1000000000000000#64, 0xFFFFC00000000000#64⟩,
    ⟨"READ_R1", 0x2000000000000000#64, 0xFFFFFFFFFFFFFFFF#64⟩,
    ⟨"READ_R3R7", 0x3000000000000000#64, 0xFFFFFFFFFFFFFF00#64⟩,
    ⟨"DECODE_R1", 0x4000000000000000#64, 0xFFFFFFFFFFFFFF00#64⟩,
    ⟨"DECODE_R7", 0x5000000000000000#64, 0xFFFFFF00000000FF#64⟩,
    ⟨"DECODE_R3", 0x6000000000000000#64, 0xFFFFFF00000000FF#64⟩,
    ⟨"GO_IDLE", 0x8000000000000000#64, 0xFFFFFFFFFFFFFFFF#64⟩,
    ⟨"SEND_IF_COND", 0x9000000000000000#64, 0xFFFFFFFFFFFFFFFF#64⟩,
    ⟨"APP_OP_COND", 0xA000000000000000#64, 0xFFFFFFFFFFFFFFFF#64⟩,
    ⟨"READ_OCR", 0xB000000000000000#64, 0xFFFFFFFFFFFFFFFF#64⟩,
    ⟨"INIT", 0xC000000000000000#64, 0xFFFFFFFFFFFFFFFF#64⟩ ]

/-- The opcode table's mnemonic of an instruction. -/
def Instr.mnemonic : Instr → String
  | .encode _ _ _ => "ENCODE"
  | .readR1 => "READ_R1"
  | .readR3R7 _ => "READ_R3R7"
  | .decodeR1 _ => "DECODE_R1"
  | .decodeR7 _ => "DECODE_R7"
  | .decodeR3 _ => "DECODE_R3"
  | .goIdle => "GO_IDLE"
  | .sendIfCond => "SEND_IF_COND"
  | .appOpCond => "APP_OP_COND"
  | .readOcr => "READ_OCR"
  | .init => "INIT"
  | .cmd0 => "CMD0"
  | .cmd8 => "CMD8"
  | .cmd55 => "CMD55"
  | .acmd41 => "ACMD41"
  | .cmd58 => "CMD58"

/-- R81: the operation code of a host operation; a ROM frame has none. -/
def Instr.opcode : Instr → Option (BitVec 4)
  | .encode _ _ _ => some 0x1#4
  | .readR1 => some 0x2#4
  | .readR3R7 _ => some 0x3#4
  | .decodeR1 _ => some 0x4#4
  | .decodeR7 _ => some 0x5#4
  | .decodeR3 _ => some 0x6#4
  | .goIdle => some 0x8#4
  | .sendIfCond => some 0x9#4
  | .appOpCond => some 0xA#4
  | .readOcr => some 0xB#4
  | .init => some 0xC#4
  | .cmd0 => none
  | .cmd8 => none
  | .cmd55 => none
  | .acmd41 => none
  | .cmd58 => none

end Sys2Proof
end

