-- ==== Sys2Proof/Config.lean ====
section
/-! DEFINITION. Config.lean: the implementation parameters of 00_scope.md section 3 (R8 to R16), and the values the spec
leaves open. -/

namespace Sys2Proof

/-- What the Bus Transport answers one `exchange_byte` with (R51, R211): a byte, or that it could not complete it. -/
inductive Reply where
  | byte (b : Byte)
  | fault
  deriving DecidableEq, Repr, Inhabited

/-- The order of bits on the wire, a parameter of the transport (R54). -/
inductive BitOrder where
  | msbFirst
  | lsbFirst
  deriving DecidableEq, Repr, Inhabited

/-- The configuration the platform passes once to the Bus Transport (R219, R233). -/
structure TransportConfig where
  mode : Nat
  wordSize : Nat
  clockHz : Nat
  deriving DecidableEq, Repr, Inhabited

namespace Config

/-- `R1_POLL_LIMIT` (R8). -/
def r1PollLimit : Nat := 9
/-- `IDLE_LIMIT` (R9). -/
def idleLimit : Nat := 11
/-- `NEG_LIMIT` (R10). -/
def negLimit : Nat := 101
/-- `FILL_COUNT` (R11). -/
def fillCount : Nat := 10
/-- `IDLE_FILL` (R12). -/
def idleFill : Byte := 0xFF#8
/-- `IF_COND_ARG` (R13). -/
def ifCondArg : BitVec 32 := 0x000001AA#32
/-- `ACMD41_ARG` (R14). -/
def acmd41Arg : BitVec 32 := 0x40000000#32
/-- `T_SETTLE` in milliseconds, a lower bound (R15). No step of the machine depends on it. -/
def tSettleMs : Nat := 5
/-- `T_RETRY` in milliseconds, a lower bound (R15). No step of the machine depends on it. -/
def tRetryMs : Nat := 10

/-- FREE VALUE (R51, R211, U9, U10; log 5): the transport's answer to the n-th exchange for which no answer was scripted.
It has no body: any byte or a fault. -/
opaque freeReply : Nat → Reply

/-- `TRANSPORT_BIT_ORDER` (R54, D34; log 14): left open by the spec and read by no rule. -/
opaque transportBitOrder : BitOrder

/-- `TRANSPORT_CONFIG` (R233, D35; log 14): "the core never reads or mutates them" (R219). -/
opaque transportConfig : TransportConfig

end Config

end Sys2Proof
end

