-- ==== Sys2Proof/Machine/Types.lean ====
section
/-! DEFINITION. Machine/Types.lean: the values the registers hold, the events of the trace, the host's moves, and the
sequencer's step labels (10_state.md; 00_scope.md R18). -/

namespace Sys2Proof.Machine

/-! ## Codes of the control registers -/

/-- The engine mode `eng` (R21). -/
inductive Eng where
  | avail
  | busy
  | faulted
  deriving DecidableEq, Repr

def Eng.code : Eng → BitVec 2
  | .avail => 0
  | .busy => 1
  | .faulted => 2

/-- The completion status `op_status` (R37). -/
inductive OpStatus where
  | ok
  | illegal
  | faulted
  | none
  deriving DecidableEq, Repr

def OpStatus.code : OpStatus → BitVec 2
  | .ok => 0
  | .illegal => 1
  | .faulted => 2
  | .none => 3

/-- The initialization state `init_state` (R24). -/
inductive InitState where
  | poweringUp
  | idle
  | interfaceCheck
  | negotiating
  | readOcr
  | ready
  | failed
  deriving DecidableEq, Repr

def InitState.code : InitState → BitVec 3
  | .poweringUp => 0
  | .idle => 1
  | .interfaceCheck => 2
  | .negotiating => 3
  | .readOcr => 4
  | .ready => 5
  | .failed => 6

/-- The InitOutcome `outcome` (R34). -/
inductive InitOutcome where
  | none
  | success
  | idleTimeout
  | ifCondRejected
  | echoMismatch
  | opCondTimeout
  | powerUpIncomplete
  deriving DecidableEq, Repr

def InitOutcome.code : InitOutcome → BitVec 4
  | .none => 0
  | .success => 1
  | .idleTimeout => 2
  | .ifCondRejected => 3
  | .echoMismatch => 4
  | .opCondTimeout => 5
  | .powerUpIncomplete => 6

/-- Whether the outcome is one of the five failure reasons (R34, R197). -/
def InitOutcome.isFailure : InitOutcome → Bool
  | .none => false
  | .success => false
  | .idleTimeout => true
  | .ifCondRejected => true
  | .echoMismatch => true
  | .opCondTimeout => true
  | .powerUpIncomplete => true

/-! ## Data registers. `none` in an `Option` is the spec's UNDEF (R19): the register or byte holds no value. -/

/-- A command frame, byte 0 sent first (R30, R52). -/
structure Frame where
  b0 : Byte
  b1 : Byte
  b2 : Byte
  b3 : Byte
  b4 : Byte
  b5 : Byte
  deriving DecidableEq, Repr

/-- The frame's bytes in the order they go out (R52). -/
def Frame.bytes (f : Frame) : List Byte := [f.b0, f.b1, f.b2, f.b3, f.b4, f.b5]

/-- The frame as one 48-bit word, `frame[0]` in bits 47:40 (R70). -/
def Frame.toWord (f : Frame) : FrameWord := f.b0 ++ f.b1 ++ f.b2 ++ f.b3 ++ f.b4 ++ f.b5

/-- `frame[i]` for `i` in 0 to 5. -/
def Frame.byteAt (f : Frame) (i : Fin 6) : Byte :=
  match i with
  | 0 => f.b0
  | 1 => f.b1
  | 2 => f.b2
  | 3 => f.b3
  | 4 => f.b4
  | 5 => f.b5

/-- The response buffer `resp[0..4]` (R31). -/
structure Resp where
  b0 : Option Byte
  b1 : Option Byte
  b2 : Option Byte
  b3 : Option Byte
  b4 : Option Byte
  deriving DecidableEq, Repr

def Resp.undef : Resp := ⟨none, none, none, none, none⟩

/-- Response bytes 1 to 4. -/
structure Payload where
  b1 : Byte
  b2 : Byte
  b3 : Byte
  b4 : Byte
  deriving DecidableEq, Repr

/-- Bytes 1 to 4 of the response buffer, when all four hold a value. -/
def Resp.payload (r : Resp) : Option Payload :=
  match r.b1, r.b2, r.b3, r.b4 with
  | some b1, some b2, some b3, some b4 => some ⟨b1, b2, b3, b4⟩
  | _, _, _, _ => none

/-- The register `result`, byte `k` being bits `8k+7:8k` (R38). -/
structure ResultReg where
  b0 : Option Byte
  b1 : Option Byte
  b2 : Option Byte
  b3 : Option Byte
  b4 : Option Byte
  b5 : Option Byte
  b6 : Option Byte
  b7 : Option Byte
  deriving DecidableEq, Repr

def ResultReg.undef : ResultReg := ⟨none, none, none, none, none, none, none, none⟩

/-- Bit `k` is 1 exactly when byte `k` holds a value: what `rvalid` records (R38). -/
def ResultReg.definedMask (r : ResultReg) : BitVec 8 :=
  BitVec.ofBool r.b7.isSome ++ BitVec.ofBool r.b6.isSome ++ BitVec.ofBool r.b5.isSome ++
  BitVec.ofBool r.b4.isSome ++ BitVec.ofBool r.b3.isSome ++ BitVec.ofBool r.b2.isSome ++
  BitVec.ofBool r.b1.isSome ++ BitVec.ofBool r.b0.isSome

/-- The seven status flags and the sentinel of an R1 byte (R72, R140); derived, never stored (R39). -/
structure StatusFlags where
  idle : Bool
  eraseReset : Bool
  illegalCommand : Bool
  crcError : Bool
  eraseSequenceError : Bool
  addressError : Bool
  parameterError : Bool
  sentinel : Bool
  deriving DecidableEq, Repr

/-- The voltage-accepted codes (R75). -/
inductive VoltageAccepted where
  | v27to36
  | lowVoltage
  | reservedA
  | reservedB
  | undefined
  deriving DecidableEq, Repr

def VoltageAccepted.code : VoltageAccepted → BitVec 3
  | .v27to36 => 0
  | .lowVoltage => 1
  | .reservedA => 2
  | .reservedB => 3
  | .undefined => 4

/-- InterfaceConditionFields (R73, R142). -/
structure InterfaceCondition where
  version : BitVec 4
  vacc : VoltageAccepted
  echo : Byte
  deriving DecidableEq, Repr

/-- OperatingConditionFields (R74, R144): capacity support holds a value only when power-up is complete (U5). -/
structure OperatingCondition where
  powerUpComplete : Bool
  capacitySupport : Option Bool
  window : BitVec 9
  deriving DecidableEq, Repr

/-! ## The trace (R18) -/

/-- The two delays (R15, R18). -/
inductive Delay where
  | settle
  | retry
  deriving DecidableEq, Repr

/-- An event: `X(out, in)`, `CS(b)` or `W(k)` (R18). -/
inductive Event where
  | x (out inb : Byte)
  | cs (asserted : Bool)
  | w (k : Delay)
  deriving DecidableEq, Repr

/-! ## The host's moves (R7, R40, R80, R88, R230; log 7) -/

inductive Move where
  /-- Present a request word and make no other move until `eng` has left BUSY: one step runs the whole operation. -/
  | request (w : Request)
  /-- Present a request word and stay free to make moves while it is in flight: one step accepts it, and each later step
  runs one step of the sequencer (log 1). -/
  | start (w : Request)
  /-- The engine is given the frame of one command-ROM row (the FRAME48 rows of the opcode table; log 3). -/
  | romFrame (f : FrameWord)
  /-- The pseudo-instruction `DECODE_R7 resp` or `DECODE_R3 resp` (R88). -/
  | decodeResp (k : RespKind)
  /-- Read host register `n` and use the bits in `use` (R40, R240). -/
  | read (n : Nat) (use : BitVec 64)
  /-- Do nothing for one step. -/
  | wait
  /-- Assert and release `rst` (R230). -/
  | rst
  deriving DecidableEq, Repr

/-! ## The sequencer's step labels (R23)

`seq` is "the next step of the procedure that implements the operation in flight". A label carries the values of its
procedure's local variables and the step its procedure was called from (log 11). -/

/-- The calling steps of `NegAttempt` (R162): A0 of APP_OP_COND (R165), M4 of `Negotiate` (R188). -/
inductive AttemptCaller where
  | a0
  | m4
  deriving DecidableEq, Repr

/-- The calling steps of `CommandExchange` (R160). -/
inductive ExchangeCaller where
  /-- GO_IDLE (R163). -/
  | g0
  /-- SEND_IF_COND (R164). -/
  | i0
  /-- READ_OCR (R166). -/
  | r0
  /-- N0 of `NegAttempt`: the application-prefix command. -/
  | n0 (k : AttemptCaller)
  /-- N1 of `NegAttempt`: the operating-condition request. -/
  | n1 (s55 : Byte) (k : AttemptCaller)
  /-- L3 of `GoIdleLoop` (R183). -/
  | l3
  /-- K0 of `IfCheck` (R185). -/
  | k0
  /-- S5 of INIT (R181). -/
  | s5
  deriving DecidableEq, Repr

/-- The calling steps of `ReadR1` (R120): Q0 of READ_R1, C4 of `CommandExchange`. -/
inductive PollCaller where
  | q0
  | c4 (c : RomCmd) (k : ExchangeCaller)
  deriving DecidableEq, Repr

/-- The calling steps of `ReadR3R7` (R124): T0 of READ_R3R7, C5 of `CommandExchange`. -/
inductive PayloadCaller where
  | t0
  | c5 (k : ExchangeCaller)
  deriving DecidableEq, Repr

/-- A step label of a procedure. Where two procedures use one letter in the spec, the constructor's name says which. -/
inductive Pos where
  /-- ENCODE, E0 to E2 (R103). -/
  | e0 (idx : BitVec 6) (arg : BitVec 32) (crc : Byte)
  | e1
  | e2
  /-- `ReadR1`, P0 to P5 (R120). -/
  | p0 (k : PollCaller)
  | p1 (k : PollCaller)
  | p2 (b : Byte) (k : PollCaller)
  | p3 (b : Byte) (k : PollCaller)
  | p4 (b : Byte) (k : PollCaller)
  | p5 (k : PollCaller)
  /-- READ_R1, Q0 to Q3 (R123). -/
  | q0
  | q1 (r1 : Byte)
  | q2 (r1 : Byte)
  | q3
  /-- `ReadR3R7`, A0 to A6 (R124). -/
  | pa0 (r1 : Byte) (k : PayloadCaller)
  | pa1 (r1 : Byte) (k : PayloadCaller)
  | pa2 (k : PayloadCaller)
  | pa3 (k : PayloadCaller)
  | pa4 (k : PayloadCaller)
  | pa5 (k : PayloadCaller)
  | pa6 (k : PayloadCaller)
  /-- READ_R3R7, T0 to T2 (R125). -/
  | t0 (r1 : Byte)
  | t1
  | t2
  /-- DECODE_R1, D0 to D2 (R141). -/
  | d0 (b : Byte)
  | d1 (f : StatusFlags)
  | d2
  /-- DECODE_R7, V0 to V2 (R143). -/
  | v0 (arg : BitVec 32)
  | v1 (f : InterfaceCondition)
  | v2
  /-- DECODE_R3, O0 to O3 (R145). -/
  | o0 (arg : BitVec 32)
  | o1 (f : OperatingCondition)
  | o2 (f : OperatingCondition) (ccsValid ccsBit : Bool)
  | o3
  /-- `CommandExchange`, C0 to C9 (R160); `c3` has the index of the frame byte it sends next. -/
  | c0 (c : RomCmd) (k : ExchangeCaller)
  | c1 (c : RomCmd) (k : ExchangeCaller)
  | c2 (c : RomCmd) (k : ExchangeCaller)
  | c3 (i : Fin 6) (c : RomCmd) (k : ExchangeCaller)
  | c4 (c : RomCmd) (k : ExchangeCaller)
  | c5 (c : RomCmd) (r1 : Byte) (k : ExchangeCaller)
  | c6 (k : ExchangeCaller)
  | c7 (k : ExchangeCaller)
  | c8 (k : ExchangeCaller)
  | c9 (k : ExchangeCaller)
  /-- `NegAttempt`, N0 to N2 (R162); `n1Captured` is N1 after the operating-condition request has returned. -/
  | n0 (k : AttemptCaller)
  | n1 (s55 : Byte) (k : AttemptCaller)
  | n1Captured (s55 r1 : Byte) (k : AttemptCaller)
  | n2 (s55 : Byte) (sent : Bool) (k : AttemptCaller)
  /-- GO_IDLE, G0 to G2 (R163). -/
  | g0
  | g1 (r1 : Byte)
  | g2
  /-- SEND_IF_COND, I0 to I2 (R164). -/
  | i0
  | i1
  | i2
  /-- APP_OP_COND, A0 to A2 (R165). -/
  | ap0
  | ap1 (s55 : Byte) (sent : Bool)
  | ap2
  /-- READ_OCR, R0 to R2 (R166). -/
  | r0
  | r1
  | r2
  /-- INIT, S0 to S6 (R181); `s2Return` to `s5Return` are the second line of S2 to S5, after the call. -/
  | s0
  | s1
  | s2
  | s2Return (ok : Bool)
  | s3
  | s3Return
  | s4
  | s4Return
  | s5
  | s5Return
  | s6
  /-- `PowerUp`, U0 to U5 (R182). -/
  | u0
  | u1
  | u2
  | u3
  | u4
  | u5
  /-- `GoIdleLoop`, L0 to L5 (R183). -/
  | l0
  | l1
  | l2
  | l3
  | l4 (r1 : Byte)
  | l5
  /-- `IfCheck`, K0 to K3 (R185). -/
  | k0
  | k1
  | k2
  | k3
  /-- `Negotiate`, M0 to M6 (R188). -/
  | m0
  | m1
  | m2
  | m3
  | m4
  | m5
  | m6
  /-- `OcrCheck`, O0 to O6 (R193). -/
  | oc0
  | oc1
  | oc2 (f : OperatingCondition)
  | oc3 (f : OperatingCondition)
  | oc4
  | oc5
  | oc6
  /-- `Fail`, F0 to F2 (R195). -/
  | f0 (reason : InitOutcome)
  | f1
  | f2
  deriving DecidableEq, Repr

end Sys2Proof.Machine
end

