-- ==== Sys2Proof/Machine/State.lean ====
section
/-! DEFINITION. Machine/State.lean: the state of SDSPI-CORE as plain data (10_state.md R20 to R38), the reasons a step can
stop, and the state after reset (R43). -/

namespace Sys2Proof.Machine

/-- Everything the spec gives the machine (R21 to R38), then what the machine is connected to. `none` in an `Option` is the
spec's UNDEF (R19; log 2), in `seq` the spec's "no step". -/
structure State where
  /-- `eng` (R21). -/
  eng : Eng
  /-- `op`, 4 bits (R22). -/
  op : Option (BitVec 4)
  /-- `seq` (R23). -/
  seq : Option Pos
  /-- `init_state` (R24). -/
  initState : InitState
  /-- `cs`, chip select as last driven (R25). -/
  cs : Bool
  /-- `poll_cnt` (R26). -/
  pollCnt : BitVec 4
  /-- `idle_cnt` (R27). -/
  idleCnt : BitVec 4
  /-- `neg_cnt` (R28). -/
  negCnt : BitVec 7
  /-- `fill_cnt` (R29). -/
  fillCnt : BitVec 4
  /-- `frame[0..5]` (R30): all six bytes are UNDEF, or all six hold a value, as every writer writes all six. -/
  frame : Option Frame
  /-- `resp[0..4]` (R31). -/
  resp : Resp
  /-- `rtag` (R31): `false` is 0, the R1 form; `true` is 1, the 5-byte form. -/
  rtag : Bool
  /-- `captured` (R32). -/
  captured : Option Byte
  /-- `outcome` (R34). -/
  outcome : InitOutcome
  /-- `ccs` (R35). -/
  ccs : Option Bool
  /-- `vwin` (R36). -/
  vwin : Option (BitVec 9)
  /-- `op_status` (R37). -/
  opStatus : OpStatus
  /-- `result` (R38). -/
  result : ResultReg
  /-- `rvalid` (R38). -/
  rvalid : BitVec 8
  /-- The host's moves still to come, oldest first (log 7). -/
  moves : List Move
  /-- The transport's scripted answers, the next one first (R51; log 5). -/
  replies : List Reply
  /-- How many free answers of the transport were drawn (log 5). -/
  draws : Nat
  /-- The trace of R18, NEWEST event first (log 10). -/
  events : List Event
  deriving DecidableEq, Repr

/-- The trace in the order the events occurred (R18, R59). -/
def State.trace (s : State) : List Event := s.events.reverse

/-- Why a step stops with a fault. -/
inductive Fault where
  /-- A consumer used a value the spec marks UNDEF (R19, R240). Raised by the host's moves `read` and `decodeResp`, and by a
  sequencer step that would read an UNDEF register, which no step of a run does (R240). Safe. -/
  | undefConsumed
  deriving DecidableEq, Repr

/-- Why a step has no meaning. -/
inductive Refusal where
  /-- An instruction the model gives no meaning yet; raised by `exec` only. Safe. -/
  | notModelled (mnemonic : String)
  /-- A request, or a ROM frame from outside, while an operation is in flight: "A request presented while BUSY is not accepted
  and is not queued; a model gives the host no such move" (R245, U7). Raised by every operation in mode BUSY. Safe. -/
  | operationInFlight
  /-- A read of a host register numbered 11 or more: "register numbers 11 and up do not exist and a model gives a read of one
  no meaning" (R58). Raised by the host's move `read`. Safe. -/
  | noSuchRegister
  /-- A frame that is none of the five of the command ROM: "The engine sends only the five frames of its command ROM" (R79).
  Raised by the move `romFrame`. Safe. -/
  | notRomFrame
  deriving DecidableEq, Repr

/-- The state right after reset (R43, R230), with nothing connected yet: no move of the host to come, no scripted answer,
no event (log 5, 7, 10). -/
def State.reset : State where
  eng := .avail
  op := none
  seq := none
  initState := .poweringUp
  cs := false
  pollCnt := 0#4
  idleCnt := 0#4
  negCnt := 0#7
  fillCnt := 0#4
  frame := none
  resp := Resp.undef
  rtag := false
  captured := none
  outcome := .none
  ccs := none
  vwin := none
  opStatus := .none
  result := ResultReg.undef
  rvalid := 0x00#8
  moves := []
  replies := []
  draws := 0
  events := []

end Sys2Proof.Machine
end

