-- ==== Sys2Proof/Machine/Operands.lean ====
section
/-! DEFINITION. Machine/Operands.lean: operand assembly (30_encoding.md R85) and the layouts of `result` and `rvalid`
(R86). -/

namespace Sys2Proof.Machine

/-- R85: ARG as response bytes 1 to 4, byte 1 most significant. -/
def argPayload (arg : BitVec 32) : Payload where
  b1 := arg.extractLsb' 24 8
  b2 := arg.extractLsb' 16 8
  b3 := arg.extractLsb' 8 8
  b4 := arg.extractLsb' 0 8

/-- R85, R88: four response bytes as the ARG field `{b1, b2, b3, b4}`. -/
def Payload.toArg (p : Payload) : BitVec 32 := p.b1 ++ p.b2 ++ p.b3 ++ p.b4

/-- Byte `k` of a 64-bit word, bits `8k+7:8k` (R38). -/
def wordByte (w : BitVec 64) (k : Nat) : Byte := w.extractLsb' (8 * k) 8

/-- A `result` whose eight bytes all hold the bytes of a word: every operation's result but PACK5's (R86). -/
def ResultReg.ofWord (w : BitVec 64) : ResultReg where
  b0 := some (wordByte w 0)
  b1 := some (wordByte w 1)
  b2 := some (wordByte w 2)
  b3 := some (wordByte w 3)
  b4 := some (wordByte w 4)
  b5 := some (wordByte w 5)
  b6 := some (wordByte w 6)
  b7 := some (wordByte w 7)

/-- PACK5 (R86): response byte 0 in result byte 4, byte 4 in result byte 0; an UNDEF byte stays UNDEF. -/
def ResultReg.pack5 (r : Resp) : ResultReg where
  b0 := r.b4
  b1 := r.b3
  b2 := r.b2
  b3 := r.b1
  b4 := r.b0
  b5 := some 0#8
  b6 := some 0#8
  b7 := some 0#8

/-- The bits of `result` as one word; a bit of an UNDEF byte has no value, and its place is filled with 0 here: every
reader goes by `rvalid` or `definedMask` (R38, R240). -/
def ResultReg.bits (r : ResultReg) : BitVec 64 :=
  r.b7.getD 0#8 ++ r.b6.getD 0#8 ++ r.b5.getD 0#8 ++ r.b4.getD 0#8 ++
  r.b3.getD 0#8 ++ r.b2.getD 0#8 ++ r.b1.getD 0#8 ++ r.b0.getD 0#8

/-- The result word of DECODE_R7 (R86, R143): `{echo, 0, vacc code, version}`. -/
def InterfaceCondition.toResult (f : InterfaceCondition) : BitVec 64 :=
  (f.echo ++ 0#1 ++ f.vacc.code ++ f.version).setWidth 64

/-- The result word of DECODE_R3 (R86, R145): `{window, 00000, ccs_bit, ccs_valid, power_up_complete}`. -/
def decodeR3Result (f : OperatingCondition) (ccsValid ccsBit : Bool) : BitVec 64 :=
  (f.window ++ 0#5 ++ BitVec.ofBool ccsBit ++ BitVec.ofBool ccsValid ++ BitVec.ofBool f.powerUpComplete).setWidth 64

/-- `ccs_bit` of DECODE_R3 (R145, O1): 0 when capacity support is not valid. -/
def OperatingCondition.ccsBit (f : OperatingCondition) : Bool :=
  if f.powerUpComplete then f.capacitySupport.getD false else false

/-- The result word of APP_OP_COND (R86, R165): `{sent, s55, captured}`. -/
def attemptResult (sent : Bool) (s55 captured : Byte) : BitVec 64 :=
  (BitVec.ofBool sent ++ s55 ++ captured).setWidth 64

/-- The result word of INIT (R86), from the registers: `neg_cnt` at 38:32, `idle_cnt` at 27:24, CCS_VALID, `ccs`,
VWIN_VALID at 19:17, `vwin` at 16:8, `outcome` at 3:0; a field whose valid bit is 0 is 0. -/
def State.initResult (s : State) : BitVec 64 :=
  0#25 ++ s.negCnt ++ 0#4 ++ s.idleCnt ++ 0#4 ++ BitVec.ofBool s.ccs.isSome ++ BitVec.ofBool (s.ccs.getD false) ++
  BitVec.ofBool s.vwin.isSome ++ s.vwin.getD 0#9 ++ 0#4 ++ s.outcome.code

end Sys2Proof.Machine
end

