-- ==== Sys2Proof/Machine/Ops.lean ====
section
/-! DEFINITION. Machine/Ops.lean: the pseudocode primitives of 00_scope.md R18 (`Xchg`, `SetCS`, `Wait`), taking a transport
fault (60_exceptions.md R212), accepting and completing a request (30_encoding.md R83), and the shared register writes. -/

namespace Sys2Proof.Machine

/-- What a step or an instruction answers. -/
abbrev Result := Host.Outcome State Fault Refusal

/-! ## Procedures -/

/-- What a procedure of the engine answers: its result with the state it leaves, or the state a transport fault left it in
(R212: "the procedure stops and makes no further event"). -/
inductive Run (α : Type) where
  | ok (a : α) (s : State)
  | abort (s : State)
  deriving DecidableEq, Repr

/-- One procedure after another: a transport fault in the first ends both (R212). -/
def Run.andThen {α β : Type} (r : Run α) (f : α → State → Run β) : Run β :=
  match r with
  | .ok a s => f a s
  | .abort s => .abort s

/-- The state a procedure ends in, completed or aborted. -/
def Run.state {α : Type} : Run α → State
  | .ok _ s => s
  | .abort s => s

/-! ## Events -/

/-- Append an event to the trace (R18). -/
def State.emit (e : Event) (s : State) : State := { s with events := e :: s.events }

/-- TransportFault entry (R212): no event, no register of the exchange written, `op_status` and `eng` FAULTED, no step left.
Every earlier write stands, `cs` and `outcome` among them. -/
def State.takeTransportFault (s : State) : State :=
  { s with eng := .faulted, opStatus := .faulted, seq := none }

/-- The transport's next answer and the state without it (R51; log 5): the next scripted answer, and when none is left a
free value. -/
def State.drawReply (s : State) : Reply × State :=
  match s.replies with
  | r :: rest => (r, { s with replies := rest })
  | [] => (Config.freeReply s.draws, { s with draws := s.draws + 1 })

/-- `in <- Xchg(out)` (R18): the event `X(out, in)` and the in-byte, or the abort of R212. -/
def xchg (out : Byte) (s : State) : Run Byte :=
  match s.drawReply.1 with
  | .byte b => .ok b (s.drawReply.2.emit (.x out b))
  | .fault => .abort s.drawReply.2.takeTransportFault

/-- `SetCS(b)` (R18): the event `CS(b)` and `cs <- b`; "assumed infallible". -/
def State.setCs (b : Bool) (s : State) : State := { s with cs := b, events := .cs b :: s.events }

/-- `Wait(k)` (R18): the event `W(k)`; time is not state (R250). -/
def State.delay (k : Delay) (s : State) : State := s.emit (.w k)

/-- Send bytes in order and discard the in-bytes (R160 C3, D12). -/
def sendBytes : List Byte → State → Run Unit
  | [], s => .ok () s
  | b :: rest, s => (xchg b s).andThen fun _ s => sendBytes rest s

/-! ## Register writes -/

/-- `resp[0] <- r1; resp[1..4] <- UNDEF; rtag <- 0`: the R1 form (R31, R123 Q1, R160 C5). -/
def State.storeR1Form (r1 : Byte) (s : State) : State :=
  { s with resp := ⟨some r1, none, none, none, none⟩, rtag := false }

/-- `result <- w; rvalid <- 0xFF` (R86). -/
def State.writeResult (w : BitVec 64) (s : State) : State :=
  { s with result := ResultReg.ofWord w, rvalid := 0xFF#8 }

/-- `result, rvalid <- PACK5(resp[0..4])` (R86). -/
def State.writePack5 (s : State) : State :=
  { s with result := ResultReg.pack5 s.resp, rvalid := (ResultReg.pack5 s.resp).definedMask }

/-! ## Requests -/

/-- Acceptance of a legal request (R83): `op <- OP`, `eng <- BUSY`. -/
def State.accept (opc : BitVec 4) (s : State) : State := { s with op := some opc, eng := .busy }

/-- The normal end of an operation (R83): `op_status <- OK`, `eng <- AVAIL`; `seq` holds no step (R23). -/
def State.complete (s : State) : State := { s with opStatus := .ok, eng := .avail, seq := none }

/-- A request whose word matches no row (R83, R214): `op_status <- ILLEGAL` and nothing else. -/
def State.refuseIllegal (s : State) : State := { s with opStatus := .illegal }

/-- A request in mode FAULTED (R213): `op_status <- FAULTED` and nothing else. -/
def State.refuseFaulted (s : State) : State := { s with opStatus := .faulted }

/-- The state an operation's procedure leaves: completed normally, or as the transport fault left it. -/
def Run.finish : Run Unit → State
  | .ok _ s => s.complete
  | .abort s => s

/-- A host operation from acceptance to its end (R83, R213, R245): in AVAIL it runs whole, in FAULTED it is turned away, in
BUSY the host has no such move. -/
def runRequest (opc : BitVec 4) (body : State → Run Unit) (s : State) : Result :=
  match s.eng with
  | .avail => .next (body (s.accept opc)).finish
  | .busy => .refused .operationInFlight
  | .faulted => .next s.refuseFaulted

/-- One procedure of the engine run alone, for the FRAME48 rows (log 3): "While `eng = FAULTED` the engine makes no event"
(R213), and no second exchange runs inside an operation in flight (R7, R62). -/
def runAlone (body : State → Run Unit) (s : State) : Result :=
  match s.eng with
  | .avail => .next (body s).state
  | .busy => .refused .operationInFlight
  | .faulted => .next s

/-! ## Reset (R230)

There is no return from a fault: "Only reset leaves FAULTED" (R213). -/

/-- `rst`, at any time and in any mode: every register at its reset value, no event. What is outside the engine stays: the
card (R231), the host's further moves, and the trace, which is a record and not a register (log 9). -/
def State.rst (s : State) : State :=
  { State.reset with moves := s.moves, replies := s.replies, draws := s.draws, events := s.events }

end Sys2Proof.Machine
end

