-- ==== Sys2Proof/Machine/Encoder.lean ====
section
/-! DEFINITION. Machine/Encoder.lean: the Command Encoder (40_command_encoder.md): the frame packer, the CRC7 of its design-time
constants, the command ROM, and ENCODE. -/

namespace Sys2Proof.Machine

/-- `Encode(index, argument, crc)` (R100, R101): the stop bit is forced, the argument goes out big-endian. -/
def encodeFrame (index : BitVec 6) (argument : BitVec 32) (crc : Byte) : Frame where
  b0 := 0x40#8 ||| index.setWidth 8
  b1 := argument.extractLsb' 24 8
  b2 := argument.extractLsb' 16 8
  b3 := argument.extractLsb' 8 8
  b4 := argument.extractLsb' 0 8
  b5 := crc ||| 0x01#8

/-! ## CRC7 (R104): evaluated by no hardware at run time; it fixes the ROM's constants (R106) -/

/-- One bit of the CRC (R104): `fb <- c[6] XOR bit`, shift left, XOR `0x09` when `fb`. -/
def crc7Bit (c : BitVec 7) (bit : Bool) : BitVec 7 :=
  if (c.getLsbD 6) ^^ bit then (c <<< 1) ^^^ 0x09#7 else c <<< 1

/-- One byte of the CRC, most significant bit first. -/
def crc7Byte (c : BitVec 7) (b : Byte) : BitVec 7 :=
  [7, 6, 5, 4, 3, 2, 1, 0].foldl (fun c i => crc7Bit c (b.getLsbD i)) c

/-- `CRC7(f[0..4])` (R104). -/
def crc7 (bytes : List Byte) : BitVec 7 := bytes.foldl crc7Byte 0#7

/-- `CRCByte(index, argument)` (R104). -/
def crcByte (index : BitVec 6) (argument : BitVec 32) : Byte :=
  let f := encodeFrame index argument 0#8
  crc7 [f.b0, f.b1, f.b2, f.b3, f.b4] ++ 1#1

/-! ## The command ROM (R105) -/

/-- Whether a command elicits R1, or R3 or R7 (R77). -/
inductive RespType where
  | r1
  | r3
  | r7
  deriving DecidableEq, Repr

/-- The command index of a ROM row. -/
def romIndex : RomCmd → BitVec 6
  | .goIdle => 0#6
  | .ifCond => 8#6
  | .appCmd => 55#6
  | .opCond => 41#6
  | .readOcr => 58#6

/-- The argument of a ROM row. -/
def romArg : RomCmd → BitVec 32
  | .goIdle => 0x00000000#32
  | .ifCond => Config.ifCondArg
  | .appCmd => 0x00000000#32
  | .opCond => Config.acmd41Arg
  | .readOcr => 0x00000000#32

/-- The CRC byte of a ROM row. -/
def romCrc : RomCmd → Byte
  | .goIdle => 0x95#8
  | .ifCond => 0x87#8
  | .appCmd => 0x65#8
  | .opCond => 0x77#8
  | .readOcr => 0xFD#8

/-- The response type of a ROM row (R77, R105). -/
def romRtype : RomCmd → RespType
  | .goIdle => .r1
  | .ifCond => .r7
  | .appCmd => .r1
  | .opCond => .r1
  | .readOcr => .r3

/-- Whether the row's response is the R1 byte alone. -/
def romShort (c : RomCmd) : Bool := romRtype c == .r1

/-- The frame of a ROM row: `Encode` of its index, argument and CRC byte (R105). -/
def romFrame (c : RomCmd) : Frame := encodeFrame (romIndex c) (romArg c) (romCrc c)

/-! ## ENCODE -/

/-- `frame[0..5] <- f`. -/
def State.storeFrame (f : Frame) (s : State) : State := { s with frame := some f }

/-- Steps E0 and E1 of ENCODE (R103). -/
def encodeProc (idx : BitVec 6) (arg : BitVec 32) (crc : Byte) (s : State) : Run Unit :=
  .ok () ((s.storeFrame (encodeFrame idx arg crc)).writeResult ((encodeFrame idx arg crc).toWord.setWidth 64))

/-- ENCODE (R103). -/
def execEncode (idx : BitVec 6) (arg : BitVec 32) (crc : Byte) (s : State) : Result :=
  runRequest 0x1#4 (encodeProc idx arg crc) s

end Sys2Proof.Machine
end

