-- ==== Sys2Proof/Machine/Reader.lean ====
section
/-! DEFINITION. Machine/Reader.lean: the Response Reader (41_response_reader.md): the bounded poll, the 5-byte assembler, and
READ_R1 and READ_R3R7. -/

namespace Sys2Proof.Machine

/-- `poll_cnt <- poll_cnt + 1` (R120 P2). -/
def State.countPoll (s : State) : State := { s with pollCnt := s.pollCnt + 1#4 }

/-- Steps P1 to P5 of `ReadR1` (R120) with `left` polls left, `left = R1_POLL_LIMIT - poll_cnt`: at 0 the bound is reached
with `b = 0xFF`, and that byte is returned (P4). -/
def pollLoop : Nat → State → Run Byte
  | 0, s => .ok Config.idleFill s
  | left + 1, s =>
    (xchg Config.idleFill s).andThen fun b s =>
      if b ≠ Config.idleFill then .ok b s.countPoll else pollLoop left s.countPoll

/-- `ReadR1()` (R120): at most `R1_POLL_LIMIT` polls; the byte that stopped the loop. -/
def readR1 (s : State) : Run Byte := pollLoop Config.r1PollLimit { s with pollCnt := 0#4 }

/-- `resp[0] <- r1; rtag <- 1` (R124 A0). -/
def State.openResp (r1 : Byte) (s : State) : State :=
  { s with resp := { s.resp with b0 := some r1 }, rtag := true }

/-- `resp[1..4] <- UNDEF` (R124 A1). -/
def State.undefPayload (s : State) : State :=
  { s with resp := { s.resp with b1 := none, b2 := none, b3 := none, b4 := none } }

/-- `resp[1] <- b`, and so on (R124 A2 to A5). -/
def State.storeResp1 (b : Byte) (s : State) : State := { s with resp := { s.resp with b1 := some b } }
def State.storeResp2 (b : Byte) (s : State) : State := { s with resp := { s.resp with b2 := some b } }
def State.storeResp3 (b : Byte) (s : State) : State := { s with resp := { s.resp with b3 := some b } }
def State.storeResp4 (b : Byte) (s : State) : State := { s with resp := { s.resp with b4 := some b } }

/-- Steps A2 to A5 of `ReadR3R7` (R124): four bytes taken as they come, each stored as it arrives. -/
def readPayload (s : State) : Run Unit :=
  (xchg Config.idleFill s).andThen fun b s =>
  (xchg Config.idleFill (s.storeResp1 b)).andThen fun b s =>
  (xchg Config.idleFill (s.storeResp2 b)).andThen fun b s =>
  (xchg Config.idleFill (s.storeResp3 b)).andThen fun b s =>
  .ok () (s.storeResp4 b)

/-- `ReadR3R7(r1)` (R124): a status of 2 or more short-circuits. -/
def readR3R7 (r1 : Byte) (s : State) : Run Unit :=
  if r1 > 0x01#8 then .ok () (s.openResp r1).undefPayload else readPayload (s.openResp r1)

/-- Steps Q0 to Q2 of READ_R1 (R123). -/
def readR1Proc (s : State) : Run Unit :=
  (readR1 s).andThen fun r1 s => .ok () ((s.storeR1Form r1).writeResult (r1.setWidth 64))

/-- READ_R1 (R123). It does not touch chip select (R242). -/
def execReadR1 (s : State) : Result := runRequest 0x2#4 readR1Proc s

/-- Steps T0 and T1 of READ_R3R7 (R125). -/
def readR3R7Proc (r1 : Byte) (s : State) : Run Unit :=
  (readR3R7 r1 s).andThen fun _ s => .ok () s.writePack5

/-- READ_R3R7 (R125). It does not touch chip select (R242). -/
def execReadR3R7 (r1 : Byte) (s : State) : Result := runRequest 0x3#4 (readR3R7Proc r1) s

end Sys2Proof.Machine
end

