-- ==== Sys2Proof/Machine/Command.lean ====
section
/-! DEFINITION. Machine/Command.lean: the bracketed command exchange, one negotiation attempt, the four command operations
(43_command_exchange.md), and the frames of the command ROM (40_command_encoder.md R105). -/

namespace Sys2Proof.Machine

/-- Step C5 of `CommandExchange` (R160): the response form goes by the row's response type. -/
def storeResponse (c : RomCmd) (r1 : Byte) (s : State) : Run Unit :=
  if romShort c then .ok () (s.storeR1Form r1) else readR3R7 r1 s

/-- Steps C2 to C5 of `CommandExchange` (R160), "perform the command": the frame, then the response. -/
def performCommand (c : RomCmd) (s : State) : Run Byte :=
  (sendBytes (romFrame c).bytes (s.storeFrame (romFrame c))).andThen fun _ s =>
  (readR1 s).andThen fun r1 s =>
  (storeResponse c r1 s).andThen fun _ s => .ok r1 s

/-- `CommandExchange(c)` (R160): the command inside the chip-select bracket, with an idle-fill byte after the assertion and
on both sides of the deassertion. It answers `resp[0]`; the whole response is in `resp`. -/
def commandExchange (c : RomCmd) (s : State) : Run Byte :=
  (xchg Config.idleFill (s.setCs true)).andThen fun _ s =>
  (performCommand c s).andThen fun r1 s =>
  (xchg Config.idleFill s).andThen fun _ s =>
  (xchg Config.idleFill (s.setCs false)).andThen fun _ s => .ok r1 s

/-- `captured <- b`. -/
def State.storeCaptured (b : Byte) (s : State) : State := { s with captured := some b }

/-- `NegAttempt()` (R162): the answer is `s55`, `captured` and `sent`; `captured` is also written to its register. -/
def negAttempt (s : State) : Run (Byte × Byte × Bool) :=
  (commandExchange .appCmd s).andThen fun s55 s =>
    if s55 < 0x02#8 then
      (commandExchange .opCond s).andThen fun r1 s => .ok (s55, r1, true) (s.storeCaptured r1)
    else .ok (s55, s55, false) (s.storeCaptured s55)

/-- Steps G0 and G1 of GO_IDLE (R163). -/
def goIdleProc (s : State) : Run Unit :=
  (commandExchange .goIdle s).andThen fun r1 s => .ok () (s.writeResult (r1.setWidth 64))

/-- GO_IDLE (R163). -/
def execGoIdle (s : State) : Result := runRequest 0x8#4 goIdleProc s

/-- A command whose result is its whole 5-byte response (R164 I0 and I1, R166 R0 and R1). -/
def fullResponseProc (c : RomCmd) (s : State) : Run Unit :=
  (commandExchange c s).andThen fun _ s => .ok () s.writePack5

/-- SEND_IF_COND (R164). -/
def execSendIfCond (s : State) : Result := runRequest 0x9#4 (fullResponseProc .ifCond) s

/-- Steps A0 and A1 of APP_OP_COND (R165). -/
def appOpCondProc (s : State) : Run Unit :=
  (negAttempt s).andThen fun r s => .ok () (s.writeResult (attemptResult r.2.2 r.1 r.2.1))

/-- APP_OP_COND (R165). -/
def execAppOpCond (s : State) : Result := runRequest 0xA#4 appOpCondProc s

/-- READ_OCR (R166). -/
def execReadOcr (s : State) : Result := runRequest 0xB#4 (fullResponseProc .readOcr) s

/-! ## The frames of the command ROM (R105; log 3)

Each is sent as the engine's own procedures send it: by `CommandExchange` of its row, and the operating-condition request only
inside `NegAttempt`, after its prefix (R78 (a), R162). -/

/-- `CommandExchange(c)` as a procedure whose answer is in `resp`. -/
def romProc (c : RomCmd) (s : State) : Run Unit := (commandExchange c s).andThen fun _ s => .ok () s

/-- CMD0, ROM row GO_IDLE. -/
def execCmd0 (s : State) : Result := runAlone (romProc .goIdle) s

/-- CMD8, ROM row IF_COND. -/
def execCmd8 (s : State) : Result := runAlone (romProc .ifCond) s

/-- CMD55, ROM row APP_CMD. -/
def execCmd55 (s : State) : Result := runAlone (romProc .appCmd) s

/-- `NegAttempt()` as a procedure whose answer is in `captured` and `resp`. -/
def attemptProc (s : State) : Run Unit := (negAttempt s).andThen fun _ s => .ok () s

/-- ACMD41, ROM row OP_COND: "The engine never sends the operating-condition request without the prefix immediately before it"
(R78), and only when the prefix's status is below 2, so the row runs one attempt. -/
def execAcmd41 (s : State) : Result := runAlone attemptProc s

/-- CMD58, ROM row READ_OCR. -/
def execCmd58 (s : State) : Result := runAlone (romProc .readOcr) s

end Sys2Proof.Machine
end

