-- ==== Sys2Proof/Machine/Flags.lean ====
section
/-! DEFINITION. Machine/Flags.lean: the status flags of an R1 byte (42_response_decoder.md R140; 30_encoding.md R72). The
engine has no flag register (R39): these are derived from a byte on demand. -/

namespace Sys2Proof.Machine

/-- `StatusFlags(b)` (R140): computed whatever bit 7 is. -/
def statusFlags (b : Byte) : StatusFlags where
  idle := b.getLsbD 0
  eraseReset := b.getLsbD 1
  illegalCommand := b.getLsbD 2
  crcError := b.getLsbD 3
  eraseSequenceError := b.getLsbD 4
  addressError := b.getLsbD 5
  parameterError := b.getLsbD 6
  sentinel := b.getLsbD 7

/-- The flags as DECODE_R1 concatenates them, the sentinel most significant (R141, R86). -/
def StatusFlags.toByte (f : StatusFlags) : Byte :=
  BitVec.ofBool f.sentinel ++ BitVec.ofBool f.parameterError ++ BitVec.ofBool f.addressError ++
  BitVec.ofBool f.eraseSequenceError ++ BitVec.ofBool f.crcError ++ BitVec.ofBool f.illegalCommand ++
  BitVec.ofBool f.eraseReset ++ BitVec.ofBool f.idle

/-- R72, R241: the byte is the "no response" value, to be kept apart from a status. -/
def isNoResponse (b : Byte) : Bool := b == Config.idleFill

end Sys2Proof.Machine
end

