-- ==== Sys2Proof/Machine/Decoder.lean ====
section
/-! DEFINITION. Machine/Decoder.lean: the Response Decoder (42_response_decoder.md): the R7 and R3 field decoders, and
DECODE_R1, DECODE_R7 and DECODE_R3. None makes a transport call. -/

namespace Sys2Proof.Machine

/-- The voltage-accepted label of the low 5 bits of R7 byte 3 (R75). -/
def voltageAccepted (v : BitVec 5) : VoltageAccepted :=
  if v = 0x01#5 then .v27to36
  else if v = 0x02#5 then .lowVoltage
  else if v = 0x04#5 then .reservedA
  else if v = 0x08#5 then .reservedB
  else .undefined

/-- `InterfaceCondition(b1, b2, b3, b4)` (R142). -/
def interfaceCondition (p : Payload) : InterfaceCondition where
  version := p.b1.extractLsb' 4 4
  vacc := voltageAccepted (p.b3.extractLsb' 0 5)
  echo := p.b4

/-- `OperatingCondition(b1, b2, b3, b4)` (R144): bit 6 of byte 1 is both power-up-complete and capacity-support, and the
window is `{b2, b3[7]}` (R76). -/
def operatingCondition (p : Payload) : OperatingCondition where
  powerUpComplete := p.b1.getLsbD 6
  capacitySupport := if p.b1.getLsbD 6 then some (p.b1.getLsbD 6) else none
  window := p.b2 ++ p.b3.extractLsb' 7 1

/-- DECODE_R1 (R141). -/
def execDecodeR1 (b : Byte) (s : State) : Result :=
  runRequest 0x4#4 (fun s => .ok () (s.writeResult ((statusFlags b).toByte.setWidth 64))) s

/-- DECODE_R7 (R143). -/
def execDecodeR7 (arg : BitVec 32) (s : State) : Result :=
  runRequest 0x5#4 (fun s => .ok () (s.writeResult (interfaceCondition (argPayload arg)).toResult)) s

/-- The result word of DECODE_R3 (R145 O1, O2). -/
def OperatingCondition.toResult (f : OperatingCondition) : BitVec 64 :=
  decodeR3Result f f.powerUpComplete f.ccsBit

/-- DECODE_R3 (R145). -/
def execDecodeR3 (arg : BitVec 32) (s : State) : Result :=
  runRequest 0x6#4 (fun s => .ok () (s.writeResult (operatingCondition (argPayload arg)).toResult)) s

end Sys2Proof.Machine
end

