-- ==== Sys2Proof/Machine/Init.lean ====
section
/-! DEFINITION. Machine/Init.lean: the initialization state machine (44_init_fsm.md), operation INIT. A step that may `Fail`
answers the reason, or `none` when it succeeds. -/

namespace Sys2Proof.Machine

/-- Step S0 (R181): the latched results and the three counters are cleared (D22). -/
def State.startInit (s : State) : State :=
  { s with outcome := .none, ccs := none, vwin := none, captured := none, idleCnt := 0#4, negCnt := 0#7, fillCnt := 0#4,
           initState := .poweringUp }

/-- `init_state <- st` (R181, R24). -/
def State.enter (st : InitState) (s : State) : State := { s with initState := st }

/-! ## PoweringUp to Idle -/

def State.countFill (s : State) : State := { s with fillCnt := s.fillCnt + 1#4 }

/-- Steps U3 to U5 of `PowerUp` (R182) with `left = FILL_COUNT - fill_cnt` fill bytes left. -/
def fillLoop : Nat → State → Run Unit
  | 0, s => .ok () s
  | left + 1, s => (xchg Config.idleFill s).andThen fun _ s => fillLoop left s.countFill

/-- `PowerUp()` (R182). -/
def powerUp (s : State) : Run Unit :=
  fillLoop Config.fillCount { (s.setCs false).delay .settle with fillCnt := 0#4 }

def State.countIdle (s : State) : State := { s with idleCnt := s.idleCnt + 1#4 }

/-- Steps L1 to L5 of `GoIdleLoop` (R183) with `left = IDLE_LIMIT - idle_cnt` attempts left: at 0 the loop answers FAIL, and
only the status `0x01` answers OK. -/
def idleLoop : Nat → State → Run Bool
  | 0, s => .ok false s
  | left + 1, s =>
    (commandExchange .goIdle s.countIdle).andThen fun r1 s => if r1 = 0x01#8 then .ok true s else idleLoop left s

/-- `GoIdleLoop()` (R183). -/
def goIdleLoop (s : State) : Run Bool := idleLoop Config.idleLimit { s with idleCnt := 0#4 }

/-! ## Idle to InterfaceCheck -/

/-- Steps K1 to K3 of `IfCheck` (R185, R186): the status first, then the echo. With the status `0x01` the echo byte holds a
value; a byte without a value does not equal the pattern (log 12). -/
def ifVerdict (status : Byte) (echo : Option Byte) : Option InitOutcome :=
  if status ≠ 0x01#8 then some .ifCondRejected
  else if echo ≠ some (Config.ifCondArg.extractLsb' 0 8) then some .echoMismatch
  else none

/-- `IfCheck()` (R185). -/
def ifCheck (s : State) : Run (Option InitOutcome) :=
  (commandExchange .ifCond s).andThen fun r1 s => .ok (ifVerdict r1 s.resp.b4) s

/-! ## InterfaceCheck to Negotiating -/

/-- Steps M2 and M3 of `Negotiate` (R188, R190): the retry wait before every attempt but the first, and the count. -/
def State.beginAttempt (s : State) : State :=
  if s.negCnt = 0#7 then { s with negCnt := s.negCnt + 1#7 }
  else { s.delay .retry with negCnt := s.negCnt + 1#7 }

/-- Steps M1 to M6 of `Negotiate` (R188) with `left = NEG_LIMIT - neg_cnt` attempts left. -/
def negLoop : Nat → State → Run (Option InitOutcome)
  | 0, s => .ok (some .opCondTimeout) s
  | left + 1, s =>
    (negAttempt s.beginAttempt).andThen fun r s => if r.2.1 = 0x00#8 then .ok none s else negLoop left s

/-- `Negotiate()` (R188). -/
def negotiate (s : State) : Run (Option InitOutcome) := negLoop Config.negLimit { s with negCnt := 0#7 }

/-! ## ReadOcr to Ready, and failure -/

/-- `result <- INIT layout; rvalid <- 0xFF` (R193 O5, R195 F1). -/
def State.writeInitResult (s : State) : State := s.writeResult s.initResult

/-- `Fail(reason)` (R195). -/
def State.failInit (reason : InitOutcome) (s : State) : State :=
  { s with outcome := reason, initState := .failed }.writeInitResult

/-- Steps O3 to O5 of `OcrCheck` (R193, R194): latch the fields, SUCCESS, Ready. -/
def State.latchReady (f : OperatingCondition) (s : State) : State :=
  { s with ccs := f.capacitySupport, vwin := some f.window, outcome := .success, initState := .ready }.writeInitResult

/-- `OcrCheck()` (R193). With a status of at most `0x01` the payload holds values; a payload without values does not show the
power-up bit set (log 12). -/
def ocrCheck (status : Byte) (s : State) : State :=
  if status > 0x01#8 then s.failInit .powerUpIncomplete
  else match s.resp.payload with
    | none => s.failInit .powerUpIncomplete
    | some p =>
      if (operatingCondition p).powerUpComplete then s.latchReady (operatingCondition p)
      else s.failInit .powerUpIncomplete

/-! ## INIT -/

/-- Steps S5 and S6 of INIT (R181, R192). -/
def initReadOcr (s : State) : Run Unit :=
  (commandExchange .readOcr s).andThen fun r1 s => .ok () (ocrCheck r1 (s.enter .readOcr))

/-- Steps S4 to S6 of INIT. -/
def initNegotiate (s : State) : Run Unit :=
  (negotiate s).andThen fun failure s =>
    match failure with
    | some reason => .ok () (s.failInit reason)
    | none => initReadOcr (s.enter .negotiating)

/-- Steps S3 to S6 of INIT. -/
def initCheck (s : State) : Run Unit :=
  (ifCheck s).andThen fun failure s =>
    match failure with
    | some reason => .ok () (s.failInit reason)
    | none => initNegotiate (s.enter .interfaceCheck)

/-- Steps S0 to S6 of INIT (R181). -/
def initProc (s : State) : Run Unit :=
  (powerUp s.startInit).andThen fun _ s =>
  (goIdleLoop s).andThen fun ok s =>
    if ok then initCheck (s.enter .idle) else .ok () (s.failInit .idleTimeout)

/-- INIT (R181): it ends with `op_status = OK` whether the outcome is SUCCESS or a failure. -/
def execInit (s : State) : Result := runRequest 0xC#4 initProc s

end Sys2Proof.Machine
end

