-- ==== Sys2Proof/Machine/Dispatch.lean ====
section
/-! DEFINITION. Machine/Dispatch.lean: the meaning of every instruction, one arm a constructor. -/

namespace Sys2Proof.Machine

def exec (i : Instr) (s : State) : Host.Outcome State Fault Refusal :=
  match i with
  | .encode idx arg crc => Sys2Proof.Machine.execEncode idx arg crc s
  | .readR1 => Sys2Proof.Machine.execReadR1 s
  | .readR3R7 r1 => Sys2Proof.Machine.execReadR3R7 r1 s
  | .decodeR1 b => Sys2Proof.Machine.execDecodeR1 b s
  | .decodeR7 arg => Sys2Proof.Machine.execDecodeR7 arg s
  | .decodeR3 arg => Sys2Proof.Machine.execDecodeR3 arg s
  | .goIdle => Sys2Proof.Machine.execGoIdle s
  | .sendIfCond => Sys2Proof.Machine.execSendIfCond s
  | .appOpCond => Sys2Proof.Machine.execAppOpCond s
  | .readOcr => Sys2Proof.Machine.execReadOcr s
  | .init => Sys2Proof.Machine.execInit s
  | .cmd0 => Sys2Proof.Machine.execCmd0 s
  | .cmd8 => Sys2Proof.Machine.execCmd8 s
  | .cmd55 => Sys2Proof.Machine.execCmd55 s
  | .acmd41 => Sys2Proof.Machine.execAcmd41 s
  | .cmd58 => Sys2Proof.Machine.execCmd58 s

end Sys2Proof.Machine
end

