-- ==== Sys2Proof/Machine/HostView.lean ====
section
/-! DEFINITION. Machine/HostView.lean: the eleven host registers (10_state.md R40, R41), the use of their bits by a consumer
(70_reset_and_hazards.md R240), and what can be read off a trace. -/

namespace Sys2Proof.Machine

/-- A host register as read: `known` has a 1 at every bit of the register that holds a value. A bit of `value` that is not
known carries nothing (UNDEF, or beyond the register's width). -/
structure RegView where
  value : BitVec 64
  known : BitVec 64
  deriving DecidableEq, Repr

/-- A register of `n` bits that all hold a value. -/
def RegView.ofBits (n : Nat) (v : BitVec n) : RegView := ⟨v.setWidth 64, (BitVec.allOnes n).setWidth 64⟩

/-- A register none of whose bits holds a value. -/
def RegView.undef : RegView := ⟨0#64, 0#64⟩

/-- STATUS: INIT_STATE at 6:4, OPST at 3:2, ENG at 1:0 (R40). -/
def statusReg (s : State) : BitVec 8 := 0#1 ++ s.initState.code ++ s.opStatus.code ++ s.eng.code

/-- OUTCOME (R40). -/
def outcomeReg (s : State) : BitVec 8 := 0#4 ++ s.outcome.code

/-- OCRINFO: CCS_VALID, CCS, VWIN_VALID at 11:9, VWIN at 8:0 (R40); VWIN and CCS are UNDEF while their valid bit is 0 (U4). -/
def ocrinfoReg (s : State) : RegView where
  value := (0#4 ++ BitVec.ofBool s.ccs.isSome ++ BitVec.ofBool (s.ccs.getD false) ++ BitVec.ofBool s.vwin.isSome ++
    s.vwin.getD 0#9).setWidth 64
  known := (0xF#4 ++ 1#1 ++ BitVec.ofBool s.ccs.isSome ++ 1#1 ++
    (if s.vwin.isSome then BitVec.allOnes 9 else 0#9)).setWidth 64

/-- RESPV: RTAG at 5, RV at 4:0 (R40). -/
def respvReg (s : State) : BitVec 8 :=
  0#2 ++ BitVec.ofBool s.rtag ++ BitVec.ofBool s.resp.b4.isSome ++ BitVec.ofBool s.resp.b3.isSome ++
  BitVec.ofBool s.resp.b2.isSome ++ BitVec.ofBool s.resp.b1.isSome ++ BitVec.ofBool s.resp.b0.isSome

/-- RESP0 to RESP4 (R40). -/
def respReg (b : Option Byte) : RegView :=
  match b with
  | some v => RegView.ofBits 8 v
  | none => RegView.undef

/-- The bits of RESULT that hold a value: the bytes whose `rvalid` bit is 1 (R38). -/
def byteMask (v : BitVec 8) : BitVec 64 :=
  (BitVec.ofBool (v.getLsbD 7)).signExtend 8 ++ (BitVec.ofBool (v.getLsbD 6)).signExtend 8 ++
  (BitVec.ofBool (v.getLsbD 5)).signExtend 8 ++ (BitVec.ofBool (v.getLsbD 4)).signExtend 8 ++
  (BitVec.ofBool (v.getLsbD 3)).signExtend 8 ++ (BitVec.ofBool (v.getLsbD 2)).signExtend 8 ++
  (BitVec.ofBool (v.getLsbD 1)).signExtend 8 ++ (BitVec.ofBool (v.getLsbD 0)).signExtend 8

/-- RESULT (R40): what holds a value goes by `rvalid`, byte by byte (R38).
DESIGN CHOICE (log 20): R86 says that a field of `result` whose valid bit is 0 "is written 0 and carries no value", while its byte
has `rvalid` 1. The model shows the 0 that was written as a known value, so a host that uses it is not at fault. -/
def resultReg (s : State) : RegView := ⟨s.result.bits, byteMask s.rvalid⟩

/-- The host register of a number (R40), when `eng` is not BUSY; numbers 11 and up do not exist (R58). -/
def hostReg (n : Nat) (s : State) : Option RegView :=
  match n with
  | 0 => some (RegView.ofBits 8 (statusReg s))
  | 1 => some (RegView.ofBits 8 (outcomeReg s))
  | 2 => some (ocrinfoReg s)
  | 3 => some (RegView.ofBits 8 (respvReg s))
  | 4 => some (respReg s.resp.b0)
  | 5 => some (respReg s.resp.b1)
  | 6 => some (respReg s.resp.b2)
  | 7 => some (respReg s.resp.b3)
  | 8 => some (respReg s.resp.b4)
  | 9 => some (resultReg s)
  | 10 => some (RegView.ofBits 8 s.rvalid)
  | _ => none

/-- A register as read without the bits `m`: nothing is known of them. -/
def RegView.without (v : RegView) (m : BitVec 64) : RegView := ⟨v.value &&& ~~~m, v.known &&& ~~~m⟩

/-- The bits of STATUS on which the host may not rely while BUSY: INIT_STATE while INIT, the only operation that writes
`init_state` (R167), is in flight (R60, R180). -/
def statusInFlux (s : State) : BitVec 64 := if s.op = some 0xC#4 then 0x70#64 else 0#64

/-- The host register of a number while `eng = BUSY`: STATUS but for what the operation in flight may be writing, and
"A read of any other register while `eng = BUSY` returns `UNDEF`" (R41). -/
def busyReg (n : Nat) (s : State) : Option RegView :=
  match n with
  | 0 => some ((RegView.ofBits 8 (statusReg s)).without (statusInFlux s))
  | n + 1 => (hostReg (n + 1) s).map fun _ => RegView.undef

/-- A read of the host view (R41, R60): an operation's writes can be relied on "only once `eng` has left BUSY".
DESIGN CHOICE (log 19): the spec's files disagree on INIT_STATE while INIT is in flight. R40 and R41 put it in STATUS, which is
meaningful at any time; R60, D33, R180 and D16 say that the host can neither rely on it nor observe it then. The model follows
the latter: these three bits hold no value in that time. -/
def hostRead (n : Nat) (s : State) : Option RegView :=
  if s.eng = .busy then busyReg n s else hostReg n s

/-- A consumer's use of the bits `use` of a register read: a fault of the consumer when one of them holds no value (R19,
R240). -/
def RegView.consume (v : RegView) (use : BitVec 64) : Except Fault (BitVec 64) :=
  if use &&& v.known = use then .ok (v.value &&& use) else .error .undefConsumed

/-! ## Reading a trace (R18, R161, R198, R251) -/

def Event.isX : Event → Bool
  | .x _ _ => true
  | .cs _ => false
  | .w _ => false

def Event.isCs : Event → Bool
  | .x _ _ => false
  | .cs _ => true
  | .w _ => false

/-- The number of exchanges, of chip-select events, and of waits of one kind in a list of events. -/
def countX (l : List Event) : Nat := l.countP Event.isX
def countCs (l : List Event) : Nat := l.countP Event.isCs
def countW (k : Delay) (l : List Event) : Nat := l.countP (· == Event.w k)

/-- The out-bytes of the exchanges, in the order of the list. -/
def outBytes : List Event → List Byte
  | [] => []
  | .x out _ :: rest => out :: outBytes rest
  | .cs _ :: rest => outBytes rest
  | .w _ :: rest => outBytes rest

/-- The in-bytes of the exchanges, in the order of the list. -/
def inBytes : List Event → List Byte
  | [] => []
  | .x _ inb :: rest => inb :: inBytes rest
  | .cs _ :: rest => inBytes rest
  | .w _ :: rest => inBytes rest

/-- What comes before exchange number `k` of a list of events, the first being number 0. -/
def beforeExchange : Nat → List Event → List Event
  | _, [] => []
  | 0, .x _ _ :: _ => []
  | k + 1, .x out inb :: rest => .x out inb :: beforeExchange k rest
  | k, .cs b :: rest => .cs b :: beforeExchange k rest
  | k, .w d :: rest => .w d :: beforeExchange k rest

/-- Chip select after a list of events, from what it was before them (R25: "as last driven"). -/
def csAfter (before : Bool) : List Event → Bool
  | [] => before
  | .x _ _ :: rest => csAfter before rest
  | .cs b :: rest => csAfter b rest
  | .w _ :: rest => csAfter before rest

/-- What an event lasts at least, in milliseconds: only the waits have a bound (R15, R250). -/
def Event.leastMs : Event → Nat
  | .x _ _ => 0
  | .cs _ => 0
  | .w .settle => Config.tSettleMs
  | .w .retry => Config.tRetryMs

/-- What a list of events lasts at least (R251). -/
def leastMs (l : List Event) : Nat := (l.map Event.leastMs).sum

end Sys2Proof.Machine
end

