-- ==== Sys2Proof/Machine/Sequencer.lean ====
section
/-! DEFINITION. Machine/Sequencer.lean: the engine one step at a time (10_state.md R23): the step labels of the procedures of
40 to 44, run in the order their pseudocode gives, with `eng = BUSY` in between (R41, R60). `exec` runs the same procedures
whole; that the two agree is stated in the obligations (log 1). A label that makes several register writes makes them in one
step (log 11). -/

namespace Sys2Proof.Machine

/-- `seq <- L` (R18). -/
def State.goto (p : Pos) (s : State) : State := { s with seq := some p }

/-- The next state, with the sequencer at a label. -/
def proceed (p : Pos) (s : State) : Result := .next (s.goto p)

/-- A value read from a register that may be UNDEF: a read of an UNDEF value is a fault, never a value (R19, R240). -/
def useDefined {α : Type} (v : Option α) (f : α → Result) : Result :=
  match v with
  | some a => f a
  | none => .fault .undefConsumed

/-- One `Xchg` as a step of the sequencer, or the entry of a transport fault (R212). -/
def xchgStep (out : Byte) (s : State) (f : Byte → State → Result) : Result :=
  match xchg out s with
  | .ok b s => f b s
  | .abort s => .next s

/-! ## Where a procedure returns to -/

/-- `return b` of `ReadR1`: Q0 goes on to Q1 (R123), C4 to C5 (R160). -/
def PollCaller.resume (b : Byte) : PollCaller → Pos
  | .q0 => .q1 b
  | .c4 c k => .c5 c b k

/-- `return` of `ReadR3R7`: T0 goes on to T1 (R125), C5 to C6 (R160). -/
def PayloadCaller.resume : PayloadCaller → Pos
  | .t0 => .t1
  | .c5 k => .c6 k

/-- `return resp` of `CommandExchange`, whose callers take `resp[0]`. -/
def ExchangeCaller.resume (r1 : Byte) : ExchangeCaller → Pos
  | .g0 => .g1 r1
  | .i0 => .i1
  | .r0 => .r1
  | .n0 k => .n1 r1 k
  | .n1 s55 k => .n1Captured s55 r1 k
  | .l3 => .l4 r1
  | .k0 => .k1
  | .s5 => .s5Return

/-- `return (captured, s55, sent)` of `NegAttempt`. -/
def AttemptCaller.resume (s55 : Byte) (sent : Bool) : AttemptCaller → Pos
  | .a0 => .ap1 s55 sent
  | .m4 => .m5

/-! ## The steps, procedure by procedure -/

/-- ENCODE (R103), DECODE_R1 (R141), DECODE_R7 (R143) and DECODE_R3 (R145) at their labels. -/
def stepPure (p : Pos) (s : State) : Result :=
  match p with
  | .e0 idx arg crc => proceed .e1 (s.storeFrame (encodeFrame idx arg crc))
  | .e1 => useDefined s.frame fun f => proceed .e2 (s.writeResult (f.toWord.setWidth 64))
  | .d0 b => proceed (.d1 (statusFlags b)) s
  | .d1 f => proceed .d2 (s.writeResult (f.toByte.setWidth 64))
  | .v0 arg => proceed (.v1 (interfaceCondition (argPayload arg))) s
  | .v1 f => proceed .v2 (s.writeResult f.toResult)
  | .o0 arg => proceed (.o1 (operatingCondition (argPayload arg))) s
  | .o1 f => proceed (.o2 f f.powerUpComplete f.ccsBit) s
  | .o2 f ccsValid ccsBit => proceed .o3 (s.writeResult (decodeR3Result f ccsValid ccsBit))
  | _ => .next s.complete

/-- READ_R1 (R123) and READ_R3R7 (R125) at their labels. -/
def stepReadOps (p : Pos) (s : State) : Result :=
  match p with
  | .q0 => proceed (.p0 .q0) s
  | .q1 r1 => proceed (.q2 r1) (s.storeR1Form r1)
  | .q2 r1 => proceed .q3 (s.writeResult (r1.setWidth 64))
  | .t0 r1 => proceed (.pa0 r1 .t0) s
  | .t1 => proceed .t2 s.writePack5
  | _ => .next s.complete

/-- `ReadR1` (R120). -/
def stepPoll (p : Pos) (s : State) : Result :=
  match p with
  | .p0 k => proceed (.p1 k) { s with pollCnt := 0#4 }
  | .p1 k => xchgStep Config.idleFill s fun b s => proceed (.p2 b k) s
  | .p2 b k => proceed (.p3 b k) s.countPoll
  | .p3 b k => if b ≠ Config.idleFill then proceed (k.resume b) s else proceed (.p4 b k) s
  | .p4 b k => if s.pollCnt.toNat = Config.r1PollLimit then proceed (k.resume b) s else proceed (.p5 k) s
  | .p5 k => proceed (.p1 k) s
  | _ => .next s

/-- `ReadR3R7` (R124). -/
def stepPayload (p : Pos) (s : State) : Result :=
  match p with
  | .pa0 r1 k => proceed (.pa1 r1 k) (s.openResp r1)
  | .pa1 r1 k => if r1 > 0x01#8 then proceed k.resume s.undefPayload else proceed (.pa2 k) s
  | .pa2 k => xchgStep Config.idleFill s fun b s => proceed (.pa3 k) (s.storeResp1 b)
  | .pa3 k => xchgStep Config.idleFill s fun b s => proceed (.pa4 k) (s.storeResp2 b)
  | .pa4 k => xchgStep Config.idleFill s fun b s => proceed (.pa5 k) (s.storeResp3 b)
  | .pa5 k => xchgStep Config.idleFill s fun b s => proceed (.pa6 k) (s.storeResp4 b)
  | .pa6 k => proceed k.resume s
  | _ => .next s

/-- The label after the exchange of `frame[i]` (R160 C3). -/
def afterFrameByte (i : Fin 6) (c : RomCmd) (k : ExchangeCaller) : Pos :=
  match i with
  | 0 => .c3 1 c k
  | 1 => .c3 2 c k
  | 2 => .c3 3 c k
  | 3 => .c3 4 c k
  | 4 => .c3 5 c k
  | 5 => .c4 c k

/-- `CommandExchange` (R160). -/
def stepExchange (p : Pos) (s : State) : Result :=
  match p with
  | .c0 c k => proceed (.c1 c k) (s.setCs true)
  | .c1 c k => xchgStep Config.idleFill s fun _ s => proceed (.c2 c k) s
  | .c2 c k => proceed (.c3 0 c k) (s.storeFrame (romFrame c))
  | .c3 i c k => useDefined s.frame fun f => xchgStep (f.byteAt i) s fun _ s => proceed (afterFrameByte i c k) s
  | .c4 c k => proceed (.p0 (.c4 c k)) s
  | .c5 c r1 k => if romShort c then proceed (.c6 k) (s.storeR1Form r1) else proceed (.pa0 r1 (.c5 k)) s
  | .c6 k => xchgStep Config.idleFill s fun _ s => proceed (.c7 k) s
  | .c7 k => proceed (.c8 k) (s.setCs false)
  | .c8 k => xchgStep Config.idleFill s fun _ s => proceed (.c9 k) s
  | .c9 k => useDefined s.resp.b0 fun r1 => proceed (k.resume r1) s
  | _ => .next s

/-- `NegAttempt` (R162). -/
def stepAttempt (p : Pos) (s : State) : Result :=
  match p with
  | .n0 k => proceed (.c0 .appCmd (.n0 k)) s
  | .n1 s55 k =>
    if s55 < 0x02#8 then proceed (.c0 .opCond (.n1 s55 k)) s
    else proceed (.n2 s55 false k) (s.storeCaptured s55)
  | .n1Captured s55 r1 k => proceed (.n2 s55 true k) (s.storeCaptured r1)
  | .n2 s55 sent k => proceed (k.resume s55 sent) s
  | _ => .next s

/-- GO_IDLE (R163), SEND_IF_COND (R164), APP_OP_COND (R165) and READ_OCR (R166) at their labels. -/
def stepCommandOps (p : Pos) (s : State) : Result :=
  match p with
  | .g0 => proceed (.c0 .goIdle .g0) s
  | .g1 r1 => proceed .g2 (s.writeResult (r1.setWidth 64))
  | .i0 => proceed (.c0 .ifCond .i0) s
  | .i1 => proceed .i2 s.writePack5
  | .ap0 => proceed (.n0 .a0) s
  | .ap1 s55 sent => useDefined s.captured fun b => proceed .ap2 (s.writeResult (attemptResult sent s55 b))
  | .r0 => proceed (.c0 .readOcr .r0) s
  | .r1 => proceed .r2 s.writePack5
  | _ => .next s.complete

/-- INIT (R181) at its own labels. -/
def stepInit (p : Pos) (s : State) : Result :=
  match p with
  | .s0 => proceed .s1 s.startInit
  | .s1 => proceed .u0 s
  | .s2 => proceed .l0 s
  | .s2Return ok => if ok then proceed .s3 (s.enter .idle) else proceed (.f0 .idleTimeout) s
  | .s3 => proceed .k0 s
  | .s3Return => proceed .s4 (s.enter .interfaceCheck)
  | .s4 => proceed .m0 s
  | .s4Return => proceed .s5 (s.enter .negotiating)
  | .s5 => proceed (.c0 .readOcr .s5) s
  | .s5Return => proceed .s6 (s.enter .readOcr)
  | .s6 => proceed .oc0 s
  | _ => .next s

/-- `PowerUp` (R182) and `GoIdleLoop` (R183). -/
def stepPowerUp (p : Pos) (s : State) : Result :=
  match p with
  | .u0 => proceed .u1 (s.setCs false)
  | .u1 => proceed .u2 (s.delay .settle)
  | .u2 => proceed .u3 { s with fillCnt := 0#4 }
  | .u3 => if s.fillCnt.toNat = Config.fillCount then proceed .s2 s else proceed .u4 s
  | .u4 => xchgStep Config.idleFill s fun _ s => proceed .u5 s
  | .u5 => proceed .u3 s.countFill
  | .l0 => proceed .l1 { s with idleCnt := 0#4 }
  | .l1 => if s.idleCnt.toNat = Config.idleLimit then proceed (.s2Return false) s else proceed .l2 s
  | .l2 => proceed .l3 s.countIdle
  | .l3 => proceed (.c0 .goIdle .l3) s
  | .l4 r1 => if r1 = 0x01#8 then proceed (.s2Return true) s else proceed .l5 s
  | .l5 => proceed .l1 s
  | _ => .next s

/-- `IfCheck` (R185) and `Negotiate` (R188). -/
def stepNegotiate (p : Pos) (s : State) : Result :=
  match p with
  | .k0 => proceed (.c0 .ifCond .k0) s
  | .k1 => useDefined s.resp.b0 fun b => if b ≠ 0x01#8 then proceed (.f0 .ifCondRejected) s else proceed .k2 s
  | .k2 => useDefined s.resp.b4 fun b =>
      if b ≠ Config.ifCondArg.extractLsb' 0 8 then proceed (.f0 .echoMismatch) s else proceed .k3 s
  | .k3 => proceed .s3Return s
  | .m0 => proceed .m1 { s with negCnt := 0#7 }
  | .m1 => if s.negCnt.toNat = Config.negLimit then proceed (.f0 .opCondTimeout) s else proceed .m2 s
  | .m2 => if s.negCnt > 0#7 then proceed .m3 (s.delay .retry) else proceed .m3 s
  | .m3 => proceed .m4 { s with negCnt := s.negCnt + 1#7 }
  | .m4 => proceed (.n0 .m4) s
  | .m5 => useDefined s.captured fun b => if b = 0x00#8 then proceed .s4Return s else proceed .m6 s
  | .m6 => proceed .m1 s
  | _ => .next s

/-- `OcrCheck` (R193) and `Fail` (R195). -/
def stepOcr (p : Pos) (s : State) : Result :=
  match p with
  | .oc0 => useDefined s.resp.b0 fun b => if b > 0x01#8 then proceed (.f0 .powerUpIncomplete) s else proceed .oc1 s
  | .oc1 => useDefined s.resp.payload fun pl => proceed (.oc2 (operatingCondition pl)) s
  | .oc2 f => if f.powerUpComplete then proceed (.oc3 f) s else proceed (.f0 .powerUpIncomplete) s
  | .oc3 f => proceed .oc4 { s with ccs := f.capacitySupport, vwin := some f.window }
  | .oc4 => proceed .oc5 { s with outcome := .success, initState := .ready }
  | .oc5 => proceed .oc6 s.writeInitResult
  | .f0 reason => proceed .f1 { s with outcome := reason, initState := .failed }
  | .f1 => proceed .f2 s.writeInitResult
  | _ => .next s.complete

/-- The step at a label (R23). -/
def stepAt (p : Pos) (s : State) : Result :=
  match p with
  | .e0 _ _ _ | .e1 | .e2 | .d0 _ | .d1 _ | .d2 | .v0 _ | .v1 _ | .v2 | .o0 _ | .o1 _ | .o2 _ _ _ | .o3 => stepPure p s
  | .q0 | .q1 _ | .q2 _ | .q3 | .t0 _ | .t1 | .t2 => stepReadOps p s
  | .p0 _ | .p1 _ | .p2 _ _ | .p3 _ _ | .p4 _ _ | .p5 _ => stepPoll p s
  | .pa0 _ _ | .pa1 _ _ | .pa2 _ | .pa3 _ | .pa4 _ | .pa5 _ | .pa6 _ => stepPayload p s
  | .c0 _ _ | .c1 _ _ | .c2 _ _ | .c3 _ _ _ | .c4 _ _ | .c5 _ _ _ | .c6 _ | .c7 _ | .c8 _ | .c9 _ => stepExchange p s
  | .n0 _ | .n1 _ _ | .n1Captured _ _ _ | .n2 _ _ _ => stepAttempt p s
  | .g0 | .g1 _ | .g2 | .i0 | .i1 | .i2 | .ap0 | .ap1 _ _ | .ap2 | .r0 | .r1 | .r2 => stepCommandOps p s
  | .s0 | .s1 | .s2 | .s2Return _ | .s3 | .s3Return | .s4 | .s4Return | .s5 | .s5Return | .s6 => stepInit p s
  | .u0 | .u1 | .u2 | .u3 | .u4 | .u5 | .l0 | .l1 | .l2 | .l3 | .l4 _ | .l5 => stepPowerUp p s
  | .k0 | .k1 | .k2 | .k3 | .m0 | .m1 | .m2 | .m3 | .m4 | .m5 | .m6 => stepNegotiate p s
  | .oc0 | .oc1 | .oc2 _ | .oc3 _ | .oc4 | .oc5 | .oc6 | .f0 _ | .f1 | .f2 => stepOcr p s

/-- One step of the sequencer: the step at `seq`; with no step there is nothing to run (R23). -/
def seqStep (s : State) : Result :=
  match s.seq with
  | some p => stepAt p s
  | none => .next s

/-- `n` steps of the sequencer. -/
def seqSteps : Nat → State → Result
  | 0, s => .next s
  | n + 1, s =>
    match seqStep s with
    | .next t => seqSteps n t
    | .fault r => .fault r
    | .refused r => .refused r

/-- The first step of an operation's procedure (R83: "the operation's procedure runs from its first step"). A ROM frame is no
operation of the host and has none. -/
def firstPos : Instr → Option Pos
  | .encode idx arg crc => some (.e0 idx arg crc)
  | .readR1 => some .q0
  | .readR3R7 r1 => some (.t0 r1)
  | .decodeR1 b => some (.d0 b)
  | .decodeR7 arg => some (.v0 arg)
  | .decodeR3 arg => some (.o0 arg)
  | .goIdle => some .g0
  | .sendIfCond => some .i0
  | .appOpCond => some .ap0
  | .readOcr => some .r0
  | .init => some .s0
  | .cmd0 => none
  | .cmd8 => none
  | .cmd55 => none
  | .acmd41 => none
  | .cmd58 => none

/-- Acceptance alone (R83): `op <- OP`, `eng <- BUSY`, and the sequencer at the procedure's first step. -/
def acceptAt (p : Pos) (opc : BitVec 4) (s : State) : State := (s.accept opc).goto p

end Sys2Proof.Machine
end

