-- ==== Sys2Proof/Machine/Request.lean ====
section
/-! DEFINITION. Machine/Request.lean: the host's moves (30_encoding.md R80, R83, R88; 10_state.md R41; 70_reset_and_hazards.md
R230, R245) and the ROM frames the machine is given (log 3). -/

namespace Sys2Proof.Machine

/-- A presented word that no row of the opcode table matches (R83, R213, R214, R216): FAULTED is tested before legality. -/
def presentIllegal (s : State) : Result :=
  match s.eng with
  | .avail => .next s.refuseIllegal
  | .busy => .refused .operationInFlight
  | .faulted => .next s.refuseFaulted

/-- Present a request word and let it run to its end (R83). -/
def presentRequest (w : Request) (s : State) : Result :=
  match decode (.request w) with
  | .ok i => exec i s
  | .error _ => presentIllegal s

/-- Acceptance of one operation, without running it (R83, R213, R245). -/
def beginInstr (i : Instr) (s : State) : Result :=
  match s.eng, firstPos i, i.opcode with
  | .avail, some p, some opc => .next (acceptAt p opc s)
  | .avail, _, _ => .next s.refuseIllegal
  | .busy, _, _ => .refused .operationInFlight
  | .faulted, _, _ => .next s.refuseFaulted

/-- Present a request word and stay free to move while it is in flight (R83; log 1). -/
def presentStart (w : Request) (s : State) : Result :=
  match decode (.request w) with
  | .ok i => beginInstr i s
  | .error _ => presentIllegal s

/-- Give the engine a frame of its command ROM (log 3). -/
def issueFrame (f : FrameWord) (s : State) : Result :=
  match decode (.frame f) with
  | .ok i => exec i s
  | .error _ => .refused .notRomFrame

/-- `DECODE_R7 resp` and `DECODE_R3 resp` (R88): the operands are RESP1 to RESP4 as the host reads them; a host that uses an
UNDEF one is in error (R240), and while BUSY it has no such move (R41, R245). -/
def presentResp (k : RespKind) (s : State) : Result :=
  match s.eng with
  | .busy => .refused .operationInFlight
  | .avail | .faulted =>
    useDefined s.resp.payload fun p =>
      match k with
      | .r7 => exec (.decodeR7 p.toArg) s
      | .r3 => exec (.decodeR3 p.toArg) s

/-- A host read of register `n` that uses the bits `use` (R40, R41, R58, R240): it changes nothing. -/
def presentRead (n : Nat) (use : BitVec 64) (s : State) : Result :=
  match hostRead n s with
  | none => .refused .noSuchRegister
  | some v =>
    match v.consume use with
    | .ok _ => .next s
    | .error r => .fault r

/-- No move of the host: an operation in flight goes on; otherwise the engine waits (R232, R222). -/
def advance (s : State) : Result :=
  match s.eng with
  | .busy => seqStep s
  | .avail => .next s
  | .faulted => .next s

/-- The move that hands the machine a word of the opcode table. -/
def moveOfWord : InWord → Move
  | .request w => .request w
  | .frame f => .romFrame f

/-- One move of the host. -/
def runMove (m : Move) (s : State) : Result :=
  match m with
  | .request w => presentRequest w s
  | .start w => presentStart w s
  | .romFrame f => issueFrame f s
  | .decodeResp k => presentResp k s
  | .read n use => presentRead n use s
  | .wait => advance s
  | .rst => .next s.rst

end Sys2Proof.Machine
end

