-- ==== Sys2Proof/Machine/Step.lean ====
section
/-! DEFINITION. Machine/Step.lean: one step of the machine, and where it finds its next instruction. -/

namespace Sys2Proof.Machine

/-- One step: the host's next move, or none (R7, R232). -/
def step (s : State) : Host.Outcome State Fault Refusal :=
  match s.moves with
  | [] => advance s
  | m :: rest => runMove m { s with moves := rest }

/-- The state whose next move hands the machine that word (log 7, 16). -/
def State.withFetchWord (s : State) (nbits w : Nat) : State :=
  { s with moves := moveOfWord (tableWord nbits w) :: s.moves }

end Sys2Proof.Machine
end

