-- ==== Sys2Proof/WellFormed.lean ====
section
/-! DEFINITION. WellFormed.lean: which assembler lines are legal (30_encoding.md R87). An `Instr` needs no check: the widths
of its operands are in its types (R16, R80; D6). -/

namespace Sys2Proof

/-- The operand is a number of `n` bits. -/
def fits (n v : Nat) : Bool := decide (v < 2 ^ n)

/-- R87: "`idx` must fit 6 bits, `arg` 32 bits, every other operand 8 bits; an operand that does not fit is an assembly
error". -/
def AsmLine.wf : AsmLine → Bool
  | .encode idx arg crc => fits 6 idx && fits 32 arg && fits 8 crc
  | .encodeRom _ => true
  | .readR1 => true
  | .readR3R7 r1 => fits 8 r1
  | .decodeR1 b => fits 8 b
  | .decodeR7 b1 b2 b3 b4 => fits 8 b1 && fits 8 b2 && fits 8 b3 && fits 8 b4
  | .decodeR7Resp => true
  | .decodeR3 b1 b2 b3 b4 => fits 8 b1 && fits 8 b2 && fits 8 b3 && fits 8 b4
  | .decodeR3Resp => true
  | .goIdle => true
  | .sendIfCond => true
  | .appOpCond => true
  | .readOcr => true
  | .init => true

end Sys2Proof
end

