-- ==== Sys2Proof/Machine/Assembler.lean ====
section
/-! DEFINITION. Machine/Assembler.lean: the spec's assembly syntax (30_encoding.md R87) and its pseudo-instructions (R88): from
the text of a line to the host's move. -/

namespace Sys2Proof.Machine

/-- Why a line does not assemble. -/
inductive AsmError where
  /-- "an operand that does not fit is an assembly error" (R87). -/
  | operandTooWide
  /-- The text is no line of the syntax. -/
  | notALine
  deriving DecidableEq, Repr

/-- Response bytes from the four operands of DECODE_R7 and DECODE_R3 (R85, R87). -/
def payloadOfNats (b1 b2 b3 b4 : Nat) : Payload :=
  ⟨BitVec.ofNat 8 b1, BitVec.ofNat 8 b2, BitVec.ofNat 8 b3, BitVec.ofNat 8 b4⟩

/-- The move a line stands for, its operands taken as they are (R87, R88). -/
def moveOfLine : AsmLine → Move
  | .encode idx arg crc => moveOfWord (encode (.encode (BitVec.ofNat 6 idx) (BitVec.ofNat 32 arg) (BitVec.ofNat 8 crc)))
  | .encodeRom c => moveOfWord (encode (.encode (romIndex c) (romArg c) (romCrc c)))
  | .readR1 => moveOfWord (encode .readR1)
  | .readR3R7 r1 => moveOfWord (encode (.readR3R7 (BitVec.ofNat 8 r1)))
  | .decodeR1 b => moveOfWord (encode (.decodeR1 (BitVec.ofNat 8 b)))
  | .decodeR7 b1 b2 b3 b4 => moveOfWord (encode (.decodeR7 (payloadOfNats b1 b2 b3 b4).toArg))
  | .decodeR7Resp => .decodeResp .r7
  | .decodeR3 b1 b2 b3 b4 => moveOfWord (encode (.decodeR3 (payloadOfNats b1 b2 b3 b4).toArg))
  | .decodeR3Resp => .decodeResp .r3
  | .goIdle => moveOfWord (encode .goIdle)
  | .sendIfCond => moveOfWord (encode .sendIfCond)
  | .appOpCond => moveOfWord (encode .appOpCond)
  | .readOcr => moveOfWord (encode .readOcr)
  | .init => moveOfWord (encode .init)

/-- Assemble a line (R87). -/
def assemble (l : AsmLine) : Except AsmError Move :=
  if l.wf then .ok (moveOfLine l) else .error .operandTooWide

/-! ## The text of a line (R87; log 17) -/

def dropSpaces (l : List Char) : List Char := l.dropWhile (· == ' ')

/-- A list of characters without the spaces at its two ends. -/
def trimSpaces (l : List Char) : List Char := (dropSpaces (dropSpaces l).reverse).reverse

/-- The parts of a list of characters between commas. -/
def splitCommas : List Char → List (List Char)
  | [] => [[]]
  | c :: rest =>
    if c = ',' then [] :: splitCommas rest
    else match splitCommas rest with
      | [] => [[c]]
      | part :: parts => (c :: part) :: parts

/-- The value of a digit below the base. -/
def digitValue (base : Nat) (c : Char) : Option Nat :=
  let n := c.toNat
  let v := if 48 ≤ n ∧ n ≤ 57 then some (n - 48)
    else if 65 ≤ n ∧ n ≤ 70 then some (n - 55)
    else if 97 ≤ n ∧ n ≤ 102 then some (n - 87)
    else none
  v.bind fun d => if d < base then some d else none

def digitsValue (base : Nat) : Nat → List Char → Option Nat
  | acc, [] => some acc
  | acc, c :: rest => (digitValue base c).bind fun d => digitsValue base (acc * base + d) rest

/-- "Numbers are decimal or `0x` hexadecimal" (R87). -/
def parseNumber (l : List Char) : Option Nat :=
  match l with
  | [] => none
  | '0' :: 'x' :: d :: rest => digitsValue 16 0 (d :: rest)
  | d :: rest => digitsValue 10 0 (d :: rest)

/-- The ROM row of a name of R88. -/
def romOfName (l : List Char) : Option RomCmd :=
  if l = "CMD0".toList then some .goIdle
  else if l = "CMD8".toList then some .ifCond
  else if l = "CMD55".toList then some .appCmd
  else if l = "ACMD41".toList then some .opCond
  else if l = "CMD58".toList then some .readOcr
  else none

/-- The line with a mnemonic and operands (R87, R88). -/
def lineOf (mnemonic : List Char) (operands : List (List Char)) : Option AsmLine :=
  if mnemonic = "ENCODE".toList then
    match operands with
    | [name] => (romOfName name).map .encodeRom
    | [idx, arg, crc] =>
      (parseNumber idx).bind fun i => (parseNumber arg).bind fun a => (parseNumber crc).map fun c => .encode i a c
    | _ => none
  else if mnemonic = "READ_R3R7".toList then
    match operands with
    | [r1] => (parseNumber r1).map .readR3R7
    | _ => none
  else if mnemonic = "DECODE_R1".toList then
    match operands with
    | [b] => (parseNumber b).map .decodeR1
    | _ => none
  else if mnemonic = "DECODE_R7".toList then decodeLine AsmLine.decodeR7 .decodeR7Resp
  else if mnemonic = "DECODE_R3".toList then decodeLine AsmLine.decodeR3 .decodeR3Resp
  else match operands with
    | [] =>
      if mnemonic = "READ_R1".toList then some .readR1
      else if mnemonic = "GO_IDLE".toList then some .goIdle
      else if mnemonic = "SEND_IF_COND".toList then some .sendIfCond
      else if mnemonic = "APP_OP_COND".toList then some .appOpCond
      else if mnemonic = "READ_OCR".toList then some .readOcr
      else if mnemonic = "INIT".toList then some .init
      else none
    | _ => none
where
  /-- The two forms of DECODE_R7 and DECODE_R3: `resp`, or four operands. -/
  decodeLine (full : Nat → Nat → Nat → Nat → AsmLine) (resp : AsmLine) : Option AsmLine :=
    match operands with
    | [name] => if name = "resp".toList then some resp else none
    | [b1, b2, b3, b4] =>
      (parseNumber b1).bind fun b1 => (parseNumber b2).bind fun b2 => (parseNumber b3).bind fun b3 =>
        (parseNumber b4).map fun b4 => full b1 b2 b3 b4
    | _ => none

/-- "one operation per line, the mnemonic of rule R81 followed by its operands separated by commas" (R87). -/
def parseLine (text : String) : Option AsmLine :=
  let l := trimSpaces text.toList
  let operands := trimSpaces (l.dropWhile (· != ' '))
  lineOf (l.takeWhile (· != ' ')) (if operands.isEmpty then [] else (splitCommas operands).map trimSpaces)

/-- From the text of a line to the host's move. -/
def assembleText (text : String) : Except AsmError Move :=
  match parseLine text with
  | some l => assemble l
  | none => .error .notALine

end Sys2Proof.Machine
end

