-- ==== Sys2Proof/Safety.lean ====
section
/-! DEFINITION. Safety.lean: the terms the claims use: the invariants of the machine, what a good run is, and the in-bytes and
events of one command exchange and of one initialization. -/

namespace Sys2Proof.Machine

/-! ## Good runs (60_exceptions.md R213) -/

/-- "A model treats FAULTED as a quiescent fault state, never a final one, that refutes any claim of a good run" (R213). -/
abbrev State.Good (s : State) : Prop := s.eng ≠ .faulted

/-! ## Invariants -/

/-- The five-byte form (R31): `resp[0]` holds the status, and bytes 1 to 4 hold values exactly when it is at most 1. -/
def Resp.fiveByteForm (r : Resp) : Bool :=
  match r.b0 with
  | none => false
  | some r1 =>
    if r1 > 0x01#8 then r.b1.isNone && r.b2.isNone && r.b3.isNone && r.b4.isNone else r.payload.isSome

/-- The R1 form (R31): bytes 1 to 4 hold no value. -/
def Resp.r1Form (r : Resp) : Bool := r.b1.isNone && r.b2.isNone && r.b3.isNone && r.b4.isNone

/-- The invariant of the response buffer (R31). -/
def State.respFormed (s : State) : Bool := if s.rtag then s.resp.fiveByteForm else s.resp.r1Form

/-- The counters stay within their bounds (R26 to R29). -/
abbrev State.CountersInRange (s : State) : Prop :=
  s.pollCnt.toNat ≤ Config.r1PollLimit ∧ s.idleCnt.toNat ≤ Config.idleLimit ∧
  s.negCnt.toNat ≤ Config.negLimit ∧ s.fillCnt.toNat ≤ Config.fillCount

/-- The frame register carries the start, transmission and stop bits of R70 (R107). -/
def Frame.wellFormed (f : Frame) : Bool := !f.b0.getLsbD 7 && f.b0.getLsbD 6 && f.b5.getLsbD 0

/-- `outcome`, `init_state`, `ccs` and `vwin` belong together outside an operation (R34 to R36, R146, R193 to R195). -/
abbrev State.OutcomeCoherent (s : State) : Prop :=
  (s.outcome = .success ↔ s.initState = .ready) ∧
  (s.outcome.isFailure = true ↔ s.initState = .failed) ∧
  (s.outcome = .success → s.ccs = some true ∧ s.vwin.isSome = true) ∧
  (s.outcome ≠ .success → s.ccs = none ∧ s.vwin = none)

/-- A state between operations: no operation is in flight and no step is left (R23); in AVAIL chip select is deasserted (R160,
R195) and the response buffer has its form (R31); FAULTED shows in `op_status` (R212, R213); `rvalid` says which bytes of
`result` hold values (R38); the frame register is a frame (R107). -/
abbrev State.Settled (s : State) : Prop :=
  s.eng ≠ .busy ∧ s.seq = none ∧
  (s.eng = .avail → s.cs = false ∧ s.respFormed = true) ∧
  (s.eng = .faulted ↔ s.opStatus = .faulted) ∧
  s.rvalid = s.result.definedMask ∧
  s.CountersInRange ∧
  s.frame.all Frame.wellFormed = true ∧
  s.OutcomeCoherent

/-- Whether a move starts an operation and leaves it in flight. -/
def Move.isStart : Move → Bool
  | .request _ => false
  | .start _ => true
  | .romFrame _ => false
  | .decodeResp _ => false
  | .read _ _ => false
  | .wait => false
  | .rst => false

/-- A settled state whose host lets every operation run to its end. -/
abbrev State.Quiet (s : State) : Prop := s.Settled ∧ s.moves.all (fun m => !m.isStart) = true

/-- Inside the loops a counter is still below its bound (R17: "every increment is bounded by a limit test before it"). -/
def State.loopBound (s : State) : Pos → Bool
  | .p1 _ | .p2 _ _ | .p5 _ => decide (s.pollCnt.toNat < Config.r1PollLimit)
  | .l2 => decide (s.idleCnt.toNat < Config.idleLimit)
  | .m2 | .m3 => decide (s.negCnt.toNat < Config.negLimit)
  | .u4 | .u5 => decide (s.fillCnt.toNat < Config.fillCount)
  | _ => true

/-- What holds in every state of a run, also while an operation is in flight: a step is left exactly while BUSY (R21, R23), no
counter passes its bound (R17, R26 to R29), and the frame register is a frame (R107). -/
abbrev State.InBounds (s : State) : Prop :=
  (s.eng = .busy ↔ s.seq.isSome = true) ∧ s.CountersInRange ∧
  s.seq.all s.loopBound = true ∧ s.frame.all Frame.wellFormed = true

/-! ## What the card answers in one command exchange

A script says what the transport answers, exchange by exchange; a claim about it holds for every value of its fields. -/

/-- The in-bytes an exchange discards (R160 C1, C3, C6, C8; D12). -/
structure Discarded where
  fill : Byte
  frame : Frame
  before : Byte
  after : Byte
  deriving DecidableEq, Repr

/-- The answers in one exchange: the discarded in-bytes, how many `0xFF` come before the status, the status, and the payload,
which is there only after a status of at most 1 to a command that elicits R3 or R7. -/
structure ExchangeScript where
  discarded : Discarded
  idle : Nat
  r1 : Byte
  payload : Payload
  deriving DecidableEq, Repr

/-- The status arrives within the nine polls, or it is the ninth `0xFF` (R120, R121). -/
def Polled (idle : Nat) (r1 : Byte) : Bool :=
  decide (idle + 1 ≤ Config.r1PollLimit) && (r1 != Config.idleFill || idle + 1 == Config.r1PollLimit)

/-- The in-bytes of a poll (R120). -/
def pollIns (idle : Nat) (r1 : Byte) : List Byte := List.replicate idle Config.idleFill ++ [r1]

def Payload.bytes (p : Payload) : List Byte := [p.b1, p.b2, p.b3, p.b4]

/-- Whether four payload bytes are read after the status (R124, R160 C5). -/
def ExchangeScript.hasPayload (e : ExchangeScript) (c : RomCmd) : Bool := !romShort c && !decide (e.r1 > 0x01#8)

/-- The in-bytes of the response (R127). -/
def ExchangeScript.responseIns (e : ExchangeScript) (c : RomCmd) : List Byte :=
  pollIns e.idle e.r1 ++ (if e.hasPayload c then e.payload.bytes else [])

/-- All in-bytes of the exchange in order (R160). -/
def ExchangeScript.ins (e : ExchangeScript) (c : RomCmd) : List Byte :=
  e.discarded.fill :: e.discarded.frame.bytes ++ e.responseIns c ++ [e.discarded.before, e.discarded.after]

/-- The events of exchanges that all send the idle-fill byte. -/
def idleExchanges (ins : List Byte) : List Event := ins.map (Event.x Config.idleFill)

/-- "The trace of one exchange is, in order: `CS(1)`, `X(FF, -)`, the six `X(frame[i], -)`, the response's exchanges,
`X(FF, -)`, `CS(0)`, `X(FF, -)`" (R161). -/
def ExchangeScript.events (e : ExchangeScript) (c : RomCmd) : List Event :=
  Event.cs true :: Event.x Config.idleFill e.discarded.fill ::
    List.zipWith Event.x (romFrame c).bytes e.discarded.frame.bytes ++ idleExchanges (e.responseIns c) ++
    [Event.x Config.idleFill e.discarded.before, Event.cs false, Event.x Config.idleFill e.discarded.after]

/-- The response buffer the exchange leaves (R31, R124, R160 C5). -/
def ExchangeScript.resp (e : ExchangeScript) (c : RomCmd) : Resp :=
  if e.hasPayload c then ⟨some e.r1, some e.payload.b1, some e.payload.b2, some e.payload.b3, some e.payload.b4⟩
  else ⟨some e.r1, none, none, none, none⟩

/-- The state one exchange leaves when it answers by a script (R160): `rest` are the answers after it. -/
def ExchangeScript.after (e : ExchangeScript) (c : RomCmd) (rest : List Reply) (s : State) : State :=
  { s with cs := false, frame := some (romFrame c), pollCnt := BitVec.ofNat 4 (e.idle + 1), resp := e.resp c,
           rtag := !romShort c, replies := rest, events := (e.events c).reverse ++ s.events }

/-- The transport's next answers are these bytes, and then the others. -/
abbrev State.Answers (s : State) (ins : List Byte) (rest : List Reply) : Prop := s.replies = ins.map Reply.byte ++ rest

/-! ## What the card answers in one negotiation attempt (R162) and in one initialization (R181) -/

/-- The answers in one attempt: `request` is used only when the prefix's status is below 2. -/
structure AttemptScript where
  app : ExchangeScript
  request : ExchangeScript
  deriving DecidableEq, Repr

def AttemptScript.sent (a : AttemptScript) : Bool := decide (a.app.r1 < 0x02#8)

/-- The status the attempt captures (R162). -/
def AttemptScript.captured (a : AttemptScript) : Byte := if a.sent then a.request.r1 else a.app.r1

def AttemptScript.ins (a : AttemptScript) : List Byte :=
  a.app.ins .appCmd ++ (if a.sent then a.request.ins .opCond else [])

def AttemptScript.events (a : AttemptScript) : List Event :=
  a.app.events .appCmd ++ (if a.sent then a.request.events .opCond else [])

def AttemptScript.polled (a : AttemptScript) : Bool :=
  Polled a.app.idle a.app.r1 && (!a.sent || Polled a.request.idle a.request.r1)

/-- The attempt's last exchange, and the command it carries. -/
def AttemptScript.last (a : AttemptScript) : ExchangeScript := if a.sent then a.request else a.app
def AttemptScript.lastCmd (a : AttemptScript) : RomCmd := if a.sent then .opCond else .appCmd

/-- The state one attempt leaves when it answers by a script (R162). -/
def AttemptScript.after (a : AttemptScript) (rest : List Reply) (s : State) : State :=
  { s with cs := false, frame := some (romFrame a.lastCmd), pollCnt := BitVec.ofNat 4 (a.last.idle + 1),
           resp := ⟨some a.captured, none, none, none, none⟩, rtag := false, captured := some a.captured,
           replies := rest, events := a.events.reverse ++ s.events }

/-- The events of power-up (R182). -/
def powerUpEvents (fill : List Byte) : List Event := [Event.cs false, Event.w .settle] ++ idleExchanges fill

/-- The in-bytes and the events of go-idle attempts one after another (R183): there is no delay between them. -/
def goIdleIns (l : List ExchangeScript) : List Byte := l.flatMap (·.ins .goIdle)
def goIdleEvents (l : List ExchangeScript) : List Event := l.flatMap (·.events .goIdle)

/-- A go-idle attempt that fails: any status but `0x01` (R183). -/
def ExchangeScript.idleFailed (e : ExchangeScript) : Bool := Polled e.idle e.r1 && e.r1 != 0x01#8

/-- The go-idle attempt that ends the loop (R183). -/
def ExchangeScript.idleAccepted (e : ExchangeScript) : Bool := Polled e.idle e.r1 && e.r1 == 0x01#8

/-- The in-bytes of negotiation attempts one after another. -/
def negIns (l : List AttemptScript) : List Byte := l.flatMap AttemptScript.ins

/-- The events of the negotiation: a retry wait between attempts, none before the first (R190). -/
def negEvents : List AttemptScript → List Event
  | [] => []
  | [a] => a.events
  | a :: b :: rest => a.events ++ [Event.w .retry] ++ negEvents (b :: rest)

/-- A negotiation attempt that fails, and one that ends the loop (R188, R189). -/
def AttemptScript.failed (a : AttemptScript) : Bool := a.polled && a.captured != 0x00#8
def AttemptScript.accepted (a : AttemptScript) : Bool := a.polled && a.captured == 0x00#8

/-- The answers in an initialization that reaches the read-OCR step: the fill bytes, the go-idle attempts that fail and the one
that is accepted, the interface-condition exchange, the negotiation attempts that fail and the one that ends the loop, and the
read-OCR exchange. -/
structure InitScript where
  fill : List Byte
  idleFails : List ExchangeScript
  idleOk : ExchangeScript
  ifCond : ExchangeScript
  negFails : List AttemptScript
  negOk : AttemptScript
  ocr : ExchangeScript
  deriving DecidableEq, Repr

/-- The script is one the engine's bounds and checks lead to the read-OCR step (R182, R183, R186, R188). -/
def InitScript.wellFormed (t : InitScript) : Bool :=
  decide (t.fill.length = Config.fillCount) &&
  decide (t.idleFails.length + 1 ≤ Config.idleLimit) && t.idleFails.all ExchangeScript.idleFailed &&
  t.idleOk.idleAccepted &&
  (Polled t.ifCond.idle t.ifCond.r1 && t.ifCond.r1 == 0x01#8 && t.ifCond.payload.b4 == 0xAA#8) &&
  decide (t.negFails.length + 1 ≤ Config.negLimit) && t.negFails.all AttemptScript.failed &&
  t.negOk.accepted &&
  Polled t.ocr.idle t.ocr.r1

def InitScript.ins (t : InitScript) : List Byte :=
  t.fill ++ goIdleIns (t.idleFails ++ [t.idleOk]) ++ t.ifCond.ins .ifCond ++ negIns (t.negFails ++ [t.negOk]) ++
  t.ocr.ins .readOcr

def InitScript.events (t : InitScript) : List Event :=
  powerUpEvents t.fill ++ goIdleEvents (t.idleFails ++ [t.idleOk]) ++ t.ifCond.events .ifCond ++
  negEvents (t.negFails ++ [t.negOk]) ++ t.ocr.events .readOcr

/-! ## The opcode table's rows as the claims name them -/

/-- The "fields used" column of R81. -/
def usesIdx : Instr → Bool
  | .encode _ _ _ => true
  | .readR1 | .readR3R7 _ | .decodeR1 _ | .decodeR7 _ | .decodeR3 _ | .goIdle | .sendIfCond | .appOpCond | .readOcr | .init
  | .cmd0 | .cmd8 | .cmd55 | .acmd41 | .cmd58 => false

def usesArg : Instr → Bool
  | .encode _ _ _ | .decodeR7 _ | .decodeR3 _ => true
  | .readR1 | .readR3R7 _ | .decodeR1 _ | .goIdle | .sendIfCond | .appOpCond | .readOcr | .init
  | .cmd0 | .cmd8 | .cmd55 | .acmd41 | .cmd58 => false

def usesByte : Instr → Bool
  | .encode _ _ _ | .readR3R7 _ | .decodeR1 _ => true
  | .readR1 | .decodeR7 _ | .decodeR3 _ | .goIdle | .sendIfCond | .appOpCond | .readOcr | .init
  | .cmd0 | .cmd8 | .cmd55 | .acmd41 | .cmd58 => false

/-- The FRAME48 row of a ROM command (R105). -/
def romInstr : RomCmd → Instr
  | .goIdle => .cmd0
  | .ifCond => .cmd8
  | .appCmd => .cmd55
  | .opCond => .acmd41
  | .readOcr => .cmd58

end Sys2Proof.Machine
end

