-- ==== Sys2Proof/Certificates/Slice0/Obligations.lean ====
section
/-! DEFINITION. Certificates/Slice0/Obligations.lean: the statements for the provers. Each docstring names the rule of spec/ it
formalises; a clause that rests on a choice of the model names the log entry. `op` after an operation is the code it was accepted
with, which no rule clears (R83; log 4). -/

open Sys2Proof
open Sys2Proof.Machine

/-! ## Encoding -/

/-- R80, R81, R85, R105: decoding the word of an instruction gives the instruction back, with every operand at every value its
field has. -/
def Obligations.DecodingAnEncodedInstructionGivesItBack : Prop :=
  ∀ i : Instr, decode (encode i) = .ok i

/-- R80, R82, R105: a word that decodes is the word of what it decodes to, so each instruction has one word. -/
def Obligations.EncodingADecodedWordGivesItBack : Prop :=
  ∀ (w : InWord) (i : Instr), decode w = .ok i → encode i = w

/-- R82: a request word selects an operation exactly when it meets the row's match under the row's mask; at most one row
matches; RSV and the fields the operation does not use are then 0. -/
def Obligations.RequestSelectsTheRowItMatches : Prop :=
  (∀ (w : Request) (r : RequestRow), r ∈ requestRows →
    (r.selects w = true ↔ ∃ i, decode (.request w) = .ok i ∧ i.mnemonic = r.mnemonic)) ∧
  (∀ (w : Request) (i : Instr), decode (.request w) = .ok i →
    (∃ r ∈ requestRows, r.mnemonic = i.mnemonic ∧ w &&& r.mask = r.code) ∧
    rsvField w = 0#14 ∧ (usesIdx i = false → idxField w = 0#6) ∧ (usesArg i = false → argField w = 0#32) ∧
    (usesByte i = false → byteField w = 0#8)) ∧
  (∀ (w : Request) (r r' : RequestRow), r ∈ requestRows → r' ∈ requestRows →
    r.selects w = true → r'.selects w = true → r = r')

/-- Words written out from the encodings of R103, R125, R143, R163, R181 and R105, and two words no row matches (R81, R82). -/
def Obligations.WordsOfTheSpecDecodeAsWritten : Prop :=
  decodeTableWord 64 0x100008000001AA87 = some (.encode 8#6 0x000001AA#32 0x87#8) ∧
  decodeTableWord 64 0x3000000000000005 = some (.readR3R7 0x05#8) ∧
  decodeTableWord 64 0x500000000001AA00 = some (.decodeR7 0x000001AA#32) ∧
  decodeTableWord 64 0x8000000000000000 = some .goIdle ∧
  decodeTableWord 64 0xC000000000000000 = some .init ∧
  decodeTableWord 48 0x694000000077 = some .acmd41 ∧
  decodeTableWord 64 0x7000000000000000 = none ∧
  decodeTableWord 64 0x1000400000000000 = none

/-- R70, R101, R107: the fields of every frame the encoder makes, and that bit 0 of the CRC input is ignored. -/
def Obligations.EveryFrameCarriesItsFields : Prop :=
  ∀ (idx : BitVec 6) (arg : BitVec 32) (crc : Byte),
    (encodeFrame idx arg crc).toWord = packFrame idx arg (crc.extractLsb' 1 7) ∧
    (encodeFrame idx arg crc).b0.getLsbD 7 = false ∧ (encodeFrame idx arg crc).b0.getLsbD 6 = true ∧
    (encodeFrame idx arg crc).b0.extractLsb' 0 6 = idx ∧
    (encodeFrame idx arg crc).b5.getLsbD 0 = true ∧
    ∀ (c7 : BitVec 7) (x y : BitVec 1), encodeFrame idx arg (c7 ++ x) = encodeFrame idx arg (c7 ++ y)

/-- R105, R106: each frame of the command ROM is the encoding of its row, is the FRAME48 word of the opcode table, and carries
the CRC7 of its first five bytes. -/
def Obligations.RomFramesAreTheirRowsWithTheirCrc : Prop :=
  ∀ c : RomCmd,
    romFrame c = encodeFrame (romIndex c) (romArg c) (romCrc c) ∧
    encode (romInstr c) = .frame (romFrame c).toWord ∧
    decode (.frame (romFrame c).toWord) = .ok (romInstr c) ∧
    romCrc c = crcByte (romIndex c) (romArg c)

/-! ## The step -/

/-- R7, R83: when the host's next move hands the machine a word that decodes to an instruction, the step is that instruction's
`exec`, after the move has been taken from the list of moves (the list is the model's own; log 7, 16). -/
def Obligations.AStepRunsTheDecodedInstruction : Prop :=
  (∀ (s : State) (w : InWord) (i : Instr) (rest : List Move),
    s.moves = moveOfWord w :: rest → decode w = .ok i → step s = exec i { s with moves := rest }) ∧
  (∀ (s : State) (nbits w : Nat) (i : Instr),
    decodeTableWord nbits w = some i → step (s.withFetchWord nbits w) = exec i s)

/-- R83, R213, R245: an instruction answers a next state in every mode but BUSY, where the host has no such move. That it ends at
all, INIT among them, rests on the transport's liveness (R247, D44; log 6): every exchange answers a byte or a fault. That the
FRAME48 rows follow the same modes is the model's choice (log 3), and so is running a whole operation in one answer (log 1). -/
def Obligations.EveryInstructionRunsUnlessBusy : Prop :=
  ∀ (i : Instr) (s : State),
    (s.eng ≠ .busy → ∃ t, exec i s = .next t) ∧ (s.eng = .busy → exec i s = .refused .operationInFlight)

/-- R214: a word no row of the opcode table matches, presented in AVAIL, is refused: `op_status` becomes ILLEGAL and nothing else
changes (`moves` is the model's own list of the host's moves; log 7). -/
def Obligations.UnmatchedRequestsOnlySetIllegal : Prop :=
  ∀ (s : State) (w : Request) (rest : List Move),
    s.eng = .avail → (∀ r ∈ requestRows, r.selects w = false) → (s.moves = .request w :: rest ∨ s.moves = .start w :: rest) →
    step s = .next { s with moves := rest, opStatus := .illegal }

/-- R83: acceptance. A matched request in AVAIL puts its OP in `op`, makes `eng` BUSY and puts the sequencer at the procedure's
first step; an unmatched one sets ILLEGAL; in FAULTED every request sets FAULTED and nothing else; in BUSY there is no such move. -/
def Obligations.AcceptanceStartsTheProcedure : Prop :=
  ∀ (s : State) (w : Request) (rest : List Move), s.moves = .start w :: rest →
    (∀ i, s.eng = .avail → decode (.request w) = .ok i → ∃ p, firstPos i = some p ∧
      step s = .next { s with moves := rest, op := some (opField w), eng := .busy, seq := some p }) ∧
    (s.eng = .avail → (∀ r ∈ requestRows, r.selects w = false) → step s = .next { s with moves := rest, opStatus := .illegal }) ∧
    (s.eng = .faulted → step s = .next { s with moves := rest, opStatus := .faulted }) ∧
    (s.eng = .busy → step s = .refused .operationInFlight)

/-- R213: in FAULTED every request, whatever its word, sets `op_status` to FAULTED and changes nothing else. Every other move of the
model's host but `rst` (the list of moves is the model's, log 7, and so is what a ROM frame does, log 3) leaves every register but
`op_status` as it is, and `op_status` as it is or FAULTED; the engine makes no event, and only reset leaves FAULTED. -/
def Obligations.FaultedIsQuiescentUntilReset : Prop :=
  (∀ (s : State) (w : Request) (rest : List Move), s.eng = .faulted →
    (s.moves = .request w :: rest ∨ s.moves = .start w :: rest) →
    step s = .next { s with moves := rest, opStatus := .faulted }) ∧
  (∀ s t : State, s.eng = .faulted → step s = .next t → s.moves.head? ≠ some .rst →
    t = { s with moves := s.moves.tail, opStatus := t.opStatus } ∧ (t.opStatus = s.opStatus ∨ t.opStatus = .faulted)) ∧
  (∀ s t : State, s.eng = .faulted → step s = .next t → t.eng ≠ .faulted → ∃ rest, s.moves = .rst :: rest)

/-- R245, R41: while an operation is in flight the host has no other request, and no read but that of STATUS. That such moves stop
(log 7, 8), and that a read of STATUS that uses INIT_STATE while INIT is in flight stops too (R60; log 19), are the model's
choices. -/
def Obligations.WhileBusyThereIsNoOtherRequest : Prop :=
  ∀ (s : State) (rest : List Move), s.eng = .busy →
    (∀ w, s.moves = .request w :: rest → step s = .refused .operationInFlight) ∧
    (∀ w, s.moves = .start w :: rest → step s = .refused .operationInFlight) ∧
    (∀ k, s.moves = .decodeResp k :: rest → step s = .refused .operationInFlight) ∧
    (∀ c : RomCmd, s.moves = .romFrame (romFrame c).toWord :: rest → step s = .refused .operationInFlight) ∧
    (∀ n use, s.moves = .read n use :: rest → 1 ≤ n → n ≤ 10 → use ≠ 0#64 → step s = .fault .undefConsumed) ∧
    (∀ use, s.moves = .read 0 use :: rest → use &&& 0xFF#64 = use → s.op ≠ some 0xC#4 ∨ use &&& 0x70#64 = 0#64 →
      step s = .next { s with moves := rest }) ∧
    (∀ use, s.moves = .read 0 use :: rest → s.op = some 0xC#4 → use &&& 0x70#64 ≠ 0#64 → step s = .fault .undefConsumed)

/-- R43: the values of the registers after reset; R230: they are reached from any state and in any mode, with no event, and reset
is the only way out of FAULTED. The host's further moves, the transport's answers and the trace are no registers (log 5, 7, 9, 10). -/
def Obligations.ResetGivesEveryRegisterItsValue : Prop :=
  (∀ (s : State) (rest : List Move), s.moves = .rst :: rest → ∃ t, step s = .next t ∧
    t.eng = .avail ∧ t.op = none ∧ t.seq = none ∧ t.initState = .poweringUp ∧ t.cs = false ∧ t.pollCnt = 0#4 ∧
    t.idleCnt = 0#4 ∧ t.negCnt = 0#7 ∧ t.fillCnt = 0#4 ∧ t.frame = none ∧
    (t.resp.b0 = none ∧ t.resp.b1 = none ∧ t.resp.b2 = none ∧ t.resp.b3 = none ∧ t.resp.b4 = none) ∧ t.rtag = false ∧
    t.captured = none ∧ t.outcome = .none ∧ t.ccs = none ∧ t.vwin = none ∧ t.opStatus = .none ∧
    t.result = ⟨none, none, none, none, none, none, none, none⟩ ∧ t.rvalid = 0x00#8 ∧
    t = { State.reset with moves := rest, replies := s.replies, draws := s.draws, events := s.events }) ∧
  (∀ s t : State, s.eng = .faulted → step s = .next t → t.eng ≠ .faulted → ∃ rest, s.moves = .rst :: rest)

/-- R232, R222: with no move of the host the engine starts nothing and every register survives. -/
def Obligations.NothingStartsByItself : Prop :=
  ∀ s : State, s.eng ≠ .busy → s.moves = [] → step s = .next s

/-! ## The Command Encoder and the Response Decoder -/

/-- R103: ENCODE completes in AVAIL, writes `frame`, `result` and `rvalid`, and makes no event. That `op` keeps the code of
the operation after its end is the model's reading (R83; log 4). -/
def Obligations.EncodeAnswersItsFrame : Prop :=
  ∀ (idx : BitVec 6) (arg : BitVec 32) (crc : Byte) (s : State), s.eng = .avail →
    decode (.request (0x1#4 ++ 0#14 ++ idx ++ arg ++ crc)) = .ok (.encode idx arg crc) ∧
    exec (.encode idx arg crc) s = .next
      { s with op := some 0x1#4, eng := .avail, seq := none, opStatus := .ok, rvalid := 0xFF#8,
               frame := some ⟨0b01#2 ++ idx, arg.extractLsb' 24 8, arg.extractLsb' 16 8, arg.extractLsb' 8 8,
                              arg.extractLsb' 0 8, crc.extractLsb' 1 7 ++ 1#1⟩,
               result := ResultReg.ofWord (0#16 ++ 0b01#2 ++ idx ++ arg ++ crc.extractLsb' 1 7 ++ 1#1) }

/-- R140, R141: DECODE_R1 answers one flag a bit, which is the byte itself, and writes nothing else. That `op` keeps the code
of the operation after its end is the model's reading (R83; log 4). -/
def Obligations.DecodeR1AnswersTheFlags : Prop :=
  ∀ (b : Byte) (s : State), s.eng = .avail →
    decode (.request (0x4#4 ++ 0#14 ++ 0#6 ++ 0#32 ++ b)) = .ok (.decodeR1 b) ∧
    statusFlags b = { idle := b.getLsbD 0, eraseReset := b.getLsbD 1, illegalCommand := b.getLsbD 2,
                      crcError := b.getLsbD 3, eraseSequenceError := b.getLsbD 4, addressError := b.getLsbD 5,
                      parameterError := b.getLsbD 6, sentinel := b.getLsbD 7 } ∧
    exec (.decodeR1 b) s = .next
      { s with op := some 0x4#4, eng := .avail, seq := none, opStatus := .ok, rvalid := 0xFF#8,
               result := ResultReg.ofWord (0#56 ++ b) }

/-- R75, R142, R143: DECODE_R7 answers the echo, the voltage-accepted code and the command version, and writes nothing else.
That `op` keeps the code of the operation after its end is the model's reading (R83; log 4). -/
def Obligations.DecodeR7AnswersTheFields : Prop :=
  ∀ (b1 b2 b3 b4 : Byte) (s : State), s.eng = .avail →
    decode (.request (0x5#4 ++ 0#14 ++ 0#6 ++ (b1 ++ b2 ++ b3 ++ b4) ++ 0#8)) = .ok (.decodeR7 (b1 ++ b2 ++ b3 ++ b4)) ∧
    exec (.decodeR7 (b1 ++ b2 ++ b3 ++ b4)) s = .next
      { s with op := some 0x5#4, eng := .avail, seq := none, opStatus := .ok, rvalid := 0xFF#8,
               result := ResultReg.ofWord (0#48 ++ b4 ++ 0#1 ++
                 (if b3.extractLsb' 0 5 = 0x01#5 then 0#3 else if b3.extractLsb' 0 5 = 0x02#5 then 1#3
                  else if b3.extractLsb' 0 5 = 0x04#5 then 2#3 else if b3.extractLsb' 0 5 = 0x08#5 then 3#3 else 4#3) ++
                 b1.extractLsb' 4 4) }

/-- R144, R145: DECODE_R3 answers power-up-complete, CCS_VALID and CCS from one bit, and the window, and writes nothing else.
That `op` keeps the code of the operation after its end is the model's reading (R83; log 4). -/
def Obligations.DecodeR3AnswersTheFields : Prop :=
  ∀ (b1 b2 b3 b4 : Byte) (s : State), s.eng = .avail →
    decode (.request (0x6#4 ++ 0#14 ++ 0#6 ++ (b1 ++ b2 ++ b3 ++ b4) ++ 0#8)) = .ok (.decodeR3 (b1 ++ b2 ++ b3 ++ b4)) ∧
    exec (.decodeR3 (b1 ++ b2 ++ b3 ++ b4)) s = .next
      { s with op := some 0x6#4, eng := .avail, seq := none, opStatus := .ok, rvalid := 0xFF#8,
               result := ResultReg.ofWord (0#47 ++ b2 ++ b3.extractLsb' 7 1 ++ 0#5 ++
                 b1.extractLsb' 6 1 ++ b1.extractLsb' 6 1 ++ b1.extractLsb' 6 1) }

/-- R76, R147: each bit of the window is its band's bit of bytes 2 and 3, so a response with one band's bit alone decodes to the
window with that bit alone. -/
def Obligations.WindowBitsAreTheirBands : Prop :=
  (∀ (p : Payload) (k : Nat), k ≤ 8 →
    (operatingCondition p).window.getLsbD k = if k = 0 then p.b3.getLsbD 7 else p.b2.getLsbD (k - 1)) ∧
  (∀ (b1 b4 : Byte) (k : Nat), k ≤ 8 →
    (operatingCondition ⟨b1, if k = 0 then 0x00#8 else 1#8 <<< (k - 1), if k = 0 then 0x80#8 else 0x00#8, b4⟩).window =
      1#9 <<< k)

/-! ## The Response Reader -/

/-- R120, R123: READ_R1 with in-bytes that are `k` idle-fill bytes and then the byte that stops the poll, another byte or the
ninth `0xFF`: `k + 1` exchanges, and that byte in `resp` and `result`; nothing else changes. That `op` keeps the code of the
operation after its end is the model's reading (R83; log 4). -/
def Obligations.ReadR1ReturnsTheByteThatStopsThePoll : Prop :=
  ∀ (k : Nat) (r1 : Byte) (rest : List Reply) (s : State), s.eng = .avail → k ≤ 8 → (r1 ≠ 0xFF#8 ∨ k = 8) →
    s.replies = List.replicate k (.byte 0xFF#8) ++ .byte r1 :: rest →
    exec .readR1 s = .next
      { s with op := some 0x2#4, eng := .avail, seq := none, opStatus := .ok, pollCnt := BitVec.ofNat 4 (k + 1),
               resp := ⟨some r1, none, none, none, none⟩, rtag := false, result := ResultReg.ofWord (0#56 ++ r1),
               rvalid := 0xFF#8, replies := rest,
               events := .x 0xFF#8 r1 :: (List.replicate k (.x 0xFF#8 0xFF#8) ++ s.events) }

/-- R121: what a READ_R1 that completes has done, whatever the transport answers: between 1 and 9 exchanges of the idle-fill
byte, of which only the last may bring another byte, and `0xFF` is the answer only after nine. -/
def Obligations.ReadR1PollsBetweenOneAndNineTimes : Prop :=
  ∀ s t : State, s.eng = .avail → exec .readR1 s = .next t → t.eng = .avail →
    ∃ (k : Nat) (r1 : Byte), k ≤ 8 ∧ (r1 = 0xFF#8 → k = 8) ∧ t.resp.b0 = some r1 ∧
      t.events = .x 0xFF#8 r1 :: (List.replicate k (.x 0xFF#8 0xFF#8) ++ s.events) ∧ countX t.events = countX s.events + k + 1

/-- R212 at READ_R1: a transport fault at a poll leaves the count of the polls before it and their events; no other register
is written but `op_status` and `eng` (`op` was written at acceptance). That `op` keeps the code of the operation after its end
is the model's reading (R83; log 4). -/
def Obligations.ReadR1FaultKeepsWhatWasDone : Prop :=
  ∀ (k : Nat) (rest : List Reply) (s : State), s.eng = .avail → k ≤ 8 →
    s.replies = List.replicate k (.byte 0xFF#8) ++ .fault :: rest →
    exec .readR1 s = .next
      { s with op := some 0x2#4, eng := .faulted, seq := none, opStatus := .faulted, pollCnt := BitVec.ofNat 4 k,
               replies := rest, events := List.replicate k (.x 0xFF#8 0xFF#8) ++ s.events }

/-- R124, R126: with a status of 2 or more READ_R3R7 makes no transport call: `resp` holds the status alone, and so does the
result, whose four other response bytes are UNDEF. That `op` keeps the code of the operation after its end is the model's
reading (R83; log 4). -/
def Obligations.ReadR3R7ShortCircuits : Prop :=
  ∀ (r1 : Byte) (s : State), s.eng = .avail → 0x02#8 ≤ r1 →
    exec (.readR3R7 r1) s = .next
      { s with op := some 0x3#4, eng := .avail, seq := none, opStatus := .ok,
               resp := ⟨some r1, none, none, none, none⟩, rtag := true,
               result := ⟨none, none, none, none, some r1, some 0#8, some 0#8, some 0#8⟩, rvalid := 0xF0#8 }

/-- R124, R125: with a status of at most 1 READ_R3R7 takes four bytes as they come, `0xFF` among them. That `op` keeps the
code of the operation after its end is the model's reading (R83; log 4). -/
def Obligations.ReadR3R7TakesFourBytesAsTheyCome : Prop :=
  ∀ (r1 b1 b2 b3 b4 : Byte) (rest : List Reply) (s : State), s.eng = .avail → r1 ≤ 0x01#8 →
    s.replies = .byte b1 :: .byte b2 :: .byte b3 :: .byte b4 :: rest →
    exec (.readR3R7 r1) s = .next
      { s with op := some 0x3#4, eng := .avail, seq := none, opStatus := .ok,
               resp := ⟨some r1, some b1, some b2, some b3, some b4⟩, rtag := true,
               result := ⟨some b4, some b3, some b2, some b1, some r1, some 0#8, some 0#8, some 0#8⟩, rvalid := 0xFF#8,
               replies := rest,
               events := .x 0xFF#8 b4 :: .x 0xFF#8 b3 :: .x 0xFF#8 b2 :: .x 0xFF#8 b1 :: s.events }

/-- R125, R212: a transport fault after `ins.length` of the four bytes leaves those bytes in `resp`; the other payload bytes
and the result keep what they held. That `op` keeps the code of the operation after its end is the model's reading (R83; log
4). -/
def Obligations.ReadR3R7FaultKeepsTheBytesBefore : Prop :=
  ∀ (r1 : Byte) (ins : List Byte) (rest : List Reply) (s : State), s.eng = .avail → r1 ≤ 0x01#8 → ins.length ≤ 3 →
    s.replies = ins.map Reply.byte ++ .fault :: rest →
    exec (.readR3R7 r1) s = .next
      { s with op := some 0x3#4, eng := .faulted, seq := none, opStatus := .faulted, rtag := true,
               resp := ⟨some r1, ins[0]?.or s.resp.b1, ins[1]?.or s.resp.b2, ins[2]?.or s.resp.b3, s.resp.b4⟩,
               replies := rest, events := (ins.map (Event.x 0xFF#8)).reverse ++ s.events }

/-! ## The command operations and the frames of the command ROM -/

/-- R163: GO_IDLE, when the card answers by a script, runs one exchange of the go-idle row and answers its status. That `op`
keeps the code of the operation after its end is the model's reading (R83; log 4). -/
def Obligations.GoIdleAnswersTheStatus : Prop :=
  ∀ (e : ExchangeScript) (rest : List Reply) (s : State), s.eng = .avail → Polled e.idle e.r1 = true →
    s.Answers (e.ins .goIdle) rest →
    exec .goIdle s = .next
      { s with op := some 0x8#4, eng := .avail, seq := none, opStatus := .ok, cs := false, frame := some (romFrame .goIdle),
               pollCnt := BitVec.ofNat 4 (e.idle + 1), resp := ⟨some e.r1, none, none, none, none⟩, rtag := false,
               result := ResultReg.ofWord (0#56 ++ e.r1), rvalid := 0xFF#8, replies := rest,
               events := (e.events .goIdle).reverse ++ s.events }

/-- R164: SEND_IF_COND answers the whole R7 response, or the status alone when it is 2 or more. That `op` keeps the code of
the operation after its end is the model's reading (R83; log 4). -/
def Obligations.SendIfCondAnswersTheResponse : Prop :=
  ∀ (e : ExchangeScript) (rest : List Reply) (s : State), s.eng = .avail → Polled e.idle e.r1 = true →
    s.Answers (e.ins .ifCond) rest →
    exec .sendIfCond s = .next
      { s with op := some 0x9#4, eng := .avail, seq := none, opStatus := .ok, cs := false, frame := some (romFrame .ifCond),
               pollCnt := BitVec.ofNat 4 (e.idle + 1), rtag := true,
               resp := if e.r1 ≤ 0x01#8 then
                   ⟨some e.r1, some e.payload.b1, some e.payload.b2, some e.payload.b3, some e.payload.b4⟩
                 else ⟨some e.r1, none, none, none, none⟩,
               result := if e.r1 ≤ 0x01#8 then
                   ⟨some e.payload.b4, some e.payload.b3, some e.payload.b2, some e.payload.b1, some e.r1, some 0#8, some 0#8,
                    some 0#8⟩
                 else ⟨none, none, none, none, some e.r1, some 0#8, some 0#8, some 0#8⟩,
               rvalid := if e.r1 ≤ 0x01#8 then 0xFF#8 else 0xF0#8, replies := rest,
               events := (e.events .ifCond).reverse ++ s.events }

/-- R166: READ_OCR answers the whole R3 response, or the status alone when it is 2 or more. That `op` keeps the code of the
operation after its end is the model's reading (R83; log 4). -/
def Obligations.ReadOcrAnswersTheResponse : Prop :=
  ∀ (e : ExchangeScript) (rest : List Reply) (s : State), s.eng = .avail → Polled e.idle e.r1 = true →
    s.Answers (e.ins .readOcr) rest →
    exec .readOcr s = .next
      { s with op := some 0xB#4, eng := .avail, seq := none, opStatus := .ok, cs := false, frame := some (romFrame .readOcr),
               pollCnt := BitVec.ofNat 4 (e.idle + 1), rtag := true,
               resp := if e.r1 ≤ 0x01#8 then
                   ⟨some e.r1, some e.payload.b1, some e.payload.b2, some e.payload.b3, some e.payload.b4⟩
                 else ⟨some e.r1, none, none, none, none⟩,
               result := if e.r1 ≤ 0x01#8 then
                   ⟨some e.payload.b4, some e.payload.b3, some e.payload.b2, some e.payload.b1, some e.r1, some 0#8, some 0#8,
                    some 0#8⟩
                 else ⟨none, none, none, none, some e.r1, some 0#8, some 0#8, some 0#8⟩,
               rvalid := if e.r1 ≤ 0x01#8 then 0xFF#8 else 0xF0#8, replies := rest,
               events := (e.events .readOcr).reverse ++ s.events }

/-- R162, R165: with a prefix status below 2 APP_OP_COND sends the operating-condition request at once and captures its
status. That `op` keeps the code of the operation after its end is the model's reading (R83; log 4). -/
def Obligations.AppOpCondSendsTheRequestAfterAGoodPrefix : Prop :=
  ∀ (a r : ExchangeScript) (rest : List Reply) (s : State), s.eng = .avail → a.r1 < 0x02#8 →
    Polled a.idle a.r1 = true → Polled r.idle r.r1 = true → s.Answers (a.ins .appCmd ++ r.ins .opCond) rest →
    exec .appOpCond s = .next
      { s with op := some 0xA#4, eng := .avail, seq := none, opStatus := .ok, cs := false, frame := some (romFrame .opCond),
               pollCnt := BitVec.ofNat 4 (r.idle + 1), resp := ⟨some r.r1, none, none, none, none⟩, rtag := false,
               captured := some r.r1, result := ResultReg.ofWord (0#47 ++ 1#1 ++ a.r1 ++ r.r1), rvalid := 0xFF#8,
               replies := rest, events := (a.events .appCmd ++ r.events .opCond).reverse ++ s.events }

/-- R162, R165: with a prefix status of 2 or more APP_OP_COND sends no request and captures the prefix's own status. That `op`
keeps the code of the operation after its end is the model's reading (R83; log 4). -/
def Obligations.AppOpCondSendsNoRequestAfterABadPrefix : Prop :=
  ∀ (a : ExchangeScript) (rest : List Reply) (s : State), s.eng = .avail → 0x02#8 ≤ a.r1 →
    Polled a.idle a.r1 = true → s.Answers (a.ins .appCmd) rest →
    exec .appOpCond s = .next
      { s with op := some 0xA#4, eng := .avail, seq := none, opStatus := .ok, cs := false, frame := some (romFrame .appCmd),
               pollCnt := BitVec.ofNat 4 (a.idle + 1), resp := ⟨some a.r1, none, none, none, none⟩, rtag := false,
               captured := some a.r1, result := ResultReg.ofWord (0#47 ++ 0#1 ++ a.r1 ++ a.r1), rvalid := 0xFF#8,
               replies := rest, events := (a.events .appCmd).reverse ++ s.events }

/-- R105, R160, R162 (what a FRAME48 row does when it is given to the engine is the model's choice; log 3): CMD0, CMD8, CMD55 and
CMD58 each run the exchange of their row, and write no register that `CommandExchange` does not write. ACMD41 runs one attempt
(R78): its prefix first, and the request at once after it when the prefix's status is below 2. -/
def Obligations.RomFramesRunTheirExchange : Prop :=
  (∀ (c : RomCmd) (e : ExchangeScript) (rest : List Reply) (s : State), c ≠ .opCond → s.eng = .avail →
    Polled e.idle e.r1 = true → s.Answers (e.ins c) rest →
    exec (romInstr c) s = .next
      { s with cs := false, frame := some (romFrame c), pollCnt := BitVec.ofNat 4 (e.idle + 1), rtag := !romShort c,
               resp := if romShort c = false ∧ e.r1 ≤ 0x01#8 then
                   ⟨some e.r1, some e.payload.b1, some e.payload.b2, some e.payload.b3, some e.payload.b4⟩
                 else ⟨some e.r1, none, none, none, none⟩,
               replies := rest, events := (e.events c).reverse ++ s.events }) ∧
  (∀ (a r : ExchangeScript) (rest : List Reply) (s : State), s.eng = .avail → a.r1 < 0x02#8 →
    Polled a.idle a.r1 = true → Polled r.idle r.r1 = true → s.Answers (a.ins .appCmd ++ r.ins .opCond) rest →
    exec .acmd41 s = .next
      { s with cs := false, frame := some (romFrame .opCond), pollCnt := BitVec.ofNat 4 (r.idle + 1), rtag := false,
               resp := ⟨some r.r1, none, none, none, none⟩, captured := some r.r1, replies := rest,
               events := (a.events .appCmd ++ r.events .opCond).reverse ++ s.events }) ∧
  (∀ (a : ExchangeScript) (rest : List Reply) (s : State), s.eng = .avail → 0x02#8 ≤ a.r1 →
    Polled a.idle a.r1 = true → s.Answers (a.ins .appCmd) rest →
    exec .acmd41 s = .next
      { s with cs := false, frame := some (romFrame .appCmd), pollCnt := BitVec.ofNat 4 (a.idle + 1), rtag := false,
               resp := ⟨some a.r1, none, none, none, none⟩, captured := some a.r1, replies := rest,
               events := (a.events .appCmd).reverse ++ s.events })

/-- R78 (a): whatever the transport answers, an instruction makes the exchange with out-byte `0x69`, the first byte of the
operating-condition request's frame, only right after a whole exchange of the prefix with a status below 2 and the opening of its
own bracket. -/
def Obligations.TheRequestFollowsItsPrefix : Prop :=
  ∀ (i : Instr) (s t : State), exec i s = .next t → ∃ evs, t.events = evs.reverse ++ s.events ∧
    ∀ (pre post : List Event) (b : Byte), evs = pre ++ .x 0x69#8 b :: post →
      ∃ (earlier : List Event) (e : ExchangeScript) (fill : Byte), Polled e.idle e.r1 = true ∧ e.r1 < 0x02#8 ∧
        pre = earlier ++ e.events .appCmd ++ [.cs true, .x 0xFF#8 fill]

/-- R161: the trace and the event counts of a command exchange that completes, whatever the transport answers. -/
def Obligations.AnExchangeMakesNineEventsAndItsResponse : Prop :=
  ∀ (c : RomCmd) (r1 : Byte) (s t : State), commandExchange c s = .ok r1 t →
    ∃ e : ExchangeScript, ∃ n : Nat, t.events = (e.events c).reverse ++ s.events ∧ n = (e.responseIns c).length ∧
      countCs (e.events c) = 2 ∧ (e.events c).head? = some (.cs true) ∧ countX (e.events c) = 9 + n ∧
      outBytes (e.events c) = 0xFF#8 :: (romFrame c).bytes ++ List.replicate (n + 2) 0xFF#8 ∧
      1 ≤ n ∧ n ≤ (if romShort c then 9 else 13) ∧ t.cs = false

/-- R167: the four command operations write none of INIT's registers, whether they complete, fault or are turned away. -/
def Obligations.CommandOperationsLeaveInitRegistersAlone : Prop :=
  ∀ (i : Instr) (s t : State), i = .goIdle ∨ i = .sendIfCond ∨ i = .appOpCond ∨ i = .readOcr → exec i s = .next t →
    t.initState = s.initState ∧ t.outcome = s.outcome ∧ t.ccs = s.ccs ∧ t.vwin = s.vwin ∧ t.idleCnt = s.idleCnt ∧
    t.negCnt = s.negCnt ∧ t.fillCnt = s.fillCnt

/-! ## Transport faults and completion -/

/-- R212, R38, R83: an operation either ends OK in AVAIL, or a transport fault ends it in FAULTED; then `result` and `rvalid` are
as before. Either way no step is left and the trace has only grown. That `op` still holds the code is the model's reading (log 4:
no rule clears it), as R22 gives it a meaning only while the operation is in flight. -/
def Obligations.OperationsEndOkOrFaulted : Prop :=
  ∀ (i : Instr) (s t : State), s.eng = .avail → i.opcode ≠ none → exec i s = .next t →
    t.op = i.opcode ∧ t.seq = none ∧ (∃ evs, t.events = evs ++ s.events) ∧
    ((t.eng = .avail ∧ t.opStatus = .ok ∧ t.rvalid = t.result.definedMask) ∨
     (t.eng = .faulted ∧ t.opStatus = .faulted ∧ t.result = s.result ∧ t.rvalid = s.rvalid))

/-- R212, R25: chip select is always as the trace last drove it. And for every instruction that completes, whatever the transport
answers: when the transport faults at exchange number `k` of that run instead, the events before that exchange stand and no other
is made, so no `SetCS(0)` follows inside a bracket and `cs` keeps what was last driven; the machine is in FAULTED, no step is
left, and `result` and `rvalid` are as before. -/
def Obligations.ATransportFaultLeavesWhatWasDone : Prop :=
  (∀ (i : Instr) (s t : State), exec i s = .next t →
    ∃ evs, t.events = evs.reverse ++ s.events ∧ t.cs = csAfter s.cs evs) ∧
  (∀ (i : Instr) (s t : State) (evs : List Event) (k : Nat) (rest : List Reply),
    s.eng = .avail → exec i s = .next t → t.eng = .avail → t.events = evs.reverse ++ s.events → k < countX evs →
    ∃ u, exec i { s with replies := ((inBytes evs).take k).map Reply.byte ++ .fault :: rest } = .next u ∧
      u.eng = .faulted ∧ u.opStatus = .faulted ∧ u.seq = none ∧
      u.events = (beforeExchange k evs).reverse ++ s.events ∧ u.cs = csAfter s.cs (beforeExchange k evs) ∧
      u.result = s.result ∧ u.rvalid = s.rvalid ∧ u.replies = rest ∧ u.draws = s.draws)

/-- R212, R18: a step of an operation in flight that makes an exchange either records its event, or takes the transport fault: then
every register but `eng`, `op_status` and `seq` is as it was, and so is the trace; a step that makes no exchange takes no answer of
the transport and no fault. One label is one step (log 11), with no move of the host left (log 7). -/
def Obligations.AFaultedExchangeWritesNothingElse : Prop :=
  ∀ (s t : State) (r : Reply) (rest : List Reply), s.eng = .busy → s.moves = [] → s.replies = r :: rest → step s = .next t →
    (t.replies = s.replies ∧ t.eng ≠ .faulted ∧ countX t.events = countX s.events) ∨
    (∃ out b, r = .byte b ∧ t.replies = rest ∧ t.eng = .busy ∧ t.events = .x out b :: s.events) ∨
    (r = .fault ∧ t = { s with replies := rest, eng := .faulted, opStatus := .faulted, seq := none })

/-- R211: the operations that make no transport call complete whatever the transport would answer, and draw nothing from it. -/
def Obligations.EncoderAndDecoderMakeNoTransportCall : Prop :=
  ∀ (i : Instr) (s : State), s.eng = .avail →
    ((∃ idx arg crc, i = .encode idx arg crc) ∨ (∃ b, i = .decodeR1 b) ∨ (∃ arg, i = .decodeR7 arg) ∨
      ∃ arg, i = .decodeR3 arg) →
    ∃ t, exec i s = .next t ∧ t.eng = .avail ∧ t.opStatus = .ok ∧ t.events = s.events ∧ t.replies = s.replies ∧
      t.draws = s.draws ∧ t.cs = s.cs ∧ t.resp = s.resp ∧ t.rtag = s.rtag

/-- R198, R83: on a transport that answers the next 3888 exchanges with bytes, every operation completes: it ends in AVAIL with
`op_status` OK, whatever the bytes are. -/
def Obligations.OperationsCompleteWhenNothingFaults : Prop :=
  ∀ (i : Instr) (ins : List Byte) (rest : List Reply) (s : State), s.eng = .avail → i.opcode ≠ none → 3888 ≤ ins.length →
    s.Answers ins rest →
    ∃ t left, exec i s = .next t ∧ t.eng = .avail ∧ t.opStatus = .ok ∧ t.cs = (if i.opcode.any (· ≤ 0x6#4) then s.cs else false) ∧
      left <:+ ins ∧ t.Answers left rest ∧ t.draws = s.draws

/-! ## INIT -/

/-- R181 to R194: the initialization that reaches Ready, for every script of answers the bounds and checks let through to a
read-OCR response with the power-up bit set: every register it leaves (`op` by log 4) and its whole trace. -/
def Obligations.InitReachesReady : Prop :=
  ∀ (t : InitScript) (rest : List Reply) (s : State), s.eng = .avail → t.wellFormed = true →
    t.ocr.r1 ≤ 0x01#8 → t.ocr.payload.b1.getLsbD 6 = true → s.Answers t.ins rest →
    exec .init s = .next
      { s with op := some 0xC#4, eng := .avail, seq := none, opStatus := .ok, initState := .ready, outcome := .success,
               cs := false, frame := some (romFrame .readOcr), pollCnt := BitVec.ofNat 4 (t.ocr.idle + 1),
               idleCnt := BitVec.ofNat 4 (t.idleFails.length + 1), negCnt := BitVec.ofNat 7 (t.negFails.length + 1),
               fillCnt := 10#4, rtag := true, captured := some 0x00#8,
               resp := ⟨some t.ocr.r1, some t.ocr.payload.b1, some t.ocr.payload.b2, some t.ocr.payload.b3,
                        some t.ocr.payload.b4⟩,
               ccs := some true, vwin := some (t.ocr.payload.b2 ++ t.ocr.payload.b3.extractLsb' 7 1),
               result := ResultReg.ofWord (0#25 ++ BitVec.ofNat 7 (t.negFails.length + 1) ++ 0#4 ++
                 BitVec.ofNat 4 (t.idleFails.length + 1) ++ 0#4 ++ 1#1 ++ 1#1 ++ 1#1 ++
                 (t.ocr.payload.b2 ++ t.ocr.payload.b3.extractLsb' 7 1) ++ 0#4 ++ 1#4),
               rvalid := 0xFF#8, replies := rest, events := t.events.reverse ++ s.events }

/-- R193: the same run up to a read-OCR response whose status is 2 or more or whose power-up bit is clear ends in Failed with
POWER_UP_INCOMPLETE, and `ccs` and `vwin` hold no value. That `op` keeps the code of the operation after its end is the
model's reading (R83; log 4). -/
def Obligations.InitReportsPowerUpIncomplete : Prop :=
  ∀ (t : InitScript) (rest : List Reply) (s : State), s.eng = .avail → t.wellFormed = true →
    (0x02#8 ≤ t.ocr.r1 ∨ t.ocr.payload.b1.getLsbD 6 = false) → s.Answers t.ins rest →
    exec .init s = .next
      { s with op := some 0xC#4, eng := .avail, seq := none, opStatus := .ok, initState := .failed,
               outcome := .powerUpIncomplete, cs := false, frame := some (romFrame .readOcr),
               pollCnt := BitVec.ofNat 4 (t.ocr.idle + 1), idleCnt := BitVec.ofNat 4 (t.idleFails.length + 1),
               negCnt := BitVec.ofNat 7 (t.negFails.length + 1), fillCnt := 10#4, resp := t.ocr.resp .readOcr, rtag := true,
               captured := some 0x00#8, ccs := none, vwin := none,
               result := ResultReg.ofWord (0#25 ++ BitVec.ofNat 7 (t.negFails.length + 1) ++ 0#4 ++
                 BitVec.ofNat 4 (t.idleFails.length + 1) ++ 0#20 ++ 6#4),
               rvalid := 0xFF#8, replies := rest, events := t.events.reverse ++ s.events }

/-- R183, R184: eleven go-idle attempts that are answered with any status but `0x01`, and no twelfth: IDLE_TIMEOUT. That `op`
keeps the code of the operation after its end is the model's reading (R83; log 4). -/
def Obligations.InitReportsIdleTimeout : Prop :=
  ∀ (fill : List Byte) (fails : List ExchangeScript) (last : ExchangeScript) (rest : List Reply) (s : State),
    s.eng = .avail → fill.length = 10 → fails.length = 10 → (fails ++ [last]).all ExchangeScript.idleFailed = true →
    s.Answers (fill ++ goIdleIns (fails ++ [last])) rest →
    exec .init s = .next
      { s with op := some 0xC#4, eng := .avail, seq := none, opStatus := .ok, initState := .failed, outcome := .idleTimeout,
               cs := false, frame := some (romFrame .goIdle), pollCnt := BitVec.ofNat 4 (last.idle + 1), idleCnt := 11#4,
               negCnt := 0#7, fillCnt := 10#4, resp := ⟨some last.r1, none, none, none, none⟩, rtag := false,
               captured := none, ccs := none, vwin := none, result := ResultReg.ofWord 0xB000002#64, rvalid := 0xFF#8,
               replies := rest,
               events := (powerUpEvents fill ++ goIdleEvents (fails ++ [last])).reverse ++ s.events }

/-- R185, R186: after an accepted go-idle attempt, an interface-condition status other than `0x01` gives IF_COND_REJECTED;
with the status `0x01`, an echo other than `0xAA` gives ECHO_MISMATCH. That `op` keeps the code of the operation after its end
is the model's reading (R83; log 4). -/
def Obligations.InitReportsARejectedInterfaceCondition : Prop :=
  ∀ (fill : List Byte) (fails : List ExchangeScript) (ok e : ExchangeScript) (rest : List Reply) (s : State),
    s.eng = .avail → fill.length = 10 → fails.length ≤ 10 → fails.all ExchangeScript.idleFailed = true →
    ok.idleAccepted = true → Polled e.idle e.r1 = true → (e.r1 ≠ 0x01#8 ∨ e.payload.b4 ≠ 0xAA#8) →
    s.Answers (fill ++ goIdleIns (fails ++ [ok]) ++ e.ins .ifCond) rest →
    exec .init s = .next
      { s with op := some 0xC#4, eng := .avail, seq := none, opStatus := .ok, initState := .failed,
               outcome := if e.r1 ≠ 0x01#8 then .ifCondRejected else .echoMismatch,
               cs := false, frame := some (romFrame .ifCond), pollCnt := BitVec.ofNat 4 (e.idle + 1),
               idleCnt := BitVec.ofNat 4 (fails.length + 1), negCnt := 0#7, fillCnt := 10#4, resp := e.resp .ifCond,
               rtag := true, captured := none, ccs := none, vwin := none,
               result := ResultReg.ofWord (0#36 ++ BitVec.ofNat 4 (fails.length + 1) ++ 0#20 ++
                 (if e.r1 ≠ 0x01#8 then 3#4 else 4#4)),
               rvalid := 0xFF#8, replies := rest,
               events := (powerUpEvents fill ++ goIdleEvents (fails ++ [ok]) ++ e.events .ifCond).reverse ++ s.events }

/-- R188 to R191: 101 negotiation attempts that capture any status but `0x00`, with a retry wait before each but the first,
and no 102nd: OP_COND_TIMEOUT. That `op` keeps the code of the operation after its end is the model's reading (R83; log 4). -/
def Obligations.InitReportsOpCondTimeout : Prop :=
  ∀ (fill : List Byte) (fails : List ExchangeScript) (ok e : ExchangeScript) (neg : List AttemptScript)
    (last : AttemptScript) (rest : List Reply) (s : State),
    s.eng = .avail → fill.length = 10 → fails.length ≤ 10 → fails.all ExchangeScript.idleFailed = true →
    ok.idleAccepted = true → Polled e.idle e.r1 = true → e.r1 = 0x01#8 → e.payload.b4 = 0xAA#8 →
    neg.length = 100 → (neg ++ [last]).all AttemptScript.failed = true →
    s.Answers (fill ++ goIdleIns (fails ++ [ok]) ++ e.ins .ifCond ++ negIns (neg ++ [last])) rest →
    exec .init s = .next
      { s with op := some 0xC#4, eng := .avail, seq := none, opStatus := .ok, initState := .failed,
               outcome := .opCondTimeout, cs := false, frame := some (romFrame last.lastCmd),
               pollCnt := BitVec.ofNat 4 (last.last.idle + 1), idleCnt := BitVec.ofNat 4 (fails.length + 1), negCnt := 101#7,
               fillCnt := 10#4, resp := ⟨some last.captured, none, none, none, none⟩, rtag := false,
               captured := some last.captured, ccs := none, vwin := none,
               result := ResultReg.ofWord (0#25 ++ 101#7 ++ 0#4 ++ BitVec.ofNat 4 (fails.length + 1) ++ 0#20 ++ 5#4),
               rvalid := 0xFF#8, replies := rest,
               events := (powerUpEvents fill ++ goIdleEvents (fails ++ [ok]) ++ e.events .ifCond ++
                 negEvents (neg ++ [last])).reverse ++ s.events }

/-- R194, R195, R197: how an INIT that no fault ends leaves the result registers, whatever the transport answers: Ready with
SUCCESS, capacity support 1 and the window of the response, or Failed with one of the five reasons and no value in `ccs` and
`vwin`; `op_status` is OK either way. -/
def Obligations.InitEndsReadyOrFailedWithAReason : Prop :=
  ∀ s t : State, s.eng = .avail → exec .init s = .next t → t.eng = .avail →
    t.opStatus = .ok ∧ t.rvalid = 0xFF#8 ∧ t.result = ResultReg.ofWord t.initResult ∧
    ((t.initState = .ready ∧ t.outcome = .success ∧ t.ccs = some true ∧
        ∃ b2 b3, t.resp.b2 = some b2 ∧ t.resp.b3 = some b3 ∧ t.vwin = some (b2 ++ b3.extractLsb' 7 1)) ∨
     (t.initState = .failed ∧ t.outcome.isFailure = true ∧ t.ccs = none ∧ t.vwin = none))

/-- R212, R216: an INIT that a transport fault ends reports no outcome: `outcome` is NONE, `ccs` and `vwin` hold no value, and it is
in no end state. -/
def Obligations.FaultedInitReportsNoOutcome : Prop :=
  ∀ s t : State, s.eng = .avail → exec .init s = .next t → t.eng = .faulted →
    t.outcome = .none ∧ t.ccs = none ∧ t.vwin = none ∧ t.initState ≠ .ready ∧ t.initState ≠ .failed ∧
    t.result = s.result ∧ t.rvalid = s.rvalid ∧ t.opStatus = .faulted

/-- R190, R198: the bounds on the trace of an INIT that no fault ends, whatever the transport answers. -/
def Obligations.InitTraceIsBounded : Prop :=
  ∀ s t : State, s.eng = .avail → exec .init s = .next t → t.eng = .avail →
    ∃ evs : List Event, t.events = evs.reverse ++ s.events ∧ countW .settle evs = 1 ∧
      countW .retry evs = t.negCnt.toNat - 1 ∧ countW .retry evs ≤ 100 ∧
      30 ≤ countX evs ∧ countX evs ≤ 3888 ∧ 5 ≤ countCs evs ∧ countCs evs ≤ 431 ∧
      (t.outcome = .success → 68 ≤ countX evs ∧ 11 ≤ countCs evs)

/-- R251: an INIT that makes `k` negotiation attempts, `k` at least 1, lasts at least the settle delay and `k - 1` retry delays;
at least 1005 ms with the defaults when it makes all 101. -/
def Obligations.InitLastsAtLeastItsDelays : Prop :=
  ∀ s t : State, s.eng = .avail → exec .init s = .next t → t.eng = .avail →
    ∃ evs : List Event, t.events = evs.reverse ++ s.events ∧ 5 ≤ leastMs evs ∧
      leastMs evs = Config.tSettleMs + (t.negCnt.toNat - 1) * Config.tRetryMs ∧
      (t.negCnt = 101#7 → 1005 ≤ leastMs evs)

/-- R196: a new INIT is a new attempt: from two states with the same answers of the transport to come, however else they differ,
a completed INIT leaves the same registers and has made the same events. -/
def Obligations.InitDependsOnTheCardAlone : Prop :=
  ∀ s1 s2 t1 t2 : State, s1.eng = .avail → s2.eng = .avail → s1.replies = s2.replies → s1.draws = s2.draws →
    exec .init s1 = .next t1 → exec .init s2 = .next t2 → t1.eng = .avail →
    t1 = { t2 with moves := t1.moves, events := t1.events } ∧
    ∃ evs, t1.events = evs ++ s1.events ∧ t2.events = evs ++ s2.events

/-! ## The sequencer (R23) -/

/-- R23, R41, R60, R240: an operation accepted and then run one step at a time ends in the state `exec` gives for it, is BUSY until
then, and on its way never reads an UNDEF value, which would be a fault. That it ends rests on the transport's liveness (R247,
D44; log 6); that an operation runs whole or one label a step is the model's choice (log 1, 11). -/
def Obligations.TheSequencerRunsWhatExecDoes : Prop :=
  ∀ (i : Instr) (p : Pos) (s : State), s.eng = .avail → firstPos i = some p →
    ∃ a t n, beginInstr i s = .next a ∧ exec i s = .next t ∧ seqSteps n a = .next t ∧
      ∀ m, ∃ u, seqSteps m a = .next u ∧ (u.eng = .busy ∨ u = t)

/-! ## The host's view -/

/-- R40, R41, R60: a read changes nothing (the list of moves apart; log 7), and STATUS can be read in every mode: ENG, OPST and the
0 of bit 7, and INIT_STATE but for the time in which INIT is in flight, when it holds no value (the model's choice; log 19).
From acceptance until `eng` leaves BUSY, no register shows the host anything of what the operation writes (its steps are log 1
and 11). That no bit above the eight of STATUS is known is log 8. -/
def Obligations.ReadsChangeNothingAndStatusIsAlwaysReadable : Prop :=
  (∀ (s t : State) (n : Nat) (use : BitVec 64) (rest : List Move), s.moves = .read n use :: rest → step s = .next t →
    t = { s with moves := rest }) ∧
  (∀ s : State, ∃ v, hostRead 0 s = some v ∧ v.value.extractLsb' 0 2 = s.eng.code ∧
    v.value.extractLsb' 2 2 = s.opStatus.code ∧ v.value.getLsbD 7 = false ∧
    (s.eng ≠ .busy ∨ s.op ≠ some 0xC#4 → v.known = 0xFF#64 ∧ v.value.extractLsb' 4 3 = s.initState.code) ∧
    (s.eng = .busy → s.op = some 0xC#4 → v.known = 0x8F#64)) ∧
  (∀ (i : Instr) (p : Pos) (opc : BitVec 4) (s t : State) (n k : Nat), s.eng = .avail → firstPos i = some p →
    i.opcode = some opc → seqSteps n (acceptAt p opc s) = .next t → t.eng = .busy →
    hostRead k t = hostRead k (acceptAt p opc s))

/-- R19, R240: a consumer that uses an UNDEF byte of the response or of the result is at fault; where every bit it uses holds a
value, the read goes through. That a field of `result` whose valid bit is 0 counts as holding the 0 written there is the model's
choice (R86; log 20). -/
def Obligations.UsingAnUndefByteIsAFault : Prop :=
  ∀ (s : State) (rest : List Move) (n : Nat) (use : BitVec 64), s.eng ≠ .busy → s.moves = .read n use :: rest →
    (∀ b, [s.resp.b0, s.resp.b1, s.resp.b2, s.resp.b3, s.resp.b4][n - 4]? = some b → 4 ≤ n →
      (b = none → use ≠ 0#64 → step s = .fault .undefConsumed) ∧
      ((b ≠ none ∨ use = 0#64) → use &&& 0xFF#64 = use → step s = .next { s with moves := rest })) ∧
    (n = 9 →
      ((∃ k, k < 8 ∧ s.rvalid.getLsbD k = false ∧ use.extractLsb' (8 * k) 8 ≠ 0#8) → step s = .fault .undefConsumed) ∧
      ((∀ k, k < 8 → use.extractLsb' (8 * k) 8 ≠ 0#8 → s.rvalid.getLsbD k = true) → step s = .next { s with moves := rest }))

/-- R40, U4: OCRINFO shows VWIN_VALID, CCS_VALID and the 0 of its top bits always, and VWIN and CCS only while they hold values. -/
def Obligations.OcrInfoShowsTheLatchedFields : Prop :=
  ∀ s : State, s.eng ≠ .busy → ∃ v, hostRead 2 s = some v ∧
    v.value.getLsbD 9 = s.vwin.isSome ∧ v.value.getLsbD 11 = s.ccs.isSome ∧ v.value.extractLsb' 12 4 = 0#4 ∧
    v.known.getLsbD 9 = true ∧ v.known.getLsbD 11 = true ∧ v.known.extractLsb' 12 4 = 0xF#4 ∧
    (∀ w, s.vwin = some w → v.value.extractLsb' 0 9 = w ∧ v.known.extractLsb' 0 9 = BitVec.allOnes 9) ∧
    (s.vwin = none → v.known.extractLsb' 0 9 = 0#9) ∧
    (∀ c, s.ccs = some c → v.value.getLsbD 10 = c ∧ v.known.getLsbD 10 = true) ∧ (s.ccs = none → v.known.getLsbD 10 = false)

/-- R40, R38, R31: what OUTCOME, RESPV, RESP0 to RESP4, RESULT and RVALID show outside BUSY: OUTCOME its code under four 0 bits, RESPV
the tag and which response bytes hold values under two 0 bits, a response byte its value or nothing, RESULT the bytes whose `rvalid`
bit is 1 with the values they hold, RVALID its eight bits. That no bit above a register's width is known (log 8), and that a field
of RESULT whose own valid bit is 0 counts as holding the 0 written there, which R86 says carries no value (log 20), are the model's
choices. -/
def Obligations.HostRegistersShowTheirValues : Prop :=
  ∀ s : State, s.eng ≠ .busy →
    (∃ v, hostRead 1 s = some v ∧ v.known = 0xFF#64 ∧ v.value.extractLsb' 0 4 = s.outcome.code ∧
      v.value.extractLsb' 4 4 = 0#4) ∧
    (∃ v, hostRead 3 s = some v ∧ v.known = 0xFF#64 ∧ v.value.getLsbD 0 = s.resp.b0.isSome ∧
      v.value.getLsbD 1 = s.resp.b1.isSome ∧ v.value.getLsbD 2 = s.resp.b2.isSome ∧ v.value.getLsbD 3 = s.resp.b3.isSome ∧
      v.value.getLsbD 4 = s.resp.b4.isSome ∧ v.value.getLsbD 5 = s.rtag ∧ v.value.extractLsb' 6 2 = 0#2) ∧
    (∀ (k : Nat) (b : Option Byte), [s.resp.b0, s.resp.b1, s.resp.b2, s.resp.b3, s.resp.b4][k]? = some b →
      ∃ v, hostRead (4 + k) s = some v ∧ (∀ x, b = some x → v.known = 0xFF#64 ∧ v.value.extractLsb' 0 8 = x) ∧
        (b = none → v.known = 0#64)) ∧
    (∃ v, hostRead 9 s = some v ∧ ∀ (k : Nat) (b : Option Byte),
      [s.result.b0, s.result.b1, s.result.b2, s.result.b3, s.result.b4, s.result.b5, s.result.b6, s.result.b7][k]? = some b →
        v.known.extractLsb' (8 * k) 8 = (if s.rvalid.getLsbD k then 0xFF#8 else 0x00#8) ∧
        ∀ x, b = some x → v.value.extractLsb' (8 * k) 8 = x) ∧
    (∃ v, hostRead 10 s = some v ∧ v.known = 0xFF#64 ∧ v.value.extractLsb' 0 8 = s.rvalid)

/-- R58: a host register numbered 11 or more does not exist; the ones numbered 0 to 10 do. That the model has such a read and
refuses it by name is log 8. -/
def Obligations.ThereAreElevenHostRegisters : Prop :=
  (∀ (n : Nat) (s : State), (hostRead n s).isSome = true ↔ n ≤ 10) ∧
  (∀ (n : Nat) (use : BitVec 64) (rest : List Move) (s : State), 11 ≤ n → s.moves = .read n use :: rest →
    step s = .refused .noSuchRegister)

/-- R88: `DECODE_R7 resp` and `DECODE_R3 resp` are the operations on bytes 1 to 4 of the response; a host that uses them while
one of the four is UNDEF is at fault (R240). R88 takes the bytes from the host's copy of RESP1 to RESP4: that the model takes the
response registers at the moment of the move is its choice (log 7). -/
def Obligations.DecodeRespUsesTheResponseBytes : Prop :=
  ∀ (s : State) (rest : List Move), s.eng ≠ .busy →
    (∀ b1 b2 b3 b4, s.resp.b1 = some b1 → s.resp.b2 = some b2 → s.resp.b3 = some b3 → s.resp.b4 = some b4 →
      (s.moves = .decodeResp .r7 :: rest → step s = exec (.decodeR7 (b1 ++ b2 ++ b3 ++ b4)) { s with moves := rest }) ∧
      (s.moves = .decodeResp .r3 :: rest → step s = exec (.decodeR3 (b1 ++ b2 ++ b3 ++ b4)) { s with moves := rest })) ∧
    (s.resp.b1 = none ∨ s.resp.b2 = none ∨ s.resp.b3 = none ∨ s.resp.b4 = none →
      ∀ k, s.moves = .decodeResp k :: rest → step s = .fault .undefConsumed)

/-- R81, R87, R88: every assembler line. One whose operands fit, the index 6 bits, the argument 32 and every other operand 8, becomes
the request word of its operation with those operands, the first of four bytes most significant; one with an operand that does not
fit is an assembly error; a line without operands is its operation; ENCODE with a ROM name is ENCODE with that row's index,
argument and CRC byte; the two `resp` forms are the host's move on its response bytes. -/
def Obligations.AssembledLinesAreTheirRequestWords : Prop :=
  (∀ idx arg crc : Nat,
    (idx < 64 → arg < 2 ^ 32 → crc < 256 → ∃ w, assemble (.encode idx arg crc) = .ok (.request w) ∧
      ∃ i a c, decode (.request w) = .ok (.encode i a c) ∧ i.toNat = idx ∧ a.toNat = arg ∧ c.toNat = crc) ∧
    (64 ≤ idx ∨ 2 ^ 32 ≤ arg ∨ 256 ≤ crc → assemble (.encode idx arg crc) = .error .operandTooWide)) ∧
  (∀ n : Nat,
    (n < 256 →
      (∃ w b, assemble (.readR3R7 n) = .ok (.request w) ∧ decode (.request w) = .ok (.readR3R7 b) ∧ b.toNat = n) ∧
      (∃ w b, assemble (.decodeR1 n) = .ok (.request w) ∧ decode (.request w) = .ok (.decodeR1 b) ∧ b.toNat = n)) ∧
    (256 ≤ n → assemble (.readR3R7 n) = .error .operandTooWide ∧ assemble (.decodeR1 n) = .error .operandTooWide)) ∧
  (∀ b1 b2 b3 b4 : Nat,
    (b1 < 256 → b2 < 256 → b3 < 256 → b4 < 256 →
      (∃ w a, assemble (.decodeR7 b1 b2 b3 b4) = .ok (.request w) ∧ decode (.request w) = .ok (.decodeR7 a) ∧
        a.toNat = b1 * 2 ^ 24 + b2 * 2 ^ 16 + b3 * 2 ^ 8 + b4) ∧
      (∃ w a, assemble (.decodeR3 b1 b2 b3 b4) = .ok (.request w) ∧ decode (.request w) = .ok (.decodeR3 a) ∧
        a.toNat = b1 * 2 ^ 24 + b2 * 2 ^ 16 + b3 * 2 ^ 8 + b4)) ∧
    (256 ≤ b1 ∨ 256 ≤ b2 ∨ 256 ≤ b3 ∨ 256 ≤ b4 →
      assemble (.decodeR7 b1 b2 b3 b4) = .error .operandTooWide ∧
      assemble (.decodeR3 b1 b2 b3 b4) = .error .operandTooWide)) ∧
  (∀ (l : AsmLine) (i : Instr),
    (l, i) ∈ [(.readR1, .readR1), (.goIdle, .goIdle), (.sendIfCond, .sendIfCond), (.appOpCond, .appOpCond),
      (.readOcr, .readOcr), (.init, .init)] →
    ∃ w, assemble l = .ok (.request w) ∧ decode (.request w) = .ok i) ∧
  (∀ c : RomCmd, assemble (.encodeRom c) = assemble (.encode (romIndex c).toNat (romArg c).toNat (romCrc c).toNat)) ∧
  assemble .decodeR7Resp = .ok (.decodeResp .r7) ∧ assemble .decodeR3Resp = .ok (.decodeResp .r3)

/-! ## Invariants -/

/-- The reset state is settled and within its bounds (R43); the host's list of moves is empty there (log 7). -/
def Obligations.ResetMeetsTheInvariants : Prop :=
  State.reset.Quiet ∧ State.reset.InBounds

/-- R21, R23, R26 to R29, R31, R34 to R38, R107, R212: between operations no step is left, chip select is deasserted in AVAIL, the
response buffer has its form, `op_status` shows FAULTED exactly in FAULTED, `rvalid` says which bytes of `result` hold values, the
counters are in their ranges, the frame register is a frame, and `outcome`, `init_state`, `ccs` and `vwin` belong together: every
step of a host that lets each operation run to its end keeps this. -/
def Obligations.EveryStepKeepsQuiet : Prop :=
  ∀ s t : State, s.Quiet → step s = .next t → t.Quiet

/-- R17, R21, R23, R26 to R29, R107: every step, also one of an operation in flight, keeps the counters within their bounds, leaves a
step exactly while BUSY, and leaves a frame in the frame register. -/
def Obligations.EveryStepKeepsInBounds : Prop :=
  ∀ s t : State, s.InBounds → step s = .next t → t.InBounds
end

