-- ==== Sys2Proof/Laws/State.lean ====
section
/-! SUPPORT. Laws/State.lean: one lemma per field per named update of State. A field the update does not write keeps its
value; these are the frames of the shared operations. -/

namespace Sys2Proof.Machine

/-! ### State.emit -/

@[simp] theorem State.emit_eng (e : Event) (s : State) : (s.emit e).eng = s.eng := rfl
@[simp] theorem State.emit_op (e : Event) (s : State) : (s.emit e).op = s.op := rfl
@[simp] theorem State.emit_seq (e : Event) (s : State) : (s.emit e).seq = s.seq := rfl
@[simp] theorem State.emit_initState (e : Event) (s : State) : (s.emit e).initState = s.initState := rfl
@[simp] theorem State.emit_cs (e : Event) (s : State) : (s.emit e).cs = s.cs := rfl
@[simp] theorem State.emit_pollCnt (e : Event) (s : State) : (s.emit e).pollCnt = s.pollCnt := rfl
@[simp] theorem State.emit_idleCnt (e : Event) (s : State) : (s.emit e).idleCnt = s.idleCnt := rfl
@[simp] theorem State.emit_negCnt (e : Event) (s : State) : (s.emit e).negCnt = s.negCnt := rfl
@[simp] theorem State.emit_fillCnt (e : Event) (s : State) : (s.emit e).fillCnt = s.fillCnt := rfl
@[simp] theorem State.emit_frame (e : Event) (s : State) : (s.emit e).frame = s.frame := rfl
@[simp] theorem State.emit_resp (e : Event) (s : State) : (s.emit e).resp = s.resp := rfl
@[simp] theorem State.emit_rtag (e : Event) (s : State) : (s.emit e).rtag = s.rtag := rfl
@[simp] theorem State.emit_captured (e : Event) (s : State) : (s.emit e).captured = s.captured := rfl
@[simp] theorem State.emit_outcome (e : Event) (s : State) : (s.emit e).outcome = s.outcome := rfl
@[simp] theorem State.emit_ccs (e : Event) (s : State) : (s.emit e).ccs = s.ccs := rfl
@[simp] theorem State.emit_vwin (e : Event) (s : State) : (s.emit e).vwin = s.vwin := rfl
@[simp] theorem State.emit_opStatus (e : Event) (s : State) : (s.emit e).opStatus = s.opStatus := rfl
@[simp] theorem State.emit_result (e : Event) (s : State) : (s.emit e).result = s.result := rfl
@[simp] theorem State.emit_rvalid (e : Event) (s : State) : (s.emit e).rvalid = s.rvalid := rfl
@[simp] theorem State.emit_moves (e : Event) (s : State) : (s.emit e).moves = s.moves := rfl
@[simp] theorem State.emit_replies (e : Event) (s : State) : (s.emit e).replies = s.replies := rfl
@[simp] theorem State.emit_draws (e : Event) (s : State) : (s.emit e).draws = s.draws := rfl
@[simp] theorem State.emit_events (e : Event) (s : State) : (s.emit e).events = e :: s.events := rfl

/-! ### State.takeTransportFault -/

@[simp] theorem State.takeTransportFault_eng (s : State) : s.takeTransportFault.eng = .faulted := rfl
@[simp] theorem State.takeTransportFault_op (s : State) : s.takeTransportFault.op = s.op := rfl
@[simp] theorem State.takeTransportFault_seq (s : State) : s.takeTransportFault.seq = none := rfl
@[simp] theorem State.takeTransportFault_initState (s : State) : s.takeTransportFault.initState = s.initState := rfl
@[simp] theorem State.takeTransportFault_cs (s : State) : s.takeTransportFault.cs = s.cs := rfl
@[simp] theorem State.takeTransportFault_pollCnt (s : State) : s.takeTransportFault.pollCnt = s.pollCnt := rfl
@[simp] theorem State.takeTransportFault_idleCnt (s : State) : s.takeTransportFault.idleCnt = s.idleCnt := rfl
@[simp] theorem State.takeTransportFault_negCnt (s : State) : s.takeTransportFault.negCnt = s.negCnt := rfl
@[simp] theorem State.takeTransportFault_fillCnt (s : State) : s.takeTransportFault.fillCnt = s.fillCnt := rfl
@[simp] theorem State.takeTransportFault_frame (s : State) : s.takeTransportFault.frame = s.frame := rfl
@[simp] theorem State.takeTransportFault_resp (s : State) : s.takeTransportFault.resp = s.resp := rfl
@[simp] theorem State.takeTransportFault_rtag (s : State) : s.takeTransportFault.rtag = s.rtag := rfl
@[simp] theorem State.takeTransportFault_captured (s : State) : s.takeTransportFault.captured = s.captured := rfl
@[simp] theorem State.takeTransportFault_outcome (s : State) : s.takeTransportFault.outcome = s.outcome := rfl
@[simp] theorem State.takeTransportFault_ccs (s : State) : s.takeTransportFault.ccs = s.ccs := rfl
@[simp] theorem State.takeTransportFault_vwin (s : State) : s.takeTransportFault.vwin = s.vwin := rfl
@[simp] theorem State.takeTransportFault_opStatus (s : State) : s.takeTransportFault.opStatus = .faulted := rfl
@[simp] theorem State.takeTransportFault_result (s : State) : s.takeTransportFault.result = s.result := rfl
@[simp] theorem State.takeTransportFault_rvalid (s : State) : s.takeTransportFault.rvalid = s.rvalid := rfl
@[simp] theorem State.takeTransportFault_moves (s : State) : s.takeTransportFault.moves = s.moves := rfl
@[simp] theorem State.takeTransportFault_replies (s : State) : s.takeTransportFault.replies = s.replies := rfl
@[simp] theorem State.takeTransportFault_draws (s : State) : s.takeTransportFault.draws = s.draws := rfl
@[simp] theorem State.takeTransportFault_events (s : State) : s.takeTransportFault.events = s.events := rfl

/-! ### State.setCs -/

@[simp] theorem State.setCs_eng (b : Bool) (s : State) : (s.setCs b).eng = s.eng := rfl
@[simp] theorem State.setCs_op (b : Bool) (s : State) : (s.setCs b).op = s.op := rfl
@[simp] theorem State.setCs_seq (b : Bool) (s : State) : (s.setCs b).seq = s.seq := rfl
@[simp] theorem State.setCs_initState (b : Bool) (s : State) : (s.setCs b).initState = s.initState := rfl
@[simp] theorem State.setCs_cs (b : Bool) (s : State) : (s.setCs b).cs = b := rfl
@[simp] theorem State.setCs_pollCnt (b : Bool) (s : State) : (s.setCs b).pollCnt = s.pollCnt := rfl
@[simp] theorem State.setCs_idleCnt (b : Bool) (s : State) : (s.setCs b).idleCnt = s.idleCnt := rfl
@[simp] theorem State.setCs_negCnt (b : Bool) (s : State) : (s.setCs b).negCnt = s.negCnt := rfl
@[simp] theorem State.setCs_fillCnt (b : Bool) (s : State) : (s.setCs b).fillCnt = s.fillCnt := rfl
@[simp] theorem State.setCs_frame (b : Bool) (s : State) : (s.setCs b).frame = s.frame := rfl
@[simp] theorem State.setCs_resp (b : Bool) (s : State) : (s.setCs b).resp = s.resp := rfl
@[simp] theorem State.setCs_rtag (b : Bool) (s : State) : (s.setCs b).rtag = s.rtag := rfl
@[simp] theorem State.setCs_captured (b : Bool) (s : State) : (s.setCs b).captured = s.captured := rfl
@[simp] theorem State.setCs_outcome (b : Bool) (s : State) : (s.setCs b).outcome = s.outcome := rfl
@[simp] theorem State.setCs_ccs (b : Bool) (s : State) : (s.setCs b).ccs = s.ccs := rfl
@[simp] theorem State.setCs_vwin (b : Bool) (s : State) : (s.setCs b).vwin = s.vwin := rfl
@[simp] theorem State.setCs_opStatus (b : Bool) (s : State) : (s.setCs b).opStatus = s.opStatus := rfl
@[simp] theorem State.setCs_result (b : Bool) (s : State) : (s.setCs b).result = s.result := rfl
@[simp] theorem State.setCs_rvalid (b : Bool) (s : State) : (s.setCs b).rvalid = s.rvalid := rfl
@[simp] theorem State.setCs_moves (b : Bool) (s : State) : (s.setCs b).moves = s.moves := rfl
@[simp] theorem State.setCs_replies (b : Bool) (s : State) : (s.setCs b).replies = s.replies := rfl
@[simp] theorem State.setCs_draws (b : Bool) (s : State) : (s.setCs b).draws = s.draws := rfl
@[simp] theorem State.setCs_events (b : Bool) (s : State) : (s.setCs b).events = .cs b :: s.events := rfl

/-! ### State.delay -/

@[simp] theorem State.delay_eng (k : Delay) (s : State) : (s.delay k).eng = s.eng := rfl
@[simp] theorem State.delay_op (k : Delay) (s : State) : (s.delay k).op = s.op := rfl
@[simp] theorem State.delay_seq (k : Delay) (s : State) : (s.delay k).seq = s.seq := rfl
@[simp] theorem State.delay_initState (k : Delay) (s : State) : (s.delay k).initState = s.initState := rfl
@[simp] theorem State.delay_cs (k : Delay) (s : State) : (s.delay k).cs = s.cs := rfl
@[simp] theorem State.delay_pollCnt (k : Delay) (s : State) : (s.delay k).pollCnt = s.pollCnt := rfl
@[simp] theorem State.delay_idleCnt (k : Delay) (s : State) : (s.delay k).idleCnt = s.idleCnt := rfl
@[simp] theorem State.delay_negCnt (k : Delay) (s : State) : (s.delay k).negCnt = s.negCnt := rfl
@[simp] theorem State.delay_fillCnt (k : Delay) (s : State) : (s.delay k).fillCnt = s.fillCnt := rfl
@[simp] theorem State.delay_frame (k : Delay) (s : State) : (s.delay k).frame = s.frame := rfl
@[simp] theorem State.delay_resp (k : Delay) (s : State) : (s.delay k).resp = s.resp := rfl
@[simp] theorem State.delay_rtag (k : Delay) (s : State) : (s.delay k).rtag = s.rtag := rfl
@[simp] theorem State.delay_captured (k : Delay) (s : State) : (s.delay k).captured = s.captured := rfl
@[simp] theorem State.delay_outcome (k : Delay) (s : State) : (s.delay k).outcome = s.outcome := rfl
@[simp] theorem State.delay_ccs (k : Delay) (s : State) : (s.delay k).ccs = s.ccs := rfl
@[simp] theorem State.delay_vwin (k : Delay) (s : State) : (s.delay k).vwin = s.vwin := rfl
@[simp] theorem State.delay_opStatus (k : Delay) (s : State) : (s.delay k).opStatus = s.opStatus := rfl
@[simp] theorem State.delay_result (k : Delay) (s : State) : (s.delay k).result = s.result := rfl
@[simp] theorem State.delay_rvalid (k : Delay) (s : State) : (s.delay k).rvalid = s.rvalid := rfl
@[simp] theorem State.delay_moves (k : Delay) (s : State) : (s.delay k).moves = s.moves := rfl
@[simp] theorem State.delay_replies (k : Delay) (s : State) : (s.delay k).replies = s.replies := rfl
@[simp] theorem State.delay_draws (k : Delay) (s : State) : (s.delay k).draws = s.draws := rfl
@[simp] theorem State.delay_events (k : Delay) (s : State) : (s.delay k).events = .w k :: s.events := rfl

/-! ### State.storeR1Form -/

@[simp] theorem State.storeR1Form_eng (r1 : Byte) (s : State) : (s.storeR1Form r1).eng = s.eng := rfl
@[simp] theorem State.storeR1Form_op (r1 : Byte) (s : State) : (s.storeR1Form r1).op = s.op := rfl
@[simp] theorem State.storeR1Form_seq (r1 : Byte) (s : State) : (s.storeR1Form r1).seq = s.seq := rfl
@[simp] theorem State.storeR1Form_initState (r1 : Byte) (s : State) : (s.storeR1Form r1).initState = s.initState := rfl
@[simp] theorem State.storeR1Form_cs (r1 : Byte) (s : State) : (s.storeR1Form r1).cs = s.cs := rfl
@[simp] theorem State.storeR1Form_pollCnt (r1 : Byte) (s : State) : (s.storeR1Form r1).pollCnt = s.pollCnt := rfl
@[simp] theorem State.storeR1Form_idleCnt (r1 : Byte) (s : State) : (s.storeR1Form r1).idleCnt = s.idleCnt := rfl
@[simp] theorem State.storeR1Form_negCnt (r1 : Byte) (s : State) : (s.storeR1Form r1).negCnt = s.negCnt := rfl
@[simp] theorem State.storeR1Form_fillCnt (r1 : Byte) (s : State) : (s.storeR1Form r1).fillCnt = s.fillCnt := rfl
@[simp] theorem State.storeR1Form_frame (r1 : Byte) (s : State) : (s.storeR1Form r1).frame = s.frame := rfl
@[simp] theorem State.storeR1Form_resp (r1 : Byte) (s : State) : (s.storeR1Form r1).resp = ⟨some r1, none, none, none, none⟩ := rfl
@[simp] theorem State.storeR1Form_rtag (r1 : Byte) (s : State) : (s.storeR1Form r1).rtag = false := rfl
@[simp] theorem State.storeR1Form_captured (r1 : Byte) (s : State) : (s.storeR1Form r1).captured = s.captured := rfl
@[simp] theorem State.storeR1Form_outcome (r1 : Byte) (s : State) : (s.storeR1Form r1).outcome = s.outcome := rfl
@[simp] theorem State.storeR1Form_ccs (r1 : Byte) (s : State) : (s.storeR1Form r1).ccs = s.ccs := rfl
@[simp] theorem State.storeR1Form_vwin (r1 : Byte) (s : State) : (s.storeR1Form r1).vwin = s.vwin := rfl
@[simp] theorem State.storeR1Form_opStatus (r1 : Byte) (s : State) : (s.storeR1Form r1).opStatus = s.opStatus := rfl
@[simp] theorem State.storeR1Form_result (r1 : Byte) (s : State) : (s.storeR1Form r1).result = s.result := rfl
@[simp] theorem State.storeR1Form_rvalid (r1 : Byte) (s : State) : (s.storeR1Form r1).rvalid = s.rvalid := rfl
@[simp] theorem State.storeR1Form_moves (r1 : Byte) (s : State) : (s.storeR1Form r1).moves = s.moves := rfl
@[simp] theorem State.storeR1Form_replies (r1 : Byte) (s : State) : (s.storeR1Form r1).replies = s.replies := rfl
@[simp] theorem State.storeR1Form_draws (r1 : Byte) (s : State) : (s.storeR1Form r1).draws = s.draws := rfl
@[simp] theorem State.storeR1Form_events (r1 : Byte) (s : State) : (s.storeR1Form r1).events = s.events := rfl

/-! ### State.writeResult -/

@[simp] theorem State.writeResult_eng (w : BitVec 64) (s : State) : (s.writeResult w).eng = s.eng := rfl
@[simp] theorem State.writeResult_op (w : BitVec 64) (s : State) : (s.writeResult w).op = s.op := rfl
@[simp] theorem State.writeResult_seq (w : BitVec 64) (s : State) : (s.writeResult w).seq = s.seq := rfl
@[simp] theorem State.writeResult_initState (w : BitVec 64) (s : State) : (s.writeResult w).initState = s.initState := rfl
@[simp] theorem State.writeResult_cs (w : BitVec 64) (s : State) : (s.writeResult w).cs = s.cs := rfl
@[simp] theorem State.writeResult_pollCnt (w : BitVec 64) (s : State) : (s.writeResult w).pollCnt = s.pollCnt := rfl
@[simp] theorem State.writeResult_idleCnt (w : BitVec 64) (s : State) : (s.writeResult w).idleCnt = s.idleCnt := rfl
@[simp] theorem State.writeResult_negCnt (w : BitVec 64) (s : State) : (s.writeResult w).negCnt = s.negCnt := rfl
@[simp] theorem State.writeResult_fillCnt (w : BitVec 64) (s : State) : (s.writeResult w).fillCnt = s.fillCnt := rfl
@[simp] theorem State.writeResult_frame (w : BitVec 64) (s : State) : (s.writeResult w).frame = s.frame := rfl
@[simp] theorem State.writeResult_resp (w : BitVec 64) (s : State) : (s.writeResult w).resp = s.resp := rfl
@[simp] theorem State.writeResult_rtag (w : BitVec 64) (s : State) : (s.writeResult w).rtag = s.rtag := rfl
@[simp] theorem State.writeResult_captured (w : BitVec 64) (s : State) : (s.writeResult w).captured = s.captured := rfl
@[simp] theorem State.writeResult_outcome (w : BitVec 64) (s : State) : (s.writeResult w).outcome = s.outcome := rfl
@[simp] theorem State.writeResult_ccs (w : BitVec 64) (s : State) : (s.writeResult w).ccs = s.ccs := rfl
@[simp] theorem State.writeResult_vwin (w : BitVec 64) (s : State) : (s.writeResult w).vwin = s.vwin := rfl
@[simp] theorem State.writeResult_opStatus (w : BitVec 64) (s : State) : (s.writeResult w).opStatus = s.opStatus := rfl
@[simp] theorem State.writeResult_result (w : BitVec 64) (s : State) : (s.writeResult w).result = ResultReg.ofWord w := rfl
@[simp] theorem State.writeResult_rvalid (w : BitVec 64) (s : State) : (s.writeResult w).rvalid = 0xFF#8 := rfl
@[simp] theorem State.writeResult_moves (w : BitVec 64) (s : State) : (s.writeResult w).moves = s.moves := rfl
@[simp] theorem State.writeResult_replies (w : BitVec 64) (s : State) : (s.writeResult w).replies = s.replies := rfl
@[simp] theorem State.writeResult_draws (w : BitVec 64) (s : State) : (s.writeResult w).draws = s.draws := rfl
@[simp] theorem State.writeResult_events (w : BitVec 64) (s : State) : (s.writeResult w).events = s.events := rfl

/-! ### State.writePack5 -/

@[simp] theorem State.writePack5_eng (s : State) : s.writePack5.eng = s.eng := rfl
@[simp] theorem State.writePack5_op (s : State) : s.writePack5.op = s.op := rfl
@[simp] theorem State.writePack5_seq (s : State) : s.writePack5.seq = s.seq := rfl
@[simp] theorem State.writePack5_initState (s : State) : s.writePack5.initState = s.initState := rfl
@[simp] theorem State.writePack5_cs (s : State) : s.writePack5.cs = s.cs := rfl
@[simp] theorem State.writePack5_pollCnt (s : State) : s.writePack5.pollCnt = s.pollCnt := rfl
@[simp] theorem State.writePack5_idleCnt (s : State) : s.writePack5.idleCnt = s.idleCnt := rfl
@[simp] theorem State.writePack5_negCnt (s : State) : s.writePack5.negCnt = s.negCnt := rfl
@[simp] theorem State.writePack5_fillCnt (s : State) : s.writePack5.fillCnt = s.fillCnt := rfl
@[simp] theorem State.writePack5_frame (s : State) : s.writePack5.frame = s.frame := rfl
@[simp] theorem State.writePack5_resp (s : State) : s.writePack5.resp = s.resp := rfl
@[simp] theorem State.writePack5_rtag (s : State) : s.writePack5.rtag = s.rtag := rfl
@[simp] theorem State.writePack5_captured (s : State) : s.writePack5.captured = s.captured := rfl
@[simp] theorem State.writePack5_outcome (s : State) : s.writePack5.outcome = s.outcome := rfl
@[simp] theorem State.writePack5_ccs (s : State) : s.writePack5.ccs = s.ccs := rfl
@[simp] theorem State.writePack5_vwin (s : State) : s.writePack5.vwin = s.vwin := rfl
@[simp] theorem State.writePack5_opStatus (s : State) : s.writePack5.opStatus = s.opStatus := rfl
@[simp] theorem State.writePack5_result (s : State) : s.writePack5.result = ResultReg.pack5 s.resp := rfl
@[simp] theorem State.writePack5_rvalid (s : State) : s.writePack5.rvalid = (ResultReg.pack5 s.resp).definedMask := rfl
@[simp] theorem State.writePack5_moves (s : State) : s.writePack5.moves = s.moves := rfl
@[simp] theorem State.writePack5_replies (s : State) : s.writePack5.replies = s.replies := rfl
@[simp] theorem State.writePack5_draws (s : State) : s.writePack5.draws = s.draws := rfl
@[simp] theorem State.writePack5_events (s : State) : s.writePack5.events = s.events := rfl

/-! ### State.accept -/

@[simp] theorem State.accept_eng (o : BitVec 4) (s : State) : (s.accept o).eng = .busy := rfl
@[simp] theorem State.accept_op (o : BitVec 4) (s : State) : (s.accept o).op = some o := rfl
@[simp] theorem State.accept_seq (o : BitVec 4) (s : State) : (s.accept o).seq = s.seq := rfl
@[simp] theorem State.accept_initState (o : BitVec 4) (s : State) : (s.accept o).initState = s.initState := rfl
@[simp] theorem State.accept_cs (o : BitVec 4) (s : State) : (s.accept o).cs = s.cs := rfl
@[simp] theorem State.accept_pollCnt (o : BitVec 4) (s : State) : (s.accept o).pollCnt = s.pollCnt := rfl
@[simp] theorem State.accept_idleCnt (o : BitVec 4) (s : State) : (s.accept o).idleCnt = s.idleCnt := rfl
@[simp] theorem State.accept_negCnt (o : BitVec 4) (s : State) : (s.accept o).negCnt = s.negCnt := rfl
@[simp] theorem State.accept_fillCnt (o : BitVec 4) (s : State) : (s.accept o).fillCnt = s.fillCnt := rfl
@[simp] theorem State.accept_frame (o : BitVec 4) (s : State) : (s.accept o).frame = s.frame := rfl
@[simp] theorem State.accept_resp (o : BitVec 4) (s : State) : (s.accept o).resp = s.resp := rfl
@[simp] theorem State.accept_rtag (o : BitVec 4) (s : State) : (s.accept o).rtag = s.rtag := rfl
@[simp] theorem State.accept_captured (o : BitVec 4) (s : State) : (s.accept o).captured = s.captured := rfl
@[simp] theorem State.accept_outcome (o : BitVec 4) (s : State) : (s.accept o).outcome = s.outcome := rfl
@[simp] theorem State.accept_ccs (o : BitVec 4) (s : State) : (s.accept o).ccs = s.ccs := rfl
@[simp] theorem State.accept_vwin (o : BitVec 4) (s : State) : (s.accept o).vwin = s.vwin := rfl
@[simp] theorem State.accept_opStatus (o : BitVec 4) (s : State) : (s.accept o).opStatus = s.opStatus := rfl
@[simp] theorem State.accept_result (o : BitVec 4) (s : State) : (s.accept o).result = s.result := rfl
@[simp] theorem State.accept_rvalid (o : BitVec 4) (s : State) : (s.accept o).rvalid = s.rvalid := rfl
@[simp] theorem State.accept_moves (o : BitVec 4) (s : State) : (s.accept o).moves = s.moves := rfl
@[simp] theorem State.accept_replies (o : BitVec 4) (s : State) : (s.accept o).replies = s.replies := rfl
@[simp] theorem State.accept_draws (o : BitVec 4) (s : State) : (s.accept o).draws = s.draws := rfl
@[simp] theorem State.accept_events (o : BitVec 4) (s : State) : (s.accept o).events = s.events := rfl

/-! ### State.complete -/

@[simp] theorem State.complete_eng (s : State) : s.complete.eng = .avail := rfl
@[simp] theorem State.complete_op (s : State) : s.complete.op = s.op := rfl
@[simp] theorem State.complete_seq (s : State) : s.complete.seq = none := rfl
@[simp] theorem State.complete_initState (s : State) : s.complete.initState = s.initState := rfl
@[simp] theorem State.complete_cs (s : State) : s.complete.cs = s.cs := rfl
@[simp] theorem State.complete_pollCnt (s : State) : s.complete.pollCnt = s.pollCnt := rfl
@[simp] theorem State.complete_idleCnt (s : State) : s.complete.idleCnt = s.idleCnt := rfl
@[simp] theorem State.complete_negCnt (s : State) : s.complete.negCnt = s.negCnt := rfl
@[simp] theorem State.complete_fillCnt (s : State) : s.complete.fillCnt = s.fillCnt := rfl
@[simp] theorem State.complete_frame (s : State) : s.complete.frame = s.frame := rfl
@[simp] theorem State.complete_resp (s : State) : s.complete.resp = s.resp := rfl
@[simp] theorem State.complete_rtag (s : State) : s.complete.rtag = s.rtag := rfl
@[simp] theorem State.complete_captured (s : State) : s.complete.captured = s.captured := rfl
@[simp] theorem State.complete_outcome (s : State) : s.complete.outcome = s.outcome := rfl
@[simp] theorem State.complete_ccs (s : State) : s.complete.ccs = s.ccs := rfl
@[simp] theorem State.complete_vwin (s : State) : s.complete.vwin = s.vwin := rfl
@[simp] theorem State.complete_opStatus (s : State) : s.complete.opStatus = .ok := rfl
@[simp] theorem State.complete_result (s : State) : s.complete.result = s.result := rfl
@[simp] theorem State.complete_rvalid (s : State) : s.complete.rvalid = s.rvalid := rfl
@[simp] theorem State.complete_moves (s : State) : s.complete.moves = s.moves := rfl
@[simp] theorem State.complete_replies (s : State) : s.complete.replies = s.replies := rfl
@[simp] theorem State.complete_draws (s : State) : s.complete.draws = s.draws := rfl
@[simp] theorem State.complete_events (s : State) : s.complete.events = s.events := rfl

/-! ### State.refuseIllegal -/

@[simp] theorem State.refuseIllegal_eng (s : State) : s.refuseIllegal.eng = s.eng := rfl
@[simp] theorem State.refuseIllegal_op (s : State) : s.refuseIllegal.op = s.op := rfl
@[simp] theorem State.refuseIllegal_seq (s : State) : s.refuseIllegal.seq = s.seq := rfl
@[simp] theorem State.refuseIllegal_initState (s : State) : s.refuseIllegal.initState = s.initState := rfl
@[simp] theorem State.refuseIllegal_cs (s : State) : s.refuseIllegal.cs = s.cs := rfl
@[simp] theorem State.refuseIllegal_pollCnt (s : State) : s.refuseIllegal.pollCnt = s.pollCnt := rfl
@[simp] theorem State.refuseIllegal_idleCnt (s : State) : s.refuseIllegal.idleCnt = s.idleCnt := rfl
@[simp] theorem State.refuseIllegal_negCnt (s : State) : s.refuseIllegal.negCnt = s.negCnt := rfl
@[simp] theorem State.refuseIllegal_fillCnt (s : State) : s.refuseIllegal.fillCnt = s.fillCnt := rfl
@[simp] theorem State.refuseIllegal_frame (s : State) : s.refuseIllegal.frame = s.frame := rfl
@[simp] theorem State.refuseIllegal_resp (s : State) : s.refuseIllegal.resp = s.resp := rfl
@[simp] theorem State.refuseIllegal_rtag (s : State) : s.refuseIllegal.rtag = s.rtag := rfl
@[simp] theorem State.refuseIllegal_captured (s : State) : s.refuseIllegal.captured = s.captured := rfl
@[simp] theorem State.refuseIllegal_outcome (s : State) : s.refuseIllegal.outcome = s.outcome := rfl
@[simp] theorem State.refuseIllegal_ccs (s : State) : s.refuseIllegal.ccs = s.ccs := rfl
@[simp] theorem State.refuseIllegal_vwin (s : State) : s.refuseIllegal.vwin = s.vwin := rfl
@[simp] theorem State.refuseIllegal_opStatus (s : State) : s.refuseIllegal.opStatus = .illegal := rfl
@[simp] theorem State.refuseIllegal_result (s : State) : s.refuseIllegal.result = s.result := rfl
@[simp] theorem State.refuseIllegal_rvalid (s : State) : s.refuseIllegal.rvalid = s.rvalid := rfl
@[simp] theorem State.refuseIllegal_moves (s : State) : s.refuseIllegal.moves = s.moves := rfl
@[simp] theorem State.refuseIllegal_replies (s : State) : s.refuseIllegal.replies = s.replies := rfl
@[simp] theorem State.refuseIllegal_draws (s : State) : s.refuseIllegal.draws = s.draws := rfl
@[simp] theorem State.refuseIllegal_events (s : State) : s.refuseIllegal.events = s.events := rfl

/-! ### State.refuseFaulted -/

@[simp] theorem State.refuseFaulted_eng (s : State) : s.refuseFaulted.eng = s.eng := rfl
@[simp] theorem State.refuseFaulted_op (s : State) : s.refuseFaulted.op = s.op := rfl
@[simp] theorem State.refuseFaulted_seq (s : State) : s.refuseFaulted.seq = s.seq := rfl
@[simp] theorem State.refuseFaulted_initState (s : State) : s.refuseFaulted.initState = s.initState := rfl
@[simp] theorem State.refuseFaulted_cs (s : State) : s.refuseFaulted.cs = s.cs := rfl
@[simp] theorem State.refuseFaulted_pollCnt (s : State) : s.refuseFaulted.pollCnt = s.pollCnt := rfl
@[simp] theorem State.refuseFaulted_idleCnt (s : State) : s.refuseFaulted.idleCnt = s.idleCnt := rfl
@[simp] theorem State.refuseFaulted_negCnt (s : State) : s.refuseFaulted.negCnt = s.negCnt := rfl
@[simp] theorem State.refuseFaulted_fillCnt (s : State) : s.refuseFaulted.fillCnt = s.fillCnt := rfl
@[simp] theorem State.refuseFaulted_frame (s : State) : s.refuseFaulted.frame = s.frame := rfl
@[simp] theorem State.refuseFaulted_resp (s : State) : s.refuseFaulted.resp = s.resp := rfl
@[simp] theorem State.refuseFaulted_rtag (s : State) : s.refuseFaulted.rtag = s.rtag := rfl
@[simp] theorem State.refuseFaulted_captured (s : State) : s.refuseFaulted.captured = s.captured := rfl
@[simp] theorem State.refuseFaulted_outcome (s : State) : s.refuseFaulted.outcome = s.outcome := rfl
@[simp] theorem State.refuseFaulted_ccs (s : State) : s.refuseFaulted.ccs = s.ccs := rfl
@[simp] theorem State.refuseFaulted_vwin (s : State) : s.refuseFaulted.vwin = s.vwin := rfl
@[simp] theorem State.refuseFaulted_opStatus (s : State) : s.refuseFaulted.opStatus = .faulted := rfl
@[simp] theorem State.refuseFaulted_result (s : State) : s.refuseFaulted.result = s.result := rfl
@[simp] theorem State.refuseFaulted_rvalid (s : State) : s.refuseFaulted.rvalid = s.rvalid := rfl
@[simp] theorem State.refuseFaulted_moves (s : State) : s.refuseFaulted.moves = s.moves := rfl
@[simp] theorem State.refuseFaulted_replies (s : State) : s.refuseFaulted.replies = s.replies := rfl
@[simp] theorem State.refuseFaulted_draws (s : State) : s.refuseFaulted.draws = s.draws := rfl
@[simp] theorem State.refuseFaulted_events (s : State) : s.refuseFaulted.events = s.events := rfl

/-! ### State.storeFrame -/

@[simp] theorem State.storeFrame_eng (f : Frame) (s : State) : (s.storeFrame f).eng = s.eng := rfl
@[simp] theorem State.storeFrame_op (f : Frame) (s : State) : (s.storeFrame f).op = s.op := rfl
@[simp] theorem State.storeFrame_seq (f : Frame) (s : State) : (s.storeFrame f).seq = s.seq := rfl
@[simp] theorem State.storeFrame_initState (f : Frame) (s : State) : (s.storeFrame f).initState = s.initState := rfl
@[simp] theorem State.storeFrame_cs (f : Frame) (s : State) : (s.storeFrame f).cs = s.cs := rfl
@[simp] theorem State.storeFrame_pollCnt (f : Frame) (s : State) : (s.storeFrame f).pollCnt = s.pollCnt := rfl
@[simp] theorem State.storeFrame_idleCnt (f : Frame) (s : State) : (s.storeFrame f).idleCnt = s.idleCnt := rfl
@[simp] theorem State.storeFrame_negCnt (f : Frame) (s : State) : (s.storeFrame f).negCnt = s.negCnt := rfl
@[simp] theorem State.storeFrame_fillCnt (f : Frame) (s : State) : (s.storeFrame f).fillCnt = s.fillCnt := rfl
@[simp] theorem State.storeFrame_frame (f : Frame) (s : State) : (s.storeFrame f).frame = some f := rfl
@[simp] theorem State.storeFrame_resp (f : Frame) (s : State) : (s.storeFrame f).resp = s.resp := rfl
@[simp] theorem State.storeFrame_rtag (f : Frame) (s : State) : (s.storeFrame f).rtag = s.rtag := rfl
@[simp] theorem State.storeFrame_captured (f : Frame) (s : State) : (s.storeFrame f).captured = s.captured := rfl
@[simp] theorem State.storeFrame_outcome (f : Frame) (s : State) : (s.storeFrame f).outcome = s.outcome := rfl
@[simp] theorem State.storeFrame_ccs (f : Frame) (s : State) : (s.storeFrame f).ccs = s.ccs := rfl
@[simp] theorem State.storeFrame_vwin (f : Frame) (s : State) : (s.storeFrame f).vwin = s.vwin := rfl
@[simp] theorem State.storeFrame_opStatus (f : Frame) (s : State) : (s.storeFrame f).opStatus = s.opStatus := rfl
@[simp] theorem State.storeFrame_result (f : Frame) (s : State) : (s.storeFrame f).result = s.result := rfl
@[simp] theorem State.storeFrame_rvalid (f : Frame) (s : State) : (s.storeFrame f).rvalid = s.rvalid := rfl
@[simp] theorem State.storeFrame_moves (f : Frame) (s : State) : (s.storeFrame f).moves = s.moves := rfl
@[simp] theorem State.storeFrame_replies (f : Frame) (s : State) : (s.storeFrame f).replies = s.replies := rfl
@[simp] theorem State.storeFrame_draws (f : Frame) (s : State) : (s.storeFrame f).draws = s.draws := rfl
@[simp] theorem State.storeFrame_events (f : Frame) (s : State) : (s.storeFrame f).events = s.events := rfl

/-! ### State.countPoll -/

@[simp] theorem State.countPoll_eng (s : State) : s.countPoll.eng = s.eng := rfl
@[simp] theorem State.countPoll_op (s : State) : s.countPoll.op = s.op := rfl
@[simp] theorem State.countPoll_seq (s : State) : s.countPoll.seq = s.seq := rfl
@[simp] theorem State.countPoll_initState (s : State) : s.countPoll.initState = s.initState := rfl
@[simp] theorem State.countPoll_cs (s : State) : s.countPoll.cs = s.cs := rfl
@[simp] theorem State.countPoll_pollCnt (s : State) : s.countPoll.pollCnt = s.pollCnt + 1#4 := rfl
@[simp] theorem State.countPoll_idleCnt (s : State) : s.countPoll.idleCnt = s.idleCnt := rfl
@[simp] theorem State.countPoll_negCnt (s : State) : s.countPoll.negCnt = s.negCnt := rfl
@[simp] theorem State.countPoll_fillCnt (s : State) : s.countPoll.fillCnt = s.fillCnt := rfl
@[simp] theorem State.countPoll_frame (s : State) : s.countPoll.frame = s.frame := rfl
@[simp] theorem State.countPoll_resp (s : State) : s.countPoll.resp = s.resp := rfl
@[simp] theorem State.countPoll_rtag (s : State) : s.countPoll.rtag = s.rtag := rfl
@[simp] theorem State.countPoll_captured (s : State) : s.countPoll.captured = s.captured := rfl
@[simp] theorem State.countPoll_outcome (s : State) : s.countPoll.outcome = s.outcome := rfl
@[simp] theorem State.countPoll_ccs (s : State) : s.countPoll.ccs = s.ccs := rfl
@[simp] theorem State.countPoll_vwin (s : State) : s.countPoll.vwin = s.vwin := rfl
@[simp] theorem State.countPoll_opStatus (s : State) : s.countPoll.opStatus = s.opStatus := rfl
@[simp] theorem State.countPoll_result (s : State) : s.countPoll.result = s.result := rfl
@[simp] theorem State.countPoll_rvalid (s : State) : s.countPoll.rvalid = s.rvalid := rfl
@[simp] theorem State.countPoll_moves (s : State) : s.countPoll.moves = s.moves := rfl
@[simp] theorem State.countPoll_replies (s : State) : s.countPoll.replies = s.replies := rfl
@[simp] theorem State.countPoll_draws (s : State) : s.countPoll.draws = s.draws := rfl
@[simp] theorem State.countPoll_events (s : State) : s.countPoll.events = s.events := rfl

/-! ### State.openResp -/

@[simp] theorem State.openResp_eng (r1 : Byte) (s : State) : (s.openResp r1).eng = s.eng := rfl
@[simp] theorem State.openResp_op (r1 : Byte) (s : State) : (s.openResp r1).op = s.op := rfl
@[simp] theorem State.openResp_seq (r1 : Byte) (s : State) : (s.openResp r1).seq = s.seq := rfl
@[simp] theorem State.openResp_initState (r1 : Byte) (s : State) : (s.openResp r1).initState = s.initState := rfl
@[simp] theorem State.openResp_cs (r1 : Byte) (s : State) : (s.openResp r1).cs = s.cs := rfl
@[simp] theorem State.openResp_pollCnt (r1 : Byte) (s : State) : (s.openResp r1).pollCnt = s.pollCnt := rfl
@[simp] theorem State.openResp_idleCnt (r1 : Byte) (s : State) : (s.openResp r1).idleCnt = s.idleCnt := rfl
@[simp] theorem State.openResp_negCnt (r1 : Byte) (s : State) : (s.openResp r1).negCnt = s.negCnt := rfl
@[simp] theorem State.openResp_fillCnt (r1 : Byte) (s : State) : (s.openResp r1).fillCnt = s.fillCnt := rfl
@[simp] theorem State.openResp_frame (r1 : Byte) (s : State) : (s.openResp r1).frame = s.frame := rfl
@[simp] theorem State.openResp_resp (r1 : Byte) (s : State) : (s.openResp r1).resp = { s.resp with b0 := some r1 } := rfl
@[simp] theorem State.openResp_rtag (r1 : Byte) (s : State) : (s.openResp r1).rtag = true := rfl
@[simp] theorem State.openResp_captured (r1 : Byte) (s : State) : (s.openResp r1).captured = s.captured := rfl
@[simp] theorem State.openResp_outcome (r1 : Byte) (s : State) : (s.openResp r1).outcome = s.outcome := rfl
@[simp] theorem State.openResp_ccs (r1 : Byte) (s : State) : (s.openResp r1).ccs = s.ccs := rfl
@[simp] theorem State.openResp_vwin (r1 : Byte) (s : State) : (s.openResp r1).vwin = s.vwin := rfl
@[simp] theorem State.openResp_opStatus (r1 : Byte) (s : State) : (s.openResp r1).opStatus = s.opStatus := rfl
@[simp] theorem State.openResp_result (r1 : Byte) (s : State) : (s.openResp r1).result = s.result := rfl
@[simp] theorem State.openResp_rvalid (r1 : Byte) (s : State) : (s.openResp r1).rvalid = s.rvalid := rfl
@[simp] theorem State.openResp_moves (r1 : Byte) (s : State) : (s.openResp r1).moves = s.moves := rfl
@[simp] theorem State.openResp_replies (r1 : Byte) (s : State) : (s.openResp r1).replies = s.replies := rfl
@[simp] theorem State.openResp_draws (r1 : Byte) (s : State) : (s.openResp r1).draws = s.draws := rfl
@[simp] theorem State.openResp_events (r1 : Byte) (s : State) : (s.openResp r1).events = s.events := rfl

/-! ### State.undefPayload -/

@[simp] theorem State.undefPayload_eng (s : State) : s.undefPayload.eng = s.eng := rfl
@[simp] theorem State.undefPayload_op (s : State) : s.undefPayload.op = s.op := rfl
@[simp] theorem State.undefPayload_seq (s : State) : s.undefPayload.seq = s.seq := rfl
@[simp] theorem State.undefPayload_initState (s : State) : s.undefPayload.initState = s.initState := rfl
@[simp] theorem State.undefPayload_cs (s : State) : s.undefPayload.cs = s.cs := rfl
@[simp] theorem State.undefPayload_pollCnt (s : State) : s.undefPayload.pollCnt = s.pollCnt := rfl
@[simp] theorem State.undefPayload_idleCnt (s : State) : s.undefPayload.idleCnt = s.idleCnt := rfl
@[simp] theorem State.undefPayload_negCnt (s : State) : s.undefPayload.negCnt = s.negCnt := rfl
@[simp] theorem State.undefPayload_fillCnt (s : State) : s.undefPayload.fillCnt = s.fillCnt := rfl
@[simp] theorem State.undefPayload_frame (s : State) : s.undefPayload.frame = s.frame := rfl
@[simp] theorem State.undefPayload_resp (s : State) : s.undefPayload.resp = { s.resp with b1 := none, b2 := none, b3 := none, b4 := none } := rfl
@[simp] theorem State.undefPayload_rtag (s : State) : s.undefPayload.rtag = s.rtag := rfl
@[simp] theorem State.undefPayload_captured (s : State) : s.undefPayload.captured = s.captured := rfl
@[simp] theorem State.undefPayload_outcome (s : State) : s.undefPayload.outcome = s.outcome := rfl
@[simp] theorem State.undefPayload_ccs (s : State) : s.undefPayload.ccs = s.ccs := rfl
@[simp] theorem State.undefPayload_vwin (s : State) : s.undefPayload.vwin = s.vwin := rfl
@[simp] theorem State.undefPayload_opStatus (s : State) : s.undefPayload.opStatus = s.opStatus := rfl
@[simp] theorem State.undefPayload_result (s : State) : s.undefPayload.result = s.result := rfl
@[simp] theorem State.undefPayload_rvalid (s : State) : s.undefPayload.rvalid = s.rvalid := rfl
@[simp] theorem State.undefPayload_moves (s : State) : s.undefPayload.moves = s.moves := rfl
@[simp] theorem State.undefPayload_replies (s : State) : s.undefPayload.replies = s.replies := rfl
@[simp] theorem State.undefPayload_draws (s : State) : s.undefPayload.draws = s.draws := rfl
@[simp] theorem State.undefPayload_events (s : State) : s.undefPayload.events = s.events := rfl

/-! ### State.storeResp1 -/

@[simp] theorem State.storeResp1_eng (b : Byte) (s : State) : (s.storeResp1 b).eng = s.eng := rfl
@[simp] theorem State.storeResp1_op (b : Byte) (s : State) : (s.storeResp1 b).op = s.op := rfl
@[simp] theorem State.storeResp1_seq (b : Byte) (s : State) : (s.storeResp1 b).seq = s.seq := rfl
@[simp] theorem State.storeResp1_initState (b : Byte) (s : State) : (s.storeResp1 b).initState = s.initState := rfl
@[simp] theorem State.storeResp1_cs (b : Byte) (s : State) : (s.storeResp1 b).cs = s.cs := rfl
@[simp] theorem State.storeResp1_pollCnt (b : Byte) (s : State) : (s.storeResp1 b).pollCnt = s.pollCnt := rfl
@[simp] theorem State.storeResp1_idleCnt (b : Byte) (s : State) : (s.storeResp1 b).idleCnt = s.idleCnt := rfl
@[simp] theorem State.storeResp1_negCnt (b : Byte) (s : State) : (s.storeResp1 b).negCnt = s.negCnt := rfl
@[simp] theorem State.storeResp1_fillCnt (b : Byte) (s : State) : (s.storeResp1 b).fillCnt = s.fillCnt := rfl
@[simp] theorem State.storeResp1_frame (b : Byte) (s : State) : (s.storeResp1 b).frame = s.frame := rfl
@[simp] theorem State.storeResp1_resp (b : Byte) (s : State) : (s.storeResp1 b).resp = { s.resp with b1 := some b } := rfl
@[simp] theorem State.storeResp1_rtag (b : Byte) (s : State) : (s.storeResp1 b).rtag = s.rtag := rfl
@[simp] theorem State.storeResp1_captured (b : Byte) (s : State) : (s.storeResp1 b).captured = s.captured := rfl
@[simp] theorem State.storeResp1_outcome (b : Byte) (s : State) : (s.storeResp1 b).outcome = s.outcome := rfl
@[simp] theorem State.storeResp1_ccs (b : Byte) (s : State) : (s.storeResp1 b).ccs = s.ccs := rfl
@[simp] theorem State.storeResp1_vwin (b : Byte) (s : State) : (s.storeResp1 b).vwin = s.vwin := rfl
@[simp] theorem State.storeResp1_opStatus (b : Byte) (s : State) : (s.storeResp1 b).opStatus = s.opStatus := rfl
@[simp] theorem State.storeResp1_result (b : Byte) (s : State) : (s.storeResp1 b).result = s.result := rfl
@[simp] theorem State.storeResp1_rvalid (b : Byte) (s : State) : (s.storeResp1 b).rvalid = s.rvalid := rfl
@[simp] theorem State.storeResp1_moves (b : Byte) (s : State) : (s.storeResp1 b).moves = s.moves := rfl
@[simp] theorem State.storeResp1_replies (b : Byte) (s : State) : (s.storeResp1 b).replies = s.replies := rfl
@[simp] theorem State.storeResp1_draws (b : Byte) (s : State) : (s.storeResp1 b).draws = s.draws := rfl
@[simp] theorem State.storeResp1_events (b : Byte) (s : State) : (s.storeResp1 b).events = s.events := rfl

/-! ### State.storeResp2 -/

@[simp] theorem State.storeResp2_eng (b : Byte) (s : State) : (s.storeResp2 b).eng = s.eng := rfl
@[simp] theorem State.storeResp2_op (b : Byte) (s : State) : (s.storeResp2 b).op = s.op := rfl
@[simp] theorem State.storeResp2_seq (b : Byte) (s : State) : (s.storeResp2 b).seq = s.seq := rfl
@[simp] theorem State.storeResp2_initState (b : Byte) (s : State) : (s.storeResp2 b).initState = s.initState := rfl
@[simp] theorem State.storeResp2_cs (b : Byte) (s : State) : (s.storeResp2 b).cs = s.cs := rfl
@[simp] theorem State.storeResp2_pollCnt (b : Byte) (s : State) : (s.storeResp2 b).pollCnt = s.pollCnt := rfl
@[simp] theorem State.storeResp2_idleCnt (b : Byte) (s : State) : (s.storeResp2 b).idleCnt = s.idleCnt := rfl
@[simp] theorem State.storeResp2_negCnt (b : Byte) (s : State) : (s.storeResp2 b).negCnt = s.negCnt := rfl
@[simp] theorem State.storeResp2_fillCnt (b : Byte) (s : State) : (s.storeResp2 b).fillCnt = s.fillCnt := rfl
@[simp] theorem State.storeResp2_frame (b : Byte) (s : State) : (s.storeResp2 b).frame = s.frame := rfl
@[simp] theorem State.storeResp2_resp (b : Byte) (s : State) : (s.storeResp2 b).resp = { s.resp with b2 := some b } := rfl
@[simp] theorem State.storeResp2_rtag (b : Byte) (s : State) : (s.storeResp2 b).rtag = s.rtag := rfl
@[simp] theorem State.storeResp2_captured (b : Byte) (s : State) : (s.storeResp2 b).captured = s.captured := rfl
@[simp] theorem State.storeResp2_outcome (b : Byte) (s : State) : (s.storeResp2 b).outcome = s.outcome := rfl
@[simp] theorem State.storeResp2_ccs (b : Byte) (s : State) : (s.storeResp2 b).ccs = s.ccs := rfl
@[simp] theorem State.storeResp2_vwin (b : Byte) (s : State) : (s.storeResp2 b).vwin = s.vwin := rfl
@[simp] theorem State.storeResp2_opStatus (b : Byte) (s : State) : (s.storeResp2 b).opStatus = s.opStatus := rfl
@[simp] theorem State.storeResp2_result (b : Byte) (s : State) : (s.storeResp2 b).result = s.result := rfl
@[simp] theorem State.storeResp2_rvalid (b : Byte) (s : State) : (s.storeResp2 b).rvalid = s.rvalid := rfl
@[simp] theorem State.storeResp2_moves (b : Byte) (s : State) : (s.storeResp2 b).moves = s.moves := rfl
@[simp] theorem State.storeResp2_replies (b : Byte) (s : State) : (s.storeResp2 b).replies = s.replies := rfl
@[simp] theorem State.storeResp2_draws (b : Byte) (s : State) : (s.storeResp2 b).draws = s.draws := rfl
@[simp] theorem State.storeResp2_events (b : Byte) (s : State) : (s.storeResp2 b).events = s.events := rfl

/-! ### State.storeResp3 -/

@[simp] theorem State.storeResp3_eng (b : Byte) (s : State) : (s.storeResp3 b).eng = s.eng := rfl
@[simp] theorem State.storeResp3_op (b : Byte) (s : State) : (s.storeResp3 b).op = s.op := rfl
@[simp] theorem State.storeResp3_seq (b : Byte) (s : State) : (s.storeResp3 b).seq = s.seq := rfl
@[simp] theorem State.storeResp3_initState (b : Byte) (s : State) : (s.storeResp3 b).initState = s.initState := rfl
@[simp] theorem State.storeResp3_cs (b : Byte) (s : State) : (s.storeResp3 b).cs = s.cs := rfl
@[simp] theorem State.storeResp3_pollCnt (b : Byte) (s : State) : (s.storeResp3 b).pollCnt = s.pollCnt := rfl
@[simp] theorem State.storeResp3_idleCnt (b : Byte) (s : State) : (s.storeResp3 b).idleCnt = s.idleCnt := rfl
@[simp] theorem State.storeResp3_negCnt (b : Byte) (s : State) : (s.storeResp3 b).negCnt = s.negCnt := rfl
@[simp] theorem State.storeResp3_fillCnt (b : Byte) (s : State) : (s.storeResp3 b).fillCnt = s.fillCnt := rfl
@[simp] theorem State.storeResp3_frame (b : Byte) (s : State) : (s.storeResp3 b).frame = s.frame := rfl
@[simp] theorem State.storeResp3_resp (b : Byte) (s : State) : (s.storeResp3 b).resp = { s.resp with b3 := some b } := rfl
@[simp] theorem State.storeResp3_rtag (b : Byte) (s : State) : (s.storeResp3 b).rtag = s.rtag := rfl
@[simp] theorem State.storeResp3_captured (b : Byte) (s : State) : (s.storeResp3 b).captured = s.captured := rfl
@[simp] theorem State.storeResp3_outcome (b : Byte) (s : State) : (s.storeResp3 b).outcome = s.outcome := rfl
@[simp] theorem State.storeResp3_ccs (b : Byte) (s : State) : (s.storeResp3 b).ccs = s.ccs := rfl
@[simp] theorem State.storeResp3_vwin (b : Byte) (s : State) : (s.storeResp3 b).vwin = s.vwin := rfl
@[simp] theorem State.storeResp3_opStatus (b : Byte) (s : State) : (s.storeResp3 b).opStatus = s.opStatus := rfl
@[simp] theorem State.storeResp3_result (b : Byte) (s : State) : (s.storeResp3 b).result = s.result := rfl
@[simp] theorem State.storeResp3_rvalid (b : Byte) (s : State) : (s.storeResp3 b).rvalid = s.rvalid := rfl
@[simp] theorem State.storeResp3_moves (b : Byte) (s : State) : (s.storeResp3 b).moves = s.moves := rfl
@[simp] theorem State.storeResp3_replies (b : Byte) (s : State) : (s.storeResp3 b).replies = s.replies := rfl
@[simp] theorem State.storeResp3_draws (b : Byte) (s : State) : (s.storeResp3 b).draws = s.draws := rfl
@[simp] theorem State.storeResp3_events (b : Byte) (s : State) : (s.storeResp3 b).events = s.events := rfl

/-! ### State.storeResp4 -/

@[simp] theorem State.storeResp4_eng (b : Byte) (s : State) : (s.storeResp4 b).eng = s.eng := rfl
@[simp] theorem State.storeResp4_op (b : Byte) (s : State) : (s.storeResp4 b).op = s.op := rfl
@[simp] theorem State.storeResp4_seq (b : Byte) (s : State) : (s.storeResp4 b).seq = s.seq := rfl
@[simp] theorem State.storeResp4_initState (b : Byte) (s : State) : (s.storeResp4 b).initState = s.initState := rfl
@[simp] theorem State.storeResp4_cs (b : Byte) (s : State) : (s.storeResp4 b).cs = s.cs := rfl
@[simp] theorem State.storeResp4_pollCnt (b : Byte) (s : State) : (s.storeResp4 b).pollCnt = s.pollCnt := rfl
@[simp] theorem State.storeResp4_idleCnt (b : Byte) (s : State) : (s.storeResp4 b).idleCnt = s.idleCnt := rfl
@[simp] theorem State.storeResp4_negCnt (b : Byte) (s : State) : (s.storeResp4 b).negCnt = s.negCnt := rfl
@[simp] theorem State.storeResp4_fillCnt (b : Byte) (s : State) : (s.storeResp4 b).fillCnt = s.fillCnt := rfl
@[simp] theorem State.storeResp4_frame (b : Byte) (s : State) : (s.storeResp4 b).frame = s.frame := rfl
@[simp] theorem State.storeResp4_resp (b : Byte) (s : State) : (s.storeResp4 b).resp = { s.resp with b4 := some b } := rfl
@[simp] theorem State.storeResp4_rtag (b : Byte) (s : State) : (s.storeResp4 b).rtag = s.rtag := rfl
@[simp] theorem State.storeResp4_captured (b : Byte) (s : State) : (s.storeResp4 b).captured = s.captured := rfl
@[simp] theorem State.storeResp4_outcome (b : Byte) (s : State) : (s.storeResp4 b).outcome = s.outcome := rfl
@[simp] theorem State.storeResp4_ccs (b : Byte) (s : State) : (s.storeResp4 b).ccs = s.ccs := rfl
@[simp] theorem State.storeResp4_vwin (b : Byte) (s : State) : (s.storeResp4 b).vwin = s.vwin := rfl
@[simp] theorem State.storeResp4_opStatus (b : Byte) (s : State) : (s.storeResp4 b).opStatus = s.opStatus := rfl
@[simp] theorem State.storeResp4_result (b : Byte) (s : State) : (s.storeResp4 b).result = s.result := rfl
@[simp] theorem State.storeResp4_rvalid (b : Byte) (s : State) : (s.storeResp4 b).rvalid = s.rvalid := rfl
@[simp] theorem State.storeResp4_moves (b : Byte) (s : State) : (s.storeResp4 b).moves = s.moves := rfl
@[simp] theorem State.storeResp4_replies (b : Byte) (s : State) : (s.storeResp4 b).replies = s.replies := rfl
@[simp] theorem State.storeResp4_draws (b : Byte) (s : State) : (s.storeResp4 b).draws = s.draws := rfl
@[simp] theorem State.storeResp4_events (b : Byte) (s : State) : (s.storeResp4 b).events = s.events := rfl

/-! ### State.storeCaptured -/

@[simp] theorem State.storeCaptured_eng (b : Byte) (s : State) : (s.storeCaptured b).eng = s.eng := rfl
@[simp] theorem State.storeCaptured_op (b : Byte) (s : State) : (s.storeCaptured b).op = s.op := rfl
@[simp] theorem State.storeCaptured_seq (b : Byte) (s : State) : (s.storeCaptured b).seq = s.seq := rfl
@[simp] theorem State.storeCaptured_initState (b : Byte) (s : State) : (s.storeCaptured b).initState = s.initState := rfl
@[simp] theorem State.storeCaptured_cs (b : Byte) (s : State) : (s.storeCaptured b).cs = s.cs := rfl
@[simp] theorem State.storeCaptured_pollCnt (b : Byte) (s : State) : (s.storeCaptured b).pollCnt = s.pollCnt := rfl
@[simp] theorem State.storeCaptured_idleCnt (b : Byte) (s : State) : (s.storeCaptured b).idleCnt = s.idleCnt := rfl
@[simp] theorem State.storeCaptured_negCnt (b : Byte) (s : State) : (s.storeCaptured b).negCnt = s.negCnt := rfl
@[simp] theorem State.storeCaptured_fillCnt (b : Byte) (s : State) : (s.storeCaptured b).fillCnt = s.fillCnt := rfl
@[simp] theorem State.storeCaptured_frame (b : Byte) (s : State) : (s.storeCaptured b).frame = s.frame := rfl
@[simp] theorem State.storeCaptured_resp (b : Byte) (s : State) : (s.storeCaptured b).resp = s.resp := rfl
@[simp] theorem State.storeCaptured_rtag (b : Byte) (s : State) : (s.storeCaptured b).rtag = s.rtag := rfl
@[simp] theorem State.storeCaptured_captured (b : Byte) (s : State) : (s.storeCaptured b).captured = some b := rfl
@[simp] theorem State.storeCaptured_outcome (b : Byte) (s : State) : (s.storeCaptured b).outcome = s.outcome := rfl
@[simp] theorem State.storeCaptured_ccs (b : Byte) (s : State) : (s.storeCaptured b).ccs = s.ccs := rfl
@[simp] theorem State.storeCaptured_vwin (b : Byte) (s : State) : (s.storeCaptured b).vwin = s.vwin := rfl
@[simp] theorem State.storeCaptured_opStatus (b : Byte) (s : State) : (s.storeCaptured b).opStatus = s.opStatus := rfl
@[simp] theorem State.storeCaptured_result (b : Byte) (s : State) : (s.storeCaptured b).result = s.result := rfl
@[simp] theorem State.storeCaptured_rvalid (b : Byte) (s : State) : (s.storeCaptured b).rvalid = s.rvalid := rfl
@[simp] theorem State.storeCaptured_moves (b : Byte) (s : State) : (s.storeCaptured b).moves = s.moves := rfl
@[simp] theorem State.storeCaptured_replies (b : Byte) (s : State) : (s.storeCaptured b).replies = s.replies := rfl
@[simp] theorem State.storeCaptured_draws (b : Byte) (s : State) : (s.storeCaptured b).draws = s.draws := rfl
@[simp] theorem State.storeCaptured_events (b : Byte) (s : State) : (s.storeCaptured b).events = s.events := rfl

/-! ### State.startInit -/

@[simp] theorem State.startInit_eng (s : State) : s.startInit.eng = s.eng := rfl
@[simp] theorem State.startInit_op (s : State) : s.startInit.op = s.op := rfl
@[simp] theorem State.startInit_seq (s : State) : s.startInit.seq = s.seq := rfl
@[simp] theorem State.startInit_initState (s : State) : s.startInit.initState = .poweringUp := rfl
@[simp] theorem State.startInit_cs (s : State) : s.startInit.cs = s.cs := rfl
@[simp] theorem State.startInit_pollCnt (s : State) : s.startInit.pollCnt = s.pollCnt := rfl
@[simp] theorem State.startInit_idleCnt (s : State) : s.startInit.idleCnt = 0#4 := rfl
@[simp] theorem State.startInit_negCnt (s : State) : s.startInit.negCnt = 0#7 := rfl
@[simp] theorem State.startInit_fillCnt (s : State) : s.startInit.fillCnt = 0#4 := rfl
@[simp] theorem State.startInit_frame (s : State) : s.startInit.frame = s.frame := rfl
@[simp] theorem State.startInit_resp (s : State) : s.startInit.resp = s.resp := rfl
@[simp] theorem State.startInit_rtag (s : State) : s.startInit.rtag = s.rtag := rfl
@[simp] theorem State.startInit_captured (s : State) : s.startInit.captured = none := rfl
@[simp] theorem State.startInit_outcome (s : State) : s.startInit.outcome = .none := rfl
@[simp] theorem State.startInit_ccs (s : State) : s.startInit.ccs = none := rfl
@[simp] theorem State.startInit_vwin (s : State) : s.startInit.vwin = none := rfl
@[simp] theorem State.startInit_opStatus (s : State) : s.startInit.opStatus = s.opStatus := rfl
@[simp] theorem State.startInit_result (s : State) : s.startInit.result = s.result := rfl
@[simp] theorem State.startInit_rvalid (s : State) : s.startInit.rvalid = s.rvalid := rfl
@[simp] theorem State.startInit_moves (s : State) : s.startInit.moves = s.moves := rfl
@[simp] theorem State.startInit_replies (s : State) : s.startInit.replies = s.replies := rfl
@[simp] theorem State.startInit_draws (s : State) : s.startInit.draws = s.draws := rfl
@[simp] theorem State.startInit_events (s : State) : s.startInit.events = s.events := rfl

/-! ### State.enter -/

@[simp] theorem State.enter_eng (st : InitState) (s : State) : (s.enter st).eng = s.eng := rfl
@[simp] theorem State.enter_op (st : InitState) (s : State) : (s.enter st).op = s.op := rfl
@[simp] theorem State.enter_seq (st : InitState) (s : State) : (s.enter st).seq = s.seq := rfl
@[simp] theorem State.enter_initState (st : InitState) (s : State) : (s.enter st).initState = st := rfl
@[simp] theorem State.enter_cs (st : InitState) (s : State) : (s.enter st).cs = s.cs := rfl
@[simp] theorem State.enter_pollCnt (st : InitState) (s : State) : (s.enter st).pollCnt = s.pollCnt := rfl
@[simp] theorem State.enter_idleCnt (st : InitState) (s : State) : (s.enter st).idleCnt = s.idleCnt := rfl
@[simp] theorem State.enter_negCnt (st : InitState) (s : State) : (s.enter st).negCnt = s.negCnt := rfl
@[simp] theorem State.enter_fillCnt (st : InitState) (s : State) : (s.enter st).fillCnt = s.fillCnt := rfl
@[simp] theorem State.enter_frame (st : InitState) (s : State) : (s.enter st).frame = s.frame := rfl
@[simp] theorem State.enter_resp (st : InitState) (s : State) : (s.enter st).resp = s.resp := rfl
@[simp] theorem State.enter_rtag (st : InitState) (s : State) : (s.enter st).rtag = s.rtag := rfl
@[simp] theorem State.enter_captured (st : InitState) (s : State) : (s.enter st).captured = s.captured := rfl
@[simp] theorem State.enter_outcome (st : InitState) (s : State) : (s.enter st).outcome = s.outcome := rfl
@[simp] theorem State.enter_ccs (st : InitState) (s : State) : (s.enter st).ccs = s.ccs := rfl
@[simp] theorem State.enter_vwin (st : InitState) (s : State) : (s.enter st).vwin = s.vwin := rfl
@[simp] theorem State.enter_opStatus (st : InitState) (s : State) : (s.enter st).opStatus = s.opStatus := rfl
@[simp] theorem State.enter_result (st : InitState) (s : State) : (s.enter st).result = s.result := rfl
@[simp] theorem State.enter_rvalid (st : InitState) (s : State) : (s.enter st).rvalid = s.rvalid := rfl
@[simp] theorem State.enter_moves (st : InitState) (s : State) : (s.enter st).moves = s.moves := rfl
@[simp] theorem State.enter_replies (st : InitState) (s : State) : (s.enter st).replies = s.replies := rfl
@[simp] theorem State.enter_draws (st : InitState) (s : State) : (s.enter st).draws = s.draws := rfl
@[simp] theorem State.enter_events (st : InitState) (s : State) : (s.enter st).events = s.events := rfl

/-! ### State.countFill -/

@[simp] theorem State.countFill_eng (s : State) : s.countFill.eng = s.eng := rfl
@[simp] theorem State.countFill_op (s : State) : s.countFill.op = s.op := rfl
@[simp] theorem State.countFill_seq (s : State) : s.countFill.seq = s.seq := rfl
@[simp] theorem State.countFill_initState (s : State) : s.countFill.initState = s.initState := rfl
@[simp] theorem State.countFill_cs (s : State) : s.countFill.cs = s.cs := rfl
@[simp] theorem State.countFill_pollCnt (s : State) : s.countFill.pollCnt = s.pollCnt := rfl
@[simp] theorem State.countFill_idleCnt (s : State) : s.countFill.idleCnt = s.idleCnt := rfl
@[simp] theorem State.countFill_negCnt (s : State) : s.countFill.negCnt = s.negCnt := rfl
@[simp] theorem State.countFill_fillCnt (s : State) : s.countFill.fillCnt = s.fillCnt + 1#4 := rfl
@[simp] theorem State.countFill_frame (s : State) : s.countFill.frame = s.frame := rfl
@[simp] theorem State.countFill_resp (s : State) : s.countFill.resp = s.resp := rfl
@[simp] theorem State.countFill_rtag (s : State) : s.countFill.rtag = s.rtag := rfl
@[simp] theorem State.countFill_captured (s : State) : s.countFill.captured = s.captured := rfl
@[simp] theorem State.countFill_outcome (s : State) : s.countFill.outcome = s.outcome := rfl
@[simp] theorem State.countFill_ccs (s : State) : s.countFill.ccs = s.ccs := rfl
@[simp] theorem State.countFill_vwin (s : State) : s.countFill.vwin = s.vwin := rfl
@[simp] theorem State.countFill_opStatus (s : State) : s.countFill.opStatus = s.opStatus := rfl
@[simp] theorem State.countFill_result (s : State) : s.countFill.result = s.result := rfl
@[simp] theorem State.countFill_rvalid (s : State) : s.countFill.rvalid = s.rvalid := rfl
@[simp] theorem State.countFill_moves (s : State) : s.countFill.moves = s.moves := rfl
@[simp] theorem State.countFill_replies (s : State) : s.countFill.replies = s.replies := rfl
@[simp] theorem State.countFill_draws (s : State) : s.countFill.draws = s.draws := rfl
@[simp] theorem State.countFill_events (s : State) : s.countFill.events = s.events := rfl

/-! ### State.countIdle -/

@[simp] theorem State.countIdle_eng (s : State) : s.countIdle.eng = s.eng := rfl
@[simp] theorem State.countIdle_op (s : State) : s.countIdle.op = s.op := rfl
@[simp] theorem State.countIdle_seq (s : State) : s.countIdle.seq = s.seq := rfl
@[simp] theorem State.countIdle_initState (s : State) : s.countIdle.initState = s.initState := rfl
@[simp] theorem State.countIdle_cs (s : State) : s.countIdle.cs = s.cs := rfl
@[simp] theorem State.countIdle_pollCnt (s : State) : s.countIdle.pollCnt = s.pollCnt := rfl
@[simp] theorem State.countIdle_idleCnt (s : State) : s.countIdle.idleCnt = s.idleCnt + 1#4 := rfl
@[simp] theorem State.countIdle_negCnt (s : State) : s.countIdle.negCnt = s.negCnt := rfl
@[simp] theorem State.countIdle_fillCnt (s : State) : s.countIdle.fillCnt = s.fillCnt := rfl
@[simp] theorem State.countIdle_frame (s : State) : s.countIdle.frame = s.frame := rfl
@[simp] theorem State.countIdle_resp (s : State) : s.countIdle.resp = s.resp := rfl
@[simp] theorem State.countIdle_rtag (s : State) : s.countIdle.rtag = s.rtag := rfl
@[simp] theorem State.countIdle_captured (s : State) : s.countIdle.captured = s.captured := rfl
@[simp] theorem State.countIdle_outcome (s : State) : s.countIdle.outcome = s.outcome := rfl
@[simp] theorem State.countIdle_ccs (s : State) : s.countIdle.ccs = s.ccs := rfl
@[simp] theorem State.countIdle_vwin (s : State) : s.countIdle.vwin = s.vwin := rfl
@[simp] theorem State.countIdle_opStatus (s : State) : s.countIdle.opStatus = s.opStatus := rfl
@[simp] theorem State.countIdle_result (s : State) : s.countIdle.result = s.result := rfl
@[simp] theorem State.countIdle_rvalid (s : State) : s.countIdle.rvalid = s.rvalid := rfl
@[simp] theorem State.countIdle_moves (s : State) : s.countIdle.moves = s.moves := rfl
@[simp] theorem State.countIdle_replies (s : State) : s.countIdle.replies = s.replies := rfl
@[simp] theorem State.countIdle_draws (s : State) : s.countIdle.draws = s.draws := rfl
@[simp] theorem State.countIdle_events (s : State) : s.countIdle.events = s.events := rfl

/-! ### State.goto -/

@[simp] theorem State.goto_eng (p : Pos) (s : State) : (s.goto p).eng = s.eng := rfl
@[simp] theorem State.goto_op (p : Pos) (s : State) : (s.goto p).op = s.op := rfl
@[simp] theorem State.goto_seq (p : Pos) (s : State) : (s.goto p).seq = some p := rfl
@[simp] theorem State.goto_initState (p : Pos) (s : State) : (s.goto p).initState = s.initState := rfl
@[simp] theorem State.goto_cs (p : Pos) (s : State) : (s.goto p).cs = s.cs := rfl
@[simp] theorem State.goto_pollCnt (p : Pos) (s : State) : (s.goto p).pollCnt = s.pollCnt := rfl
@[simp] theorem State.goto_idleCnt (p : Pos) (s : State) : (s.goto p).idleCnt = s.idleCnt := rfl
@[simp] theorem State.goto_negCnt (p : Pos) (s : State) : (s.goto p).negCnt = s.negCnt := rfl
@[simp] theorem State.goto_fillCnt (p : Pos) (s : State) : (s.goto p).fillCnt = s.fillCnt := rfl
@[simp] theorem State.goto_frame (p : Pos) (s : State) : (s.goto p).frame = s.frame := rfl
@[simp] theorem State.goto_resp (p : Pos) (s : State) : (s.goto p).resp = s.resp := rfl
@[simp] theorem State.goto_rtag (p : Pos) (s : State) : (s.goto p).rtag = s.rtag := rfl
@[simp] theorem State.goto_captured (p : Pos) (s : State) : (s.goto p).captured = s.captured := rfl
@[simp] theorem State.goto_outcome (p : Pos) (s : State) : (s.goto p).outcome = s.outcome := rfl
@[simp] theorem State.goto_ccs (p : Pos) (s : State) : (s.goto p).ccs = s.ccs := rfl
@[simp] theorem State.goto_vwin (p : Pos) (s : State) : (s.goto p).vwin = s.vwin := rfl
@[simp] theorem State.goto_opStatus (p : Pos) (s : State) : (s.goto p).opStatus = s.opStatus := rfl
@[simp] theorem State.goto_result (p : Pos) (s : State) : (s.goto p).result = s.result := rfl
@[simp] theorem State.goto_rvalid (p : Pos) (s : State) : (s.goto p).rvalid = s.rvalid := rfl
@[simp] theorem State.goto_moves (p : Pos) (s : State) : (s.goto p).moves = s.moves := rfl
@[simp] theorem State.goto_replies (p : Pos) (s : State) : (s.goto p).replies = s.replies := rfl
@[simp] theorem State.goto_draws (p : Pos) (s : State) : (s.goto p).draws = s.draws := rfl
@[simp] theorem State.goto_events (p : Pos) (s : State) : (s.goto p).events = s.events := rfl

end Sys2Proof.Machine
end

