-- ==== Sys2Proof/Laws/Transport.lean ====
section
/-! SUPPORT. Laws/Transport.lean: what one exchange, a procedure after another, and a list of exchanges can do
(00_scope.md R18; 60_exceptions.md R212). -/

namespace Sys2Proof.Machine

variable {α β : Type}

/-! ## `Run` -/

@[simp] theorem Run.andThen_ok (a : α) (s : State) (f : α → State → Run β) : (Run.ok a s).andThen f = f a s := rfl

@[simp] theorem Run.andThen_abort (s : State) (f : α → State → Run β) : (Run.abort s : Run α).andThen f = .abort s := rfl

@[simp] theorem Run.state_ok (a : α) (s : State) : (Run.ok a s).state = s := rfl

@[simp] theorem Run.state_abort (s : State) : (Run.abort s : Run α).state = s := rfl

@[simp] theorem Run.finish_ok (s : State) : (Run.ok () s).finish = s.complete := rfl

@[simp] theorem Run.finish_abort (s : State) : (Run.abort s : Run Unit).finish = s := rfl

/-- A procedure after another completes when both do. -/
theorem Run.andThen_eq_ok {r : Run α} {f : α → State → Run β} {b : β} {t : State} :
    r.andThen f = .ok b t ↔ ∃ a s, r = .ok a s ∧ f a s = .ok b t := by
  cases r with
  | ok a s =>
    simp only [Run.andThen_ok, Run.ok.injEq]
    constructor
    · intro h
      exact ⟨a, s, ⟨rfl, rfl⟩, h⟩
    · rintro ⟨a', s', ⟨rfl, rfl⟩, h⟩
      exact h
  | abort s => simp

/-- A procedure after another aborts when the first does, or the second does after it. -/
theorem Run.andThen_eq_abort {r : Run α} {f : α → State → Run β} {t : State} :
    r.andThen f = .abort t ↔ r = .abort t ∨ ∃ a s, r = .ok a s ∧ f a s = .abort t := by
  cases r with
  | ok a s =>
    simp only [Run.andThen_ok, reduceCtorEq, false_or, Run.ok.injEq]
    constructor
    · intro h
      exact ⟨a, s, ⟨rfl, rfl⟩, h⟩
    · rintro ⟨a', s', ⟨rfl, rfl⟩, h⟩
      exact h
  | abort s => simp

theorem Run.andThen_assoc {γ : Type} (r : Run α) (f : α → State → Run β) (g : β → State → Run γ) :
    (r.andThen f).andThen g = r.andThen fun a s => (f a s).andThen g := by
  cases r <;> rfl

/-- A transitive relation that both procedures keep is kept by one after the other. -/
theorem Run.andThen_rel {R : State → State → Prop} (htrans : ∀ {a b c}, R a b → R b c → R a c)
    {r : Run α} {f : α → State → Run β} {s : State} (hr : R s r.state) (hf : ∀ a t, R t (f a t).state) :
    R s (r.andThen f).state := by
  cases r with
  | ok a t => exact htrans hr (hf a t)
  | abort t => exact hr

/-! ## One exchange -/

/-- The state an exchange leaves when the transport answered: what remains of the answers, and the event. -/
theorem xchg_byte {s : State} {b : Byte} {rest : List Reply} (out : Byte) (h : s.replies = .byte b :: rest) :
    xchg out s = .ok b { s with replies := rest, events := .x out b :: s.events } := by
  simp [xchg, State.drawReply, h, State.emit]

/-- The state a transport fault leaves. -/
theorem xchg_fault {s : State} {rest : List Reply} (out : Byte) (h : s.replies = .fault :: rest) :
    xchg out s = .abort { s with replies := rest, eng := .faulted, opStatus := .faulted, seq := none } := by
  simp [xchg, State.drawReply, h, State.takeTransportFault]

/-- Everything an exchange can do: a byte arrives, its event is recorded and only the transport's answers move on; or the
transport fault of R212 is taken, with no event. -/
theorem xchg_cases (out : Byte) (s : State) :
    ∃ replies draws t,
      (∃ b, xchg out s = .ok b t ∧
        t = { s with replies := replies, draws := draws, events := .x out b :: s.events }) ∨
      (xchg out s = .abort t ∧
        t = { s with replies := replies, draws := draws, eng := .faulted, opStatus := .faulted, seq := none }) := by
  unfold xchg State.drawReply
  cases hr : s.replies with
  | cons r rest =>
    cases r with
    | byte b => exact ⟨rest, s.draws, _, .inl ⟨b, rfl, rfl⟩⟩
    | fault => exact ⟨rest, s.draws, _, .inr ⟨rfl, rfl⟩⟩
  | nil =>
    cases hf : Config.freeReply s.draws with
    | byte b => exact ⟨s.replies, s.draws + 1, _, .inl ⟨b, rfl, by simp [State.emit, hr]⟩⟩
    | fault => exact ⟨s.replies, s.draws + 1, _, .inr ⟨rfl, by simp [State.takeTransportFault, hr]⟩⟩

/-! ## The sequencer position plays no part in an exchange -/

/-- The same answer with another `seq`; an abort leaves no step whatever `seq` was. -/
def Run.withSeq (q : Option Pos) : Run α → Run α
  | .ok a s => .ok a { s with seq := q }
  | .abort s => .abort s

@[simp] theorem Run.withSeq_ok (q : Option Pos) (a : α) (s : State) :
    (Run.ok a s).withSeq q = .ok a { s with seq := q } := rfl

@[simp] theorem Run.withSeq_abort (q : Option Pos) (s : State) : (Run.abort s : Run α).withSeq q = .abort s := rfl

/-- A composition keeps the property when its parts do. -/
theorem Run.andThen_withSeq {r : Run α} {f : α → State → Run β} {q : Option Pos}
    (hf : ∀ a t, f a { t with seq := q } = (f a t).withSeq q) : (r.withSeq q).andThen f = (r.andThen f).withSeq q := by
  cases r with
  | ok a t => exact hf a t
  | abort t => rfl

theorem xchg_withSeq (out : Byte) (q : Option Pos) (s : State) :
    xchg out { s with seq := q } = (xchg out s).withSeq q := by
  unfold xchg State.drawReply
  cases hr : s.replies with
  | cons r rest => cases r <;> rfl
  | nil => cases hf : Config.freeReply s.draws <;> simp [State.emit, State.takeTransportFault]

/-! ## Sending bytes -/

/-- Sending bytes that are all answered (R160 C3): one exchange each, in order. -/
theorem sendBytes_answered (outs : List Byte) :
    ∀ (ins : List Byte) (rest : List Reply) (s : State), outs.length = ins.length → s.Answers ins rest →
      sendBytes outs s =
        .ok () { s with replies := rest, events := (List.zipWith Event.x outs ins).reverse ++ s.events } := by
  induction outs with
  | nil =>
    intro ins rest s hlen h
    cases ins with
    | nil =>
      simp only [State.Answers, List.map_nil, List.nil_append] at h
      subst h
      rfl
    | cons b bs => simp at hlen
  | cons o outs ih =>
    intro ins rest s hlen h
    cases ins with
    | nil => simp at hlen
    | cons b bs =>
      simp only [State.Answers, List.map_cons, List.cons_append] at h
      rw [sendBytes, xchg_byte o h, Run.andThen_ok, ih bs rest _ (by simpa using hlen) rfl]
      simp

/-- Everything sending bytes can do. -/
theorem sendBytes_cases (outs : List Byte) :
    ∀ s : State, ∃ replies draws ins t,
      (ins.length = outs.length ∧ sendBytes outs s = .ok () t ∧
        t = { s with replies := replies, draws := draws,
                     events := (List.zipWith Event.x outs ins).reverse ++ s.events }) ∨
      (ins.length < outs.length ∧ sendBytes outs s = .abort t ∧
        t = { s with replies := replies, draws := draws, eng := .faulted, opStatus := .faulted, seq := none,
                     events := (List.zipWith Event.x outs ins).reverse ++ s.events }) := by
  induction outs with
  | nil => intro s; exact ⟨s.replies, s.draws, [], s, .inl ⟨rfl, rfl, rfl⟩⟩
  | cons o outs ih =>
    intro s
    obtain ⟨rp, dr, s1, ⟨b, h, h1⟩ | ⟨h, h1⟩⟩ := xchg_cases o s
    · obtain ⟨rp', dr', ins, t, ⟨hl, h', ht⟩ | ⟨hl, h', ht⟩⟩ := ih s1
      · exact ⟨rp', dr', b :: ins, t, .inl ⟨by simp [hl], by simp [sendBytes, h, h'], by simp [ht, h1]⟩⟩
      · exact ⟨rp', dr', b :: ins, t, .inr ⟨by simpa using hl, by simp [sendBytes, h, h'], by simp [ht, h1]⟩⟩
    · exact ⟨rp, dr, [], s1, .inr ⟨by simp, by simp [sendBytes, h], by simp [h1]⟩⟩

theorem sendBytes_withSeq (outs : List Byte) (q : Option Pos) :
    ∀ s : State, sendBytes outs { s with seq := q } = (sendBytes outs s).withSeq q := by
  induction outs with
  | nil => intro s; rfl
  | cons o outs ih =>
    intro s
    rw [sendBytes, sendBytes, xchg_withSeq]
    cases xchg o s with
    | ok b t => exact ih t
    | abort t => rfl

end Sys2Proof.Machine
end

