-- ==== Sys2Proof/Laws/Reader.lean ====
section
/-! SUPPORT. Laws/Reader.lean: what the poll and the 5-byte assembler can do (41_response_reader.md). -/

namespace Sys2Proof.Machine

/-! ## The in-bytes of a poll -/

@[simp] theorem pollIns_zero (r1 : Byte) : pollIns 0 r1 = [r1] := rfl

theorem pollIns_succ (k : Nat) (r1 : Byte) : pollIns (k + 1) r1 = Config.idleFill :: pollIns k r1 := by
  simp [pollIns, List.replicate_succ]

@[simp] theorem pollIns_length (k : Nat) (r1 : Byte) : (pollIns k r1).length = k + 1 := by simp [pollIns]

@[simp] theorem idleExchanges_nil : idleExchanges [] = [] := rfl

@[simp] theorem idleExchanges_cons (b : Byte) (l : List Byte) :
    idleExchanges (b :: l) = Event.x Config.idleFill b :: idleExchanges l := rfl

@[simp] theorem idleExchanges_append (l m : List Byte) :
    idleExchanges (l ++ m) = idleExchanges l ++ idleExchanges m := by simp [idleExchanges]

theorem ofNat_count (w : Nat) (c : BitVec w) (k : Nat) :
    c + 1#w + BitVec.ofNat w k = c + BitVec.ofNat w (k + 1) := by
  rw [BitVec.add_assoc, ← BitVec.ofNat_add, Nat.add_comm]

/-! ## The poll (R120) -/

/-- A poll whose answers are `k` idle-fill bytes and then `r1`: it stops there when `r1` is another byte, or when the bound is
reached (R121). -/
theorem pollLoop_answered (left : Nat) :
    ∀ (k : Nat) (r1 : Byte) (rest : List Reply) (s : State), k + 1 ≤ left → (r1 ≠ Config.idleFill ∨ k + 1 = left) →
      s.Answers (pollIns k r1) rest →
      pollLoop left s =
        .ok r1 { s with pollCnt := s.pollCnt + BitVec.ofNat 4 (k + 1), replies := rest,
                        events := (idleExchanges (pollIns k r1)).reverse ++ s.events } := by
  induction left with
  | zero => intro k r1 rest s hk; omega
  | succ left ih =>
    intro k r1 rest s hk hstop h
    cases k with
    | zero =>
      simp only [State.Answers, pollIns_zero, List.map_cons, List.map_nil, List.cons_append, List.nil_append] at h
      rw [pollLoop, xchg_byte _ h, Run.andThen_ok]
      by_cases hr : r1 = Config.idleFill
      · subst hr
        have hl : left = 0 := by
          rcases hstop with h' | h'
          · exact absurd rfl h'
          · omega
        subst hl
        simp [pollLoop, State.countPoll]
      · simp [hr, State.countPoll]
    | succ k =>
      simp only [State.Answers, pollIns_succ, List.map_cons, List.cons_append] at h
      rw [pollLoop, xchg_byte _ h, Run.andThen_ok, if_neg (by simp),
        ih k r1 rest _ (by omega) (hstop.imp_right (by omega)) (by rfl)]
      simp only [State.countPoll, pollIns_succ, idleExchanges_cons, List.reverse_cons, List.append_assoc,
        List.cons_append, List.nil_append, ofNat_count]

/-- `Polled` unfolded. -/
theorem polled_iff {k : Nat} {r1 : Byte} :
    Polled k r1 = true ↔ k + 1 ≤ Config.r1PollLimit ∧ (r1 ≠ Config.idleFill ∨ k + 1 = Config.r1PollLimit) := by
  simp [Polled]

/-- `ReadR1` by its answers (R121): `k + 1` exchanges, and the byte that stopped the poll. -/
theorem readR1_answered {k : Nat} {r1 : Byte} {rest : List Reply} {s : State} (hp : Polled k r1 = true)
    (h : s.Answers (pollIns k r1) rest) :
    readR1 s =
      .ok r1 { s with pollCnt := BitVec.ofNat 4 (k + 1), replies := rest,
                      events := (idleExchanges (pollIns k r1)).reverse ++ s.events } := by
  obtain ⟨hk, hstop⟩ := polled_iff.1 hp
  rw [readR1, pollLoop_answered Config.r1PollLimit k r1 rest _ hk hstop (by exact h)]
  simp

/-- Everything a poll can do: `k + 1` exchanges, of which the last stopped it; or a fault after `k` idle-fill bytes. -/
theorem pollLoop_cases (left : Nat) :
    ∀ s : State, 0 < left → ∃ k replies draws t,
      (∃ r1, k + 1 ≤ left ∧ (r1 ≠ Config.idleFill ∨ k + 1 = left) ∧ pollLoop left s = .ok r1 t ∧
        t = { s with pollCnt := s.pollCnt + BitVec.ofNat 4 (k + 1), replies := replies, draws := draws,
                     events := (idleExchanges (pollIns k r1)).reverse ++ s.events }) ∨
      (k < left ∧ pollLoop left s = .abort t ∧
        t = { s with pollCnt := s.pollCnt + BitVec.ofNat 4 k, replies := replies, draws := draws,
                     eng := .faulted, opStatus := .faulted, seq := none,
                     events := (idleExchanges (List.replicate k Config.idleFill)).reverse ++ s.events }) := by
  induction left with
  | zero => intro s h; omega
  | succ left ih =>
    intro s _
    obtain ⟨rp, dr, s1, ⟨b, h, h1⟩ | ⟨h, h1⟩⟩ := xchg_cases Config.idleFill s
    · by_cases hb : b = Config.idleFill
      · cases left with
        | zero =>
          refine ⟨0, rp, dr, s1.countPoll, .inl ⟨b, by omega, .inr rfl, ?_, ?_⟩⟩
          · simp [pollLoop, h, hb]
          · simp [h1, State.countPoll]
        | succ left =>
          obtain ⟨k, rp', dr', t, ⟨r1, hk, hstop, h', ht⟩ | ⟨hk, h', ht⟩⟩ := ih s1.countPoll (by omega)
          · refine ⟨k + 1, rp', dr', t, .inl ⟨r1, by omega, hstop.imp_right (by omega), ?_, ?_⟩⟩
            · rw [pollLoop, h, Run.andThen_ok, if_neg (by simpa using hb), h']
            · simp only [ht, h1, State.countPoll, pollIns_succ, idleExchanges_cons, List.reverse_cons, List.append_assoc,
                List.cons_append, List.nil_append, ofNat_count, hb]
          · refine ⟨k + 1, rp', dr', t, .inr ⟨by omega, ?_, ?_⟩⟩
            · rw [pollLoop, h, Run.andThen_ok, if_neg (by simpa using hb), h']
            · simp only [ht, h1, State.countPoll, List.replicate_succ, idleExchanges_cons, List.reverse_cons,
                List.append_assoc, List.cons_append, List.nil_append, ofNat_count, hb]
      · refine ⟨0, rp, dr, s1.countPoll, .inl ⟨b, by omega, .inl hb, ?_, ?_⟩⟩
        · simp [pollLoop, h, hb]
        · simp [h1, State.countPoll]
    · refine ⟨0, rp, dr, s1, .inr ⟨by omega, ?_, ?_⟩⟩
      · simp [pollLoop, h]
      · simp [h1]

/-- Everything `ReadR1` can do (R120, R121, R212). -/
theorem readR1_cases (s : State) :
    ∃ k replies draws t,
      (∃ r1, Polled k r1 = true ∧ readR1 s = .ok r1 t ∧
        t = { s with pollCnt := BitVec.ofNat 4 (k + 1), replies := replies, draws := draws,
                     events := (idleExchanges (pollIns k r1)).reverse ++ s.events }) ∨
      (k < Config.r1PollLimit ∧ readR1 s = .abort t ∧
        t = { s with pollCnt := BitVec.ofNat 4 k, replies := replies, draws := draws,
                     eng := .faulted, opStatus := .faulted, seq := none,
                     events := (idleExchanges (List.replicate k Config.idleFill)).reverse ++ s.events }) := by
  obtain ⟨k, rp, dr, t, ⟨r1, hk, hstop, h, ht⟩ | ⟨hk, h, ht⟩⟩ :=
    pollLoop_cases Config.r1PollLimit { s with pollCnt := 0#4 } (by decide)
  · exact ⟨k, rp, dr, t, .inl ⟨r1, polled_iff.2 ⟨hk, hstop⟩, h, by simp [ht]⟩⟩
  · exact ⟨k, rp, dr, t, .inr ⟨hk, h, by simp [ht]⟩⟩

theorem pollLoop_withSeq (left : Nat) (q : Option Pos) :
    ∀ s : State, pollLoop left { s with seq := q } = (pollLoop left s).withSeq q := by
  induction left with
  | zero => intro s; rfl
  | succ left ih =>
    intro s
    rw [pollLoop, pollLoop, xchg_withSeq]
    cases xchg Config.idleFill s with
    | ok b t =>
      simp only [Run.withSeq_ok, Run.andThen_ok]
      split
      · rfl
      · exact ih t.countPoll
    | abort t => rfl

theorem readR1_withSeq (q : Option Pos) (s : State) : readR1 { s with seq := q } = (readR1 s).withSeq q :=
  pollLoop_withSeq Config.r1PollLimit q { s with pollCnt := 0#4 }

/-! ## The 5-byte assembler (R124) -/

/-- The short-circuit (R126): a status of 2 or more reads nothing. -/
theorem readR3R7_short {r1 : Byte} (s : State) (h : r1 > 0x01#8) :
    readR3R7 r1 s = .ok () { s with resp := ⟨some r1, none, none, none, none⟩, rtag := true } := by
  rw [readR3R7, if_pos h]
  rfl

/-- Four payload bytes that all arrive. -/
theorem readR3R7_answered {r1 : Byte} {p : Payload} {rest : List Reply} {s : State} (h : ¬ r1 > 0x01#8)
    (ha : s.Answers p.bytes rest) :
    readR3R7 r1 s =
      .ok () { s with resp := ⟨some r1, some p.b1, some p.b2, some p.b3, some p.b4⟩, rtag := true, replies := rest,
                      events := (idleExchanges p.bytes).reverse ++ s.events } := by
  simp only [State.Answers, Payload.bytes, List.map_cons, List.map_nil, List.cons_append, List.nil_append] at ha
  rw [readR3R7, if_neg h, readPayload, xchg_byte _ (s := s.openResp r1) ha, Run.andThen_ok, xchg_byte _ rfl,
    Run.andThen_ok, xchg_byte _ rfl, Run.andThen_ok, xchg_byte _ rfl, Run.andThen_ok]
  rfl

/-- Everything `ReadR3R7` can do: no exchange and no payload (R126), or four payload bytes, or a fault after some of them, which
stay in `resp` (R125). -/
theorem readR3R7_cases (r1 : Byte) (s : State) :
    ∃ replies draws t,
      (r1 > 0x01#8 ∧ readR3R7 r1 s = .ok () t ∧
        t = { s with resp := ⟨some r1, none, none, none, none⟩, rtag := true }) ∨
      (¬ r1 > 0x01#8 ∧ readR3R7 r1 s = .ok () t ∧ ∃ p : Payload,
        t = { s with resp := ⟨some r1, some p.b1, some p.b2, some p.b3, some p.b4⟩, rtag := true,
                     replies := replies, draws := draws, events := (idleExchanges p.bytes).reverse ++ s.events }) ∨
      (¬ r1 > 0x01#8 ∧ readR3R7 r1 s = .abort t ∧ ∃ (ins : List Byte) (resp : Resp),
        ins.length < 4 ∧ resp.b0 = some r1 ∧
        t = { s with resp := resp, rtag := true, replies := replies, draws := draws, eng := .faulted,
                     opStatus := .faulted, seq := none, events := (idleExchanges ins).reverse ++ s.events }) := by
  by_cases h : r1 > 0x01#8
  · exact ⟨s.replies, s.draws, _, .inl ⟨h, readR3R7_short s h, rfl⟩⟩
  · rw [readR3R7, if_neg h, readPayload]
    obtain ⟨rp1, dr1, s1, ⟨b1, e1, h1⟩ | ⟨e1, h1⟩⟩ := xchg_cases Config.idleFill (s.openResp r1)
    swap
    · exact ⟨rp1, dr1, s1, .inr (.inr ⟨h, by rw [e1]; rfl, [], (s.openResp r1).resp, by simp, rfl, by rw [h1]; rfl⟩)⟩
    rw [e1, Run.andThen_ok]
    obtain ⟨rp2, dr2, s2, ⟨b2, e2, h2⟩ | ⟨e2, h2⟩⟩ := xchg_cases Config.idleFill (s1.storeResp1 b1)
    swap
    · exact ⟨rp2, dr2, s2, .inr (.inr ⟨h, by rw [e2]; rfl, [b1], s2.resp, by simp, by simp [h2, h1],
        by subst h2 h1; rfl⟩)⟩
    rw [e2, Run.andThen_ok]
    obtain ⟨rp3, dr3, s3, ⟨b3, e3, h3⟩ | ⟨e3, h3⟩⟩ := xchg_cases Config.idleFill (s2.storeResp2 b2)
    swap
    · exact ⟨rp3, dr3, s3, .inr (.inr ⟨h, by rw [e3]; rfl, [b1, b2], s3.resp, by simp, by simp [h3, h2, h1],
        by subst h3 h2 h1; rfl⟩)⟩
    rw [e3, Run.andThen_ok]
    obtain ⟨rp4, dr4, s4, ⟨b4, e4, h4⟩ | ⟨e4, h4⟩⟩ := xchg_cases Config.idleFill (s3.storeResp3 b3)
    swap
    · exact ⟨rp4, dr4, s4, .inr (.inr ⟨h, by rw [e4]; rfl, [b1, b2, b3], s4.resp, by simp, by simp [h4, h3, h2, h1],
        by subst h4 h3 h2 h1; rfl⟩)⟩
    exact ⟨rp4, dr4, s4.storeResp4 b4, .inr (.inl ⟨h, by rw [e4]; rfl, ⟨b1, b2, b3, b4⟩, by subst h4 h3 h2 h1; rfl⟩)⟩

theorem readR3R7_withSeq (r1 : Byte) (q : Option Pos) (s : State) :
    readR3R7 r1 { s with seq := q } = (readR3R7 r1 s).withSeq q := by
  by_cases h : r1 > 0x01#8
  · rw [readR3R7_short _ h, readR3R7_short _ h]
    rfl
  · simp only [readR3R7, if_neg h, readPayload]
    rw [show State.openResp r1 { s with seq := q } = { s.openResp r1 with seq := q } from rfl, xchg_withSeq]
    cases xchg Config.idleFill (s.openResp r1) with
    | abort t => rfl
    | ok b t =>
      simp only [Run.withSeq_ok, Run.andThen_ok]
      rw [show State.storeResp1 b { t with seq := q } = { t.storeResp1 b with seq := q } from rfl, xchg_withSeq]
      cases xchg Config.idleFill (t.storeResp1 b) with
      | abort t => rfl
      | ok b t =>
        simp only [Run.withSeq_ok, Run.andThen_ok]
        rw [show State.storeResp2 b { t with seq := q } = { t.storeResp2 b with seq := q } from rfl, xchg_withSeq]
        cases xchg Config.idleFill (t.storeResp2 b) with
        | abort t => rfl
        | ok b t =>
          simp only [Run.withSeq_ok, Run.andThen_ok]
          rw [show State.storeResp3 b { t with seq := q } = { t.storeResp3 b with seq := q } from rfl, xchg_withSeq]
          cases xchg Config.idleFill (t.storeResp3 b) <;> rfl

/-! ## PACK5 (R86) -/

/-- PACK5 of a short-circuited response: only the status byte holds a value, `rvalid = 0xF0`. -/
theorem writePack5_short {r1 : Byte} {s : State} (h : s.resp = ⟨some r1, none, none, none, none⟩) :
    s.writePack5 = { s with result := ⟨none, none, none, none, some r1, some 0#8, some 0#8, some 0#8⟩, rvalid := 0xF0#8 } := by
  have : (ResultReg.mk none none none none (some r1) (some 0#8) (some 0#8) (some 0#8)).definedMask = 0xF0#8 := by
    simp only [ResultReg.definedMask, Option.isSome_some, Option.isSome_none]
    decide
  simp only [State.writePack5, h, ResultReg.pack5, this]

/-- PACK5 of a full response: every byte holds a value, `rvalid = 0xFF`. -/
theorem writePack5_full {b0 b1 b2 b3 b4 : Byte} {s : State} (h : s.resp = ⟨some b0, some b1, some b2, some b3, some b4⟩) :
    s.writePack5 = { s with result := ⟨some b4, some b3, some b2, some b1, some b0, some 0#8, some 0#8, some 0#8⟩,
                            rvalid := 0xFF#8 } := by
  have : (ResultReg.mk (some b4) (some b3) (some b2) (some b1) (some b0) (some 0#8) (some 0#8) (some 0#8)).definedMask =
      0xFF#8 := by
    simp only [ResultReg.definedMask, Option.isSome_some]
    decide
  simp only [State.writePack5, h, ResultReg.pack5, this]

/-- A result written as a word holds a value in every byte. -/
theorem definedMask_ofWord (w : BitVec 64) : (ResultReg.ofWord w).definedMask = 0xFF#8 := by
  simp only [ResultReg.definedMask, ResultReg.ofWord, Option.isSome_some]
  decide

end Sys2Proof.Machine
end

