-- ==== Sys2Proof/Laws/Command.lean ====
section
/-! SUPPORT. Laws/Command.lean: what one command exchange and one negotiation attempt can do (43_command_exchange.md). -/

namespace Sys2Proof.Machine

-- Keeps the number of threads that check the lemmas side by side low.
set_option Elab.async false

/-! ## What a command exchange leaves alone -/

/-- The registers no command exchange writes, whether it completes or a transport fault ends it. -/
structure KeepsInit (s t : State) : Prop where
  op : t.op = s.op
  initState : t.initState = s.initState
  idleCnt : t.idleCnt = s.idleCnt
  negCnt : t.negCnt = s.negCnt
  fillCnt : t.fillCnt = s.fillCnt
  captured : t.captured = s.captured
  outcome : t.outcome = s.outcome
  ccs : t.ccs = s.ccs
  vwin : t.vwin = s.vwin
  result : t.result = s.result
  rvalid : t.rvalid = s.rvalid
  moves : t.moves = s.moves

theorem KeepsInit.refl (s : State) : KeepsInit s s := ⟨rfl, rfl, rfl, rfl, rfl, rfl, rfl, rfl, rfl, rfl, rfl, rfl⟩

theorem KeepsInit.trans {a b c : State} (h : KeepsInit a b) (k : KeepsInit b c) : KeepsInit a c :=
  ⟨k.op.trans h.op, k.initState.trans h.initState, k.idleCnt.trans h.idleCnt, k.negCnt.trans h.negCnt,
    k.fillCnt.trans h.fillCnt, k.captured.trans h.captured, k.outcome.trans h.outcome, k.ccs.trans h.ccs,
    k.vwin.trans h.vwin, k.result.trans h.result, k.rvalid.trans h.rvalid, k.moves.trans h.moves⟩

/-- The form `KeepsInit` has when every register it names is read off the two states. -/
theorem keepsInit_rfl {s t : State} (h : (t.op, t.initState, t.idleCnt, t.negCnt, t.fillCnt, t.captured, t.outcome, t.ccs,
    t.vwin, t.result, t.rvalid, t.moves) = (s.op, s.initState, s.idleCnt, s.negCnt, s.fillCnt, s.captured, s.outcome, s.ccs,
    s.vwin, s.result, s.rvalid, s.moves) := by rfl) : KeepsInit s t := by
  simp only [Prod.mk.injEq] at h
  obtain ⟨h1, h2, h3, h4, h5, h6, h7, h8, h9, h10, h11, h12⟩ := h
  exact ⟨h1, h2, h3, h4, h5, h6, h7, h8, h9, h10, h11, h12⟩

/-- The marks of a transport fault (R212), with the events made before it. -/
structure Faulted (s t : State) : Prop where
  eng : t.eng = .faulted
  opStatus : t.opStatus = .faulted
  seq : t.seq = none
  events : ∃ evs, t.events = evs ++ s.events

/-- A transport fault in a later part of a procedure is one of the whole. -/
theorem Faulted.after {a b c : State} (h : Faulted b c) (hev : ∃ evs, b.events = evs ++ a.events) : Faulted a c := by
  obtain ⟨e1, h1⟩ := h.events
  obtain ⟨e2, h2⟩ := hev
  exact ⟨h.eng, h.opStatus, h.seq, e1 ++ e2, by rw [h1, h2, List.append_assoc]⟩

/-! ## The command exchange (R160) -/

theorem romFrame_bytes_length (c : RomCmd) : (romFrame c).bytes.length = 6 := rfl

theorem Frame.bytes_length (f : Frame) : f.bytes.length = 6 := rfl

/-- Step C5 by its answers. -/
theorem storeResponse_answered {c : RomCmd} {e : ExchangeScript} {rest : List Reply} {s : State}
    (h : s.Answers (if e.hasPayload c then e.payload.bytes else []) rest) :
    storeResponse c e.r1 s =
      .ok () { s with resp := e.resp c, rtag := !romShort c, replies := rest,
                      events := (idleExchanges (if e.hasPayload c then e.payload.bytes else [])).reverse ++ s.events } := by
  unfold storeResponse
  by_cases hc : romShort c
  · have hp : e.hasPayload c = false := by simp [ExchangeScript.hasPayload, hc]
    simp only [hp, State.Answers, Bool.false_eq_true, if_false, List.map_nil, List.nil_append] at h
    subst h
    simp [hc, State.storeR1Form, ExchangeScript.resp, hp]
  · by_cases hr : e.r1 > 0x01#8
    · have hp : e.hasPayload c = false := by simp [ExchangeScript.hasPayload, hr]
      simp only [hp, State.Answers, Bool.false_eq_true, if_false, List.map_nil, List.nil_append] at h
      subst h
      rw [if_neg hc, readR3R7_short _ hr]
      simp [hc, ExchangeScript.resp, hp]
    · have hp : e.hasPayload c = true := by simp [ExchangeScript.hasPayload, hr, hc]
      simp only [hp, if_true] at h ⊢
      rw [if_neg hc, readR3R7_answered hr h]
      simp [hc, ExchangeScript.resp, hp]

/-- One command exchange by its answers (R160, R161): every field of the state it leaves. -/
theorem commandExchange_answered {c : RomCmd} {e : ExchangeScript} {rest : List Reply} {s : State}
    (hp : Polled e.idle e.r1 = true) (h : s.Answers (e.ins c) rest) :
    commandExchange c s = .ok e.r1 (e.after c rest s) := by
  simp only [State.Answers, ExchangeScript.ins, ExchangeScript.responseIns, List.map_cons, List.map_append,
    List.cons_append, List.append_assoc, List.map_nil, List.nil_append] at h
  rw [commandExchange, xchg_byte (s := s.setCs true) _ h, Run.andThen_ok, performCommand,
    sendBytes_answered (romFrame c).bytes e.discarded.frame.bytes _ _ rfl (by rfl), Run.andThen_ok,
    readR1_answered hp (by rfl), Run.andThen_ok, storeResponse_answered (by rfl), Run.andThen_ok, Run.andThen_ok,
    xchg_byte _ rfl, Run.andThen_ok, xchg_byte _ rfl, Run.andThen_ok]
  simp only [ExchangeScript.after, ExchangeScript.events, ExchangeScript.responseIns, State.setCs, State.storeFrame,
    idleExchanges_append, List.reverse_append, List.reverse_cons, List.append_assoc, List.cons_append, List.nil_append,
    List.reverse_nil]

/-- A list of six bytes is a frame's. -/
theorem exists_frame_of_length {l : List Byte} (h : l.length = 6) : ∃ f : Frame, f.bytes = l := by
  match l, h with
  | [a, b, c, d, e, f], _ => exact ⟨⟨a, b, c, d, e, f⟩, rfl⟩

/-- Everything step C5 can do. -/
theorem storeResponse_cases (c : RomCmd) (r1 : Byte) (s : State) :
    ∃ replies draws t,
      (storeResponse c r1 s = .ok () t ∧ ∃ p : Payload, ∀ (d : Discarded) (k : Nat),
        t = { s with resp := (ExchangeScript.mk d k r1 p).resp c, rtag := !romShort c, replies := replies, draws := draws,
                     events := (idleExchanges (if (ExchangeScript.mk d k r1 p).hasPayload c
                       then p.bytes else [])).reverse ++ s.events }) ∨
      (storeResponse c r1 s = .abort t ∧ KeepsInit s t ∧ Faulted s t) := by
  unfold storeResponse
  by_cases hc : romShort c
  · refine ⟨s.replies, s.draws, _, .inl ⟨by rw [if_pos hc], ⟨0, 0, 0, 0⟩, fun d k => ?_⟩⟩
    simp [hc, State.storeR1Form, ExchangeScript.resp, ExchangeScript.hasPayload]
  · rw [if_neg hc]
    obtain ⟨rp, dr, t, ⟨hr, h, ht⟩ | ⟨hr, h, p, ht⟩ | ⟨hr, h, ins, resp, _, _, ht⟩⟩ := readR3R7_cases r1 s
    · refine ⟨s.replies, s.draws, t, .inl ⟨h, ⟨0, 0, 0, 0⟩, fun d k => ?_⟩⟩
      simp [hc, ht, ExchangeScript.resp, ExchangeScript.hasPayload, hr]
    · refine ⟨rp, dr, t, .inl ⟨h, p, fun d k => ?_⟩⟩
      simp [hc, ht, ExchangeScript.resp, ExchangeScript.hasPayload, hr]
    · refine ⟨rp, dr, t, .inr ⟨h, ?_, ?_⟩⟩
      · subst ht
        exact keepsInit_rfl
      · subst ht
        exact ⟨rfl, rfl, rfl, _, rfl⟩

/-- Everything one command exchange can do (R160, R212): it completes by some answers, or a transport fault ends it. -/
theorem commandExchange_cases (c : RomCmd) (s : State) :
    (∃ (e : ExchangeScript) (replies : List Reply) (draws : Nat), Polled e.idle e.r1 = true ∧
      commandExchange c s = .ok e.r1 { e.after c replies s with draws := draws }) ∨
    (∃ t, commandExchange c s = .abort t ∧ KeepsInit s t ∧ Faulted s t) := by
  unfold commandExchange performCommand
  obtain ⟨rp1, dr1, s1, ⟨b1, e1, h1⟩ | ⟨e1, h1⟩⟩ := xchg_cases Config.idleFill (s.setCs true)
  swap
  · refine .inr ⟨s1, by rw [e1, Run.andThen_abort], ?_, ?_⟩ <;> subst h1
    · exact keepsInit_rfl
    · exact ⟨rfl, rfl, rfl, [Event.cs true], rfl⟩
  rw [e1, Run.andThen_ok]
  have k1 : KeepsInit s s1 := by subst h1; exact keepsInit_rfl
  have v1 : s1.events = [Event.x Config.idleFill b1, Event.cs true] ++ s.events := by subst h1; rfl
  obtain ⟨rp2, dr2, ins, s2, ⟨hl, e2, h2⟩ | ⟨hl, e2, h2⟩⟩ :=
    sendBytes_cases (romFrame c).bytes (s1.storeFrame (romFrame c))
  swap
  · refine .inr ⟨s2, by rw [e2, Run.andThen_abort, Run.andThen_abort], k1.trans ?_, Faulted.after ?_ ⟨_, v1⟩⟩ <;> subst h2
    · exact keepsInit_rfl
    · exact ⟨rfl, rfl, rfl, _, rfl⟩
  obtain ⟨fr, rfl⟩ := exists_frame_of_length hl
  rw [e2, Run.andThen_ok]
  have k2 : KeepsInit s s2 := k1.trans (by subst h2; exact keepsInit_rfl)
  have v2 : s2.events = (List.zipWith Event.x (romFrame c).bytes fr.bytes).reverse ++
      [Event.x Config.idleFill b1, Event.cs true] ++ s.events := by
    rw [List.append_assoc, ← v1, h2]
    rfl
  obtain ⟨k, rp3, dr3, s3, ⟨r1, hpoll, e3, h3⟩ | ⟨_, e3, h3⟩⟩ := readR1_cases s2
  swap
  · refine .inr ⟨s3, by rw [e3, Run.andThen_abort, Run.andThen_abort], k2.trans ?_, Faulted.after ?_ ⟨_, v2⟩⟩ <;> subst h3
    · exact keepsInit_rfl
    · exact ⟨rfl, rfl, rfl, _, rfl⟩
  rw [e3, Run.andThen_ok]
  have k3 : KeepsInit s s3 := k2.trans (by subst h3; exact keepsInit_rfl)
  have v3 : s3.events = (idleExchanges (pollIns k r1)).reverse ++
      ((List.zipWith Event.x (romFrame c).bytes fr.bytes).reverse ++ [Event.x Config.idleFill b1, Event.cs true]) ++
      s.events := by
    rw [List.append_assoc, ← v2, h3]
  obtain ⟨rp4, dr4, s4, ⟨e4, p, h4⟩ | ⟨e4, hk, hf⟩⟩ := storeResponse_cases c r1 s3
  swap
  · exact .inr ⟨s4, by rw [e4, Run.andThen_abort, Run.andThen_abort], k3.trans hk, hf.after ⟨_, v3⟩⟩
  rw [e4, Run.andThen_ok, Run.andThen_ok]
  obtain ⟨rp5, dr5, s5, ⟨b5, e5, h5⟩ | ⟨e5, h5⟩⟩ := xchg_cases Config.idleFill s4
  swap
  · refine .inr ⟨s5, by rw [e5, Run.andThen_abort], k3.trans ?_, Faulted.after (b := s3) ?_ ⟨_, v3⟩⟩ <;>
      rw [h5, h4 ⟨0, ⟨0, 0, 0, 0, 0, 0⟩, 0, 0⟩ 0]
    · exact keepsInit_rfl
    · exact ⟨rfl, rfl, rfl, _, rfl⟩
  rw [e5, Run.andThen_ok]
  obtain ⟨rp6, dr6, s6, ⟨b6, e6, h6⟩ | ⟨e6, h6⟩⟩ := xchg_cases Config.idleFill (s5.setCs false)
  swap
  · refine .inr ⟨s6, by rw [e6, Run.andThen_abort], k3.trans ?_, Faulted.after (b := s3) ?_ ⟨_, v3⟩⟩ <;>
      rw [h6, h5, h4 ⟨0, ⟨0, 0, 0, 0, 0, 0⟩, 0, 0⟩ 0]
    · exact keepsInit_rfl
    · exact ⟨rfl, rfl, rfl, Event.cs false :: Event.x Config.idleFill b5 :: _, rfl⟩
  rw [e6, Run.andThen_ok]
  refine .inl ⟨⟨⟨b1, fr, b5, b6⟩, k, r1, p⟩, rp6, dr6, hpoll, ?_⟩
  rw [h6, h5, h4 ⟨b1, fr, b5, b6⟩ k]
  have hev : (ExchangeScript.mk ⟨b1, fr, b5, b6⟩ k r1 p).events c =
      [Event.cs true, Event.x Config.idleFill b1] ++ List.zipWith Event.x (romFrame c).bytes fr.bytes ++
        idleExchanges (pollIns k r1) ++
        idleExchanges (if (ExchangeScript.mk ⟨b1, fr, b5, b6⟩ k r1 p).hasPayload c then p.bytes else []) ++
        [Event.x Config.idleFill b5, Event.cs false, Event.x Config.idleFill b6] := by
    simp [ExchangeScript.events, ExchangeScript.responseIns]
  simp only [ExchangeScript.after, hev, State.setCs, List.reverse_append, List.reverse_cons, List.append_assoc,
    List.cons_append, List.nil_append, List.reverse_nil, v3]
  subst h3 h2 h1
  rfl

/-! ## One negotiation attempt (R162) -/

/-- One attempt by its answers: every field of the state it leaves. -/
theorem negAttempt_answered {a : AttemptScript} {rest : List Reply} {s : State} (hp : a.polled = true)
    (h : s.Answers a.ins rest) : negAttempt s = .ok (a.app.r1, a.captured, a.sent) (a.after rest s) := by
  obtain ⟨app, request⟩ := a
  simp only [AttemptScript.polled, Bool.and_eq_true] at hp
  rw [negAttempt]
  by_cases hs : app.r1 < 0x02#8
  · have hsent : AttemptScript.sent ⟨app, request⟩ = true := by simp [AttemptScript.sent, hs]
    simp only [AttemptScript.ins, hsent, if_true, State.Answers, List.map_append, List.append_assoc] at h
    have hp2 : Polled request.idle request.r1 = true := by simpa [hsent] using hp.2
    rw [commandExchange_answered hp.1 h, Run.andThen_ok, if_pos hs, commandExchange_answered hp2 (by rfl), Run.andThen_ok]
    simp [AttemptScript.after, AttemptScript.captured, AttemptScript.last, AttemptScript.lastCmd, AttemptScript.events, hsent,
      State.storeCaptured, ExchangeScript.after, ExchangeScript.resp, ExchangeScript.hasPayload,
      show romShort .opCond = true from rfl]
  · have hsent : AttemptScript.sent ⟨app, request⟩ = false := by simp [AttemptScript.sent, hs]
    simp only [AttemptScript.ins, hsent, Bool.false_eq_true, if_false, List.append_nil] at h
    rw [commandExchange_answered hp.1 h, Run.andThen_ok, if_neg hs]
    simp [AttemptScript.after, AttemptScript.captured, AttemptScript.last, AttemptScript.lastCmd, AttemptScript.events, hsent,
      State.storeCaptured, ExchangeScript.after, ExchangeScript.resp, ExchangeScript.hasPayload,
      show romShort .appCmd = true from rfl]

/-- The registers no negotiation attempt writes. -/
structure KeepsAttempt (s t : State) : Prop where
  op : t.op = s.op
  initState : t.initState = s.initState
  idleCnt : t.idleCnt = s.idleCnt
  negCnt : t.negCnt = s.negCnt
  fillCnt : t.fillCnt = s.fillCnt
  outcome : t.outcome = s.outcome
  ccs : t.ccs = s.ccs
  vwin : t.vwin = s.vwin
  result : t.result = s.result
  rvalid : t.rvalid = s.rvalid
  moves : t.moves = s.moves

theorem KeepsInit.attempt {s t : State} (h : KeepsInit s t) : KeepsAttempt s t :=
  ⟨h.op, h.initState, h.idleCnt, h.negCnt, h.fillCnt, h.outcome, h.ccs, h.vwin, h.result, h.rvalid, h.moves⟩

theorem KeepsAttempt.trans {a b c : State} (h : KeepsAttempt a b) (k : KeepsAttempt b c) : KeepsAttempt a c :=
  ⟨k.op.trans h.op, k.initState.trans h.initState, k.idleCnt.trans h.idleCnt, k.negCnt.trans h.negCnt,
    k.fillCnt.trans h.fillCnt, k.outcome.trans h.outcome, k.ccs.trans h.ccs, k.vwin.trans h.vwin, k.result.trans h.result,
    k.rvalid.trans h.rvalid, k.moves.trans h.moves⟩

/-- Everything one attempt can do (R162, R212): it completes by some answers, or a transport fault ends it. -/
theorem negAttempt_cases (s : State) :
    (∃ (a : AttemptScript) (replies : List Reply) (draws : Nat), a.polled = true ∧
      negAttempt s = .ok (a.app.r1, a.captured, a.sent) { a.after replies s with draws := draws }) ∨
    (∃ t, negAttempt s = .abort t ∧ KeepsAttempt s t ∧ Faulted s t) := by
  rw [negAttempt]
  obtain ⟨e, rp, dr, hp, h⟩ | ⟨t, h, hk, hf⟩ := commandExchange_cases .appCmd s
  swap
  · exact .inr ⟨t, by rw [h, Run.andThen_abort], hk.attempt, hf⟩
  rw [h, Run.andThen_ok]
  by_cases hs : e.r1 < 0x02#8
  · rw [if_pos hs]
    obtain ⟨e2, rp2, dr2, hp2, h2⟩ | ⟨t, h2, hk, hf⟩ := commandExchange_cases .opCond { e.after .appCmd rp s with draws := dr }
    swap
    · exact .inr ⟨t, by rw [h2, Run.andThen_abort], KeepsAttempt.trans (KeepsInit.attempt keepsInit_rfl) hk.attempt,
        hf.after ⟨(e.events .appCmd).reverse, rfl⟩⟩
    · refine .inl ⟨⟨e, e2⟩, rp2, dr2, by simp [AttemptScript.polled, hp, hp2], ?_⟩
      have hsent : AttemptScript.sent ⟨e, e2⟩ = true := by simp [AttemptScript.sent, hs]
      rw [h2, Run.andThen_ok]
      simp [AttemptScript.after, AttemptScript.captured, AttemptScript.last, AttemptScript.lastCmd, AttemptScript.events,
        hsent, State.storeCaptured, ExchangeScript.after, ExchangeScript.resp, ExchangeScript.hasPayload,
        show romShort .opCond = true from rfl]
  · rw [if_neg hs]
    have hsent : AttemptScript.sent ⟨e, e⟩ = false := by simp [AttemptScript.sent, hs]
    refine .inl ⟨⟨e, e⟩, rp, dr, by simp [AttemptScript.polled, hp, hsent], ?_⟩
    simp [AttemptScript.after, AttemptScript.captured, AttemptScript.last, AttemptScript.lastCmd, AttemptScript.events, hsent,
      State.storeCaptured, ExchangeScript.after, ExchangeScript.resp, ExchangeScript.hasPayload,
      show romShort .appCmd = true from rfl]

end Sys2Proof.Machine
end

