-- ==== Sys2Proof/Laws/Decode.lean ====
section
/-! SUPPORT. Laws/Decode.lean: the fields of a packed word, and the opcode table's masks in terms of the fields (30_encoding.md
R80 to R82). -/

namespace Sys2Proof

/-! ## Packing and the fields -/

theorem opField_pack (op : BitVec 4) (idx : BitVec 6) (arg : BitVec 32) (byte : Byte) :
    opField (packRequest op idx arg byte) = op :=
  (BitVec.extractLsb'_append_eq_of_le (xhi := op ++ 0#14 ++ idx ++ arg) (xlo := byte) (by decide)).trans
    ((BitVec.extractLsb'_append_eq_of_le (xhi := op ++ 0#14 ++ idx) (xlo := arg) (by decide)).trans
      ((BitVec.extractLsb'_append_eq_of_le (xhi := op ++ 0#14) (xlo := idx) (by decide)).trans
        (BitVec.extractLsb'_append_eq_left (a := op) (b := 0#14))))

theorem rsvField_pack (op : BitVec 4) (idx : BitVec 6) (arg : BitVec 32) (byte : Byte) :
    rsvField (packRequest op idx arg byte) = 0#14 :=
  (BitVec.extractLsb'_append_eq_of_le (xhi := op ++ 0#14 ++ idx ++ arg) (xlo := byte) (by decide)).trans
    ((BitVec.extractLsb'_append_eq_of_le (xhi := op ++ 0#14 ++ idx) (xlo := arg) (by decide)).trans
      ((BitVec.extractLsb'_append_eq_of_le (xhi := op ++ 0#14) (xlo := idx) (by decide)).trans
        (BitVec.extractLsb'_append_eq_right (a := op) (b := 0#14))))

theorem idxField_pack (op : BitVec 4) (idx : BitVec 6) (arg : BitVec 32) (byte : Byte) :
    idxField (packRequest op idx arg byte) = idx :=
  (BitVec.extractLsb'_append_eq_of_le (xhi := op ++ 0#14 ++ idx ++ arg) (xlo := byte) (by decide)).trans
    ((BitVec.extractLsb'_append_eq_of_le (xhi := op ++ 0#14 ++ idx) (xlo := arg) (by decide)).trans
      (BitVec.extractLsb'_append_eq_right (a := op ++ 0#14) (b := idx)))

theorem argField_pack (op : BitVec 4) (idx : BitVec 6) (arg : BitVec 32) (byte : Byte) :
    argField (packRequest op idx arg byte) = arg :=
  (BitVec.extractLsb'_append_eq_of_le (xhi := op ++ 0#14 ++ idx ++ arg) (xlo := byte) (by decide)).trans
    (BitVec.extractLsb'_append_eq_right (a := op ++ 0#14 ++ idx) (b := arg))

theorem byteField_pack (op : BitVec 4) (idx : BitVec 6) (arg : BitVec 32) (byte : Byte) :
    byteField (packRequest op idx arg byte) = byte :=
  BitVec.extractLsb'_append_eq_right (a := op ++ 0#14 ++ idx ++ arg) (b := byte)

/-- A word is its five fields. -/
theorem word_eq_fields (w : Request) : opField w ++ rsvField w ++ idxField w ++ argField w ++ byteField w = w := by
  simp only [opField, rsvField, idxField, argField, byteField]
  rw [BitVec.extractLsb'_append_extractLsb'_eq_extractLsb' (by omega),
    BitVec.extractLsb'_append_extractLsb'_eq_extractLsb' (by omega),
    BitVec.extractLsb'_append_extractLsb'_eq_extractLsb' (by omega),
    BitVec.extractLsb'_append_extractLsb'_eq_extractLsb' (by omega)]
  exact BitVec.extractLsb'_eq_self

/-- A word with RSV = 0 is packed from its other fields. -/
theorem pack_fields {w : Request} (h : rsvField w = 0#14) :
    packRequest (opField w) (idxField w) (argField w) (byteField w) = w := by
  have := word_eq_fields w
  rwa [h] at this

/-! ## The masks -/

theorem append_inj {v w : Nat} {a a' : BitVec v} {b b' : BitVec w} : a ++ b = a' ++ b' ↔ a = a' ∧ b = b' := by
  refine ⟨fun h => ⟨?_, ?_⟩, fun ⟨h, k⟩ => by rw [h, k]⟩
  · simpa [BitVec.extractLsb'_append_eq_left] using congrArg (BitVec.extractLsb' w v) h
  · simpa [BitVec.extractLsb'_append_eq_right] using congrArg (BitVec.extractLsb' 0 w) h

/-- A row whose mask is all ones on OP and RSV, and all ones or all zeros on each other field. -/
theorem masked_iff (w : Request) (op : BitVec 4) (mi : BitVec 6) (ma : BitVec 32) (mb : Byte) :
    (w &&& (0xF#4 ++ 0x3FFF#14 ++ mi ++ ma ++ mb) = op ++ 0#14 ++ 0#6 ++ 0#32 ++ 0#8) ↔
      opField w = op ∧ rsvField w = 0#14 ∧ idxField w &&& mi = 0#6 ∧ argField w &&& ma = 0#32 ∧ byteField w &&& mb = 0#8 := by
  conv => lhs; lhs; lhs; rw [← word_eq_fields w]
  rw [BitVec.and_append, BitVec.and_append, BitVec.and_append, BitVec.and_append, append_inj, append_inj, append_inj,
    append_inj]
  have h4 : opField w &&& 0xF#4 = opField w := BitVec.and_allOnes
  have h14 : rsvField w &&& 0x3FFF#14 = rsvField w := BitVec.and_allOnes
  rw [h4, h14]
  tauto

end Sys2Proof
end

