-- ==== Sys2Proof/Laws/Sequencer.lean ====
section
/-! SUPPORT. Laws/Sequencer.lean: the sequencer, started at a procedure's first step, reaches what the procedure run whole
answers (10_state.md R23): one lemma per procedure of 41 and 43. -/

namespace Sys2Proof.Machine

-- Keeps the number of threads that check the lemmas side by side low.
set_option Elab.async false

variable {α β : Type}

/-! ## Runs of the sequencer -/

/-- Some number of sequencer steps lead from one state to the other. -/
def Reaches (s t : State) : Prop := ∃ n, seqSteps n s = .next t

theorem Reaches.refl (s : State) : Reaches s s := ⟨0, rfl⟩

theorem Reaches.head {s t u : State} (h : seqStep s = .next t) (k : Reaches t u) : Reaches s u := by
  obtain ⟨n, hn⟩ := k
  exact ⟨n + 1, by simp [seqSteps, h, hn]⟩

theorem Reaches.one {s t : State} (h : seqStep s = .next t) : Reaches s t := .head h (.refl t)

theorem Reaches.trans {s t u : State} (h : Reaches s t) (k : Reaches t u) : Reaches s u := by
  obtain ⟨n, hn⟩ := h
  induction n generalizing s with
  | zero =>
    simp only [seqSteps, Host.Outcome.next.injEq] at hn
    exact hn ▸ k
  | succ n ih =>
    cases hs : seqStep s with
    | next v =>
      simp only [seqSteps, hs] at hn
      exact .head hs (ih hn)
    | fault r => simp [seqSteps, hs] at hn
    | refused r => simp [seqSteps, hs] at hn

/-- Where the sequencer stands when a procedure has ended: at the step it returns to, or nowhere after a transport fault. -/
def Run.landsAt (f : α → Pos) : Run α → State
  | .ok a t => t.goto (f a)
  | .abort t => t

@[simp] theorem Run.landsAt_ok (f : α → Pos) (a : α) (t : State) : (Run.ok a t).landsAt f = t.goto (f a) := rfl

@[simp] theorem Run.landsAt_abort (f : α → Pos) (t : State) : (Run.abort t : Run α).landsAt f = t := rfl

@[simp] theorem State.goto_goto (p q : Pos) (s : State) : (s.goto p).goto q = s.goto q := rfl

/-- One procedure after another. -/
theorem Reaches.andThen {r : Run α} {f : α → State → Run β} {g : α → Pos} {h : β → Pos} {s : State}
    (hr : Reaches s (r.landsAt g)) (hf : ∀ a t, Reaches (t.goto (g a)) ((f a t).landsAt h)) :
    Reaches s ((r.andThen f).landsAt h) := by
  cases r with
  | ok a t => exact hr.trans (hf a t)
  | abort t => exact hr

/-- The same for the last part of an operation. -/
theorem Reaches.finish {r : Run α} {f : α → State → Run Unit} {g : α → Pos} {s : State}
    (hr : Reaches s (r.landsAt g)) (hf : ∀ a t, Reaches (t.goto (g a)) (f a t).finish) :
    Reaches s (r.andThen f).finish := by
  cases r with
  | ok a t => exact hr.trans (hf a t)
  | abort t => exact hr

theorem seqStep_goto (p : Pos) (s : State) : seqStep (s.goto p) = stepAt p (s.goto p) := rfl

/-- An exchange as a step: the sequencer goes on with the byte, or the fault is taken. -/
theorem xchgStep_goto (out : Byte) (p : Pos) (g : Byte → Pos) (w : Byte → State → State) (s : State)
    (hw : ∀ b q t, (w b { t with seq := q }).goto (g b) = (w b t).goto (g b)) :
    xchgStep out (s.goto p) (fun b s => proceed (g b) (w b s)) =
      .next (((xchg out s).andThen fun b t => .ok b (w b t)).landsAt g) := by
  unfold xchgStep
  rw [show s.goto p = { s with seq := some p } from rfl, xchg_withSeq]
  cases xchg out s with
  | ok b t => simp [proceed, hw]
  | abort t => rfl

/-- One exchange at a label, and then the rest of a procedure. -/
theorem Reaches.xchg {out : Byte} {p : Pos} {g : Byte → Pos} {w : Byte → State → State} {s : State}
    {f : Byte → State → Run β} {h : β → Pos}
    (hstep : stepAt p (s.goto p) = xchgStep out (s.goto p) (fun b s => proceed (g b) (w b s)))
    (hw : ∀ b q t, (w b { t with seq := q }).goto (g b) = (w b t).goto (g b))
    (hf : ∀ b t, Reaches ((w b t).goto (g b)) ((f b t).landsAt h)) :
    Reaches (s.goto p) (((Machine.xchg out s).andThen f).landsAt h) := by
  refine Reaches.head ((seqStep_goto p s).trans (hstep.trans (xchgStep_goto out p g w s hw))) ?_
  cases Machine.xchg out s with
  | ok b t => exact hf b t
  | abort t => exact .refl t

/-! ## `ReadR1` (R120) -/

theorem pollLoop_sim (k : PollCaller) (left : Nat) :
    ∀ s : State, s.pollCnt.toNat + left = Config.r1PollLimit → 0 < left →
      Reaches (s.goto (.p1 k)) ((pollLoop left s).landsAt k.resume) := by
  induction left with
  | zero => intro s _ h; omega
  | succ left ih =>
    intro s hcnt _
    have h9 : Config.r1PollLimit = 9 := rfl
    refine Reaches.head (xchgStep_goto _ _ (fun b => .p2 b k) (fun _ t => t) s (fun _ _ _ => rfl)) ?_
    rw [pollLoop]
    obtain ⟨rp, dr, t, ⟨b, h, ht⟩ | ⟨h, ht⟩⟩ := xchg_cases Config.idleFill s
    · simp only [h, Run.andThen_ok, Run.landsAt_ok]
      have hc : t.countPoll.pollCnt.toNat = s.pollCnt.toNat + 1 := by
        rw [ht, State.countPoll_pollCnt]
        simp only [BitVec.toNat_add, BitVec.toNat_ofNat]
        omega
      refine Reaches.head (t := t.countPoll.goto (.p3 b k)) rfl ?_
      by_cases hb : b ≠ Config.idleFill
      · rw [if_pos hb]
        exact Reaches.one (by rw [seqStep_goto]; simp [stepAt, stepPoll, hb, proceed])
      · rw [if_neg hb]
        refine Reaches.head (t := t.countPoll.goto (.p4 b k)) (by rw [seqStep_goto]; simp [stepAt, stepPoll, hb, proceed]) ?_
        cases left with
        | zero =>
          have : t.countPoll.pollCnt.toNat = Config.r1PollLimit := by omega
          refine Reaches.one ?_
          rw [seqStep_goto]
          simp only [ne_eq, not_not] at hb
          simp only [stepAt, stepPoll, State.goto_pollCnt, this, if_true, proceed, pollLoop, Run.landsAt_ok, hb]
          rfl
        | succ left =>
          have hne : ¬ t.countPoll.pollCnt.toNat = Config.r1PollLimit := by omega
          refine Reaches.head (t := t.countPoll.goto (.p5 k)) (by
            rw [seqStep_goto]
            simp only [stepAt, stepPoll, State.goto_pollCnt, hne, if_false, proceed]
            rfl) ?_
          exact Reaches.head (t := t.countPoll.goto (.p1 k)) rfl (ih t.countPoll (by omega) (by omega))
    · simp only [h, Run.andThen_abort, Run.landsAt_abort]
      exact Reaches.refl t

theorem readR1_sim (k : PollCaller) (s : State) : Reaches (s.goto (.p0 k)) ((readR1 s).landsAt k.resume) :=
  Reaches.head (t := State.goto (.p1 k) { s with pollCnt := 0#4 }) rfl
    (pollLoop_sim k Config.r1PollLimit { s with pollCnt := 0#4 } rfl (by decide))

/-! ## `ReadR3R7` (R124) -/

theorem readR3R7_sim (r1 : Byte) (k : PayloadCaller) (s : State) :
    Reaches (s.goto (.pa0 r1 k)) ((readR3R7 r1 s).landsAt fun _ => k.resume) := by
  refine Reaches.head (t := (s.openResp r1).goto (.pa1 r1 k)) rfl ?_
  unfold readR3R7
  by_cases h : r1 > 0x01#8
  · rw [if_pos h]
    exact Reaches.one (by rw [seqStep_goto]; simp only [stepAt, stepPayload, if_pos h, proceed]; rfl)
  · rw [if_neg h, readPayload]
    refine Reaches.head (t := (s.openResp r1).goto (.pa2 k)) (by
      rw [seqStep_goto]; simp only [stepAt, stepPayload, if_neg h, proceed]; rfl) ?_
    refine .xchg (g := fun _ => .pa3 k) (w := fun b t => t.storeResp1 b) rfl (fun _ _ _ => rfl) fun b t => ?_
    refine .xchg (g := fun _ => .pa4 k) (w := fun b t => t.storeResp2 b) rfl (fun _ _ _ => rfl) fun b t => ?_
    refine .xchg (g := fun _ => .pa5 k) (w := fun b t => t.storeResp3 b) rfl (fun _ _ _ => rfl) fun b t => ?_
    refine .xchg (g := fun _ => .pa6 k) (w := fun b t => t.storeResp4 b) rfl (fun _ _ _ => rfl) fun b t => ?_
    exact .one rfl

/-! ## `CommandExchange` (R160) -/

/-- Step C3: the six frame bytes. -/
theorem sendFrame_sim (c : RomCmd) (k : ExchangeCaller) (s : State) (hf : s.frame = some (romFrame c)) :
    Reaches (s.goto (.c3 0 c k)) ((sendBytes (romFrame c).bytes s).landsAt fun _ => .c4 c k) := by
  have hx : ∀ {i : Fin 6} {t : State}, t.frame = some (romFrame c) →
      stepAt (.c3 i c k) (t.goto (.c3 i c k)) =
        xchgStep ((romFrame c).byteAt i) (t.goto (.c3 i c k)) fun _ s => proceed (afterFrameByte i c k) s := by
    intro i t ht
    simp [stepAt, stepExchange, useDefined, ht]
  have hk : ∀ {out : Byte} {t u : State} {b : Byte}, t.frame = some (romFrame c) → xchg out t = .ok b u →
      u.frame = some (romFrame c) := by
    intro out t u b ht hu
    obtain ⟨rp, dr, v, ⟨b', h, hv⟩ | ⟨h, hv⟩⟩ := xchg_cases out t
    · rw [h] at hu
      cases hu
      rw [hv, ← ht]
    · rw [h] at hu
      cases hu
  have go : ∀ (i : Fin 6) (t : State) (rest : List Byte), t.frame = some (romFrame c) →
      (∀ u : State, u.frame = some (romFrame c) →
        Reaches (u.goto (afterFrameByte i c k)) ((sendBytes rest u).landsAt fun _ => .c4 c k)) →
      Reaches (t.goto (.c3 i c k)) ((sendBytes ((romFrame c).byteAt i :: rest) t).landsAt fun _ => .c4 c k) := by
    intro i t rest ht hrest
    refine .head ((seqStep_goto _ t).trans ((hx ht).trans
      (xchgStep_goto _ _ (fun _ => afterFrameByte i c k) (fun _ t => t) t (fun _ _ _ => rfl)))) ?_
    rw [sendBytes]
    cases hu : xchg ((romFrame c).byteAt i) t with
    | ok b u => exact hrest u (hk ht hu)
    | abort u => exact .refl u
  have h6 : (romFrame c).bytes = [(romFrame c).byteAt 0, (romFrame c).byteAt 1, (romFrame c).byteAt 2,
      (romFrame c).byteAt 3, (romFrame c).byteAt 4, (romFrame c).byteAt 5] := rfl
  rw [h6]
  refine go 0 s _ hf fun u hu => go 1 u _ hu fun u hu => go 2 u _ hu fun u hu => go 3 u _ hu fun u hu =>
    go 4 u _ hu fun u hu => go 5 u _ hu fun u _ => .refl _

/-- Step C5. -/
theorem storeResponse_sim (c : RomCmd) (r1 : Byte) (k : ExchangeCaller) (s : State) :
    Reaches (s.goto (.c5 c r1 k)) ((storeResponse c r1 s).landsAt fun _ => .c6 k) := by
  unfold storeResponse
  by_cases hc : romShort c
  · rw [if_pos hc]
    exact .one (by rw [seqStep_goto]; simp only [stepAt, stepExchange, if_pos hc, proceed]; rfl)
  · rw [if_neg hc]
    exact .head (t := s.goto (.pa0 r1 (.c5 k)))
      (by rw [seqStep_goto]; simp only [stepAt, stepExchange, if_neg hc, proceed]; rfl) (readR3R7_sim r1 (.c5 k) s)

/-- The status is in `resp[0]` when step C5 is done. -/
theorem storeResponse_status {c : RomCmd} {r1 : Byte} {s t : State} (h : storeResponse c r1 s = .ok () t) :
    t.resp.b0 = some r1 := by
  obtain ⟨rp, dr, u, ⟨e, p, hu⟩ | ⟨e, _⟩⟩ := storeResponse_cases c r1 s
  · rw [e] at h
    cases h
    rw [hu ⟨0, ⟨0, 0, 0, 0, 0, 0⟩, 0, 0⟩ 0]
    simp only [ExchangeScript.resp]
    split <;> rfl
  · rw [e] at h
    cases h

theorem xchg_resp {out b : Byte} {s t : State} (h : xchg out s = .ok b t) : t.resp = s.resp := by
  obtain ⟨rp, dr, u, ⟨b', e, hu⟩ | ⟨e, hu⟩⟩ := xchg_cases out s
  · rw [e] at h
    cases h
    rw [hu]
  · rw [e] at h
    cases h

/-- Steps C2 to C5. -/
theorem performCommand_sim (c : RomCmd) (k : ExchangeCaller) (s : State) :
    Reaches (s.goto (.c2 c k)) ((performCommand c s).landsAt fun _ => .c6 k) := by
  refine .head (t := (s.storeFrame (romFrame c)).goto (.c3 0 c k)) rfl ?_
  unfold performCommand
  refine .andThen (sendFrame_sim c k _ rfl) fun _ t => ?_
  refine .head (t := t.goto (.p0 (.c4 c k))) rfl ?_
  refine .andThen (readR1_sim (.c4 c k) t) fun r1 t => ?_
  exact .andThen (storeResponse_sim c r1 k t) fun _ t => .refl _

/-- `performCommand` answers the status it leaves in `resp[0]`. -/
theorem performCommand_status {c : RomCmd} {r1 : Byte} {s t : State} (h : performCommand c s = .ok r1 t) :
    t.resp.b0 = some r1 := by
  unfold performCommand at h
  obtain ⟨_, s1, _, h⟩ := Run.andThen_eq_ok.1 h
  obtain ⟨r, s2, _, h⟩ := Run.andThen_eq_ok.1 h
  obtain ⟨_, s3, h3, h⟩ := Run.andThen_eq_ok.1 h
  cases h
  exact storeResponse_status h3

/-- The whole exchange: it returns to its caller with `resp[0]`. -/
theorem commandExchange_sim (c : RomCmd) (k : ExchangeCaller) (s : State) :
    Reaches (s.goto (.c0 c k)) ((commandExchange c s).landsAt k.resume) := by
  refine .head (t := (s.setCs true).goto (.c1 c k)) rfl ?_
  refine .xchg (g := fun _ => .c2 c k) (w := fun _ t => t) rfl (fun _ _ _ => rfl) fun b t => ?_
  have hsim := performCommand_sim c k t
  cases hp : performCommand c t with
  | abort u => rwa [hp] at hsim
  | ok r1 u =>
    rw [hp] at hsim
    refine hsim.trans ?_
    have hr := performCommand_status hp
    rw [Run.andThen_ok, Run.landsAt_ok]
    refine .head ((seqStep_goto _ u).trans (xchgStep_goto _ _ (fun _ => .c7 k) (fun _ t => t) u (fun _ _ _ => rfl))) ?_
    cases hx : xchg Config.idleFill u with
    | abort v => exact .refl v
    | ok b v =>
      refine .head (t := (v.setCs false).goto (.c8 k)) rfl ?_
      refine .head ((seqStep_goto _ _).trans
        (xchgStep_goto _ _ (fun _ => .c9 k) (fun _ t => t) (v.setCs false) (fun _ _ _ => rfl))) ?_
      rw [Run.andThen_ok]
      cases hy : xchg Config.idleFill (v.setCs false) with
      | abort w => exact .refl w
      | ok b' w =>
        have hw : w.resp.b0 = some r1 := by rw [xchg_resp hy, State.setCs_resp, xchg_resp hx, hr]
        refine .one ?_
        rw [Run.andThen_ok, Run.landsAt_ok, seqStep_goto]
        simp only [stepAt, stepExchange, State.goto_resp, hw, useDefined, proceed]
        rfl

/-- `CommandExchange` answers the status it leaves in `resp[0]` (R160 C9). -/
theorem commandExchange_status {c : RomCmd} {r1 : Byte} {s t : State} (h : commandExchange c s = .ok r1 t) :
    t.resp.b0 = some r1 := by
  obtain ⟨e, rp, dr, _, h'⟩ | ⟨u, h', _, _⟩ := commandExchange_cases c s
  · rw [h'] at h
    cases h
    simp only [ExchangeScript.after, ExchangeScript.resp]
    split <;> rfl
  · rw [h'] at h
    cases h

/-! ## `NegAttempt` (R162) -/

theorem negAttempt_sim (k : AttemptCaller) (s : State) :
    Reaches (s.goto (.n0 k)) ((negAttempt s).landsAt fun r => k.resume r.1 r.2.2) := by
  refine .head (t := s.goto (.c0 .appCmd (.n0 k))) rfl ?_
  refine .andThen (commandExchange_sim .appCmd (.n0 k) s) fun s55 t => ?_
  by_cases h : s55 < 0x02#8
  · rw [if_pos h]
    refine .head (t := t.goto (.c0 .opCond (.n1 s55 k)))
      (by rw [seqStep_goto]; simp only [ExchangeCaller.resume, stepAt, stepAttempt, if_pos h, proceed]; rfl) ?_
    refine .andThen (commandExchange_sim .opCond (.n1 s55 k) t) fun r1 u => ?_
    exact .head (t := (u.storeCaptured r1).goto (.n2 s55 true k)) rfl (.one rfl)
  · rw [if_neg h]
    exact .head (t := (t.storeCaptured s55).goto (.n2 s55 false k))
      (by rw [seqStep_goto]; simp only [ExchangeCaller.resume, stepAt, stepAttempt, if_neg h, proceed]; rfl) (.one rfl)

/-- The captured status is in its register when the attempt is done (R162). -/
theorem negAttempt_captured {r : Byte × Byte × Bool} {s t : State} (h : negAttempt s = .ok r t) :
    t.captured = some r.2.1 := by
  unfold negAttempt at h
  obtain ⟨s55, u, _, h⟩ := Run.andThen_eq_ok.1 h
  split at h
  · obtain ⟨r1, v, _, h⟩ := Run.andThen_eq_ok.1 h
    cases h
    rfl
  · cases h
    rfl

end Sys2Proof.Machine
end

