-- ==== Sys2Proof/Laws/Init.lean ====
section
/-! SUPPORT. Laws/Init.lean: what the loops and checks of INIT can do, and that the sequencer runs them (44_init_fsm.md). -/

namespace Sys2Proof.Machine

-- Keeps the number of threads that check the lemmas side by side low.
set_option Elab.async false

/-! ## The response after an exchange -/

@[simp] theorem hasPayload_short {c : RomCmd} (h : romShort c = true) (e : ExchangeScript) : e.hasPayload c = false := by
  simp [ExchangeScript.hasPayload, h]

/-- After a status of at most 1 to a command that elicits R3 or R7, bytes 1 to 4 hold values (R31, R124). -/
theorem commandExchange_payload {c : RomCmd} {r1 : Byte} {s t : State} (hc : romShort c = false) (hr : ¬ r1 > 0x01#8)
    (h : commandExchange c s = .ok r1 t) :
    ∃ p : Payload, t.resp = ⟨some r1, some p.b1, some p.b2, some p.b3, some p.b4⟩ := by
  obtain ⟨e, rp, dr, _, h'⟩ | ⟨u, h', _, _⟩ := commandExchange_cases c s
  · rw [h'] at h
    cases h
    have : e.hasPayload c = true := by simp only [ExchangeScript.hasPayload, hc]; simpa using hr
    exact ⟨e.payload, by simp [ExchangeScript.after, ExchangeScript.resp, this]⟩
  · rw [h'] at h
    cases h

theorem keepsInit_of_exchange {c : RomCmd} {r1 : Byte} {s t : State} (h : commandExchange c s = .ok r1 t) :
    KeepsInit s t := by
  obtain ⟨e, rp, dr, _, h'⟩ | ⟨u, h', _, _⟩ := commandExchange_cases c s
  · rw [h'] at h
    cases h
    exact keepsInit_rfl
  · rw [h'] at h
    cases h

/-- A negotiation attempt writes `captured` and leaves the other registers of INIT alone. -/
theorem negAttempt_negCnt {r : Byte × Byte × Bool} {s t : State} (h : negAttempt s = .ok r t) : t.negCnt = s.negCnt := by
  unfold negAttempt at h
  obtain ⟨s55, u, hu, h⟩ := Run.andThen_eq_ok.1 h
  split at h
  · obtain ⟨r1, v, hv, h⟩ := Run.andThen_eq_ok.1 h
    cases h
    rw [State.storeCaptured_negCnt, (keepsInit_of_exchange hv).negCnt, (keepsInit_of_exchange hu).negCnt]
  · cases h
    rw [State.storeCaptured_negCnt, (keepsInit_of_exchange hu).negCnt]

/-! ## The sequencer in `PowerUp` (R182) and `GoIdleLoop` (R183) -/

theorem count_succ {w : Nat} {c : BitVec w} (h : c.toNat + 1 < 2 ^ w) : (c + 1#w).toNat = c.toNat + 1 := by
  rw [BitVec.toNat_add, BitVec.toNat_ofNat]
  have h1 : 1 < 2 ^ w := by omega
  rw [Nat.mod_eq_of_lt h1, Nat.mod_eq_of_lt h]

theorem fillLoop_sim (left : Nat) :
    ∀ s : State, s.fillCnt.toNat + left = Config.fillCount →
      Reaches (s.goto .u3) ((fillLoop left s).landsAt fun _ => .s2) := by
  induction left with
  | zero =>
    intro s h
    refine .one ?_
    rw [seqStep_goto]
    simp only [stepAt, stepPowerUp, State.goto_fillCnt, show s.fillCnt.toNat = Config.fillCount by omega, if_true, proceed]
    rfl
  | succ left ih =>
    intro s h
    have h10 : Config.fillCount = 10 := rfl
    refine .head (t := s.goto .u4) (by
      rw [seqStep_goto]
      simp only [stepAt, stepPowerUp, State.goto_fillCnt, show ¬ s.fillCnt.toNat = Config.fillCount by omega, if_false,
        proceed]
      rfl) ?_
    refine .head ((seqStep_goto _ s).trans (xchgStep_goto _ _ (fun _ => .u5) (fun _ t => t) s (fun _ _ _ => rfl))) ?_
    rw [fillLoop]
    obtain ⟨rp, dr, t, ⟨b, e, ht⟩ | ⟨e, ht⟩⟩ := xchg_cases Config.idleFill s
    · rw [e]
      refine .head (t := t.countFill.goto .u3) rfl (ih t.countFill ?_)
      rw [State.countFill_fillCnt, count_succ (by rw [ht]; simp only; omega), ht]
      simp only
      omega
    · rw [e]
      exact .refl t

theorem powerUp_sim (s : State) : Reaches (s.goto .u0) ((powerUp s).landsAt fun _ => .s2) :=
  .head (t := (s.setCs false).goto .u1) rfl
    (.head (t := ((s.setCs false).delay .settle).goto .u2) rfl
      (.head (t := State.goto .u3 { (s.setCs false).delay .settle with fillCnt := 0#4 }) rfl (fillLoop_sim _ _ rfl)))

theorem idleLoop_sim (left : Nat) :
    ∀ s : State, s.idleCnt.toNat + left = Config.idleLimit →
      Reaches (s.goto .l1) ((idleLoop left s).landsAt .s2Return) := by
  induction left with
  | zero =>
    intro s h
    refine .one ?_
    rw [seqStep_goto]
    simp only [stepAt, stepPowerUp, State.goto_idleCnt, show s.idleCnt.toNat = Config.idleLimit by omega, if_true, proceed]
    rfl
  | succ left ih =>
    intro s h
    have h11 : Config.idleLimit = 11 := rfl
    refine .head (t := s.goto .l2) (by
      rw [seqStep_goto]
      simp only [stepAt, stepPowerUp, State.goto_idleCnt, show ¬ s.idleCnt.toNat = Config.idleLimit by omega, if_false,
        proceed]
      rfl) ?_
    refine .head (t := s.countIdle.goto .l3) rfl (.head (t := s.countIdle.goto (.c0 .goIdle .l3)) rfl ?_)
    rw [idleLoop]
    have hsim := commandExchange_sim .goIdle .l3 s.countIdle
    cases hx : commandExchange .goIdle s.countIdle with
    | abort t => rwa [hx] at hsim
    | ok r1 t =>
      rw [hx] at hsim
      refine hsim.trans ?_
      rw [Run.andThen_ok, Run.landsAt_ok]
      by_cases h1 : r1 = 0x01#8
      · rw [if_pos h1]
        exact .one (by
          rw [seqStep_goto]; simp only [ExchangeCaller.resume, stepAt, stepPowerUp, if_pos h1, proceed]; rfl)
      · rw [if_neg h1]
        refine .head (t := t.goto .l5) (by
          rw [seqStep_goto]; simp only [ExchangeCaller.resume, stepAt, stepPowerUp, if_neg h1, proceed]; rfl) ?_
        refine .head (t := t.goto .l1) rfl (ih t ?_)
        rw [(keepsInit_of_exchange hx).idleCnt, State.countIdle_idleCnt, count_succ (by omega)]
        omega

theorem goIdleLoop_sim (s : State) : Reaches (s.goto .l0) ((goIdleLoop s).landsAt .s2Return) :=
  .head (t := State.goto .l1 { s with idleCnt := 0#4 }) rfl (idleLoop_sim _ _ rfl)

/-! ## The sequencer in `IfCheck` (R185) and `Negotiate` (R188) -/

/-- Where a step that may fail goes on: to `Fail`, or to the next line of INIT. -/
def verdictPos (next : Pos) : Option InitOutcome → Pos
  | some reason => .f0 reason
  | none => next

theorem ifCheck_sim (s : State) : Reaches (s.goto .k0) ((ifCheck s).landsAt (verdictPos .s3Return)) := by
  refine .head (t := s.goto (.c0 .ifCond .k0)) rfl ?_
  unfold ifCheck
  have hsim := commandExchange_sim .ifCond .k0 s
  cases hx : commandExchange .ifCond s with
  | abort t => rwa [hx] at hsim
  | ok r1 t =>
    rw [hx] at hsim
    refine hsim.trans ?_
    rw [Run.andThen_ok, Run.landsAt_ok, Run.landsAt_ok]
    have h0 := commandExchange_status hx
    by_cases h1 : r1 = 0x01#8
    · subst h1
      obtain ⟨p, hp⟩ := commandExchange_payload (c := .ifCond) rfl (by decide) hx
      refine .head (t := t.goto .k2) (by
        rw [seqStep_goto]
        simp only [ExchangeCaller.resume, stepAt, stepNegotiate, State.goto_resp, h0, useDefined, ne_eq,
          not_true_eq_false, if_false, proceed]
        rfl) ?_
      by_cases h4 : p.b4 = Config.ifCondArg.extractLsb' 0 8
      · refine .head (t := t.goto .k3) (by
          rw [seqStep_goto]
          simp only [stepAt, stepNegotiate, State.goto_resp, hp, useDefined, h4, ne_eq, not_true_eq_false, if_false, proceed]
          rfl) (.one ?_)
        rw [seqStep_goto]
        simp [stepAt, stepNegotiate, proceed, ifVerdict, hp, h4, verdictPos]
      · refine .one ?_
        rw [seqStep_goto]
        simp [stepAt, stepNegotiate, State.goto_resp, hp, useDefined, h4, proceed, ifVerdict, verdictPos]
    · refine .one ?_
      rw [seqStep_goto]
      simp [ExchangeCaller.resume, stepAt, stepNegotiate, State.goto_resp, h0, useDefined, h1, proceed, ifVerdict, verdictPos]

theorem beginAttempt_negCnt (s : State) : s.beginAttempt.negCnt = s.negCnt + 1#7 := by
  unfold State.beginAttempt
  split <;> rfl

/-- Steps M2 and M3. -/
theorem beginAttempt_sim (s : State) : Reaches (s.goto .m2) (s.beginAttempt.goto .m4) := by
  unfold State.beginAttempt
  by_cases h : s.negCnt = 0#7
  · have h' : ¬ s.negCnt > 0#7 := by rw [h]; decide
    rw [if_pos h]
    exact .head (t := s.goto .m3) (by
      rw [seqStep_goto]; simp only [stepAt, stepNegotiate, State.goto_negCnt, proceed]; exact if_neg h') (.one rfl)
  · have h' : s.negCnt > 0#7 := (BitVec.pos_iff_ne_zero _).2 h
    rw [if_neg h]
    exact .head (t := (s.delay .retry).goto .m3) (by
      rw [seqStep_goto]; simp only [stepAt, stepNegotiate, State.goto_negCnt, proceed]; exact if_pos h') (.one rfl)

theorem negLoop_sim (left : Nat) :
    ∀ s : State, s.negCnt.toNat + left = Config.negLimit →
      Reaches (s.goto .m1) ((negLoop left s).landsAt (verdictPos .s4Return)) := by
  induction left with
  | zero =>
    intro s h
    refine .one ?_
    rw [seqStep_goto]
    simp only [stepAt, stepNegotiate, State.goto_negCnt, show s.negCnt.toNat = Config.negLimit by omega, if_true, proceed]
    rfl
  | succ left ih =>
    intro s h
    have h101 : Config.negLimit = 101 := rfl
    refine .head (t := s.goto .m2) (by
      rw [seqStep_goto]
      simp only [stepAt, stepNegotiate, State.goto_negCnt, show ¬ s.negCnt.toNat = Config.negLimit by omega, if_false,
        proceed]
      rfl) ?_
    refine (beginAttempt_sim s).trans (.head (t := s.beginAttempt.goto (.n0 .m4)) rfl ?_)
    rw [negLoop]
    have hsim := negAttempt_sim .m4 s.beginAttempt
    cases hx : negAttempt s.beginAttempt with
    | abort t => rwa [hx] at hsim
    | ok r t =>
      rw [hx] at hsim
      refine hsim.trans ?_
      rw [Run.andThen_ok, Run.landsAt_ok]
      have hc := negAttempt_captured hx
      by_cases h0 : r.2.1 = 0x00#8
      · rw [if_pos h0]
        refine .one ?_
        rw [seqStep_goto]
        simp only [AttemptCaller.resume, stepAt, stepNegotiate, State.goto_captured, hc, useDefined, if_pos h0, proceed]
        rfl
      · rw [if_neg h0]
        refine .head (t := t.goto .m6) (by
          rw [seqStep_goto]
          simp only [AttemptCaller.resume, stepAt, stepNegotiate, State.goto_captured, hc, useDefined, if_neg h0, proceed]
          rfl) ?_
        refine .head (t := t.goto .m1) rfl (ih t ?_)
        rw [negAttempt_negCnt hx, beginAttempt_negCnt, count_succ (by omega)]
        omega

theorem negotiate_sim (s : State) : Reaches (s.goto .m0) ((negotiate s).landsAt (verdictPos .s4Return)) :=
  .head (t := State.goto .m1 { s with negCnt := 0#7 }) rfl (negLoop_sim _ _ rfl)

/-! ## `Fail` (R195) and `OcrCheck` (R193) -/

theorem failInit_sim (reason : InitOutcome) (s : State) :
    Reaches (s.goto (.f0 reason)) (s.failInit reason).complete :=
  .head (t := State.goto .f1 { s with outcome := reason, initState := .failed }) rfl
    (.head (t := (s.failInit reason).goto .f2) rfl (.one rfl))

theorem latchReady_sim (f : OperatingCondition) (s : State) : Reaches (s.goto (.oc3 f)) (s.latchReady f).complete :=
  .head (t := State.goto .oc4 { s with ccs := f.capacitySupport, vwin := some f.window }) rfl
    (.head (t := State.goto .oc5 { s with ccs := f.capacitySupport, vwin := some f.window, outcome := .success,
                                          initState := .ready }) rfl
      (.head (t := (s.latchReady f).goto .oc6) rfl (.one rfl)))

end Sys2Proof.Machine
end

