-- ==== Sys2Proof/Laws/Trace.lean ====
section
/-! SUPPORT. Laws/Trace.lean: counting the events of a trace, and the counts of an exchange and an attempt (R161, R198). -/

namespace Sys2Proof.Machine

-- Keeps the number of threads that check the lemmas side by side low.
set_option Elab.async false

/-! ## Counting -/

@[simp] theorem countX_nil : countX [] = 0 := rfl
@[simp] theorem countCs_nil : countCs [] = 0 := rfl
@[simp] theorem countW_nil (k : Delay) : countW k [] = 0 := rfl
@[simp] theorem leastMs_nil : leastMs [] = 0 := rfl
@[simp] theorem outBytes_nil : outBytes [] = [] := rfl

@[simp] theorem countX_x (o i : Byte) (l : List Event) : countX (.x o i :: l) = countX l + 1 :=
  List.countP_cons_of_pos rfl
@[simp] theorem countX_cs (b : Bool) (l : List Event) : countX (.cs b :: l) = countX l :=
  List.countP_cons_of_neg Bool.false_ne_true
@[simp] theorem countX_w (k : Delay) (l : List Event) : countX (.w k :: l) = countX l :=
  List.countP_cons_of_neg Bool.false_ne_true
@[simp] theorem countCs_x (o i : Byte) (l : List Event) : countCs (.x o i :: l) = countCs l :=
  List.countP_cons_of_neg Bool.false_ne_true
@[simp] theorem countCs_cs (b : Bool) (l : List Event) : countCs (.cs b :: l) = countCs l + 1 :=
  List.countP_cons_of_pos rfl
@[simp] theorem countCs_w (k : Delay) (l : List Event) : countCs (.w k :: l) = countCs l :=
  List.countP_cons_of_neg Bool.false_ne_true
@[simp] theorem countW_x (k : Delay) (o i : Byte) (l : List Event) : countW k (.x o i :: l) = countW k l := by
  simp [countW]
@[simp] theorem countW_cs (k : Delay) (b : Bool) (l : List Event) : countW k (.cs b :: l) = countW k l := by
  simp [countW]
@[simp] theorem countW_w (k j : Delay) (l : List Event) :
    countW k (.w j :: l) = countW k l + if j = k then 1 else 0 := by
  by_cases h : j = k <;> simp [countW, h]
@[simp] theorem leastMs_cons (e : Event) (l : List Event) : leastMs (e :: l) = e.leastMs + leastMs l := by simp [leastMs]
@[simp] theorem outBytes_x (o i : Byte) (l : List Event) : outBytes (.x o i :: l) = o :: outBytes l := rfl
@[simp] theorem outBytes_cs (b : Bool) (l : List Event) : outBytes (.cs b :: l) = outBytes l := rfl
@[simp] theorem outBytes_w (k : Delay) (l : List Event) : outBytes (.w k :: l) = outBytes l := rfl

@[simp] theorem countX_append (a b : List Event) : countX (a ++ b) = countX a + countX b := by simp [countX]
@[simp] theorem countCs_append (a b : List Event) : countCs (a ++ b) = countCs a + countCs b := by simp [countCs]
@[simp] theorem countW_append (k : Delay) (a b : List Event) : countW k (a ++ b) = countW k a + countW k b := by
  simp [countW]
@[simp] theorem leastMs_append (a b : List Event) : leastMs (a ++ b) = leastMs a + leastMs b := by simp [leastMs]
@[simp] theorem outBytes_append (a b : List Event) : outBytes (a ++ b) = outBytes a ++ outBytes b := by
  induction a with
  | nil => rfl
  | cons e l ih => cases e <;> simp [outBytes, ih]

@[simp] theorem countX_idleExchanges (l : List Byte) : countX (idleExchanges l) = l.length := by
  induction l with
  | nil => rfl
  | cons b l ih => simp [ih]

@[simp] theorem countCs_idleExchanges (l : List Byte) : countCs (idleExchanges l) = 0 := by
  induction l with
  | nil => rfl
  | cons b l ih => simp [ih]

@[simp] theorem countW_idleExchanges (k : Delay) (l : List Byte) : countW k (idleExchanges l) = 0 := by
  induction l with
  | nil => rfl
  | cons b l ih => simp [ih]

@[simp] theorem outBytes_idleExchanges (l : List Byte) :
    outBytes (idleExchanges l) = List.replicate l.length Config.idleFill := by
  induction l with
  | nil => rfl
  | cons b l ih => simp [ih, List.replicate_succ]

/-- What a trace lasts at least, in terms of its waits. -/
theorem leastMs_eq (l : List Event) :
    leastMs l = countW .settle l * Config.tSettleMs + countW .retry l * Config.tRetryMs := by
  induction l with
  | nil => rfl
  | cons e l ih =>
    cases e with
    | x o i => simp [ih, Event.leastMs]
    | cs b => simp [ih, Event.leastMs]
    | w k => cases k <;> simp [ih, Event.leastMs, Nat.add_mul] <;> omega

/-! ## One exchange (R161) -/

theorem responseIns_length (e : ExchangeScript) (c : RomCmd) :
    (e.responseIns c).length = e.idle + 1 + if e.hasPayload c then 4 else 0 := by
  simp only [ExchangeScript.responseIns, List.length_append, pollIns_length]
  split <;> rfl

theorem responseIns_short {c : RomCmd} (h : romShort c = true) (e : ExchangeScript) :
    (e.responseIns c).length = e.idle + 1 := by
  rw [responseIns_length]
  simp [ExchangeScript.hasPayload, h]

theorem countX_exchange (e : ExchangeScript) (c : RomCmd) : countX (e.events c) = 9 + (e.responseIns c).length := by
  simp [ExchangeScript.events, Frame.bytes]
  omega

theorem countCs_exchange (e : ExchangeScript) (c : RomCmd) : countCs (e.events c) = 2 := by
  simp [ExchangeScript.events, Frame.bytes]

theorem countW_exchange (k : Delay) (e : ExchangeScript) (c : RomCmd) : countW k (e.events c) = 0 := by
  simp [ExchangeScript.events, Frame.bytes]

/-- The in-bytes of an exchange are as many as its exchanges. -/
theorem ins_length (e : ExchangeScript) (c : RomCmd) : (e.ins c).length = 9 + (e.responseIns c).length := by
  simp [ExchangeScript.ins, Frame.bytes]
  omega

/-- R127: 1 to 9 exchanges of response for R1, up to 13 for R3 and R7. -/
theorem responseIns_bounds {e : ExchangeScript} (hp : Polled e.idle e.r1 = true) (c : RomCmd) :
    1 ≤ (e.responseIns c).length ∧ (e.responseIns c).length ≤ (if romShort c then 9 else 13) := by
  have h9 := (polled_iff.1 hp).1
  simp only [Config.r1PollLimit] at h9
  rw [responseIns_length]
  by_cases hc : romShort c
  · simp only [ExchangeScript.hasPayload, hc, Bool.not_true, Bool.false_and, Bool.false_eq_true, if_false, if_true]
    omega
  · rw [if_neg hc]
    split <;> omega

/-! ## One attempt (R162) -/

theorem countX_attempt {a : AttemptScript} (hp : a.polled = true) : 10 ≤ countX a.events ∧ countX a.events ≤ 36 := by
  simp only [AttemptScript.polled, Bool.and_eq_true, Bool.or_eq_true, Bool.not_eq_true'] at hp
  have h1 := responseIns_bounds hp.1 .appCmd
  simp only [show romShort .appCmd = true from rfl, if_true] at h1
  by_cases hs : a.sent = true
  · have h2 := responseIns_bounds (hp.2.resolve_left (by simp [hs])) .opCond
    simp only [show romShort .opCond = true from rfl, if_true] at h2
    simp only [AttemptScript.events, hs, if_true, countX_append, countX_exchange]
    omega
  · simp only [AttemptScript.events, hs, Bool.false_eq_true, if_false, countX_append, countX_exchange, countX_nil]
    omega

theorem countCs_attempt (a : AttemptScript) : countCs a.events = if a.sent then 4 else 2 := by
  by_cases hs : a.sent = true <;> simp [AttemptScript.events, hs, countCs_exchange]

theorem countW_attempt (k : Delay) (a : AttemptScript) : countW k a.events = 0 := by
  by_cases hs : a.sent = true <;> simp [AttemptScript.events, hs, countW_exchange]

/-- An attempt that captures `0x00` has sent the request (R189): the prefix's status is then below 2. -/
theorem sent_of_accepted {a : AttemptScript} (h : a.captured = 0x00#8) : a.sent = true := by
  by_contra hs
  simp only [AttemptScript.captured, hs, if_false] at h
  simp [AttemptScript.sent, h] at hs

end Sys2Proof.Machine
end

