-- ==== Sys2Proof/Laws/InitRun.lean ====
section
/-! SUPPORT. Laws/InitRun.lean: what each part of INIT does when the card answers by a script, and everything it can do
(44_init_fsm.md R181 to R195). -/

namespace Sys2Proof.Machine

/-! ## What INIT writes in its loops -/

/-- The registers the loops of INIT leave alone, counters apart. -/
structure KeepsLatched (s t : State) : Prop where
  op : t.op = s.op
  initState : t.initState = s.initState
  outcome : t.outcome = s.outcome
  ccs : t.ccs = s.ccs
  vwin : t.vwin = s.vwin
  result : t.result = s.result
  rvalid : t.rvalid = s.rvalid
  moves : t.moves = s.moves

theorem KeepsLatched.refl (s : State) : KeepsLatched s s := ⟨rfl, rfl, rfl, rfl, rfl, rfl, rfl, rfl⟩

theorem KeepsLatched.trans {a b c : State} (h : KeepsLatched a b) (k : KeepsLatched b c) : KeepsLatched a c :=
  ⟨k.op.trans h.op, k.initState.trans h.initState, k.outcome.trans h.outcome, k.ccs.trans h.ccs, k.vwin.trans h.vwin,
    k.result.trans h.result, k.rvalid.trans h.rvalid, k.moves.trans h.moves⟩

theorem KeepsAttempt.latched {s t : State} (h : KeepsAttempt s t) : KeepsLatched s t :=
  ⟨h.op, h.initState, h.outcome, h.ccs, h.vwin, h.result, h.rvalid, h.moves⟩

theorem KeepsInit.latched {s t : State} (h : KeepsInit s t) : KeepsLatched s t := h.attempt.latched

/-! ## PowerUp (R182) -/

theorem fillLoop_answered (ins : List Byte) :
    ∀ (rest : List Reply) (s : State), s.Answers ins rest →
      fillLoop ins.length s =
        .ok () { s with fillCnt := s.fillCnt + BitVec.ofNat 4 ins.length, replies := rest,
                        events := (idleExchanges ins).reverse ++ s.events } := by
  induction ins with
  | nil =>
    intro rest s h
    simp only [State.Answers, List.map_nil, List.nil_append] at h
    subst h
    simp [fillLoop]
  | cons b ins ih =>
    intro rest s h
    simp only [State.Answers, List.map_cons, List.cons_append] at h
    rw [List.length_cons, fillLoop, xchg_byte _ h, Run.andThen_ok, ih rest _ rfl]
    simp only [State.countFill, ofNat_count, idleExchanges_cons, List.reverse_cons, List.append_assoc, List.cons_append,
      List.nil_append]

/-- Everything the fill loop can do. -/
theorem fillLoop_cases (left : Nat) :
    ∀ s : State, ∃ replies draws ins t,
      (ins.length = left ∧ fillLoop left s = .ok () t ∧
        t = { s with fillCnt := s.fillCnt + BitVec.ofNat 4 left, replies := replies, draws := draws,
                     events := (idleExchanges ins).reverse ++ s.events }) ∨
      (fillLoop left s = .abort t ∧ KeepsLatched s t ∧ Faulted s t) := by
  induction left with
  | zero => intro s; exact ⟨s.replies, s.draws, [], s, .inl ⟨rfl, rfl, by simp⟩⟩
  | succ left ih =>
    intro s
    obtain ⟨rp, dr, s1, ⟨b, h, h1⟩ | ⟨h, h1⟩⟩ := xchg_cases Config.idleFill s
    · obtain ⟨rp', dr', ins, t, ⟨hl, h', ht⟩ | ⟨h', hk, hf⟩⟩ := ih s1.countFill
      · refine ⟨rp', dr', b :: ins, t, .inl ⟨by simp [hl], by rw [fillLoop, h, Run.andThen_ok, h'], ?_⟩⟩
        simp only [ht, h1, State.countFill, ofNat_count, idleExchanges_cons, List.reverse_cons, List.append_assoc,
          List.cons_append, List.nil_append]
      · refine ⟨rp', dr', [], t, .inr ⟨by rw [fillLoop, h, Run.andThen_ok, h'], ?_, ?_⟩⟩
        · exact KeepsLatched.trans (by rw [h1]; exact ⟨rfl, rfl, rfl, rfl, rfl, rfl, rfl, rfl⟩) hk
        · exact hf.after ⟨[Event.x Config.idleFill b], by rw [h1]; rfl⟩
    · refine ⟨rp, dr, [], s1, .inr ⟨by rw [fillLoop, h, Run.andThen_abort], ?_, ?_⟩⟩ <;> rw [h1]
      · exact ⟨rfl, rfl, rfl, rfl, rfl, rfl, rfl, rfl⟩
      · exact ⟨rfl, rfl, rfl, [], rfl⟩

/-- `PowerUp` by its answers. -/
theorem powerUp_answered {ins : List Byte} {rest : List Reply} {s : State} (hl : ins.length = Config.fillCount)
    (h : s.Answers ins rest) :
    powerUp s =
      .ok () { s with cs := false, fillCnt := 10#4, replies := rest, events := (powerUpEvents ins).reverse ++ s.events } := by
  rw [powerUp, ← hl, fillLoop_answered ins rest _ (by exact h), hl]
  simp only [powerUpEvents, State.delay, State.emit, State.setCs, List.reverse_append, List.append_assoc]
  rfl

/-- Everything `PowerUp` can do. -/
theorem powerUp_cases (s : State) :
    ∃ replies draws ins t,
      (ins.length = Config.fillCount ∧ powerUp s = .ok () t ∧
        t = { s with cs := false, fillCnt := 10#4, replies := replies, draws := draws,
                     events := (powerUpEvents ins).reverse ++ s.events }) ∨
      (powerUp s = .abort t ∧ KeepsLatched s t ∧ Faulted s t) := by
  obtain ⟨rp, dr, ins, t, ⟨hl, h, ht⟩ | ⟨h, hk, hf⟩⟩ :=
    fillLoop_cases Config.fillCount { (s.setCs false).delay .settle with fillCnt := 0#4 }
  · refine ⟨rp, dr, ins, t, .inl ⟨hl, h, ?_⟩⟩
    rw [ht]
    simp only [powerUpEvents, State.delay, State.emit, State.setCs, List.reverse_append, List.append_assoc]
    rfl
  · exact ⟨rp, dr, ins, t, .inr ⟨h, KeepsLatched.trans (b := { (s.setCs false).delay .settle with fillCnt := 0#4 })
      ⟨rfl, rfl, rfl, rfl, rfl, rfl, rfl, rfl⟩ hk, hf.after ⟨[Event.w .settle, Event.cs false], rfl⟩⟩⟩

/-! ## GoIdleLoop (R183) -/

theorem goIdleEvents_cons (e : ExchangeScript) (l : List ExchangeScript) :
    goIdleEvents (e :: l) = e.events .goIdle ++ goIdleEvents l := by simp [goIdleEvents]

theorem goIdleIns_cons (e : ExchangeScript) (l : List ExchangeScript) :
    goIdleIns (e :: l) = e.ins .goIdle ++ goIdleIns l := by simp [goIdleIns]

@[simp] theorem goIdleEvents_nil : goIdleEvents [] = [] := rfl
@[simp] theorem goIdleIns_nil : goIdleIns [] = [] := rfl

/-- The state go-idle attempts leave, the last of them given apart (R183). -/
def idleAfter (fails : List ExchangeScript) (last : ExchangeScript) (rest : List Reply) (s : State) : State :=
  { last.after .goIdle rest s with
    idleCnt := s.idleCnt + BitVec.ofNat 4 (fails.length + 1),
    events := (goIdleEvents (fails ++ [last])).reverse ++ s.events }

theorem idleAfter_nil (e : ExchangeScript) (rest : List Reply) (s : State) :
    e.after .goIdle rest s.countIdle = idleAfter [] e rest s := by
  simp [idleAfter, ExchangeScript.after, State.countIdle, goIdleEvents_cons]

theorem idleAfter_cons (e : ExchangeScript) (fails : List ExchangeScript) (last : ExchangeScript) (mid rest : List Reply)
    (s : State) (d : Nat) :
    idleAfter fails last rest { e.after .goIdle mid s.countIdle with draws := d } =
      { idleAfter (e :: fails) last rest s with draws := d } := by
  simp only [idleAfter, ExchangeScript.after, State.countIdle, ofNat_count, List.length_cons, List.cons_append,
    goIdleEvents_cons, List.reverse_append, List.append_assoc]

theorem idleFailed_iff {e : ExchangeScript} : e.idleFailed = true ↔ Polled e.idle e.r1 = true ∧ e.r1 ≠ 0x01#8 := by
  simp [ExchangeScript.idleFailed]

theorem idleAccepted_iff {e : ExchangeScript} : e.idleAccepted = true ↔ Polled e.idle e.r1 = true ∧ e.r1 = 0x01#8 := by
  simp [ExchangeScript.idleAccepted]

/-- Some failed attempts and then an accepted one, within the bound. -/
theorem idleLoop_accepted (fails : List ExchangeScript) :
    ∀ (left : Nat) (ok : ExchangeScript) (rest : List Reply) (s : State), fails.length + 1 ≤ left →
      fails.all ExchangeScript.idleFailed = true → ok.idleAccepted = true → s.Answers (goIdleIns (fails ++ [ok])) rest →
      idleLoop left s = .ok true (idleAfter fails ok rest s) := by
  induction fails with
  | nil =>
    intro left ok rest s hl _ hok h
    obtain ⟨left, rfl⟩ : ∃ n, left = n + 1 := ⟨left - 1, by simp at hl; omega⟩
    obtain ⟨hp, h1⟩ := idleAccepted_iff.1 hok
    rw [idleLoop, commandExchange_answered (s := s.countIdle) hp (by simpa [goIdleIns, State.Answers] using h), Run.andThen_ok, if_pos h1,
      idleAfter_nil]
  | cons e fails ih =>
    intro left ok rest s hl hall hok h
    obtain ⟨left, rfl⟩ : ∃ n, left = n + 1 := ⟨left - 1, by simp at hl; omega⟩
    simp only [List.all_cons, Bool.and_eq_true] at hall
    obtain ⟨hp, h1⟩ := idleFailed_iff.1 hall.1
    simp only [List.cons_append, goIdleIns_cons, State.Answers, List.map_append, List.append_assoc] at h
    rw [idleLoop, commandExchange_answered (s := s.countIdle) hp h, Run.andThen_ok, if_neg h1,
      ih left ok rest _ (by simp at hl; omega) hall.2 hok (by simp [State.Answers, ExchangeScript.after])]
    exact congrArg _ (idleAfter_cons e fails ok _ rest s s.draws)

/-- Failed attempts up to the bound. -/
theorem idleLoop_exhausted (fails : List ExchangeScript) :
    ∀ (last : ExchangeScript) (rest : List Reply) (s : State), (fails ++ [last]).all ExchangeScript.idleFailed = true →
      s.Answers (goIdleIns (fails ++ [last])) rest →
      idleLoop (fails.length + 1) s = .ok false (idleAfter fails last rest s) := by
  induction fails with
  | nil =>
    intro last rest s hall h
    obtain ⟨hp, h1⟩ := idleFailed_iff.1 (by simpa using hall)
    rw [idleLoop, commandExchange_answered (s := s.countIdle) hp (by simpa [goIdleIns, State.Answers] using h), Run.andThen_ok, if_neg h1]
    simp only [List.length_nil, idleLoop, idleAfter_nil]
  | cons e fails ih =>
    intro last rest s hall h
    simp only [List.cons_append, List.all_cons, Bool.and_eq_true] at hall
    obtain ⟨hp, h1⟩ := idleFailed_iff.1 hall.1
    simp only [List.cons_append, goIdleIns_cons, State.Answers, List.map_append, List.append_assoc] at h
    rw [idleLoop, commandExchange_answered (s := s.countIdle) hp h, Run.andThen_ok, if_neg h1, List.length_cons,
      ih last rest _ hall.2 (by simp [State.Answers, ExchangeScript.after])]
    exact congrArg _ (idleAfter_cons e fails last _ rest s s.draws)

/-- Everything the go-idle loop can do. -/
theorem idleLoop_cases (left : Nat) :
    ∀ s : State, 0 < left →
      (∃ fails ok rest draws, fails.length + 1 ≤ left ∧ fails.all ExchangeScript.idleFailed = true ∧
        ok.idleAccepted = true ∧ idleLoop left s = .ok true { idleAfter fails ok rest s with draws := draws }) ∨
      (∃ fails last rest draws, fails.length + 1 = left ∧ (fails ++ [last]).all ExchangeScript.idleFailed = true ∧
        idleLoop left s = .ok false { idleAfter fails last rest s with draws := draws }) ∨
      (∃ t, idleLoop left s = .abort t ∧ KeepsLatched s t ∧ Faulted s t) := by
  induction left with
  | zero => intro s h; omega
  | succ left ih =>
    intro s _
    have hk0 : KeepsLatched s s.countIdle := ⟨rfl, rfl, rfl, rfl, rfl, rfl, rfl, rfl⟩
    obtain ⟨e, rp, dr, hp, h⟩ | ⟨t, h, hk, hf⟩ := commandExchange_cases .goIdle s.countIdle
    swap
    · exact .inr (.inr ⟨t, by rw [idleLoop, h, Run.andThen_abort], hk0.trans hk.latched, hf.after ⟨[], rfl⟩⟩)
    by_cases h1 : e.r1 = 0x01#8
    · refine .inl ⟨[], e, rp, dr, by simp, rfl, idleAccepted_iff.2 ⟨hp, h1⟩, ?_⟩
      rw [idleLoop, h, Run.andThen_ok, if_pos h1, ← idleAfter_nil]
    have he : e.idleFailed = true := idleFailed_iff.2 ⟨hp, h1⟩
    cases left with
    | zero =>
      refine .inr (.inl ⟨[], e, rp, dr, rfl, by simp [he], ?_⟩)
      rw [idleLoop, h, Run.andThen_ok, if_neg h1, ← idleAfter_nil]
      rfl
    | succ left =>
      obtain ⟨fails, ok, rest, dr', hl, hall, hok, h'⟩ | ⟨fails, last, rest, dr', hl, hall, h'⟩ | ⟨t, h', hk, hf⟩ :=
        ih { e.after .goIdle rp s.countIdle with draws := dr } (by omega)
      · refine .inl ⟨e :: fails, ok, rest, dr', by simp; omega, by simp [he, hall], hok, ?_⟩
        rw [idleLoop, h, Run.andThen_ok, if_neg h1, h', idleAfter_cons]
      · refine .inr (.inl ⟨e :: fails, last, rest, dr', by simp; omega, by simp [he, hall], ?_⟩)
        rw [idleLoop, h, Run.andThen_ok, if_neg h1, h', idleAfter_cons]
      · refine .inr (.inr ⟨t, by rw [idleLoop, h, Run.andThen_ok, if_neg h1, h'], ?_, ?_⟩)
        · refine KeepsLatched.trans ?_ hk
          exact ⟨rfl, rfl, rfl, rfl, rfl, rfl, rfl, rfl⟩
        · exact hf.after ⟨(e.events .goIdle).reverse, rfl⟩

/-! ## Negotiate (R188) -/

/-- The events of attempts each of which is preceded by the retry wait. -/
def waitedEvents (l : List AttemptScript) : List Event := l.flatMap fun a => Event.w .retry :: a.events

theorem negEvents_cons (a : AttemptScript) (l : List AttemptScript) : negEvents (a :: l) = a.events ++ waitedEvents l := by
  induction l generalizing a with
  | nil => simp [negEvents, waitedEvents]
  | cons b l ih => simp [negEvents, ih, waitedEvents]

/-- The state attempts leave, the last of them given apart, when a wait precedes each. -/
def waitedAfter (fails : List AttemptScript) (last : AttemptScript) (rest : List Reply) (s : State) : State :=
  { last.after rest s with
    negCnt := s.negCnt + BitVec.ofNat 7 (fails.length + 1),
    events := (waitedEvents (fails ++ [last])).reverse ++ s.events }

theorem beginAttempt_waited {s : State} (h : s.negCnt ≠ 0#7) :
    s.beginAttempt = { s with negCnt := s.negCnt + 1#7, events := .w .retry :: s.events } := by
  simp [State.beginAttempt, h, State.delay, State.emit]

theorem beginAttempt_first {s : State} (h : s.negCnt = 0#7) : s.beginAttempt = { s with negCnt := 1#7 } := by
  simp [State.beginAttempt, h]

theorem waitedAfter_nil {s : State} (h : s.negCnt ≠ 0#7) (a : AttemptScript) (rest : List Reply) :
    a.after rest s.beginAttempt = waitedAfter [] a rest s := by
  simp [waitedAfter, AttemptScript.after, beginAttempt_waited h, waitedEvents]

theorem waitedAfter_cons {s : State} (h : s.negCnt ≠ 0#7) (a : AttemptScript) (fails : List AttemptScript)
    (last : AttemptScript) (mid rest : List Reply) (d : Nat) :
    waitedAfter fails last rest { a.after mid s.beginAttempt with draws := d } =
      { waitedAfter (a :: fails) last rest s with draws := d } := by
  simp only [waitedAfter, AttemptScript.after, beginAttempt_waited h, ofNat_count, List.length_cons, List.cons_append,
    waitedEvents, List.flatMap_cons, List.reverse_append, List.append_assoc, List.reverse_cons, List.nil_append]

theorem failed_iff {a : AttemptScript} : a.failed = true ↔ a.polled = true ∧ a.captured ≠ 0x00#8 := by
  simp [AttemptScript.failed]

theorem accepted_iff {a : AttemptScript} : a.accepted = true ↔ a.polled = true ∧ a.captured = 0x00#8 := by
  simp [AttemptScript.accepted]

theorem negIns_cons (a : AttemptScript) (l : List AttemptScript) : negIns (a :: l) = a.ins ++ negIns l := by simp [negIns]

/-- After the first attempt the count is not 0. -/
theorem count_ne_zero {c : BitVec 7} {n : Nat} (h : c.toNat + n ≤ 127) (hn : 0 < n) : c + 1#7 ≠ 0#7 := by
  intro he
  have := congrArg BitVec.toNat he
  rw [count_succ (by omega)] at this
  simp at this

theorem negLoop_later_accepted (fails : List AttemptScript) :
    ∀ (left : Nat) (ok : AttemptScript) (rest : List Reply) (s : State), s.negCnt ≠ 0#7 → s.negCnt.toNat + left ≤ 127 →
      fails.length + 1 ≤ left → fails.all AttemptScript.failed = true → ok.accepted = true →
      s.Answers (negIns (fails ++ [ok])) rest → negLoop left s = .ok none (waitedAfter fails ok rest s) := by
  induction fails with
  | nil =>
    intro left ok rest s hn _ hl _ hok h
    obtain ⟨left, rfl⟩ : ∃ n, left = n + 1 := ⟨left - 1, by simp at hl; omega⟩
    obtain ⟨hp, h1⟩ := accepted_iff.1 hok
    have ha : s.beginAttempt.Answers ok.ins rest := by simpa [negIns, State.Answers, beginAttempt_waited hn] using h
    rw [negLoop, negAttempt_answered hp ha, Run.andThen_ok, if_pos h1, waitedAfter_nil hn]
  | cons a fails ih =>
    intro left ok rest s hn hb hl hall hok h
    obtain ⟨left, rfl⟩ : ∃ n, left = n + 1 := ⟨left - 1, by simp at hl; omega⟩
    simp only [List.all_cons, Bool.and_eq_true] at hall
    obtain ⟨hp, h1⟩ := failed_iff.1 hall.1
    have ha : s.beginAttempt.Answers a.ins ((negIns (fails ++ [ok])).map Reply.byte ++ rest) := by
      simpa [negIns_cons, State.Answers, beginAttempt_waited hn] using h
    have hc : s.beginAttempt.negCnt = s.negCnt + 1#7 := beginAttempt_negCnt s
    rw [negLoop, negAttempt_answered hp ha, Run.andThen_ok, if_neg h1,
      ih left ok rest _ (by rw [AttemptScript.after]; simp only [hc]; exact count_ne_zero hb (by omega))
        (by rw [AttemptScript.after]; simp only [hc]; rw [count_succ (by omega)]; omega) (by simp at hl; omega) hall.2 hok rfl]
    have := waitedAfter_cons hn a fails ok ((negIns (fails ++ [ok])).map Reply.byte ++ rest) rest s.draws
    rw [show s.draws = (a.after ((negIns (fails ++ [ok])).map Reply.byte ++ rest) s.beginAttempt).draws by
      simp [AttemptScript.after, beginAttempt_waited hn]] at this
    rw [this]
    simp [waitedAfter, AttemptScript.after, beginAttempt_waited hn]

theorem negLoop_later_exhausted (fails : List AttemptScript) :
    ∀ (last : AttemptScript) (rest : List Reply) (s : State), s.negCnt ≠ 0#7 →
      s.negCnt.toNat + (fails.length + 1) ≤ 127 → (fails ++ [last]).all AttemptScript.failed = true →
      s.Answers (negIns (fails ++ [last])) rest →
      negLoop (fails.length + 1) s = .ok (some .opCondTimeout) (waitedAfter fails last rest s) := by
  induction fails with
  | nil =>
    intro last rest s hn _ hall h
    obtain ⟨hp, h1⟩ := failed_iff.1 (by simpa using hall)
    have ha : s.beginAttempt.Answers last.ins rest := by simpa [negIns, State.Answers, beginAttempt_waited hn] using h
    rw [negLoop, negAttempt_answered hp ha, Run.andThen_ok, if_neg h1]
    simp only [List.length_nil, negLoop, waitedAfter_nil hn]
  | cons a fails ih =>
    intro last rest s hn hb hall h
    simp only [List.cons_append, List.all_cons, Bool.and_eq_true] at hall
    obtain ⟨hp, h1⟩ := failed_iff.1 hall.1
    have ha : s.beginAttempt.Answers a.ins ((negIns (fails ++ [last])).map Reply.byte ++ rest) := by
      simpa [negIns_cons, State.Answers, beginAttempt_waited hn] using h
    have hc : s.beginAttempt.negCnt = s.negCnt + 1#7 := beginAttempt_negCnt s
    simp only [List.length_cons] at hb
    rw [negLoop, negAttempt_answered hp ha, Run.andThen_ok, if_neg h1, List.length_cons,
      ih last rest _ (by rw [AttemptScript.after]; simp only [hc]; exact count_ne_zero hb (by omega))
        (by rw [AttemptScript.after]; simp only [hc]; rw [count_succ (by omega)]; omega) hall.2 rfl]
    have := waitedAfter_cons hn a fails last ((negIns (fails ++ [last])).map Reply.byte ++ rest) rest s.draws
    rw [show s.draws = (a.after ((negIns (fails ++ [last])).map Reply.byte ++ rest) s.beginAttempt).draws by
      simp [AttemptScript.after, beginAttempt_waited hn]] at this
    rw [this]
    simp [waitedAfter, AttemptScript.after, beginAttempt_waited hn]

/-- The state the negotiation's attempts leave, the last of them given apart (R188, R190). -/
def negAfter (fails : List AttemptScript) (last : AttemptScript) (rest : List Reply) (s : State) : State :=
  { last.after rest s with
    negCnt := BitVec.ofNat 7 (fails.length + 1),
    events := (negEvents (fails ++ [last])).reverse ++ s.events }

theorem negAfter_nil {s : State} (h : s.negCnt = 0#7) (a : AttemptScript) (rest : List Reply) :
    a.after rest s.beginAttempt = negAfter [] a rest s := by
  simp [negAfter, AttemptScript.after, beginAttempt_first h, negEvents]

theorem negAfter_cons {s : State} (h : s.negCnt = 0#7) (a : AttemptScript) (fails : List AttemptScript)
    (last : AttemptScript) (mid rest : List Reply) (d : Nat) :
    waitedAfter fails last rest { a.after mid s.beginAttempt with draws := d } =
      { negAfter (a :: fails) last rest s with draws := d } := by
  have hc : 1#7 + BitVec.ofNat 7 (fails.length + 1) = BitVec.ofNat 7 (fails.length + 1 + 1) := by
    rw [show (1#7 : BitVec 7) = 0#7 + 1#7 by decide, ofNat_count]
    simp
  simp only [waitedAfter, negAfter, AttemptScript.after, beginAttempt_first h, hc, List.length_cons, List.cons_append,
    negEvents_cons, List.reverse_append, List.append_assoc]

/-- The negotiation by its answers: some failed attempts and then an accepted one (R188). -/
theorem negotiate_accepted {fails : List AttemptScript} {ok : AttemptScript} {rest : List Reply} {s : State}
    (hl : fails.length + 1 ≤ Config.negLimit) (hall : fails.all AttemptScript.failed = true) (hok : ok.accepted = true)
    (h : s.Answers (negIns (fails ++ [ok])) rest) : negotiate s = .ok none (negAfter fails ok rest s) := by
  have h101 : Config.negLimit = 100 + 1 := rfl
  rw [negotiate, h101, negLoop]
  have hz : ({ s with negCnt := 0#7 } : State).negCnt = 0#7 := rfl
  cases fails with
  | nil =>
    obtain ⟨hp, h1⟩ := accepted_iff.1 hok
    have ha : State.Answers (State.beginAttempt { s with negCnt := 0#7 }) ok.ins rest := by
      simpa [negIns, State.Answers, beginAttempt_first hz] using h
    rw [negAttempt_answered hp ha, Run.andThen_ok, if_pos h1, negAfter_nil hz]
    rfl
  | cons a fails =>
    simp only [List.all_cons, Bool.and_eq_true] at hall
    obtain ⟨hp, h1⟩ := failed_iff.1 hall.1
    have ha : State.Answers (State.beginAttempt { s with negCnt := 0#7 }) a.ins
        ((negIns (fails ++ [ok])).map Reply.byte ++ rest) := by
      simpa [negIns_cons, State.Answers, beginAttempt_first hz] using h
    rw [negAttempt_answered hp ha, Run.andThen_ok, if_neg h1,
      negLoop_later_accepted fails 100 ok rest _ (by rw [AttemptScript.after, beginAttempt_first hz]; simp)
        (by rw [AttemptScript.after, beginAttempt_first hz]; simp)
        (by simp [h101] at hl; omega) hall.2 hok rfl]
    exact congrArg _ (negAfter_cons hz a fails ok _ rest s.draws)

/-- The negotiation by its answers: 101 failed attempts (R191). -/
theorem negotiate_exhausted {fails : List AttemptScript} {last : AttemptScript} {rest : List Reply} {s : State}
    (hl : fails.length + 1 = Config.negLimit) (hall : (fails ++ [last]).all AttemptScript.failed = true)
    (h : s.Answers (negIns (fails ++ [last])) rest) :
    negotiate s = .ok (some .opCondTimeout) (negAfter fails last rest s) := by
  have h101 : Config.negLimit = 101 := rfl
  have hz : ({ s with negCnt := 0#7 } : State).negCnt = 0#7 := rfl
  rw [negotiate, ← hl]
  cases fails with
  | nil => simp [h101] at hl
  | cons a fails =>
    simp only [List.cons_append, List.all_cons, Bool.and_eq_true] at hall
    obtain ⟨hp, h1⟩ := failed_iff.1 hall.1
    have ha : State.Answers (State.beginAttempt { s with negCnt := 0#7 }) a.ins
        ((negIns (fails ++ [last])).map Reply.byte ++ rest) := by
      simpa [negIns_cons, State.Answers, beginAttempt_first hz] using h
    rw [negLoop, negAttempt_answered hp ha, Run.andThen_ok, if_neg h1, List.length_cons,
      negLoop_later_exhausted fails last rest _ (by rw [AttemptScript.after, beginAttempt_first hz]; simp)
        (by rw [AttemptScript.after, beginAttempt_first hz]; simp at hl ⊢; omega) hall.2 rfl]
    exact congrArg _ (negAfter_cons hz a fails last _ rest s.draws)

/-- Everything the negotiation's loop can do after its first attempt. -/
theorem negLoop_later_cases (left : Nat) :
    ∀ s : State, 0 < left → s.negCnt ≠ 0#7 → s.negCnt.toNat + left ≤ 127 →
      (∃ fails ok rest draws, fails.length + 1 ≤ left ∧ fails.all AttemptScript.failed = true ∧ ok.accepted = true ∧
        negLoop left s = .ok none { waitedAfter fails ok rest s with draws := draws }) ∨
      (∃ fails last rest draws, fails.length + 1 = left ∧ (fails ++ [last]).all AttemptScript.failed = true ∧
        negLoop left s = .ok (some .opCondTimeout) { waitedAfter fails last rest s with draws := draws }) ∨
      (∃ t, negLoop left s = .abort t ∧ KeepsLatched s t ∧ Faulted s t) := by
  induction left with
  | zero => intro s h; omega
  | succ left ih =>
    intro s _ hn hb
    have hb0 := beginAttempt_waited hn
    have hk0 : KeepsLatched s s.beginAttempt := by rw [hb0]; exact ⟨rfl, rfl, rfl, rfl, rfl, rfl, rfl, rfl⟩
    have hev : ∃ evs, s.beginAttempt.events = evs ++ s.events := ⟨[Event.w .retry], by rw [hb0]; rfl⟩
    obtain ⟨a, rp, dr, hp, h⟩ | ⟨t, h, hk, hf⟩ := negAttempt_cases s.beginAttempt
    swap
    · exact .inr (.inr ⟨t, by rw [negLoop, h, Run.andThen_abort], hk0.trans hk.latched, hf.after hev⟩)
    by_cases h1 : a.captured = 0x00#8
    · refine .inl ⟨[], a, rp, dr, by simp, rfl, accepted_iff.2 ⟨hp, h1⟩, ?_⟩
      rw [negLoop, h, Run.andThen_ok, if_pos h1, waitedAfter_nil hn]
    have he : a.failed = true := failed_iff.2 ⟨hp, h1⟩
    have hc : s.beginAttempt.negCnt = s.negCnt + 1#7 := beginAttempt_negCnt s
    cases left with
    | zero =>
      refine .inr (.inl ⟨[], a, rp, dr, rfl, by simp [he], ?_⟩)
      rw [negLoop, h, Run.andThen_ok, if_neg h1, waitedAfter_nil hn]
      rfl
    | succ left =>
      obtain ⟨fails, ok, rest, dr', hl, hall, hok, h'⟩ | ⟨fails, last, rest, dr', hl, hall, h'⟩ | ⟨t, h', hk, hf⟩ :=
        ih { a.after rp s.beginAttempt with draws := dr } (by omega)
          (by rw [AttemptScript.after]; simp only [hc]; exact count_ne_zero hb (by omega))
          (by rw [AttemptScript.after]; simp only [hc]; rw [count_succ (by omega)]; omega)
      · refine .inl ⟨a :: fails, ok, rest, dr', by simp; omega, by simp [he, hall], hok, ?_⟩
        rw [negLoop, h, Run.andThen_ok, if_neg h1, h', waitedAfter_cons hn]
      · refine .inr (.inl ⟨a :: fails, last, rest, dr', by simp; omega, by simp [he, hall], ?_⟩)
        rw [negLoop, h, Run.andThen_ok, if_neg h1, h', waitedAfter_cons hn]
      · refine .inr (.inr ⟨t, by rw [negLoop, h, Run.andThen_ok, if_neg h1, h'], ?_, ?_⟩)
        · refine KeepsLatched.trans (hk0.trans ?_) hk
          exact ⟨rfl, rfl, rfl, rfl, rfl, rfl, rfl, rfl⟩
        · refine hf.after ?_
          obtain ⟨evs, hevs⟩ := hev
          exact ⟨a.events.reverse ++ evs, by rw [List.append_assoc, ← hevs]; rfl⟩

/-- Everything the negotiation can do (R188, R212). -/
theorem negotiate_cases (s : State) :
    (∃ fails ok rest draws, fails.length + 1 ≤ Config.negLimit ∧ fails.all AttemptScript.failed = true ∧
      ok.accepted = true ∧ negotiate s = .ok none { negAfter fails ok rest s with draws := draws }) ∨
    (∃ fails last rest draws, fails.length + 1 = Config.negLimit ∧ (fails ++ [last]).all AttemptScript.failed = true ∧
      negotiate s = .ok (some .opCondTimeout) { negAfter fails last rest s with draws := draws }) ∨
    (∃ t, negotiate s = .abort t ∧ KeepsLatched s t ∧ Faulted s t) := by
  have h101 : Config.negLimit = 100 + 1 := rfl
  have hz : ({ s with negCnt := 0#7 } : State).negCnt = 0#7 := rfl
  have hb0 := beginAttempt_first hz
  rw [negotiate, h101, negLoop]
  obtain ⟨a, rp, dr, hp, h⟩ | ⟨t, h, hk, hf⟩ := negAttempt_cases (State.beginAttempt { s with negCnt := 0#7 })
  swap
  · refine .inr (.inr ⟨t, by rw [h, Run.andThen_abort], KeepsLatched.trans ?_ hk.latched, hf.after ⟨[], ?_⟩⟩) <;> rw [hb0]
    · exact ⟨rfl, rfl, rfl, rfl, rfl, rfl, rfl, rfl⟩
    · rfl
  rw [h, Run.andThen_ok]
  by_cases h1 : a.captured = 0x00#8
  · refine .inl ⟨[], a, rp, dr, by simp, rfl, accepted_iff.2 ⟨hp, h1⟩, ?_⟩
    rw [if_pos h1, negAfter_nil hz]
    rfl
  have he : a.failed = true := failed_iff.2 ⟨hp, h1⟩
  rw [if_neg h1]
  obtain ⟨fails, ok, rest, dr', hl, hall, hok, h'⟩ | ⟨fails, last, rest, dr', hl, hall, h'⟩ | ⟨t, h', hk, hf⟩ :=
    negLoop_later_cases 100 { a.after rp (State.beginAttempt { s with negCnt := 0#7 }) with draws := dr } (by omega)
      (by rw [AttemptScript.after, hb0]; simp) (by rw [AttemptScript.after, hb0]; simp)
  · refine .inl ⟨a :: fails, ok, rest, dr', by simp; omega, by simp [he, hall], hok, ?_⟩
    rw [h', negAfter_cons hz]
    rfl
  · refine .inr (.inl ⟨a :: fails, last, rest, dr', by simp; omega, by simp [he, hall], ?_⟩)
    rw [h', negAfter_cons hz]
    rfl
  · refine .inr (.inr ⟨t, h', KeepsLatched.trans ?_ hk, hf.after ⟨a.events.reverse, ?_⟩⟩) <;> rw [AttemptScript.after, hb0]
    exact ⟨rfl, rfl, rfl, rfl, rfl, rfl, rfl, rfl⟩

/-! ## INIT as a whole (R181) -/

/-- The state after `PowerUp`. -/
def afterFill (fill : List Byte) (rest : List Reply) (s : State) : State :=
  { s.startInit with cs := false, fillCnt := 10#4, replies := rest, events := (powerUpEvents fill).reverse ++ s.events }

theorem powerUp_init {fill : List Byte} {rest : List Reply} {s : State} (hl : fill.length = Config.fillCount)
    (h : s.Answers fill rest) : powerUp s.startInit = .ok () (afterFill fill rest s) :=
  powerUp_answered hl (by exact h)

/-- The loop's own reset of the counter changes nothing: S0 has already done it. -/
theorem goIdleLoop_init (fill : List Byte) (rest : List Reply) (s : State) :
    goIdleLoop (afterFill fill rest s) = idleLoop Config.idleLimit (afterFill fill rest s) := rfl

/-- The state after `PowerUp` and the go-idle attempts, whose last is given apart. -/
def initIdle (fill : List Byte) (fails : List ExchangeScript) (last : ExchangeScript) (rest : List Reply) (s : State) : State :=
  idleAfter fails last rest (afterFill fill [] s)

/-- The state after the interface-condition exchange. -/
def initIf (fill : List Byte) (fails : List ExchangeScript) (ok e : ExchangeScript) (rest : List Reply) (s : State) : State :=
  e.after .ifCond rest ((initIdle fill fails ok [] s).enter .idle)

/-- The state after the negotiation. -/
def initNeg (fill : List Byte) (fails : List ExchangeScript) (ok e : ExchangeScript) (neg : List AttemptScript)
    (last : AttemptScript) (rest : List Reply) (s : State) : State :=
  negAfter neg last rest ((initIf fill fails ok e [] s).enter .interfaceCheck)

/-- The state after the read-OCR exchange. -/
def initOcr (t : InitScript) (rest : List Reply) (s : State) : State :=
  t.ocr.after .readOcr rest
    ((initNeg t.fill t.idleFails t.idleOk t.ifCond t.negFails t.negOk [] s).enter .negotiating)

/-- What a transport fault leaves of an INIT (R212, R216): no outcome, nothing latched, no end state. -/
structure InitAborted (s t : State) : Prop where
  op : t.op = s.op
  result : t.result = s.result
  rvalid : t.rvalid = s.rvalid
  moves : t.moves = s.moves
  outcome : t.outcome = .none
  ccs : t.ccs = none
  vwin : t.vwin = none
  initState : t.initState = .poweringUp ∨ t.initState = .idle ∨ t.initState = .interfaceCheck ∨ t.initState = .negotiating

theorem InitAborted.of {s t u : State} (h : KeepsLatched u t) (hu : InitAborted s u) : InitAborted s t :=
  ⟨h.op.trans hu.op, h.result.trans hu.result, h.rvalid.trans hu.rvalid, h.moves.trans hu.moves, h.outcome.trans hu.outcome,
    h.ccs.trans hu.ccs, h.vwin.trans hu.vwin, by rw [h.initState]; exact hu.initState⟩

/-- The interface-condition check reads the echo only after the status `0x01`, when the response has it (R186). -/
theorem ifVerdict_resp (e : ExchangeScript) :
    ifVerdict e.r1 (e.resp .ifCond).b4 =
      if e.r1 ≠ 0x01#8 then some .ifCondRejected
      else if e.payload.b4 ≠ 0xAA#8 then some .echoMismatch
      else none := by
  unfold ifVerdict
  by_cases h : e.r1 = 0x01#8
  · have hp : e.hasPayload .ifCond = true := by simp [ExchangeScript.hasPayload, h, show romShort .ifCond = false from rfl]
    have he : Config.ifCondArg.extractLsb' 0 8 = 0xAA#8 := by decide
    simp [h, ExchangeScript.resp, hp, he]
  · simp [h]

/-- The interface-condition check by its answers. -/
theorem ifCheck_answered {e : ExchangeScript} {rest : List Reply} {s : State} (hp : Polled e.idle e.r1 = true)
    (h : s.Answers (e.ins .ifCond) rest) :
    ifCheck s = .ok (ifVerdict e.r1 (e.resp .ifCond).b4) (e.after .ifCond rest s) := by
  rw [ifCheck, commandExchange_answered hp h, Run.andThen_ok]
  rfl

/-- Eleven failed go-idle attempts (R184). -/
theorem initProc_idleTimeout {fill : List Byte} {fails : List ExchangeScript} {last : ExchangeScript} {rest : List Reply}
    {s : State} (hf : fill.length = Config.fillCount) (hl : fails.length + 1 = Config.idleLimit)
    (hall : (fails ++ [last]).all ExchangeScript.idleFailed = true)
    (h : s.Answers (fill ++ goIdleIns (fails ++ [last])) rest) :
    initProc s = .ok () ((initIdle fill fails last rest s).failInit .idleTimeout) := by
  have h1 : s.Answers fill ((goIdleIns (fails ++ [last])).map Reply.byte ++ rest) := by
    simpa [State.Answers] using h
  rw [initProc, powerUp_init hf h1, Run.andThen_ok, goIdleLoop_init, ← hl, idleLoop_exhausted fails last rest _ hall rfl]
  rfl

/-- An accepted go-idle attempt leads to the interface-condition check (R183). -/
theorem initProc_accepted {fill : List Byte} {fails : List ExchangeScript} {ok : ExchangeScript} {rest : List Reply}
    {s : State} (hf : fill.length = Config.fillCount) (hl : fails.length + 1 ≤ Config.idleLimit)
    (hall : fails.all ExchangeScript.idleFailed = true) (hok : ok.idleAccepted = true)
    (h : s.Answers (fill ++ goIdleIns (fails ++ [ok])) rest) :
    initProc s = initCheck ((initIdle fill fails ok rest s).enter .idle) := by
  have h1 : s.Answers fill ((goIdleIns (fails ++ [ok])).map Reply.byte ++ rest) := by
    simpa [State.Answers] using h
  rw [initProc, powerUp_init hf h1, Run.andThen_ok, goIdleLoop_init, idleLoop_accepted fails _ ok rest _ hl hall hok rfl]
  rfl

/-- The interface-condition check fails (R186). -/
theorem initCheck_rejected {fill : List Byte} {fails : List ExchangeScript} {ok e : ExchangeScript} {mid rest : List Reply}
    {s : State} {reason : InitOutcome} (hp : Polled e.idle e.r1 = true)
    (hv : ifVerdict e.r1 (e.resp .ifCond).b4 = some reason)
    (h : ((initIdle fill fails ok mid s).enter .idle).Answers (e.ins .ifCond) rest) :
    initCheck ((initIdle fill fails ok mid s).enter .idle) = .ok () ((initIf fill fails ok e rest s).failInit reason) := by
  rw [initCheck, ifCheck_answered hp h, hv, Run.andThen_ok]
  rfl

/-- The interface-condition check passes (R186). -/
theorem initCheck_passed {fill : List Byte} {fails : List ExchangeScript} {ok e : ExchangeScript} {mid rest : List Reply}
    {s : State} (hp : Polled e.idle e.r1 = true) (hv : ifVerdict e.r1 (e.resp .ifCond).b4 = none)
    (h : ((initIdle fill fails ok mid s).enter .idle).Answers (e.ins .ifCond) rest) :
    initCheck ((initIdle fill fails ok mid s).enter .idle) =
      initNegotiate ((initIf fill fails ok e rest s).enter .interfaceCheck) := by
  rw [initCheck, ifCheck_answered hp h, hv, Run.andThen_ok]
  rfl

/-! ### The trace only grows -/

theorem initIdle_events (fill : List Byte) (fails : List ExchangeScript) (last : ExchangeScript) (rest : List Reply)
    (s : State) : (initIdle fill fails last rest s).events =
      (powerUpEvents fill ++ goIdleEvents (fails ++ [last])).reverse ++ s.events := by
  simp [initIdle, idleAfter, afterFill]

theorem initIf_events (fill : List Byte) (fails : List ExchangeScript) (ok e : ExchangeScript) (rest : List Reply)
    (s : State) : (initIf fill fails ok e rest s).events =
      (powerUpEvents fill ++ goIdleEvents (fails ++ [ok]) ++ e.events .ifCond).reverse ++ s.events := by
  have : (initIf fill fails ok e rest s).events = (e.events .ifCond).reverse ++ (initIdle fill fails ok [] s).events := rfl
  rw [this, initIdle_events, ← List.append_assoc, ← List.reverse_append]

theorem initNeg_events (fill : List Byte) (fails : List ExchangeScript) (ok e : ExchangeScript) (neg : List AttemptScript)
    (last : AttemptScript) (rest : List Reply) (s : State) : (initNeg fill fails ok e neg last rest s).events =
      (powerUpEvents fill ++ goIdleEvents (fails ++ [ok]) ++ e.events .ifCond ++ negEvents (neg ++ [last])).reverse ++
        s.events := by
  have : (initNeg fill fails ok e neg last rest s).events =
      (negEvents (neg ++ [last])).reverse ++ (initIf fill fails ok e [] s).events := rfl
  rw [this, initIf_events, ← List.append_assoc, ← List.reverse_append]

theorem initOcr_events (t : InitScript) (rest : List Reply) (s : State) :
    (initOcr t rest s).events = t.events.reverse ++ s.events := by
  have : (initOcr t rest s).events = (t.ocr.events .readOcr).reverse ++
      (initNeg t.fill t.idleFails t.idleOk t.ifCond t.negFails t.negOk [] s).events := rfl
  rw [this, initNeg_events, ← List.append_assoc, ← List.reverse_append, InitScript.events]

/-! ### What each stage leaves as an unfinished INIT -/

theorem InitAborted.enter {s u : State} (h : InitAborted s u) {st : InitState}
    (hst : st = .poweringUp ∨ st = .idle ∨ st = .interfaceCheck ∨ st = .negotiating) (d : Nat) :
    InitAborted s (State.enter st { u with draws := d }) :=
  ⟨h.op, h.result, h.rvalid, h.moves, h.outcome, h.ccs, h.vwin, hst⟩

theorem initIdle_aborted (fill : List Byte) (fails : List ExchangeScript) (last : ExchangeScript) (rest : List Reply)
    (s : State) : InitAborted s (initIdle fill fails last rest s) :=
  ⟨rfl, rfl, rfl, rfl, rfl, rfl, rfl, .inl rfl⟩

theorem initIf_aborted (fill : List Byte) (fails : List ExchangeScript) (ok e : ExchangeScript) (rest : List Reply)
    (s : State) : InitAborted s (initIf fill fails ok e rest s) := by
  have h := (initIdle_aborted fill fails ok [] s).enter (st := .idle) (.inr (.inl rfl)) (initIdle fill fails ok [] s).draws
  exact InitAborted.of (u := (initIdle fill fails ok [] s).enter .idle) ⟨rfl, rfl, rfl, rfl, rfl, rfl, rfl, rfl⟩ h

theorem initNeg_aborted (fill : List Byte) (fails : List ExchangeScript) (ok e : ExchangeScript) (neg : List AttemptScript)
    (last : AttemptScript) (rest : List Reply) (s : State) : InitAborted s (initNeg fill fails ok e neg last rest s) := by
  have h := (initIf_aborted fill fails ok e [] s).enter (st := .interfaceCheck) (.inr (.inr (.inl rfl)))
    (initIf fill fails ok e [] s).draws
  exact InitAborted.of (u := (initIf fill fails ok e [] s).enter .interfaceCheck) ⟨rfl, rfl, rfl, rfl, rfl, rfl, rfl, rfl⟩ h

/-! ### Everything INIT can do, from its last part to the whole -/

/-- Steps S5 and S6. -/
theorem initReadOcr_cases (fill : List Byte) (fails : List ExchangeScript) (ok e : ExchangeScript)
    (neg : List AttemptScript) (last : AttemptScript) (mid : List Reply) (d : Nat) (s : State) :
    (∃ (o : ExchangeScript) (rest : List Reply) (draws : Nat), Polled o.idle o.r1 = true ∧
      initReadOcr (State.enter .negotiating { initNeg fill fails ok e neg last mid s with draws := d }) =
        .ok () (ocrCheck o.r1
          (State.enter .readOcr { initOcr ⟨fill, fails, ok, e, neg, last, o⟩ rest s with draws := draws }))) ∨
    (∃ t, initReadOcr (State.enter .negotiating { initNeg fill fails ok e neg last mid s with draws := d }) = .abort t ∧
      InitAborted s t ∧ Faulted s t) := by
  unfold initReadOcr
  obtain ⟨o, rp, dr, hp, h⟩ | ⟨t, h, hk, hf⟩ :=
    commandExchange_cases .readOcr (State.enter .negotiating { initNeg fill fails ok e neg last mid s with draws := d })
  · exact .inl ⟨o, rp, dr, hp, by rw [h, Run.andThen_ok]; rfl⟩
  · refine .inr ⟨t, by rw [h, Run.andThen_abort], InitAborted.of hk.latched ?_,
      hf.after ⟨_, initNeg_events fill fails ok e neg last mid s⟩⟩
    exact (initNeg_aborted fill fails ok e neg last mid s).enter (.inr (.inr (.inr rfl))) d

/-- Steps S4 to S6. -/
theorem initNegotiate_cases (fill : List Byte) (fails : List ExchangeScript) (ok e : ExchangeScript) (mid : List Reply)
    (d : Nat) (s : State) :
    (∃ neg last rest draws, neg.length + 1 = Config.negLimit ∧ (neg ++ [last]).all AttemptScript.failed = true ∧
      initNegotiate (State.enter .interfaceCheck { initIf fill fails ok e mid s with draws := d }) =
        .ok () (State.failInit .opCondTimeout { initNeg fill fails ok e neg last rest s with draws := draws })) ∨
    (∃ neg last o rest draws, neg.length + 1 ≤ Config.negLimit ∧ neg.all AttemptScript.failed = true ∧
      last.accepted = true ∧ Polled o.idle o.r1 = true ∧
      initNegotiate (State.enter .interfaceCheck { initIf fill fails ok e mid s with draws := d }) =
        .ok () (ocrCheck o.r1
          (State.enter .readOcr { initOcr ⟨fill, fails, ok, e, neg, last, o⟩ rest s with draws := draws }))) ∨
    (∃ t, initNegotiate (State.enter .interfaceCheck { initIf fill fails ok e mid s with draws := d }) = .abort t ∧
      InitAborted s t ∧ Faulted s t) := by
  unfold initNegotiate
  obtain ⟨neg, last, rp, dr, hn, hall, hlast, h⟩ | ⟨neg, last, rp, dr, hn, hall, h⟩ | ⟨t, h, hk, hf⟩ :=
    negotiate_cases (State.enter .interfaceCheck { initIf fill fails ok e mid s with draws := d })
  · rw [h, Run.andThen_ok]
    obtain ⟨o, rest, draws, hp, h'⟩ | ⟨t, h', ha, hf⟩ := initReadOcr_cases fill fails ok e neg last rp dr s
    · exact .inr (.inl ⟨neg, last, o, rest, draws, hn, hall, hlast, hp, h'⟩)
    · exact .inr (.inr ⟨t, h', ha, hf⟩)
  · exact .inl ⟨neg, last, rp, dr, hn, hall, by rw [h, Run.andThen_ok]; rfl⟩
  · refine .inr (.inr ⟨t, by rw [h, Run.andThen_abort], InitAborted.of hk ?_,
      hf.after ⟨_, initIf_events fill fails ok e mid s⟩⟩)
    exact (initIf_aborted fill fails ok e mid s).enter (.inr (.inr (.inl rfl))) d

/-- What the check's success says of the response (R186). -/
theorem ifVerdict_none {e : ExchangeScript} (h : ifVerdict e.r1 (e.resp .ifCond).b4 = none) :
    e.r1 = 0x01#8 ∧ e.payload.b4 = 0xAA#8 := by
  rw [ifVerdict_resp] at h
  by_cases h1 : e.r1 = 0x01#8
  · by_cases h2 : e.payload.b4 = 0xAA#8
    · exact ⟨h1, h2⟩
    · simp [h1, h2] at h
  · simp [h1] at h

/-- Steps S3 to S6. -/
theorem initCheck_cases (fill : List Byte) (fails : List ExchangeScript) (ok : ExchangeScript) (mid : List Reply)
    (d : Nat) (s : State) :
    (∃ e reason rest draws, Polled e.idle e.r1 = true ∧ ifVerdict e.r1 (e.resp .ifCond).b4 = some reason ∧
      initCheck (State.enter .idle { initIdle fill fails ok mid s with draws := d }) =
        .ok () (State.failInit reason { initIf fill fails ok e rest s with draws := draws })) ∨
    (∃ e neg last rest draws, Polled e.idle e.r1 = true ∧ e.r1 = 0x01#8 ∧ e.payload.b4 = 0xAA#8 ∧
      neg.length + 1 = Config.negLimit ∧ (neg ++ [last]).all AttemptScript.failed = true ∧
      initCheck (State.enter .idle { initIdle fill fails ok mid s with draws := d }) =
        .ok () (State.failInit .opCondTimeout { initNeg fill fails ok e neg last rest s with draws := draws })) ∨
    (∃ e neg last o rest draws, Polled e.idle e.r1 = true ∧ e.r1 = 0x01#8 ∧ e.payload.b4 = 0xAA#8 ∧
      neg.length + 1 ≤ Config.negLimit ∧ neg.all AttemptScript.failed = true ∧ last.accepted = true ∧
      Polled o.idle o.r1 = true ∧
      initCheck (State.enter .idle { initIdle fill fails ok mid s with draws := d }) =
        .ok () (ocrCheck o.r1
          (State.enter .readOcr { initOcr ⟨fill, fails, ok, e, neg, last, o⟩ rest s with draws := draws }))) ∨
    (∃ t, initCheck (State.enter .idle { initIdle fill fails ok mid s with draws := d }) = .abort t ∧
      InitAborted s t ∧ Faulted s t) := by
  unfold initCheck ifCheck
  obtain ⟨e, rp, dr, hp, h⟩ | ⟨t, h, hk, hf⟩ :=
    commandExchange_cases .ifCond (State.enter .idle { initIdle fill fails ok mid s with draws := d })
  swap
  · refine .inr (.inr (.inr ⟨t, by rw [h, Run.andThen_abort, Run.andThen_abort], InitAborted.of hk.latched ?_,
      hf.after ⟨_, initIdle_events fill fails ok mid s⟩⟩))
    exact (initIdle_aborted fill fails ok mid s).enter (.inr (.inl rfl)) d
  rw [h, Run.andThen_ok, Run.andThen_ok]
  have hif : ({ e.after .ifCond rp (State.enter .idle { initIdle fill fails ok mid s with draws := d }) with
      draws := dr } : State) = { initIf fill fails ok e rp s with draws := dr } := rfl
  rw [hif, show ({ initIf fill fails ok e rp s with draws := dr } : State).resp.b4 = (e.resp .ifCond).b4 from rfl]
  cases hv : ifVerdict e.r1 (e.resp .ifCond).b4 with
  | some reason => exact .inl ⟨e, reason, rp, dr, hp, hv, rfl⟩
  | none =>
    obtain ⟨h1, h2⟩ := ifVerdict_none hv
    obtain ⟨neg, last, rest, draws, hn, hall, h'⟩ | ⟨neg, last, o, rest, draws, hn, hall, hlast, hpo, h'⟩ |
      ⟨t, h', ha, hf⟩ := initNegotiate_cases fill fails ok e rp dr s
    · exact .inr (.inl ⟨e, neg, last, rest, draws, hp, h1, h2, hn, hall, h'⟩)
    · exact .inr (.inr (.inl ⟨e, neg, last, o, rest, draws, hp, h1, h2, hn, hall, hlast, hpo, h'⟩))
    · exact .inr (.inr (.inr ⟨t, h', ha, hf⟩))

/-- `InitScript.wellFormed` from its parts. -/
theorem wellFormed_of {t : InitScript} (h1 : t.fill.length = Config.fillCount)
    (h2 : t.idleFails.length + 1 ≤ Config.idleLimit) (h3 : t.idleFails.all ExchangeScript.idleFailed = true)
    (h4 : t.idleOk.idleAccepted = true) (h5 : Polled t.ifCond.idle t.ifCond.r1 = true) (h6 : t.ifCond.r1 = 0x01#8)
    (h7 : t.ifCond.payload.b4 = 0xAA#8) (h8 : t.negFails.length + 1 ≤ Config.negLimit)
    (h9 : t.negFails.all AttemptScript.failed = true) (h10 : t.negOk.accepted = true)
    (h11 : Polled t.ocr.idle t.ocr.r1 = true) : t.wellFormed = true := by
  unfold InitScript.wellFormed
  rw [h3, h4, h5, h9, h10, h11, h6, h7, decide_eq_true h1, decide_eq_true h2, decide_eq_true h8]
  rfl

/-- The parts of `InitScript.wellFormed`. -/
theorem wellFormed_parts {t : InitScript} (h : t.wellFormed = true) :
    t.fill.length = Config.fillCount ∧ t.idleFails.length + 1 ≤ Config.idleLimit ∧
    t.idleFails.all ExchangeScript.idleFailed = true ∧ t.idleOk.idleAccepted = true ∧
    Polled t.ifCond.idle t.ifCond.r1 = true ∧ t.ifCond.r1 = 0x01#8 ∧ t.ifCond.payload.b4 = 0xAA#8 ∧
    t.negFails.length + 1 ≤ Config.negLimit ∧ t.negFails.all AttemptScript.failed = true ∧ t.negOk.accepted = true ∧
    Polled t.ocr.idle t.ocr.r1 = true := by
  simp only [InitScript.wellFormed, Bool.and_eq_true, decide_eq_true_eq, beq_iff_eq] at h
  obtain ⟨⟨⟨⟨⟨⟨⟨⟨h1, h2⟩, h3⟩, h4⟩, ⟨h5, h6⟩, h7⟩, h8⟩, h9⟩, h10⟩, h11⟩ := h
  exact ⟨h1, h2, h3, h4, h5, h6, h7, h8, h9, h10, h11⟩

/-- Everything INIT can do: it ends in one of the four ways of R184, R186, R191 and R193, or a transport fault ends it. -/
theorem initProc_cases (s : State) :
    (∃ fill fails last rest draws, fill.length = Config.fillCount ∧ fails.length + 1 = Config.idleLimit ∧
      (fails ++ [last]).all ExchangeScript.idleFailed = true ∧
      initProc s = .ok () (State.failInit .idleTimeout { initIdle fill fails last rest s with draws := draws })) ∨
    (∃ fill fails ok e reason rest draws, fill.length = Config.fillCount ∧ fails.length + 1 ≤ Config.idleLimit ∧
      fails.all ExchangeScript.idleFailed = true ∧ ok.idleAccepted = true ∧ Polled e.idle e.r1 = true ∧
      ifVerdict e.r1 (e.resp .ifCond).b4 = some reason ∧
      initProc s = .ok () (State.failInit reason { initIf fill fails ok e rest s with draws := draws })) ∨
    (∃ fill fails ok e neg last rest draws, fill.length = Config.fillCount ∧ fails.length + 1 ≤ Config.idleLimit ∧
      fails.all ExchangeScript.idleFailed = true ∧ ok.idleAccepted = true ∧ Polled e.idle e.r1 = true ∧
      e.r1 = 0x01#8 ∧ e.payload.b4 = 0xAA#8 ∧ neg.length + 1 = Config.negLimit ∧
      (neg ++ [last]).all AttemptScript.failed = true ∧
      initProc s =
        .ok () (State.failInit .opCondTimeout { initNeg fill fails ok e neg last rest s with draws := draws })) ∨
    (∃ t rest draws, t.wellFormed = true ∧
      initProc s = .ok () (ocrCheck t.ocr.r1 (State.enter .readOcr { initOcr t rest s with draws := draws }))) ∨
    (∃ t, initProc s = .abort t ∧ InitAborted s t ∧ Faulted s t) := by
  unfold initProc
  obtain ⟨rp, dr, fill, t0, ⟨hfill, e0, ht0⟩ | ⟨e0, hk, hf⟩⟩ := powerUp_cases s.startInit
  swap
  · refine .inr (.inr (.inr (.inr ⟨t0, by rw [e0, Run.andThen_abort], InitAborted.of hk ?_, hf.after ⟨[], rfl⟩⟩)))
    exact ⟨rfl, rfl, rfl, rfl, rfl, rfl, rfl, .inl rfl⟩
  have ht0' : t0 = { afterFill fill rp s with draws := dr } := ht0
  rw [e0, Run.andThen_ok, ht0', show goIdleLoop { afterFill fill rp s with draws := dr } =
    idleLoop Config.idleLimit { afterFill fill rp s with draws := dr } from rfl]
  obtain ⟨fails, ok, rest, dr', hl, hall, hok, h⟩ | ⟨fails, last, rest, dr', hl, hall, h⟩ | ⟨t, h, hk, hf⟩ :=
    idleLoop_cases Config.idleLimit { afterFill fill rp s with draws := dr } (by decide)
  · rw [h, Run.andThen_ok, if_pos rfl, show ({ idleAfter fails ok rest { afterFill fill rp s with draws := dr } with
      draws := dr' } : State) = { initIdle fill fails ok rest s with draws := dr' } from rfl]
    obtain ⟨e, reason, rest, draws, hp, hv, h'⟩ | ⟨e, neg, last, rest, draws, hp, h1, h2, hn, hnall, h'⟩ |
      ⟨e, neg, last, o, rest, draws, hp, h1, h2, hn, hnall, hlast, hpo, h'⟩ | ⟨t, h', ha, hf⟩ :=
      initCheck_cases fill fails ok rest dr' s
    · exact .inr (.inl ⟨fill, fails, ok, e, reason, rest, draws, hfill, hl, hall, hok, hp, hv, h'⟩)
    · exact .inr (.inr (.inl ⟨fill, fails, ok, e, neg, last, rest, draws, hfill, hl, hall, hok, hp, h1, h2, hn, hnall, h'⟩))
    · exact .inr (.inr (.inr (.inl ⟨⟨fill, fails, ok, e, neg, last, o⟩, rest, draws,
        wellFormed_of hfill hl hall hok hp h1 h2 hn hnall hlast hpo, h'⟩)))
    · exact .inr (.inr (.inr (.inr ⟨t, h', ha, hf⟩)))
  · exact .inl ⟨fill, fails, last, rest, dr', hfill, hl, hall, by rw [h, Run.andThen_ok, if_neg (by decide)]; rfl⟩
  · refine .inr (.inr (.inr (.inr ⟨t, by rw [h, Run.andThen_abort], InitAborted.of hk ?_,
      hf.after ⟨(powerUpEvents fill).reverse, rfl⟩⟩)))
    exact ⟨rfl, rfl, rfl, rfl, rfl, rfl, rfl, .inl rfl⟩

end Sys2Proof.Machine
end

