-- ==== Sys2Proof/Laws/Exec.lean ====
section
/-! SUPPORT. Laws/Exec.lean: `exec` in terms of the procedure an instruction runs, one lemma per mode (30_encoding.md R83). -/

namespace Sys2Proof.Machine

/-- The procedure of a host operation; a ROM frame's is its row's exchange, and ACMD41's the attempt (R78). -/
def procOf : Instr → State → Run Unit
  | .encode idx arg crc => encodeProc idx arg crc
  | .readR1 => readR1Proc
  | .readR3R7 r1 => readR3R7Proc r1
  | .decodeR1 b => fun s => .ok () (s.writeResult ((statusFlags b).toByte.setWidth 64))
  | .decodeR7 arg => fun s => .ok () (s.writeResult (interfaceCondition (argPayload arg)).toResult)
  | .decodeR3 arg => fun s => .ok () (s.writeResult (operatingCondition (argPayload arg)).toResult)
  | .goIdle => goIdleProc
  | .sendIfCond => fullResponseProc .ifCond
  | .appOpCond => appOpCondProc
  | .readOcr => fullResponseProc .readOcr
  | .init => initProc
  | .cmd0 => romProc .goIdle
  | .cmd8 => romProc .ifCond
  | .cmd55 => romProc .appCmd
  | .acmd41 => attemptProc
  | .cmd58 => romProc .readOcr

theorem exec_of_opcode {i : Instr} {opc : BitVec 4} (h : i.opcode = some opc) (s : State) :
    exec i s = runRequest opc (procOf i) s := by
  cases i <;> cases h <;> rfl

theorem exec_of_frame {i : Instr} (h : i.opcode = none) (s : State) : exec i s = runAlone (procOf i) s := by
  cases i <;> first | rfl | cases h

theorem runRequest_avail {opc : BitVec 4} {body : State → Run Unit} {s : State} (h : s.eng = .avail) :
    runRequest opc body s = .next (body (s.accept opc)).finish := by
  simp [runRequest, h]

theorem runAlone_avail {body : State → Run Unit} {s : State} (h : s.eng = .avail) :
    runAlone body s = .next (body s).state := by
  simp [runAlone, h]

/-- A host operation in AVAIL: its procedure from the accepted state, to its end. -/
theorem exec_avail {i : Instr} {opc : BitVec 4} {s : State} (h : i.opcode = some opc) (he : s.eng = .avail) :
    exec i s = .next (procOf i (s.accept opc)).finish := by
  rw [exec_of_opcode h, runRequest_avail he]

/-- A ROM frame in AVAIL. -/
theorem exec_frame_avail {i : Instr} {s : State} (h : i.opcode = none) (he : s.eng = .avail) :
    exec i s = .next (procOf i s).state := by
  rw [exec_of_frame h, runAlone_avail he]

/-- In FAULTED an instruction changes `op_status` at most (R213). -/
theorem exec_faulted {i : Instr} {s : State} (he : s.eng = .faulted) :
    exec i s = .next (if i.opcode.isSome then s.refuseFaulted else s) := by
  cases ho : i.opcode with
  | some opc => rw [exec_of_opcode ho, runRequest, he]; rfl
  | none => rw [exec_of_frame ho, runAlone, he]; rfl

/-- In BUSY the host has no such move (R245). -/
theorem exec_busy {i : Instr} {s : State} (he : s.eng = .busy) : exec i s = .refused .operationInFlight := by
  cases ho : i.opcode with
  | some opc => rw [exec_of_opcode ho, runRequest, he]
  | none => rw [exec_of_frame ho, runAlone, he]

/-- A decoded request word has the operation code in its OP field, and a procedure to start (R81, R83). -/
theorem decodeRequest_opcode {w : Request} {i : Instr} (h : decodeRequest w = .ok i) :
    i.opcode = some (opField w) ∧ (firstPos i).isSome = true := by
  have hop : opField w = BitVec.ofNat 4 (opField w).toNat := by simp
  simp only [decodeRequest] at h
  split at h
  case h_12 => cases h
  all_goals
    rename_i hn
    rw [hn] at hop
    unfold accepted at h
    split at h
    · cases h
    · split at h
      · cases h
        rw [hop]
        exact ⟨rfl, rfl⟩
      · cases h

end Sys2Proof.Machine
end

