-- ==== Sys2Proof/Laws/Feed.lean ====
section
/-! SUPPORT. Laws/Feed.lean: how many answers of the transport a procedure can need (44_init_fsm.md R198): with that many bytes
to come it completes. -/

namespace Sys2Proof.Machine

/-- With at least `n` bytes to come, the procedure completes and uses at most `n` of them. -/
def Fed {α} (n : Nat) (f : State → Run α) : Prop := ∀ s ins rest, n ≤ ins.length → s.Answers ins rest →
   ∃ a t left, f s = .ok a t ∧ t.Answers left rest ∧ ins.length ≤ left.length + n ∧ left <:+ ins ∧ t.draws = s.draws

theorem fed_andThen {α β} {n m} {f : State → Run α} {g : α → State → Run β} (hf : Fed n f) (hg : ∀ a, Fed m (g a)) : Fed (n + m) (fun s => (f s).andThen g) := by
  intro s ins rest hl ha
  obtain ⟨a, t, left, e, h1, h2, h3, h4⟩ := hf s ins rest (by omega) ha
  obtain ⟨b, u, left', e', k1, k2, k3, k4⟩ := hg a t left rest (by omega) h1
  exact ⟨b, u, left', by simp only [e, Run.andThen_ok, e'], k1, by omega, k3.trans h3, k4.trans h4⟩

theorem fed_mono {α} {n m} {f : State → Run α} (h : n ≤ m) (hf : Fed n f) : Fed m f := by
  intro s ins rest hl ha
  obtain ⟨a, t, left, e, h1, h2, h3, h4⟩ := hf s ins rest (by omega) ha
  exact ⟨a, t, left, e, h1, by omega, h3, h4⟩

theorem fed_ok {α} {a : State → α} {g : State → State} (hg : ∀ s, (g s).replies = s.replies ∧ (g s).draws = s.draws) : Fed 0 (fun s => Run.ok (a s) (g s)) := by
  intro s ins rest _ ha
  exact ⟨_, _, ins, rfl, (hg s).1.trans ha, by omega, List.suffix_rfl, (hg s).2⟩

theorem fed_pre {α n} {f : State → Run α} {g : State → State} (hg : ∀ s, (g s).replies = s.replies ∧ (g s).draws = s.draws) (hf : Fed n f) : Fed n (fun s => f (g s)) := by
  intro s ins rest hl ha
  obtain ⟨a, t, left, e, h1, h2, h3, h4⟩ := hf (g s) ins rest hl ((hg s).1.trans ha)
  exact ⟨a, t, left, e, h1, h2, h3, h4.trans (hg s).2⟩

theorem fed_xchg (o) : Fed 1 (xchg o) := by
  intro s ins rest hl ha
  cases ins with
  | nil => simp at hl
  | cons b ins =>
    exact ⟨b, _, ins, xchg_byte o (by simpa [State.Answers] using ha), rfl, by simp, List.suffix_cons .., rfl⟩

theorem fed_send (l : List Byte) : Fed l.length (sendBytes l) := by
  induction l with
  | nil => exact fed_ok (a := fun _ => ()) (g := id) (fun _ => ⟨rfl, rfl⟩)
  | cons b l ih => exact fed_mono (by simp; omega) (fed_andThen (fed_xchg b) (fun _ => ih))

theorem fed_ite {α n} {f g : State → Run α} {p : State → Prop} [∀ s, Decidable (p s)] (hf : Fed n f) (hg : Fed n g) : Fed n (fun s => if p s then f s else g s) := by
  intro s ins rest hl ha
  by_cases h : p s
  · simpa [h] using hf s ins rest hl ha
  · simpa [h] using hg s ins rest hl ha

theorem fed_poll (left) : Fed left (pollLoop left) := by
  induction left with
  | zero => exact fed_ok (a := fun _ => Config.idleFill) (g := id) (fun _ => ⟨rfl, rfl⟩)
  | succ left ih =>
    refine fed_mono (by omega) (fed_andThen (fed_xchg Config.idleFill) (m := left) (fun b => ?_))
    exact fed_ite (p := fun _ => b ≠ Config.idleFill) (fed_mono (by omega) (fed_ok (a := fun _ => b) (g := State.countPoll) (fun _ => ⟨rfl, rfl⟩)))
      (fed_pre (g := State.countPoll) (fun _ => ⟨rfl, rfl⟩) ih)

theorem fed_readR1 : Fed 9 readR1 := fed_pre (g := fun s => { s with pollCnt := 0#4 }) (fun _ => ⟨rfl, rfl⟩) (fed_poll 9)

theorem fed_readR3R7 (r1) : Fed 4 (readR3R7 r1) := by
  refine fed_ite (p := fun _ => r1 > 0x01#8) (fed_mono (by omega) (fed_ok (a := fun _ => ()) (g := fun s => (s.openResp r1).undefPayload) (fun _ => ⟨rfl, rfl⟩))) ?_
  refine fed_pre (g := State.openResp r1) (fun _ => ⟨rfl, rfl⟩) ?_
  refine fed_andThen (n := 1) (m := 3) (fed_xchg _) (fun b => ?_)
  refine fed_andThen (n := 1) (m := 2) (fed_pre (g := State.storeResp1 b) (fun _ => ⟨rfl, rfl⟩) (fed_xchg _)) (fun b => ?_)
  refine fed_andThen (n := 1) (m := 1) (fed_pre (g := State.storeResp2 b) (fun _ => ⟨rfl, rfl⟩) (fed_xchg _)) (fun b => ?_)
  refine fed_andThen (n := 1) (m := 0) (fed_pre (g := State.storeResp3 b) (fun _ => ⟨rfl, rfl⟩) (fed_xchg _)) (fun b => ?_)
  exact fed_ok (a := fun _ => ()) (g := State.storeResp4 b) (fun _ => ⟨rfl, rfl⟩)

theorem fed_exchange (c : RomCmd) : Fed (if romShort c then 18 else 22) (commandExchange c) := by
  have hst : ∀ r1, Fed (if romShort c then 0 else 4) (storeResponse c r1) := by
    intro r1
    unfold storeResponse
    by_cases hc : romShort c
    · simp only [hc, if_true]
      exact fed_ok (a := fun _ => ()) (g := State.storeR1Form r1) (fun _ => ⟨rfl, rfl⟩)
    · simp only [hc]; exact fed_readR3R7 r1
  refine fed_mono (n := 1 + ((6 + (9 + ((if romShort c then 0 else 4) + 0))) + (1 + (1 + 0)))) (by split <;> omega) ?_
  refine fed_andThen (fed_pre (g := State.setCs true) (fun _ => ⟨rfl, rfl⟩) (fed_xchg _)) (fun _ => ?_)
  refine fed_andThen (f := performCommand c) ?_ (fun r1 => fed_andThen (fed_xchg _) (fun _ => fed_andThen (fed_pre (g := State.setCs false) (fun _ => ⟨rfl, rfl⟩) (fed_xchg _)) (fun _ => fed_ok (a := fun _ => r1) (g := id) (fun _ => ⟨rfl, rfl⟩))))
  refine fed_andThen (n := 6) (fed_pre (g := State.storeFrame (romFrame c)) (fun _ => ⟨rfl, rfl⟩) (fed_send (romFrame c).bytes)) (fun _ => ?_)
  refine fed_andThen fed_readR1 (fun r1 => ?_)
  exact fed_andThen (hst r1) (fun _ => fed_ok (a := fun _ => r1) (g := id) (fun _ => ⟨rfl, rfl⟩))

theorem fed_attempt : Fed 36 negAttempt := by
  refine fed_andThen (n := 18) (m := 18) (fed_exchange .appCmd) (fun s55 => ?_)
  refine fed_ite (p := fun _ => s55 < 0x02#8) ?_ (fed_mono (by omega) (fed_ok (a := fun _ => (s55, s55, false)) (g := State.storeCaptured s55) (fun _ => ⟨rfl, rfl⟩)))
  exact fed_andThen (n := 18) (m := 0) (fed_exchange .opCond) (fun r1 => fed_ok (a := fun _ => (s55, r1, true)) (g := State.storeCaptured r1) (fun _ => ⟨rfl, rfl⟩))

theorem fed_fill (n) : Fed n (fillLoop n) := by
  induction n with
  | zero => exact fed_ok (a := fun _ => ()) (g := id) (fun _ => ⟨rfl, rfl⟩)
  | succ n ih => exact fed_mono (by omega) (fed_andThen (fed_xchg _) (fun _ => fed_pre (g := State.countFill) (fun _ => ⟨rfl, rfl⟩) ih))

theorem fed_idle (n) : Fed (18 * n) (idleLoop n) := by
  induction n with
  | zero => exact fed_ok (a := fun _ => false) (g := id) (fun _ => ⟨rfl, rfl⟩)
  | succ n ih =>
    refine fed_mono (n := 18 + 18 * n) (by omega) (fed_andThen (fed_pre (g := State.countIdle) (fun _ => ⟨rfl, rfl⟩) (fed_exchange .goIdle)) (fun r1 => ?_))
    exact fed_ite (p := fun _ => r1 = 0x01#8) (fed_mono (by omega) (fed_ok (a := fun _ => true) (g := id) (fun _ => ⟨rfl, rfl⟩))) ih

theorem begin_keeps (s : State) : s.beginAttempt.replies = s.replies ∧ s.beginAttempt.draws = s.draws := by
  unfold State.beginAttempt; split <;> exact ⟨rfl, rfl⟩

theorem fed_neg (n) : Fed (36 * n) (negLoop n) := by
  induction n with
  | zero => exact fed_ok (a := fun _ => some InitOutcome.opCondTimeout) (g := id) (fun _ => ⟨rfl, rfl⟩)
  | succ n ih =>
    refine fed_mono (n := 36 + 36 * n) (by omega) (fed_andThen (fed_pre (g := State.beginAttempt) begin_keeps fed_attempt) (fun r => ?_))
    exact fed_ite (p := fun _ => r.2.1 = 0x00#8) (fed_mono (by omega) (fed_ok (a := fun _ => none) (g := id) (fun _ => ⟨rfl, rfl⟩))) ih

theorem ocr_keeps (r1) (s : State) : (ocrCheck r1 s).replies = s.replies ∧ (ocrCheck r1 s).draws = s.draws := by
  unfold ocrCheck
  split
  · exact ⟨rfl, rfl⟩
  · split
    · exact ⟨rfl, rfl⟩
    · split <;> exact ⟨rfl, rfl⟩

theorem fed_init : Fed 3888 initProc := by
  refine fed_andThen (n := 10) (m := 3878) (fed_pre (g := State.startInit) (fun _ => ⟨rfl, rfl⟩) (fed_pre (g := fun s => { (s.setCs false).delay .settle with fillCnt := 0#4 }) (fun _ => ⟨rfl, rfl⟩) (fed_fill 10))) (fun _ => ?_)
  refine fed_andThen (n := 198) (m := 3680) (fed_pre (g := fun s => {s with idleCnt := 0#4}) (fun _ => ⟨rfl, rfl⟩) (fed_idle 11)) (fun ok => ?_)
  refine fed_ite (p := fun _ => ok = true) (fed_pre (g := State.enter .idle) (fun _ => ⟨rfl, rfl⟩) ?_) (fed_mono (by omega) (fed_ok (a := fun _ => ()) (g := State.failInit .idleTimeout) (fun _ => ⟨rfl, rfl⟩)))
  refine fed_andThen (n := 22) (m := 3658) (fed_andThen (n := 22) (m := 0) (fed_exchange .ifCond) (fun r1 => fed_ok (a := fun s => ifVerdict r1 s.resp.b4) (g := id) (fun _ => ⟨rfl, rfl⟩))) (fun v => ?_)
  cases v with
  | some r => exact fed_mono (by omega) (fed_ok (a := fun _ => ()) (g := State.failInit r) (fun _ => ⟨rfl, rfl⟩))
  | none =>
    refine fed_pre (g := State.enter .interfaceCheck) (fun _ => ⟨rfl, rfl⟩) ?_
    refine fed_andThen (n := 3636) (m := 22) (fed_pre (g := fun s => {s with negCnt := 0#7}) (fun _ => ⟨rfl, rfl⟩) (fed_neg 101)) (fun v => ?_)
    cases v with
    | some r => exact fed_mono (by omega) (fed_ok (a := fun _ => ()) (g := State.failInit r) (fun _ => ⟨rfl, rfl⟩))
    | none =>
      refine fed_pre (g := State.enter .negotiating) (fun _ => ⟨rfl, rfl⟩) ?_
      exact fed_andThen (n := 22) (m := 0) (fed_exchange .readOcr) (fun r1 => fed_ok (a := fun _ => ()) (g := fun s => ocrCheck r1 (s.enter .readOcr)) (fun s => ocr_keeps r1 _))

end Sys2Proof.Machine
end

