-- ==== Sys2Proof/Laws/Steps.lean ====
section
/-! SUPPORT. Laws/Steps.lean: the sequencer is BUSY exactly while a step is left (10_state.md R21, R23), no counter passes its
bound at any step (R17), and the sequencer runs whole operations. -/

namespace Sys2Proof.Machine

/-! ## A step is left exactly while BUSY -/

/-- `eng` is BUSY exactly while the sequencer holds a step (R21, R23). -/
def Stepping (s : State) : Prop := s.eng = .busy ↔ s.seq.isSome = true

theorem stepping_xchg {out : Byte} {s t : State} {f : Byte → State → Result} (hf : ∀ b u v, u.eng = s.eng → f b u = .next v → Stepping v)
    (h : xchgStep out s f = .next t) : Stepping t := by
  unfold xchgStep at h
  obtain ⟨rp, dr, u, ⟨b, e, hu⟩ | ⟨e, hu⟩⟩ := xchg_cases out s
  · rw [e] at h; exact hf b u t (by rw [hu]) h
  · rw [e] at h; cases h; rw [hu]; simp [Stepping]

theorem stepping_proceed {p : Pos} {s u t : State} (hs : s.eng = .busy) (hu : u.eng = s.eng)
    (h : proceed p u = .next t) : Stepping t := by
  cases h; simp [Stepping, State.goto, hu, hs]

theorem stepping_use {α} {v : Option α} {f : α → Result} {t : State} (hf : ∀ a, f a = .next t → Stepping t)
    (h : useDefined v f = .next t) : Stepping t := by
  cases v with
  | none => cases h
  | some a => exact hf a h

theorem stepping_done {s t : State} (h : Host.Outcome.next s.complete = (.next t : Result)) : Stepping t := by
  injection h with h
  subst h
  simp [Stepping, State.complete]

theorem stepping_stay {s t : State} (hz : Stepping s)
    (h : Host.Outcome.next s = (.next t : Result)) : Stepping t := by cases h; exact hz

theorem stepping_pure {p : Pos} {s t : State} (hs : s.eng = .busy) (h : stepPure p s = .next t) :
    Stepping t := by
  cases p <;> try exact stepping_done h
  all_goals first
    | exact stepping_proceed hs (by rfl) h
    | exact stepping_use (fun a h => stepping_proceed hs (by rfl) h) h

theorem stepping_readOps {p : Pos} {s t : State} (hs : s.eng = .busy) (h : stepReadOps p s = .next t) :
    Stepping t := by
  unfold stepReadOps at h
  split at h
  all_goals first
    | with_reducible exact stepping_done h
    | exact stepping_proceed hs (by rfl) h

theorem stepping_poll {p : Pos} {s t : State} (hs : s.eng = .busy) (hz : Stepping s) (h : stepPoll p s = .next t) :
    Stepping t := by
  unfold stepPoll at h
  split at h
  all_goals first
    | with_reducible exact stepping_stay hz h
    | exact stepping_proceed hs (by rfl) h
    | exact stepping_xchg (fun b u v hu h => stepping_proceed hs (by exact hu) h) h
    | (split at h <;> exact stepping_proceed hs (by rfl) h)

theorem stepping_payload {p : Pos} {s t : State} (hs : s.eng = .busy) (hz : Stepping s) (h : stepPayload p s = .next t) :
    Stepping t := by
  unfold stepPayload at h
  split at h
  all_goals first
    | with_reducible exact stepping_stay hz h
    | exact stepping_proceed hs (by rfl) h
    | exact stepping_xchg (fun b u v hu h => stepping_proceed hs (by exact hu) h) h
    | (split at h <;> exact stepping_proceed hs (by rfl) h)

theorem stepping_exchange {p : Pos} {s t : State} (hs : s.eng = .busy) (hz : Stepping s) (h : stepExchange p s = .next t) :
    Stepping t := by
  unfold stepExchange at h
  split at h
  all_goals first
    | with_reducible exact stepping_stay hz h
    | exact stepping_proceed hs (by rfl) h
    | exact stepping_xchg (fun b u v hu h => stepping_proceed hs (by exact hu) h) h
    | exact stepping_use (fun a h => stepping_proceed hs (by rfl) h) h
    | exact stepping_use (fun a h => stepping_xchg (fun b u v hu h => stepping_proceed hs (by exact hu) h) h) h
    | (split at h <;> exact stepping_proceed hs (by rfl) h)

theorem stepping_attempt {p : Pos} {s t : State} (hs : s.eng = .busy) (hz : Stepping s) (h : stepAttempt p s = .next t) :
    Stepping t := by
  unfold stepAttempt at h
  split at h
  all_goals first
    | with_reducible exact stepping_stay hz h
    | exact stepping_proceed hs (by rfl) h
    | (split at h <;> exact stepping_proceed hs (by rfl) h)

theorem stepping_commandOps {p : Pos} {s t : State} (hs : s.eng = .busy) (h : stepCommandOps p s = .next t) :
    Stepping t := by
  unfold stepCommandOps at h
  split at h
  all_goals first
    | with_reducible exact stepping_done h
    | exact stepping_proceed hs (by rfl) h
    | exact stepping_use (fun a h => stepping_proceed hs (by rfl) h) h

theorem stepping_init {p : Pos} {s t : State} (hs : s.eng = .busy) (hz : Stepping s) (h : stepInit p s = .next t) :
    Stepping t := by
  unfold stepInit at h
  split at h
  all_goals first
    | with_reducible exact stepping_stay hz h
    | exact stepping_proceed hs (by rfl) h
    | (split at h <;> exact stepping_proceed hs (by rfl) h)

theorem stepping_powerUp {p : Pos} {s t : State} (hs : s.eng = .busy) (hz : Stepping s) (h : stepPowerUp p s = .next t) :
    Stepping t := by
  unfold stepPowerUp at h
  split at h
  all_goals first
    | with_reducible exact stepping_stay hz h
    | exact stepping_proceed hs (by rfl) h
    | exact stepping_xchg (fun b u v hu h => stepping_proceed hs (by exact hu) h) h
    | (split at h <;> exact stepping_proceed hs (by rfl) h)

theorem stepping_negotiate {p : Pos} {s t : State} (hs : s.eng = .busy) (hz : Stepping s) (h : stepNegotiate p s = .next t) :
    Stepping t := by
  unfold stepNegotiate at h
  split at h
  all_goals first
    | with_reducible exact stepping_stay hz h
    | exact stepping_proceed hs (by rfl) h
    | (split at h <;> exact stepping_proceed hs (by rfl) h)
    | (refine stepping_use (fun a h => ?_) h; split at h <;> exact stepping_proceed hs (by rfl) h)

theorem stepping_ocr {p : Pos} {s t : State} (hs : s.eng = .busy) (h : stepOcr p s = .next t) :
    Stepping t := by
  unfold stepOcr at h
  split at h
  all_goals first
    | with_reducible exact stepping_done h
    | exact stepping_proceed hs (by rfl) h
    | exact stepping_use (fun a h => stepping_proceed hs (by rfl) h) h
    | (split at h <;> exact stepping_proceed hs (by rfl) h)
    | (refine stepping_use (fun a h => ?_) h; split at h <;> exact stepping_proceed hs (by rfl) h)

/-- Every step of the sequencer. -/
theorem stepping_step {p : Pos} {s t : State} (hs : s.eng = .busy) (hz : Stepping s) (h : stepAt p s = .next t) :
    Stepping t := by
  unfold stepAt at h
  split at h
  all_goals first
    | exact stepping_pure hs h
    | exact stepping_readOps hs h
    | exact stepping_poll hs hz h
    | exact stepping_payload hs hz h
    | exact stepping_exchange hs hz h
    | exact stepping_attempt hs hz h
    | exact stepping_commandOps hs h
    | exact stepping_init hs hz h
    | exact stepping_powerUp hs hz h
    | exact stepping_negotiate hs hz h
    | exact stepping_ocr hs h

theorem seqStep_idle {s : State} (h : s.seq = none) : seqStep s = .next s := by simp [seqStep, h]

theorem stepping_seqStep {s t : State} (hs : Stepping s) (h : seqStep s = .next t) : Stepping t := by
  unfold seqStep at h
  cases hq : s.seq with
  | none => rw [hq] at h; cases h; exact hs
  | some p => rw [hq] at h; exact stepping_step (hs.2 (by simp [hq])) hs h

theorem seqSteps_idle {s : State} (h : s.seq = none) (n : Nat) : seqSteps n s = .next s := by
  induction n with
  | zero => rfl
  | succ n ih => simp [seqSteps, seqStep_idle h, ih]

theorem seqSteps_until {s t : State} (hs : Stepping s) (ht : t.seq = none) (n)
    (h : seqSteps n s = .next t) : ∀ m, ∃ u, seqSteps m s = .next u ∧ (u.eng = .busy ∨ u = t) := by
  induction n generalizing s with
  | zero => cases h; intro m; exact ⟨t, seqSteps_idle ht m, .inr rfl⟩
  | succ n ih =>
    intro m
    cases m with
    | zero =>
      refine ⟨s, rfl, ?_⟩
      by_cases hb : s.eng = .busy
      · exact .inl hb
      · have : s.seq = none := by
          by_contra hq
          exact hb (hs.2 (Option.isSome_iff_ne_none.2 hq))
        rw [seqSteps_idle this] at h; cases h; exact .inr rfl
    | succ m =>
      simp only [seqSteps] at h ⊢
      cases hx : seqStep s with
      | next v => rw [hx] at h; exact ih (stepping_seqStep hs hx) h m
      | fault r => rw [hx] at h; cases h
      | refused r => rw [hx] at h; cases h

/-! ## Whole operations -/
theorem ocrCheck_sim {r1} {s : State} (h0 : s.resp.b0 = some r1) (hp : ¬ r1 > 0x01#8 → ∃ p, s.resp.payload = some p) : Reaches (s.goto .oc0) (ocrCheck r1 s).complete := by
  unfold ocrCheck
  by_cases h : r1 > 0x01#8
  · rw [if_pos h]
    refine .head (t := s.goto (.f0 .powerUpIncomplete)) ?_ (failInit_sim _ s)
    rw [seqStep_goto]; simp only [stepAt, stepOcr, State.goto_resp, h0, useDefined, if_pos h, proceed]; rfl
  · rw [if_neg h]
    obtain ⟨p, hp⟩ := hp h
    rw [hp]
    refine .head (t := s.goto .oc1) ?_ ?_
    · rw [seqStep_goto]; simp only [stepAt, stepOcr, State.goto_resp, h0, useDefined, if_neg h, proceed]; rfl
    refine .head (t := s.goto (.oc2 (operatingCondition p))) ?_ ?_
    · rw [seqStep_goto]; simp only [stepAt, stepOcr, State.goto_resp, hp, useDefined, proceed]; rfl
    by_cases hu : (operatingCondition p).powerUpComplete
    · simp only [hu, if_true]
      refine .head (t := s.goto (.oc3 (operatingCondition p))) ?_ (latchReady_sim _ s)
      rw [seqStep_goto]; simp only [stepAt, stepOcr, if_pos hu, proceed]; rfl
    · simp only [hu]
      refine .head (t := s.goto (.f0 .powerUpIncomplete)) ?_ (failInit_sim _ s)
      rw [seqStep_goto]; simp only [stepAt, stepOcr, if_neg hu, proceed]; rfl

theorem initProc_sim (s : State) : Reaches (s.goto .s0) (initProc s).finish := by
  refine .head (t := s.startInit.goto .s1) rfl (.head (t := s.startInit.goto .u0) rfl ?_)
  refine Reaches.finish (powerUp_sim _) fun _ s => ?_
  refine .head (t := s.goto .l0) rfl ?_
  refine Reaches.finish (goIdleLoop_sim s) fun ok s => ?_
  cases ok with
  | false => exact .head (t := s.goto (.f0 .idleTimeout)) rfl (failInit_sim _ s)
  | true =>
    refine .head (t := (s.enter .idle).goto .s3) rfl (.head (t := (s.enter .idle).goto .k0) rfl ?_)
    refine Reaches.finish (ifCheck_sim _) fun v s => ?_
    cases v with
    | some r => exact failInit_sim r s
    | none =>
      refine .head (t := (s.enter .interfaceCheck).goto .s4) rfl (.head (t := (s.enter .interfaceCheck).goto .m0) rfl ?_)
      refine Reaches.finish (negotiate_sim _) fun v s => ?_
      cases v with
      | some r => exact failInit_sim r s
      | none =>
        refine .head (t := (s.enter .negotiating).goto .s5) rfl (.head (t := (s.enter .negotiating).goto (.c0 .readOcr .s5)) rfl ?_)
        have hs := commandExchange_sim .readOcr .s5 (s.enter .negotiating)
        unfold initReadOcr
        cases hx : commandExchange .readOcr (s.enter .negotiating) with
        | abort t => rw [hx] at hs; exact hs
        | ok r1 t =>
          rw [hx] at hs
          refine hs.trans ?_
          refine .head (t := (t.enter .readOcr).goto .s6) rfl (.head (t := (t.enter .readOcr).goto .oc0) rfl ?_)
          refine ocrCheck_sim (s := t.enter .readOcr) (show t.resp.b0 = some r1 from commandExchange_status hx) fun hr => ?_
          obtain ⟨p, hp⟩ := commandExchange_payload (c := .readOcr) rfl hr hx
          exact ⟨p, by show t.resp.payload = _; rw [hp]; rfl⟩

theorem appOpCondProc_sim (s : State) : Reaches (s.goto .ap0) (appOpCondProc s).finish := by
  refine .head (t := s.goto (.n0 .a0)) rfl ?_
  unfold appOpCondProc
  have hs := negAttempt_sim .a0 s
  cases hx : negAttempt s with
  | abort t => rw [hx] at hs; exact hs
  | ok r t =>
    rw [hx] at hs
    refine hs.trans ?_
    refine .head (t := (t.writeResult (attemptResult r.2.2 r.1 r.2.1)).goto .ap2) ?_ (.one rfl)
    rw [Run.landsAt_ok, seqStep_goto]
    simp only [AttemptCaller.resume, stepAt, stepCommandOps, State.goto_captured, negAttempt_captured hx, useDefined, proceed]; rfl

theorem procOf_sim {i : Instr} {p : Pos} (h : firstPos i = some p) (s : State) : Reaches (s.goto p) (procOf i s).finish := by
  cases i <;> cases h
  · exact .head (t := (s.storeFrame _).goto .e1) rfl (.head (t := (State.writeResult _ (s.storeFrame _)).goto .e2) rfl (.one rfl))
  · refine .head (t := s.goto (.p0 .q0)) rfl ?_
    refine Reaches.finish (readR1_sim .q0 s) fun r1 t => ?_
    exact .head (t := (t.storeR1Form r1).goto (.q2 r1)) rfl (.head (t := ((t.storeR1Form r1).writeResult (r1.setWidth 64)).goto .q3) rfl (.one rfl))
  · rename_i r1
    refine .head (t := s.goto (.pa0 r1 .t0)) rfl ?_
    refine Reaches.finish (readR3R7_sim r1 .t0 s) fun _ t => ?_
    exact .head (t := t.writePack5.goto .t2) rfl (.one rfl)
  · exact .head (t := s.goto (.d1 _)) rfl (.head (t := (State.writeResult _ s).goto .d2) rfl (.one rfl))
  · exact .head (t := s.goto (.v1 _)) rfl (.head (t := (State.writeResult _ s).goto .v2) rfl (.one rfl))
  · exact .head (t := s.goto (.o1 _)) rfl (.head (t := s.goto (.o2 _ _ _)) rfl (.head (t := (State.writeResult _ s).goto .o3) rfl (.one rfl)))
  · refine .head (t := s.goto (.c0 .goIdle .g0)) rfl ?_
    refine Reaches.finish (commandExchange_sim .goIdle .g0 s) fun r1 t => ?_
    exact .head (t := (t.writeResult (r1.setWidth 64)).goto .g2) rfl (.one rfl)
  · refine .head (t := s.goto (.c0 .ifCond .i0)) rfl ?_
    refine Reaches.finish (commandExchange_sim .ifCond .i0 s) fun r1 t => ?_
    exact .head (t := t.writePack5.goto .i2) rfl (.one rfl)
  · exact appOpCondProc_sim s
  · refine .head (t := s.goto (.c0 .readOcr .r0)) rfl ?_
    refine Reaches.finish (commandExchange_sim .readOcr .r0 s) fun r1 t => ?_
    exact .head (t := t.writePack5.goto .r2) rfl (.one rfl)
  · exact initProc_sim s

theorem firstPos_opcode {i p} (h : firstPos i = some p) : ∃ o, i.opcode = some o := by
  cases i <;> cases h <;> exact ⟨_, rfl⟩

/-! ## The counters and the frame register -/

/-- The counters are in their ranges (R26 to R29) and the frame register is a frame (R107). -/
def Counted (s : State) : Prop := s.CountersInRange ∧ s.frame.all Frame.wellFormed = true

/-- The same, and the loops are entered below their bounds (R17). -/
def Bounded (s : State) : Prop := s.CountersInRange ∧ s.seq.all s.loopBound = true ∧ s.frame.all Frame.wellFormed = true

theorem bounded_iff (s : State) : Bounded s ↔ Counted s ∧ s.seq.all s.loopBound = true := by unfold Bounded Counted; tauto

theorem bounded_proceed {p : Pos} {s u t : State} (h0 : Counted s) (hk : Counted s → Counted u) (hl : u.loopBound p = true)
    (h : proceed p u = .next t) : Bounded t := by
  unfold proceed at h
  injection h with h
  subst h
  exact (bounded_iff _).2 ⟨hk h0, by simp only [State.goto, Option.all]; cases p <;> exact hl⟩

theorem bounded_xchg {out : Byte} {s t : State} {f : Byte → State → Result} (h0 : Counted s)
    (hf : ∀ b u v, Counted u → u.pollCnt = s.pollCnt → u.idleCnt = s.idleCnt → u.negCnt = s.negCnt → u.fillCnt = s.fillCnt → f b u = .next v → Bounded v)
    (h : xchgStep out s f = .next t) : Bounded t := by
  unfold xchgStep at h
  obtain ⟨rp, dr, u, ⟨b, e, hu⟩ | ⟨e, hu⟩⟩ := xchg_cases out s
  · rw [e] at h; exact hf b u t (by rw [hu]; exact h0) (by rw [hu]) (by rw [hu]) (by rw [hu]) (by rw [hu]) h
  · rw [e] at h
    injection h with h
    subst h
    rw [hu]; exact (bounded_iff _).2 ⟨h0, rfl⟩

theorem bounded_use {α} {v : Option α} {f : α → Result} {t : State} (hf : ∀ a, f a = .next t → Bounded t)
    (h : useDefined v f = .next t) : Bounded t := by
  cases v with
  | none => cases h
  | some a => exact hf a h

theorem bounded_done {s t : State} (h0 : Counted s)
    (h : Host.Outcome.next s.complete = (.next t : Result)) : Bounded t := by
  injection h with h
  subst h
  exact (bounded_iff _).2 ⟨h0, rfl⟩

theorem bounded_stay {s t : State} (hz : Bounded s) (h : Host.Outcome.next s = (.next t : Result)) : Bounded t := by
  injection h with h
  subst h
  exact hz

theorem loopBound_poll (k : PollCaller) (b u) : State.loopBound u (k.resume b) = true := by cases k <;> rfl

theorem loopBound_pay (k : PayloadCaller) (u) : State.loopBound u (k.resume) = true := by cases k <;> rfl

theorem loopBound_ex (k : ExchangeCaller) (b u) : State.loopBound u (k.resume b) = true := by cases k <;> rfl

theorem loopBound_at (k : AttemptCaller) (b c u) : State.loopBound u (k.resume b c) = true := by cases k <;> rfl

theorem loopBound_fr (i c k u) : State.loopBound u (afterFrameByte i c k) = true := by unfold afterFrameByte; split <;> rfl

theorem encodeFrame_wellFormed (i a c) : (encodeFrame i a c).wellFormed = true := by
  unfold encodeFrame Frame.wellFormed
  simp

theorem counted_frame {s : State} (i a c)
    (h : Counted s) : Counted (s.storeFrame (encodeFrame i a c)) := ⟨h.1, by simp [State.storeFrame, Option.all, encodeFrame_wellFormed]⟩

theorem counted_poll0 {s : State} (h : Counted s) : Counted { s with pollCnt := 0#4 } := ⟨⟨Nat.zero_le _, h.1.2⟩, h.2⟩

theorem counted_idle0 {s : State} (h : Counted s) : Counted { s with idleCnt := 0#4 } := ⟨⟨h.1.1, Nat.zero_le _, h.1.2.2⟩, h.2⟩

theorem counted_neg0 {s : State} (h : Counted s) : Counted { s with negCnt := 0#7 } := ⟨⟨h.1.1, h.1.2.1, Nat.zero_le _, h.1.2.2.2⟩, h.2⟩

theorem counted_fill0 {s : State} (h : Counted s) : Counted { s with fillCnt := 0#4 } := ⟨⟨h.1.1, h.1.2.1, h.1.2.2.1, Nat.zero_le _⟩, h.2⟩

theorem counted_init {s : State} (h : Counted s) : Counted s.startInit := ⟨⟨h.1.1, Nat.zero_le _, Nat.zero_le _, Nat.zero_le _⟩, h.2⟩

theorem counted_pollS {s : State} (hl : decide (s.pollCnt.toNat < Config.r1PollLimit) = true)
    (h : Counted s) : Counted s.countPoll := by
  have h' := of_decide_eq_true hl
  have : Config.r1PollLimit = 9 := rfl
  refine ⟨⟨?_, h.1.2⟩, h.2⟩
  simp only [State.countPoll]; rw [count_succ] <;> omega

theorem counted_idleS {s : State} (hl : decide (s.idleCnt.toNat < Config.idleLimit) = true)
    (h : Counted s) : Counted s.countIdle := by
  have h' := of_decide_eq_true hl
  have : Config.idleLimit = 11 := rfl
  refine ⟨⟨h.1.1, ?_, h.1.2.2⟩, h.2⟩
  simp only [State.countIdle]; rw [count_succ] <;> omega

theorem counted_negS {s : State} (hl : decide (s.negCnt.toNat < Config.negLimit) = true)
    (h : Counted s) : Counted { s with negCnt := s.negCnt + 1#7 } := by
  have h' := of_decide_eq_true hl
  have : Config.negLimit = 101 := rfl
  refine ⟨⟨h.1.1, h.1.2.1, ?_, h.1.2.2.2⟩, h.2⟩
  simp only; rw [count_succ] <;> omega

theorem counted_fillS {s : State} (hl : decide (s.fillCnt.toNat < Config.fillCount) = true)
    (h : Counted s) : Counted s.countFill := by
  have h' := of_decide_eq_true hl
  have : Config.fillCount = 10 := rfl
  refine ⟨⟨h.1.1, h.1.2.1, h.1.2.2.1, ?_⟩, h.2⟩
  simp only [State.countFill]; rw [count_succ] <;> omega

theorem below_of {n m : Nat} (h : n ≤ m) (h' : ¬ n = m) : decide (n < m) = true := by simp; omega

theorem loopBound_of_seq {s : State} {p : Pos} (hq : s.seq = some p)
    (h : s.seq.all s.loopBound = true) : s.loopBound p = true := by rw [hq] at h; exact h

theorem bounded_pure {p : Pos} {s t : State} (hb : Bounded s) (h : stepPure p s = .next t) : Bounded t := by
  have h0 := ((bounded_iff s).1 hb).1
  cases p <;> try exact bounded_done h0 h
  all_goals first
    | exact bounded_proceed h0 (counted_frame _ _ _) (by rfl) h
    | exact bounded_proceed h0 (by exact id) (by rfl) h
    | exact bounded_use (fun a h => bounded_proceed h0 (by exact id) (by rfl) h) h

theorem bounded_readOps {p : Pos} {s t : State} (hb : Bounded s) (hl : s.loopBound p = true)
    (h : stepReadOps p s = .next t) : Bounded t := by
  have h0 := ((bounded_iff s).1 hb).1
  unfold stepReadOps at h
  split at h
  all_goals first
    | with_reducible exact bounded_done h0 h
    | exact bounded_proceed h0 (by exact id) (by rfl) h

theorem bounded_poll {p : Pos} {s t : State} (hb : Bounded s) (hl : s.loopBound p = true)
    (h : stepPoll p s = .next t) : Bounded t := by
  have h0 := ((bounded_iff s).1 hb).1
  unfold stepPoll at h
  split at h
  · exact bounded_proceed h0 counted_poll0 (by rfl) h
  · exact bounded_xchg h0 (fun b u v hu e1 e2 e3 e4 h => bounded_proceed hu (by exact id) (by simp only [State.loopBound]; rw [e1]; exact hl) h) h
  · exact bounded_proceed h0 (counted_pollS hl) (by rfl) h
  · split at h
    · exact bounded_proceed h0 (by exact id) (loopBound_poll ..) h
    · exact bounded_proceed h0 (by exact id) (by rfl) h
  · split at h
    · exact bounded_proceed h0 (by exact id) (loopBound_poll ..) h
    · exact bounded_proceed h0 (by exact id) (by exact below_of h0.1.1 ‹_›) h
  · exact bounded_proceed h0 (by exact id) (by exact hl) h
  · exact bounded_stay hb h

theorem bounded_payload {p : Pos} {s t : State} (hb : Bounded s) (hl : s.loopBound p = true)
    (h : stepPayload p s = .next t) : Bounded t := by
  have h0 := ((bounded_iff s).1 hb).1
  unfold stepPayload at h
  split at h
  · exact bounded_proceed h0 (by exact id) (by rfl) h
  · split at h
    · exact bounded_proceed h0 (by exact id) (loopBound_pay ..) h
    · exact bounded_proceed h0 (by exact id) (by rfl) h
  iterate 4 exact bounded_xchg h0 (fun b u v hu e1 e2 e3 e4 h => bounded_proceed hu (by exact id) (by rfl) h) h
  · exact bounded_proceed h0 (by exact id) (loopBound_pay ..) h
  · exact bounded_stay hb h

theorem bounded_exchange {p : Pos} {s t : State} (hb : Bounded s) (hl : s.loopBound p = true)
    (h : stepExchange p s = .next t) : Bounded t := by
  have h0 := ((bounded_iff s).1 hb).1
  unfold stepExchange at h
  split at h
  · exact bounded_proceed h0 (by exact id) (by rfl) h
  · exact bounded_xchg h0 (fun b u v hu e1 e2 e3 e4 h => bounded_proceed hu (by exact id) (by rfl) h) h
  · exact bounded_proceed h0 (counted_frame _ _ _) (by rfl) h
  · exact bounded_use (fun a h => bounded_xchg h0 (fun b u v hu e1 e2 e3 e4 h => bounded_proceed hu (by exact id) (loopBound_fr ..) h) h) h
  · exact bounded_proceed h0 (by exact id) (by rfl) h
  · split at h <;> exact bounded_proceed h0 (by exact id) (by rfl) h
  · exact bounded_xchg h0 (fun b u v hu e1 e2 e3 e4 h => bounded_proceed hu (by exact id) (by rfl) h) h
  · exact bounded_proceed h0 (by exact id) (by rfl) h
  · exact bounded_xchg h0 (fun b u v hu e1 e2 e3 e4 h => bounded_proceed hu (by exact id) (by rfl) h) h
  · exact bounded_use (fun a h => bounded_proceed h0 (by exact id) (loopBound_ex ..) h) h
  · exact bounded_stay hb h

theorem bounded_attempt {p : Pos} {s t : State} (hb : Bounded s) (hl : s.loopBound p = true)
    (h : stepAttempt p s = .next t) : Bounded t := by
  have h0 := ((bounded_iff s).1 hb).1
  unfold stepAttempt at h
  split at h
  · exact bounded_proceed h0 (by exact id) (by rfl) h
  · split at h <;> exact bounded_proceed h0 (by exact id) (by rfl) h
  · exact bounded_proceed h0 (by exact id) (by rfl) h
  · exact bounded_proceed h0 (by exact id) (loopBound_at ..) h
  · exact bounded_stay hb h

theorem bounded_commandOps {p : Pos} {s t : State} (hb : Bounded s) (hl : s.loopBound p = true)
    (h : stepCommandOps p s = .next t) : Bounded t := by
  have h0 := ((bounded_iff s).1 hb).1
  unfold stepCommandOps at h
  split at h
  all_goals first
    | with_reducible exact bounded_done h0 h
    | exact bounded_proceed h0 (by exact id) (by rfl) h
    | exact bounded_use (fun a h => bounded_proceed h0 (by exact id) (by rfl) h) h

theorem bounded_init {p : Pos} {s t : State} (hb : Bounded s) (hl : s.loopBound p = true)
    (h : stepInit p s = .next t) : Bounded t := by
  have h0 := ((bounded_iff s).1 hb).1
  unfold stepInit at h
  split at h
  all_goals first
    | with_reducible exact bounded_stay hb h
    | exact bounded_proceed h0 counted_init (by rfl) h
    | exact bounded_proceed h0 (by exact id) (by rfl) h
    | (split at h <;> exact bounded_proceed h0 (by exact id) (by rfl) h)

theorem bounded_powerUp {p : Pos} {s t : State} (hb : Bounded s) (hl : s.loopBound p = true)
    (h : stepPowerUp p s = .next t) : Bounded t := by
  have h0 := ((bounded_iff s).1 hb).1
  unfold stepPowerUp at h
  split at h
  · exact bounded_proceed h0 (by exact id) (by rfl) h
  · exact bounded_proceed h0 (by exact id) (by rfl) h
  · exact bounded_proceed h0 counted_fill0 (by rfl) h
  · split at h
    · exact bounded_proceed h0 (by exact id) (by rfl) h
    · exact bounded_proceed h0 (by exact id) (by exact below_of h0.1.2.2.2 ‹_›) h
  · exact bounded_xchg h0 (fun b u v hu e1 e2 e3 e4 h => bounded_proceed hu (by exact id) (by simp only [State.loopBound]; rw [e4]; exact hl) h) h
  · exact bounded_proceed h0 (counted_fillS hl) (by rfl) h
  · exact bounded_proceed h0 counted_idle0 (by rfl) h
  · split at h
    · exact bounded_proceed h0 (by exact id) (by rfl) h
    · exact bounded_proceed h0 (by exact id) (by exact below_of h0.1.2.1 ‹_›) h
  · exact bounded_proceed h0 (counted_idleS hl) (by rfl) h
  · exact bounded_proceed h0 (by exact id) (by rfl) h
  · split at h <;> exact bounded_proceed h0 (by exact id) (by rfl) h
  · exact bounded_proceed h0 (by exact id) (by rfl) h
  · exact bounded_stay hb h

theorem bounded_negotiate {p : Pos} {s t : State} (hb : Bounded s) (hl : s.loopBound p = true)
    (h : stepNegotiate p s = .next t) : Bounded t := by
  have h0 := ((bounded_iff s).1 hb).1
  unfold stepNegotiate at h
  split at h
  · exact bounded_proceed h0 (by exact id) (by rfl) h
  · exact bounded_use (fun a h => by split at h <;> exact bounded_proceed h0 (by exact id) (by rfl) h) h
  · exact bounded_use (fun a h => by split at h <;> exact bounded_proceed h0 (by exact id) (by rfl) h) h
  · exact bounded_proceed h0 (by exact id) (by rfl) h
  · exact bounded_proceed h0 counted_neg0 (by rfl) h
  · split at h
    · exact bounded_proceed h0 (by exact id) (by rfl) h
    · exact bounded_proceed h0 (by exact id) (by exact below_of h0.1.2.2.1 ‹_›) h
  · split at h
    · exact bounded_proceed h0 (by exact id) (by exact hl) h
    · exact bounded_proceed h0 (by exact id) (by exact hl) h
  · exact bounded_proceed h0 (counted_negS hl) (by rfl) h
  · exact bounded_proceed h0 (by exact id) (by rfl) h
  · exact bounded_use (fun a h => by split at h <;> exact bounded_proceed h0 (by exact id) (by rfl) h) h
  · exact bounded_proceed h0 (by exact id) (by rfl) h
  · exact bounded_stay hb h

theorem bounded_ocr {p : Pos} {s t : State} (hb : Bounded s) (hl : s.loopBound p = true)
    (h : stepOcr p s = .next t) : Bounded t := by
  have h0 := ((bounded_iff s).1 hb).1
  unfold stepOcr at h
  split at h
  all_goals first
    | with_reducible exact bounded_done h0 h
    | exact bounded_proceed h0 (by exact id) (by rfl) h
    | exact bounded_use (fun a h => bounded_proceed h0 (by exact id) (by rfl) h) h
    | (split at h <;> exact bounded_proceed h0 (by exact id) (by rfl) h)
    | exact bounded_use (fun a h => by split at h <;> exact bounded_proceed h0 (by exact id) (by rfl) h) h

theorem bounded_step {p : Pos} {s t : State} (hb : Bounded s) (hl : s.loopBound p = true)
    (h : stepAt p s = .next t) : Bounded t := by
  unfold stepAt at h
  split at h
  all_goals first
    | exact bounded_pure hb h
    | exact bounded_readOps hb hl h
    | exact bounded_poll hb hl h
    | exact bounded_payload hb hl h
    | exact bounded_exchange hb hl h
    | exact bounded_attempt hb hl h
    | exact bounded_commandOps hb hl h
    | exact bounded_init hb hl h
    | exact bounded_powerUp hb hl h
    | exact bounded_negotiate hb hl h
    | exact bounded_ocr hb hl h

theorem bounded_seqStep {s t : State} (hb : Bounded s) (h : seqStep s = .next t) : Bounded t := by
  unfold seqStep at h
  cases hq : s.seq with
  | none => rw [hq] at h; exact bounded_stay hb h
  | some p => rw [hq] at h; exact bounded_step hb (loopBound_of_seq hq ((bounded_iff s).1 hb).2) h

theorem bounded_reaches {s t : State} (hb : Bounded s) (h : Reaches s t) : Bounded t := by
  obtain ⟨n, h⟩ := h
  induction n generalizing s with
  | zero => exact bounded_stay hb h
  | succ n ih =>
    simp only [seqSteps] at h
    cases hx : seqStep s with
    | next v => rw [hx] at h; exact ih (bounded_seqStep hb hx) h
    | fault r => rw [hx] at h; cases h
    | refused r => rw [hx] at h; cases h

/-- The bounds and the mode make up `State.InBounds`. -/
theorem inBounds_iff (s : State) : s.InBounds ↔ Stepping s ∧ Bounded s := by
  unfold State.InBounds Stepping Bounded
  tauto

end Sys2Proof.Machine
end

