-- ==== Sys2Proof/Laws/HostView.lean ====
section
/-! SUPPORT. Laws/HostView.lean: what a read of the host view gives in each mode (10_state.md R40, R41), and that it shows nothing
of what an operation writes until `eng` has left BUSY (20_memory.md R60). -/

namespace Sys2Proof.Machine

set_option Elab.async false

/-! ## Reads, mode by mode -/

theorem hostRead_idle {s : State} (h : s.eng ≠ .busy) (n : Nat) : hostRead n s = hostReg n s := by simp [hostRead, h]

theorem hostRead_busy_status {s : State} (h : s.eng = .busy) :
    hostRead 0 s = some ((RegView.ofBits 8 (statusReg s)).without (statusInFlux s)) := by simp [hostRead, h, busyReg]

theorem hostRead_busy_other {s : State} (h : s.eng = .busy) {n : Nat} (hn : n ≠ 0) :
    hostRead n s = (hostReg n s).map fun _ => RegView.undef := by
  cases n with
  | zero => exact absurd rfl hn
  | succ n => simp [hostRead, h, busyReg]

theorem hostReg_isSome (n : Nat) (s : State) : (hostReg n s).isSome = true ↔ n ≤ 10 := by
  match n with
  | 0 | 1 | 2 | 3 | 4 | 5 | 6 | 7 | 8 | 9 | 10 => simp [hostReg]
  | n + 11 => simp [hostReg]

theorem hostRead_isSome (n : Nat) (s : State) : (hostRead n s).isSome = true ↔ n ≤ 10 := by
  by_cases h : s.eng = .busy
  · cases n with
    | zero => simp [hostRead_busy_status h]
    | succ n => rw [hostRead_busy_other h (by omega), Option.isSome_map, hostReg_isSome]
  · rw [hostRead_idle h, hostReg_isSome]

/-- All that a read of an existing register can do: it changes nothing, or it is the reader's fault. -/
theorem step_read {s : State} {rest : List Move} {n : Nat} {use : BitVec 64} {v : RegView} (hm : s.moves = .read n use :: rest)
    (hv : hostRead n { s with moves := rest } = some v) :
    step s = if use &&& v.known = use then .next { s with moves := rest } else .fault .undefConsumed := by
  simp only [step, hm, runMove, presentRead, hv, RegView.consume]
  by_cases h : use &&& v.known = use <;> simp [h]

/-- Two states in flight whose STATUS fields agree where the host may rely on them show the same in every register. -/
theorem hostRead_busy_congr {s t : State} (hs : s.eng = .busy) (ht : t.eng = .busy) (ho : t.op = s.op)
    (hst : t.opStatus = s.opStatus) (hi : s.op ≠ some 0xC#4 → t.initState = s.initState) (n : Nat) :
    hostRead n t = hostRead n s := by
  cases n with
  | zero =>
    rw [hostRead_busy_status hs, hostRead_busy_status ht]
    simp only [statusInFlux, ho, statusReg, hs, ht, hst]
    by_cases h : s.op = some 0xC#4
    · simp only [h, if_true, RegView.without, RegView.ofBits, Option.some.injEq, RegView.mk.injEq, and_true]
      generalize s.initState.code = a
      generalize t.initState.code = b
      generalize s.opStatus.code = c
      revert a b c
      decide +kernel
    · rw [hi h]
  | succ n =>
    rw [hostRead_busy_other hs (by omega), hostRead_busy_other ht (by omega)]
    have : (hostReg (n + 1) t).isSome = (hostReg (n + 1) s).isSome := Bool.eq_iff_iff.2 (by simp only [hostReg_isSome])
    cases h1 : hostReg (n + 1) t <;> cases h2 : hostReg (n + 1) s <;> simp_all

/-! ## The labels of INIT -/

def AttemptCaller.ofInit : AttemptCaller → Bool
  | .a0 => false
  | .m4 => true

def ExchangeCaller.ofInit : ExchangeCaller → Bool
  | .g0 | .i0 | .r0 => false
  | .n0 k | .n1 _ k => k.ofInit
  | .l3 | .k0 | .s5 => true

def PollCaller.ofInit : PollCaller → Bool
  | .q0 => false
  | .c4 _ k => k.ofInit

def PayloadCaller.ofInit : PayloadCaller → Bool
  | .t0 => false
  | .c5 k => k.ofInit

/-- Whether a label is one of INIT, or of a procedure that INIT called. -/
def Pos.ofInit : Pos → Bool
  | .e0 _ _ _ | .e1 | .e2 | .d0 _ | .d1 _ | .d2 | .v0 _ | .v1 _ | .v2 | .o0 _ | .o1 _ | .o2 _ _ _ | .o3 => false
  | .q0 | .q1 _ | .q2 _ | .q3 | .t0 _ | .t1 | .t2 => false
  | .p0 k | .p1 k | .p2 _ k | .p3 _ k | .p4 _ k | .p5 k => k.ofInit
  | .pa0 _ k | .pa1 _ k | .pa2 k | .pa3 k | .pa4 k | .pa5 k | .pa6 k => k.ofInit
  | .c0 _ k | .c1 _ k | .c2 _ k | .c3 _ _ k | .c4 _ k | .c5 _ _ k | .c6 k | .c7 k | .c8 k | .c9 k => k.ofInit
  | .n0 k | .n1 _ k | .n1Captured _ _ k | .n2 _ _ k => k.ofInit
  | .g0 | .g1 _ | .g2 | .i0 | .i1 | .i2 | .ap0 | .ap1 _ _ | .ap2 | .r0 | .r1 | .r2 => false
  | .s0 | .s1 | .s2 | .s2Return _ | .s3 | .s3Return | .s4 | .s4Return | .s5 | .s5Return | .s6 => true
  | .u0 | .u1 | .u2 | .u3 | .u4 | .u5 | .l0 | .l1 | .l2 | .l3 | .l4 _ | .l5 => true
  | .k0 | .k1 | .k2 | .k3 | .m0 | .m1 | .m2 | .m3 | .m4 | .m5 | .m6 => true
  | .oc0 | .oc1 | .oc2 _ | .oc3 _ | .oc4 | .oc5 | .oc6 | .f0 _ | .f1 | .f2 => true

@[simp] theorem PollCaller.ofInit_resume (k : PollCaller) (b : Byte) : (k.resume b).ofInit = k.ofInit := by cases k <;> rfl
@[simp] theorem PayloadCaller.ofInit_resume (k : PayloadCaller) : k.resume.ofInit = k.ofInit := by cases k <;> rfl
@[simp] theorem ExchangeCaller.ofInit_resume (k : ExchangeCaller) (b : Byte) : (k.resume b).ofInit = k.ofInit := by
  cases k <;> rfl
@[simp] theorem AttemptCaller.ofInit_resume (k : AttemptCaller) (b : Byte) (c : Bool) : (k.resume b c).ofInit = k.ofInit := by
  cases k <;> rfl
@[simp] theorem ofInit_afterFrameByte (i : Fin 6) (c : RomCmd) (k : ExchangeCaller) :
    (afterFrameByte i c k).ofInit = k.ofInit := by
  unfold afterFrameByte; split <;> rfl

/-! ## What the steps of an operation keep while it is in flight -/

/-- While still in flight, `t` has the `op` and the `op_status` of `s`, and outside INIT also its `init_state`, and it stays
outside INIT. -/
def Veiled (s t : State) : Prop :=
  t.eng = .busy → t.op = s.op ∧ t.opStatus = s.opStatus ∧
    (s.seq.all (fun p => !p.ofInit) = true → t.initState = s.initState ∧ t.seq.all (fun p => !p.ofInit) = true)

/-- The three fields of STATUS and of acceptance that a step at a label other than INIT's leaves. -/
def SameStatus (s u : State) : Prop := u.op = s.op ∧ u.opStatus = s.opStatus ∧ u.initState = s.initState

theorem Veiled.refl (s : State) : Veiled s s := fun _ => ⟨rfl, rfl, fun h => ⟨rfl, h⟩⟩

theorem veiled_done {s u t : State} (h : Host.Outcome.next u.complete = (.next t : Result)) : Veiled s t := by
  injection h with h
  subst h
  simp [Veiled, State.complete]

theorem veiled_stay {s t : State} (h : Host.Outcome.next s = (.next t : Result)) : Veiled s t := by
  cases h; exact .refl s

theorem veiled_proceed {p q : Pos} {s u t : State} (hq : s.seq = some q) (h : proceed p u = .next t)
    (hu : SameStatus s u) (hp : p.ofInit = q.ofInit) : Veiled s t := by
  cases h
  exact fun _ => ⟨hu.1, hu.2.1, fun hs => ⟨hu.2.2, by simpa [State.goto, hq, hp] using hs⟩⟩

/-- At a label of INIT `init_state` may change. -/
theorem veiled_init {p q : Pos} {s u t : State} (hq : s.seq = some q) (hi : q.ofInit = true)
    (h : proceed p u = .next t) (hu : u.op = s.op ∧ u.opStatus = s.opStatus) : Veiled s t := by
  cases h
  exact fun _ => ⟨hu.1, hu.2, fun hs => by simp [hq, hi] at hs⟩

theorem veiled_xchg {out : Byte} {s u t : State} {f : Byte → State → Result} (h : xchgStep out u f = .next t)
    (hf : ∀ b v w, SameStatus u v → f b v = .next w → Veiled s w) : Veiled s t := by
  unfold xchgStep at h
  obtain ⟨rp, dr, v, ⟨b, e, hv⟩ | ⟨e, hv⟩⟩ := xchg_cases out u
  · rw [e] at h; exact hf b v t (by rw [hv]; exact ⟨rfl, rfl, rfl⟩) h
  · rw [e] at h; cases h; rw [hv]; simp [Veiled]

theorem veiled_use {α} {v : Option α} {s t : State} {f : α → Result} (h : useDefined v f = .next t)
    (hf : ∀ a, f a = .next t → Veiled s t) : Veiled s t := by
  cases v with
  | none => cases h
  | some a => exact hf a h

theorem veiled_pure {p : Pos} {s t : State} (hq : s.seq = some p) (h : stepPure p s = .next t) : Veiled s t := by
  cases p <;> try exact veiled_done h
  all_goals first
    | exact veiled_proceed hq h ⟨rfl, rfl, rfl⟩ rfl
    | exact veiled_use h fun a h => veiled_proceed hq h ⟨rfl, rfl, rfl⟩ rfl

theorem veiled_readOps {p : Pos} {s t : State} (hq : s.seq = some p) (h : stepReadOps p s = .next t) : Veiled s t := by
  unfold stepReadOps at h
  split at h
  all_goals first
    | with_reducible exact veiled_done h
    | exact veiled_proceed hq h ⟨rfl, rfl, rfl⟩ rfl

theorem veiled_poll {p : Pos} {s t : State} (hq : s.seq = some p) (h : stepPoll p s = .next t) : Veiled s t := by
  unfold stepPoll at h
  split at h
  all_goals first
    | with_reducible exact veiled_stay h
    | exact veiled_proceed hq h ⟨rfl, rfl, rfl⟩ rfl
    | exact veiled_xchg h fun b v w hv h => veiled_proceed hq h hv rfl
    | (split at h <;> exact veiled_proceed hq h ⟨rfl, rfl, rfl⟩ (by first | rfl | (simp; rfl)))

theorem veiled_payload {p : Pos} {s t : State} (hq : s.seq = some p) (h : stepPayload p s = .next t) : Veiled s t := by
  unfold stepPayload at h
  split at h
  all_goals first
    | with_reducible exact veiled_stay h
    | exact veiled_proceed hq h ⟨rfl, rfl, rfl⟩ (by first | rfl | (simp; rfl))
    | exact veiled_xchg h fun b v w hv h => veiled_proceed hq h hv rfl
    | (split at h <;> exact veiled_proceed hq h ⟨rfl, rfl, rfl⟩ (by first | rfl | (simp; rfl)))

theorem veiled_exchange {p : Pos} {s t : State} (hq : s.seq = some p) (h : stepExchange p s = .next t) : Veiled s t := by
  unfold stepExchange at h
  split at h
  all_goals first
    | with_reducible exact veiled_stay h
    | exact veiled_proceed hq h ⟨rfl, rfl, rfl⟩ rfl
    | exact veiled_xchg h fun b v w hv h => veiled_proceed hq h hv rfl
    | exact veiled_use h fun a h => veiled_proceed hq h ⟨rfl, rfl, rfl⟩ (by first | rfl | (simp; rfl))
    | exact veiled_use h fun a h => veiled_xchg h fun b v w hv h => veiled_proceed hq h hv (by first | rfl | (simp; rfl))
    | (split at h <;> exact veiled_proceed hq h ⟨rfl, rfl, rfl⟩ rfl)

theorem veiled_attempt {p : Pos} {s t : State} (hq : s.seq = some p) (h : stepAttempt p s = .next t) : Veiled s t := by
  unfold stepAttempt at h
  split at h
  all_goals first
    | with_reducible exact veiled_stay h
    | exact veiled_proceed hq h ⟨rfl, rfl, rfl⟩ (by first | rfl | (simp; rfl))
    | (split at h <;> exact veiled_proceed hq h ⟨rfl, rfl, rfl⟩ rfl)

theorem veiled_commandOps {p : Pos} {s t : State} (hq : s.seq = some p) (h : stepCommandOps p s = .next t) :
    Veiled s t := by
  unfold stepCommandOps at h
  split at h
  all_goals first
    | with_reducible exact veiled_done h
    | exact veiled_proceed hq h ⟨rfl, rfl, rfl⟩ rfl
    | exact veiled_use h fun a h => veiled_proceed hq h ⟨rfl, rfl, rfl⟩ rfl

theorem veiled_ofInit {p : Pos} {s t : State} (hq : s.seq = some p) (hi : p.ofInit = true)
    (h : stepInit p s = .next t ∨ stepPowerUp p s = .next t ∨ stepNegotiate p s = .next t ∨ stepOcr p s = .next t) :
    Veiled s t := by
  rcases h with h | h | h | h
  · unfold stepInit at h
    split at h
    all_goals first
      | with_reducible exact veiled_stay h
      | exact veiled_init hq hi h ⟨rfl, rfl⟩
      | (split at h <;> exact veiled_init hq hi h ⟨rfl, rfl⟩)
  · unfold stepPowerUp at h
    split at h
    all_goals first
      | with_reducible exact veiled_stay h
      | exact veiled_init hq hi h ⟨rfl, rfl⟩
      | exact veiled_xchg h fun b v w hv h => veiled_init hq hi h ⟨hv.1, hv.2.1⟩
      | (split at h <;> exact veiled_init hq hi h ⟨rfl, rfl⟩)
  · unfold stepNegotiate at h
    split at h
    all_goals first
      | with_reducible exact veiled_stay h
      | exact veiled_init hq hi h ⟨rfl, rfl⟩
      | (split at h <;> exact veiled_init hq hi h ⟨rfl, rfl⟩)
      | (refine veiled_use h fun a h => ?_; split at h <;> exact veiled_init hq hi h ⟨rfl, rfl⟩)
  · unfold stepOcr at h
    split at h
    all_goals first
      | with_reducible exact veiled_done h
      | exact veiled_init hq hi h ⟨rfl, rfl⟩
      | exact veiled_use h fun a h => veiled_init hq hi h ⟨rfl, rfl⟩
      | (split at h <;> exact veiled_init hq hi h ⟨rfl, rfl⟩)
      | (refine veiled_use h fun a h => ?_; split at h <;> exact veiled_init hq hi h ⟨rfl, rfl⟩)

/-- What one step of the sequencer leaves as it was for as long as the operation is in flight. -/
theorem veiled_seqStep {s t : State} (h : seqStep s = .next t) : Veiled s t := by
  unfold seqStep at h
  cases hq : s.seq with
  | none => rw [hq] at h; cases h; exact .refl s
  | some p =>
    rw [hq] at h
    simp only [stepAt] at h
    split at h
    all_goals first
      | exact veiled_pure hq h
      | exact veiled_readOps hq h
      | exact veiled_poll hq h
      | exact veiled_payload hq h
      | exact veiled_exchange hq h
      | exact veiled_attempt hq h
      | exact veiled_commandOps hq h
      | exact veiled_ofInit hq rfl (.inl h)
      | exact veiled_ofInit hq rfl (.inr (.inl h))
      | exact veiled_ofInit hq rfl (.inr (.inr (.inl h)))
      | exact veiled_ofInit hq rfl (.inr (.inr (.inr h)))

/-- The same of any number of steps, from a state in flight. -/
theorem veiled_seqSteps {s t : State} (n : Nat) (hs : Stepping s) (h : seqSteps n s = .next t) : Veiled s t := by
  induction n generalizing s with
  | zero => cases h; exact .refl _
  | succ n ih =>
    simp only [seqSteps] at h
    cases hx : seqStep s with
    | next u =>
      rw [hx] at h
      dsimp only at h
      intro ht
      by_cases hu : u.eng = .busy
      · obtain ⟨o1, st1, k1⟩ := veiled_seqStep hx hu
        obtain ⟨o2, st2, k2⟩ := ih (stepping_seqStep hs hx) h ht
        exact ⟨o2.trans o1, st2.trans st1, fun hq => ⟨(k2 (k1 hq).2).1.trans (k1 hq).1, (k2 (k1 hq).2).2⟩⟩
      · have hz := stepping_seqStep hs hx
        have : u.seq = none := by
          by_contra hq
          exact hu (hz.2 (Option.isSome_iff_ne_none.2 hq))
        rw [seqSteps_idle this] at h
        cases h
        exact absurd ht hu
    | fault r => rw [hx] at h; cases h
    | refused r => rw [hx] at h; cases h

end Sys2Proof.Machine
end

