-- ==== Sys2Proof/Laws/Moves.lean ====
section
/-! SUPPORT. Laws/Moves.lean: everything a move of the host can do, how a procedure ends, and what an ending keeps. -/

namespace Sys2Proof.Machine

/-! ## The moves -/

/-- Everything a move can do when it answers a next state. -/
theorem runMove_cases {m : Move} {s t : State} (h : runMove m s = .next t) :
    t = s ∨ t = s.refuseIllegal ∧ s.eng = .avail ∨ t = s.refuseFaulted ∧ s.eng = .faulted ∨ (∃ i, exec i s = .next t) ∨
    (∃ i p o, s.eng = .avail ∧ firstPos i = some p ∧ i.opcode = some o ∧ t = acceptAt p o s ∧ m.isStart = true) ∨
    (m = .wait ∧ s.eng = .busy ∧ seqStep s = .next t) ∨ (m = .rst ∧ t = s.rst) := by
  have hill : presentIllegal s = .next t → t = s.refuseIllegal ∧ s.eng = .avail ∨ t = s.refuseFaulted ∧ s.eng = .faulted := by
    intro h
    unfold presentIllegal at h
    split at h
    · injection h with h; exact .inl ⟨h.symm, ‹_›⟩
    · cases h
    · injection h with h; exact .inr ⟨h.symm, ‹_›⟩
  cases m with
  | request w =>
    simp only [runMove, presentRequest] at h
    split at h
    · exact .inr (.inr (.inr (.inl ⟨_, h⟩)))
    · obtain h | h := hill h
      · exact .inr (.inl h)
      · exact .inr (.inr (.inl h))
  | start w =>
    simp only [runMove, presentStart] at h
    split at h
    · unfold beginInstr at h
      split at h
      · injection h with h; exact .inr (.inr (.inr (.inr (.inl ⟨_, _, _, ‹_›, ‹_›, ‹_›, h.symm, rfl⟩))))
      · injection h with h; exact .inr (.inl ⟨h.symm, ‹_›⟩)
      · cases h
      · injection h with h; exact .inr (.inr (.inl ⟨h.symm, ‹_›⟩))
    · obtain h | h := hill h
      · exact .inr (.inl h)
      · exact .inr (.inr (.inl h))
  | romFrame f =>
    simp only [runMove, issueFrame] at h
    split at h
    · exact .inr (.inr (.inr (.inl ⟨_, h⟩)))
    · cases h
  | decodeResp k =>
    simp only [runMove, presentResp] at h
    split at h
    · cases h
    · unfold useDefined at h
      split at h
      · cases k <;> exact .inr (.inr (.inr (.inl ⟨_, h⟩)))
      · cases h
    · unfold useDefined at h
      split at h
      · cases k <;> exact .inr (.inr (.inr (.inl ⟨_, h⟩)))
      · cases h
  | read n use =>
    simp only [runMove, presentRead] at h
    split at h
    · cases h
    · split at h
      · injection h with h; exact .inl h.symm
      · cases h
  | wait =>
    simp only [runMove, advance] at h
    split at h
    · exact .inr (.inr (.inr (.inr (.inr (.inl ⟨rfl, ‹_›, h⟩)))))
    · injection h with h; exact .inl h.symm
    · injection h with h; exact .inl h.symm
  | rst => simp only [runMove] at h; injection h with h; exact .inr (.inr (.inr (.inr (.inr (.inr ⟨rfl, h.symm⟩)))))

/-- When an instruction answers a next state the engine was in AVAIL, or in FAULTED where at most `op_status` changed (R213). -/
theorem exec_next_cases {i : Instr} {s t : State} (h : exec i s = .next t) :
    (s.eng = .avail) ∨ (s.eng = .faulted ∧ (t = s ∨ t = s.refuseFaulted)) := by
  cases he : s.eng with
  | avail => exact .inl rfl
  | busy => rw [exec_busy he] at h; cases h
  | faulted =>
    rw [exec_faulted he] at h
    injection h with h
    subst h
    right
    split
    · exact ⟨rfl, .inr rfl⟩
    · exact ⟨rfl, .inl rfl⟩

/-- A FRAME48 row runs the exchange of a ROM row, or the attempt (R78). -/
theorem frame_run {i : Instr} (h : i.opcode = none) : (∃ c, procOf i = romProc c) ∨ procOf i = attemptProc := by
  cases i <;> first | exact .inl ⟨_, rfl⟩ | exact .inr rfl | cases h

/-- Everything a FRAME48 row can do: it completes or a transport fault ends it, and it writes no more than an attempt does. -/
theorem frame_cases {i : Instr} (h : i.opcode = none) (s : State) :
    (∃ t, procOf i s = .ok () t ∧ KeepsAttempt s t ∧ t.eng = s.eng ∧ ∃ evs, t.events = evs ++ s.events) ∨
    (∃ t, procOf i s = .abort t ∧ KeepsAttempt s t ∧ Faulted s t) := by
  obtain ⟨c, hc⟩ | hc := frame_run h <;> rw [hc]
  · unfold romProc
    obtain ⟨e, rp, dr, _, hx⟩ | ⟨t, hx, hk, hf⟩ := commandExchange_cases c s
    · exact .inl ⟨{ e.after c rp s with draws := dr }, by rw [hx]; rfl, KeepsInit.attempt keepsInit_rfl, rfl,
        (e.events c).reverse, rfl⟩
    · exact .inr ⟨t, by rw [hx]; rfl, hk.attempt, hf⟩
  · unfold attemptProc
    obtain ⟨a, rp, dr, _, hx⟩ | ⟨t, hx, hk, hf⟩ := negAttempt_cases s
    · exact .inl ⟨{ a.after rp s with draws := dr }, by rw [hx]; rfl, ⟨rfl, rfl, rfl, rfl, rfl, rfl, rfl, rfl, rfl, rfl, rfl⟩,
        rfl, a.events.reverse, rfl⟩
    · exact .inr ⟨t, by rw [hx]; rfl, hk, hf⟩

/-! ## How a procedure ends (60_exceptions.md R212) -/

/-- A procedure ends normally with `rvalid` in step with `result`, or in a transport fault with both as they were. -/
def Ends (body : State → Run Unit) : Prop := ∀ s,
  (∃ t, body s = .ok () t ∧ t.op = s.op ∧ t.rvalid = t.result.definedMask ∧ ∃ evs, t.events = evs ++ s.events) ∨
  (∃ t, body s = .abort t ∧ t.op = s.op ∧ t.result = s.result ∧ t.rvalid = s.rvalid ∧ Faulted s t)

theorem writeResult_valid (w s) : (State.writeResult w s).rvalid = (State.writeResult w s).result.definedMask := (definedMask_ofWord w).symm

theorem exchange_ends (c : RomCmd) (g : Byte → State → State) (hg : ∀ r s, (g r s).op = s.op ∧ (g r s).rvalid = (g r s).result.definedMask ∧ (g r s).events = s.events) :
      Ends (fun s => (commandExchange c s).andThen fun r s => .ok () (g r s)) := by
    intro s
    simp only
    obtain ⟨e, rp, dr, hp, h⟩ | ⟨t, h, hk, hf⟩ := commandExchange_cases c s
    · refine .inl ⟨_, by rw [h]; rfl, ?_⟩
      obtain ⟨a, b, c'⟩ := hg e.r1 { e.after c rp s with draws := dr }
      exact ⟨a, b, (e.events c).reverse, c'⟩
    · exact .inr ⟨t, by rw [h]; rfl, hk.op, hk.result, hk.rvalid, hf⟩

/-- Every host operation's procedure. -/
theorem procOf_ends (i : Instr) (hi : i.opcode ≠ none) : Ends (procOf i) := by
  intro s
  cases i <;> first | exact absurd rfl hi | skip
  · exact .inl ⟨_, rfl, rfl, writeResult_valid _ _, [], rfl⟩
  · unfold procOf readR1Proc
    simp only
    obtain ⟨k, rp, dr, t, ⟨r1, hp, e, ht⟩ | ⟨hk, e, ht⟩⟩ := readR1_cases s
    · exact .inl ⟨_, by rw [e]; rfl, by rw [ht]; rfl, writeResult_valid _ _, _, by rw [ht]; rfl⟩
    · exact .inr ⟨t, by rw [e]; rfl, by rw [ht], by rw [ht], by rw [ht], by rw [ht], by rw [ht], by rw [ht], _, by rw [ht]⟩
  · rename_i r1
    unfold procOf readR3R7Proc
    simp only
    obtain ⟨rp, dr, t, ⟨_, e, ht⟩ | ⟨_, e, p, ht⟩ | ⟨_, e, ins, rs, _, _, ht⟩⟩ := readR3R7_cases r1 s
    · exact .inl ⟨_, by rw [e]; rfl, by rw [ht]; rfl, rfl, [], by rw [ht]; rfl⟩
    · exact .inl ⟨_, by rw [e]; rfl, by rw [ht]; rfl, rfl, _, by rw [ht]; rfl⟩
    · exact .inr ⟨t, by rw [e]; rfl, by rw [ht], by rw [ht], by rw [ht], by rw [ht], by rw [ht], by rw [ht], _, by rw [ht]⟩
  · exact .inl ⟨_, rfl, rfl, writeResult_valid _ _, [], rfl⟩
  · exact .inl ⟨_, rfl, rfl, writeResult_valid _ _, [], rfl⟩
  · exact .inl ⟨_, rfl, rfl, writeResult_valid _ _, [], rfl⟩
  · exact exchange_ends .goIdle (fun r s => s.writeResult (r.setWidth 64)) (fun r s => ⟨rfl, writeResult_valid _ _, rfl⟩) s
  · exact exchange_ends .ifCond (fun _ s => s.writePack5) (fun r s => ⟨rfl, rfl, rfl⟩) s
  · unfold procOf appOpCondProc
    simp only
    obtain ⟨a, rp, dr, hp, h⟩ | ⟨t, h, hk, hf⟩ := negAttempt_cases s
    · refine .inl ⟨State.writeResult (attemptResult a.sent a.app.r1 a.captured) { a.after rp s with draws := dr }, by rw [h, Run.andThen_ok], rfl, writeResult_valid _ _, a.events.reverse, rfl⟩
    · exact .inr ⟨t, by rw [h]; rfl, hk.op, hk.result, hk.rvalid, hf⟩
  · exact exchange_ends .readOcr (fun _ s => s.writePack5) (fun r s => ⟨rfl, rfl, rfl⟩) s
  · show (∃ t, initProc s = .ok () t ∧ _) ∨ (∃ t, initProc s = .abort t ∧ _)
    obtain ⟨fill, fails, last, rest, d, _, _, _, e⟩ | ⟨fill, fails, ok, ex, reason, rest, d, _, _, _, _, _, hv, e⟩ |
      ⟨fill, fails, ok, ex, neg, last, rest, d, _, _, _, _, _, _, _, _, _, e⟩ | ⟨sc, rest, d, hw, e⟩ | ⟨u, e, ha, hf⟩ := initProc_cases s
    · refine .inl ⟨_, e, (initIdle_aborted fill fails last rest s).op, ?_, _, initIdle_events fill fails last rest s⟩
      exact writeResult_valid _ _
    · refine .inl ⟨_, e, (initIf_aborted fill fails ok ex rest s).op, ?_, _, initIf_events fill fails ok ex rest s⟩
      exact writeResult_valid _ _
    · refine .inl ⟨_, e, (initNeg_aborted fill fails ok ex neg last rest s).op, ?_, _, initNeg_events fill fails ok ex neg last rest s⟩
      exact writeResult_valid _ _
    · have hu : ∀ u : State, (ocrCheck sc.ocr.r1 u).op = u.op ∧ (ocrCheck sc.ocr.r1 u).rvalid = (ocrCheck sc.ocr.r1 u).result.definedMask ∧ (ocrCheck sc.ocr.r1 u).events = u.events := by
        intro u
        unfold ocrCheck
        split
        · exact ⟨rfl, writeResult_valid _ _, rfl⟩
        · split
          · exact ⟨rfl, writeResult_valid _ _, rfl⟩
          · split <;> exact ⟨rfl, writeResult_valid _ _, rfl⟩
      obtain ⟨a, b, c⟩ := hu (State.enter .readOcr { initOcr sc rest s with draws := d })
      exact .inl ⟨_, e, a.trans (initNeg_aborted sc.fill sc.idleFails sc.idleOk sc.ifCond sc.negFails sc.negOk [] s).op, b, _, c.trans (initOcr_events sc rest s)⟩
    · exact .inr ⟨u, e, ha.op, ha.result, ha.rvalid, hf⟩

/-! ## The response buffer (R31) and the results of INIT (R34 to R36) -/
/-- After an exchange the response buffer has the form its tag says (R31). -/
theorem respFormed_exchange (c : RomCmd) (e : ExchangeScript) (s : State) (h1 : s.resp = e.resp c) (h2 : s.rtag = !romShort c) :
    s.respFormed = true := by
  unfold State.respFormed
  rw [h1, h2]
  by_cases hc : romShort c
  · simp [hc, ExchangeScript.resp, Resp.r1Form]
  · by_cases hr : e.r1 > 0x01#8
    · simp [hc, ExchangeScript.resp, ExchangeScript.hasPayload, hr, Resp.fiveByteForm]
    · simp [hc, ExchangeScript.resp, ExchangeScript.hasPayload, hr, Resp.fiveByteForm, Resp.payload]

theorem coherent_of {s t : State} (h : s.OutcomeCoherent) (e : t.initState = s.initState ∧ t.outcome = s.outcome ∧ t.ccs = s.ccs ∧ t.vwin = s.vwin) : t.OutcomeCoherent := by
  obtain ⟨e1, e2, e3, e4⟩ := e
  unfold State.OutcomeCoherent
  rw [e1, e2, e3, e4]; exact h

theorem coherent_keep {s t : State} (h : s.OutcomeCoherent) (k : KeepsInit s t) : t.OutcomeCoherent := coherent_of h ⟨k.initState, k.outcome, k.ccs, k.vwin⟩

/-- A procedure that completes leaves the response buffer formed, and completed or not leaves INIT's results coherent. -/
def KeepsForms (body : State → Run Unit) : Prop := ∀ s, s.OutcomeCoherent →
  (∃ t, body s = .ok () t ∧ (s.respFormed = true → t.respFormed = true) ∧ t.OutcomeCoherent) ∨
  (∃ t, body s = .abort t ∧ t.OutcomeCoherent)

theorem exchange_keeps (c : RomCmd) (g : Byte → State → State) (hg : ∀ r s, (g r s).resp = s.resp ∧ (g r s).rtag = s.rtag ∧ (g r s).initState = s.initState ∧ (g r s).outcome = s.outcome ∧ (g r s).ccs = s.ccs ∧ (g r s).vwin = s.vwin) :
      KeepsForms (fun s => (commandExchange c s).andThen fun r s => .ok () (g r s)) := by
    intro s hs
    simp only
    obtain ⟨e, rp, dr, hp, h⟩ | ⟨t, h, hk, hf⟩ := commandExchange_cases c s
    · refine .inl ⟨_, by rw [h]; rfl, ?_, ?_⟩
      · intro _; exact respFormed_exchange c e _ (hg _ _).1 (hg _ _).2.1
      · exact coherent_of hs (hg e.r1 { e.after c rp s with draws := dr }).2.2
    · exact .inr ⟨t, by rw [h]; rfl, coherent_keep hs hk⟩

theorem attempt_keeps (g : Byte × Byte × Bool → State → State) (hg : ∀ r s, (g r s).resp = s.resp ∧ (g r s).rtag = s.rtag ∧ (g r s).initState = s.initState ∧ (g r s).outcome = s.outcome ∧ (g r s).ccs = s.ccs ∧ (g r s).vwin = s.vwin) :
      KeepsForms (fun s => (negAttempt s).andThen fun r s => .ok () (g r s)) := by
    intro s hs
    simp only
    obtain ⟨a, rp, dr, hp, h⟩ | ⟨t, h, hk, hf⟩ := negAttempt_cases s
    · refine .inl ⟨_, by rw [h]; rfl, ?_, ?_⟩
      · intro _
        unfold State.respFormed
        rw [(hg _ _).1, (hg _ _).2.1]
        rfl
      · exact coherent_of hs (hg _ { a.after rp s with draws := dr }).2.2
    · exact .inr ⟨t, by rw [h]; rfl, coherent_of hs ⟨hk.initState, hk.outcome, hk.ccs, hk.vwin⟩⟩

theorem initProc_keeps : KeepsForms initProc := by
  intro s hs
  obtain ⟨fill, fails, last, rest, d, _, _, _, e⟩ | ⟨fill, fails, ok, ex, reason, rest, d, _, _, _, _, _, hv, e⟩ |
      ⟨fill, fails, ok, ex, neg, last, rest, d, _, _, _, _, _, _, _, _, _, e⟩ | ⟨sc, rest, d, hw, e⟩ | ⟨u, e, ha, hf⟩ := initProc_cases s
  · refine .inl ⟨_, e, fun _ => ?_, ?_⟩
    · exact respFormed_exchange .goIdle last _ (by rfl) rfl
    · have := initIdle_aborted fill fails last rest s
      refine ⟨⟨by rintro ⟨⟩, by rintro ⟨⟩⟩, ⟨fun _ => rfl, fun _ => rfl⟩, by rintro ⟨⟩, fun _ => ⟨this.ccs, this.vwin⟩⟩
  · refine .inl ⟨_, e, fun _ => ?_, ?_⟩
    · exact respFormed_exchange .ifCond ex _ (by rfl) rfl
    · have := initIf_aborted fill fails ok ex rest s
      have hr : reason = .ifCondRejected ∨ reason = .echoMismatch := by
        unfold ifVerdict at hv
        split at hv
        · injection hv with hv; exact .inl hv.symm
        · split at hv
          · injection hv with hv; exact .inr hv.symm
          · cases hv
      obtain rfl | rfl := hr
      · refine ⟨⟨by rintro ⟨⟩, by rintro ⟨⟩⟩, ⟨fun _ => rfl, fun _ => rfl⟩, by rintro ⟨⟩, fun _ => ⟨this.ccs, this.vwin⟩⟩
      · refine ⟨⟨by rintro ⟨⟩, by rintro ⟨⟩⟩, ⟨fun _ => rfl, fun _ => rfl⟩, by rintro ⟨⟩, fun _ => ⟨this.ccs, this.vwin⟩⟩
  · refine .inl ⟨_, e, fun _ => ?_, ?_⟩
    · rfl
    · have := initNeg_aborted fill fails ok ex neg last rest s
      refine ⟨⟨by rintro ⟨⟩, by rintro ⟨⟩⟩, ⟨fun _ => rfl, fun _ => rfl⟩, by rintro ⟨⟩, fun _ => ⟨this.ccs, this.vwin⟩⟩
  · refine .inl ⟨_, e, fun _ => ?_, ?_⟩
    · have hu : ∀ u : State, (ocrCheck sc.ocr.r1 u).resp = u.resp ∧ (ocrCheck sc.ocr.r1 u).rtag = u.rtag := by
        intro u
        unfold ocrCheck
        split
        · exact ⟨rfl, rfl⟩
        · split
          · exact ⟨rfl, rfl⟩
          · split <;> exact ⟨rfl, rfl⟩
      refine respFormed_exchange .readOcr sc.ocr _ ((hu _).1.trans rfl) ((hu _).2.trans rfl)
    · have := initNeg_aborted sc.fill sc.idleFails sc.idleOk sc.ifCond sc.negFails sc.negOk [] s
      have hu : ∀ u : State, u.ccs = none → u.vwin = none → (ocrCheck sc.ocr.r1 u).OutcomeCoherent := by
        intro u h1 h2
        have hf : (u.failInit .powerUpIncomplete).OutcomeCoherent := ⟨⟨by rintro ⟨⟩, by rintro ⟨⟩⟩, ⟨fun _ => rfl, fun _ => rfl⟩, by rintro ⟨⟩, fun _ => ⟨h1, h2⟩⟩
        unfold ocrCheck
        split
        · exact hf
        · split
          · exact hf
          · split
            · rename_i p hp hc
              have hcs : (operatingCondition p).capacitySupport = some true := by
                unfold operatingCondition at hc ⊢
                simp only at hc ⊢
                simp [hc]
              exact ⟨⟨fun _ => rfl, fun _ => rfl⟩, ⟨by rintro ⟨⟩, by rintro ⟨⟩⟩, fun _ => ⟨hcs, rfl⟩, fun h => absurd rfl h⟩
            · exact hf
      exact hu _ this.ccs this.vwin
  · refine .inr ⟨u, e, ?_⟩
    unfold State.OutcomeCoherent
    rw [ha.outcome, ha.ccs, ha.vwin]
    obtain h | h | h | h := ha.initState <;> rw [h] <;> decide

theorem procOf_keeps (i : Instr) : KeepsForms (procOf i) := by
  have stay : ∀ g : State → State, (∀ s, (g s).resp = s.resp ∧ (g s).rtag = s.rtag ∧ (g s).initState = s.initState ∧ (g s).outcome = s.outcome ∧ (g s).ccs = s.ccs ∧ (g s).vwin = s.vwin) → KeepsForms (fun s => .ok () (g s)) := by
    intro g hg s hs
    refine .inl ⟨_, rfl, fun h => ?_, coherent_of hs (hg s).2.2⟩
    unfold State.respFormed at h ⊢
    rw [(hg s).1, (hg s).2.1]; exact h
  cases i
  · exact stay (fun s => (s.storeFrame _).writeResult _) (fun _ => ⟨rfl, rfl, rfl, rfl, rfl, rfl⟩)
  · intro s hs
    unfold procOf readR1Proc
    simp only
    obtain ⟨k, rp, dr, t, ⟨r1, hp, e, ht⟩ | ⟨hk, e, ht⟩⟩ := readR1_cases s
    · exact .inl ⟨_, by rw [e]; rfl, fun _ => rfl, by rw [ht]; exact hs⟩
    · exact .inr ⟨_, by rw [e]; rfl, by rw [ht]; exact hs⟩
  · rename_i r1
    intro s hs
    unfold procOf readR3R7Proc
    simp only
    obtain ⟨rp, dr, t, ⟨hr, e, ht⟩ | ⟨hr, e, p, ht⟩ | ⟨_, e, ins, rs, _, _, ht⟩⟩ := readR3R7_cases r1 s
    · exact .inl ⟨_, by rw [e]; rfl, fun _ => by have hr' : 1#8 < r1 := hr
                                                 rw [ht]; simp [State.respFormed, State.writePack5, Resp.fiveByteForm, hr'], by rw [ht]; exact hs⟩
    · have hr' : ¬ 1#8 < r1 := hr
      exact .inl ⟨_, by rw [e]; rfl, fun _ => by rw [ht]; simp [State.respFormed, State.writePack5, Resp.fiveByteForm, hr', Resp.payload], by rw [ht]; exact hs⟩
    · exact .inr ⟨t, by rw [e]; rfl, by rw [ht]; exact hs⟩
  · exact stay (fun s => s.writeResult _) (fun _ => ⟨rfl, rfl, rfl, rfl, rfl, rfl⟩)
  · exact stay (fun s => s.writeResult _) (fun _ => ⟨rfl, rfl, rfl, rfl, rfl, rfl⟩)
  · exact stay (fun s => s.writeResult _) (fun _ => ⟨rfl, rfl, rfl, rfl, rfl, rfl⟩)
  · exact exchange_keeps .goIdle (fun r s => s.writeResult (r.setWidth 64)) (fun r s => ⟨rfl, rfl, rfl, rfl, rfl, rfl⟩)
  · exact exchange_keeps .ifCond (fun r s => s.writePack5) (fun r s => ⟨rfl, rfl, rfl, rfl, rfl, rfl⟩)
  · exact attempt_keeps (fun r s => s.writeResult (attemptResult r.2.2 r.1 r.2.1)) (fun r s => ⟨rfl, rfl, rfl, rfl, rfl, rfl⟩)
  · exact exchange_keeps .readOcr (fun r s => s.writePack5) (fun r s => ⟨rfl, rfl, rfl, rfl, rfl, rfl⟩)
  · exact initProc_keeps
  all_goals first
    | exact exchange_keeps _ (fun r s => s) (fun r s => ⟨rfl, rfl, rfl, rfl, rfl, rfl⟩)
    | exact attempt_keeps (fun r s => s) (fun r s => ⟨rfl, rfl, rfl, rfl, rfl, rfl⟩)

end Sys2Proof.Machine
end

