-- ==== Sys2Proof/Laws/PerInstr.lean ====
section
/-! SUPPORT. Laws/PerInstr.lean: a statement about every instruction as syntax, one lemma a constructor. -/

/-- The word of an instruction is one that its own row of spec/opcode_table.json matches: a request has the row's code under the
row's mask and the operation code in OP (R81, R82), a ROM frame is the frame of a ROM row (R105). -/
def Sys2Proof.Laws.RowMatches.Statement (i : Sys2Proof.Instr) : Prop :=
  match Sys2Proof.encode i with
  | .request w => i.opcode = some (Sys2Proof.opField w) ∧
      ∃ r ∈ Sys2Proof.requestRows, r.mnemonic = i.mnemonic ∧ w &&& r.mask = r.code
  | .frame f => i.opcode = none ∧ ∃ c, i = Sys2Proof.Machine.romInstr c ∧ f = (Sys2Proof.Machine.romFrame c).toWord

namespace Sys2Proof.Laws.RowMatches

/-- A packed request meets a row whose mask leaves its operands out. -/
theorem packed_selects (op : BitVec 4) (mi : BitVec 6) (ma : BitVec 32) (mb : Byte) {idx : BitVec 6} {arg : BitVec 32}
    {byte : Byte} (hi : idx &&& mi = 0#6) (ha : arg &&& ma = 0#32) (hb : byte &&& mb = 0#8) :
    packRequest op idx arg byte &&& (0xF#4 ++ 0x3FFF#14 ++ mi ++ ma ++ mb) = op ++ 0#14 ++ 0#6 ++ 0#32 ++ 0#8 :=
  (masked_iff _ op mi ma mb).2 ⟨opField_pack .., rsvField_pack .., by rw [idxField_pack, hi], by rw [argField_pack, ha],
    by rw [byteField_pack, hb]⟩

/-- The statement of a host operation from its row. -/
theorem of_row {i : Instr} {op : BitVec 4} {idx : BitVec 6} {arg : BitVec 32} {byte : Byte} (mi : BitVec 6) (ma : BitVec 32)
    (mb : Byte) (he : encode i = .request (packRequest op idx arg byte)) (ho : i.opcode = some op)
    (m : String) (hm : m = i.mnemonic) (hr : ⟨m, op ++ 0#14 ++ 0#6 ++ 0#32 ++ 0#8, 0xF#4 ++ 0x3FFF#14 ++ mi ++ ma ++ mb⟩ ∈ requestRows)
    (hi : idx &&& mi = 0#6) (ha : arg &&& ma = 0#32) (hb : byte &&& mb = 0#8) : Statement i := by
  unfold Statement
  rw [he]
  exact ⟨by rw [opField_pack, ho], _, hr, hm, packed_selects op mi ma mb hi ha hb⟩

theorem encode (idx : BitVec 6) (arg : BitVec 32) (crc : Byte) : Statement (.encode idx arg crc) :=
  of_row 0#6 0#32 0#8 rfl rfl "ENCODE" rfl (by decide) (by simp) (by simp) (by simp)

theorem readR1 : Statement .readR1 :=
  of_row 0x3F#6 0xFFFFFFFF#32 0xFF#8 rfl rfl "READ_R1" rfl (by decide) rfl rfl rfl

theorem readR3R7 (r1 : Byte) : Statement (.readR3R7 r1) :=
  of_row 0x3F#6 0xFFFFFFFF#32 0#8 rfl rfl "READ_R3R7" rfl (by decide) rfl rfl (by simp)

theorem decodeR1 (b : Byte) : Statement (.decodeR1 b) :=
  of_row 0x3F#6 0xFFFFFFFF#32 0#8 rfl rfl "DECODE_R1" rfl (by decide) rfl rfl (by simp)

theorem decodeR7 (arg : BitVec 32) : Statement (.decodeR7 arg) :=
  of_row 0x3F#6 0#32 0xFF#8 rfl rfl "DECODE_R7" rfl (by decide) rfl (by simp) rfl

theorem decodeR3 (arg : BitVec 32) : Statement (.decodeR3 arg) :=
  of_row 0x3F#6 0#32 0xFF#8 rfl rfl "DECODE_R3" rfl (by decide) rfl (by simp) rfl

theorem goIdle : Statement .goIdle :=
  of_row 0x3F#6 0xFFFFFFFF#32 0xFF#8 rfl rfl "GO_IDLE" rfl (by decide) rfl rfl rfl

theorem sendIfCond : Statement .sendIfCond :=
  of_row 0x3F#6 0xFFFFFFFF#32 0xFF#8 rfl rfl "SEND_IF_COND" rfl (by decide) rfl rfl rfl

theorem appOpCond : Statement .appOpCond :=
  of_row 0x3F#6 0xFFFFFFFF#32 0xFF#8 rfl rfl "APP_OP_COND" rfl (by decide) rfl rfl rfl

theorem readOcr : Statement .readOcr :=
  of_row 0x3F#6 0xFFFFFFFF#32 0xFF#8 rfl rfl "READ_OCR" rfl (by decide) rfl rfl rfl

theorem init : Statement .init :=
  of_row 0x3F#6 0xFFFFFFFF#32 0xFF#8 rfl rfl "INIT" rfl (by decide) rfl rfl rfl

theorem cmd0 : Statement .cmd0 := ⟨rfl, .goIdle, rfl, by decide⟩

theorem cmd8 : Statement .cmd8 := ⟨rfl, .ifCond, rfl, by decide⟩

theorem cmd55 : Statement .cmd55 := ⟨rfl, .appCmd, rfl, by decide⟩

theorem acmd41 : Statement .acmd41 := ⟨rfl, .opCond, rfl, by decide⟩

theorem cmd58 : Statement .cmd58 := ⟨rfl, .readOcr, rfl, by decide⟩

end Sys2Proof.Laws.RowMatches
end

