-- ==== Sys2Proof/Laws/Traced.lean ====
section
/-! SUPPORT. Laws/Traced.lean: what a procedure's trace says of it: the chip select it leaves, that the same in-bytes give the same
run, that a transport fault at an exchange of the run leaves exactly the events before it (60_exceptions.md R212), and that the
operating-condition request is sent after its prefix only (30_encoding.md R78). -/

namespace Sys2Proof.Machine

-- Keeps the number of threads that check the lemmas side by side low.
set_option Elab.async false

variable {α β : Type}

/-! ## Lists of events -/

@[simp] theorem inBytes_append (a b : List Event) : inBytes (a ++ b) = inBytes a ++ inBytes b := by
  induction a with
  | nil => rfl
  | cons e a ih => cases e <;> simp [inBytes, ih]

@[simp] theorem inBytes_length (a : List Event) : (inBytes a).length = countX a := by
  induction a with
  | nil => rfl
  | cons e a ih => cases e <;> simp [inBytes, ih]

@[simp] theorem csAfter_append (c : Bool) (a b : List Event) : csAfter c (a ++ b) = csAfter (csAfter c a) b := by
  induction a generalizing c with
  | nil => rfl
  | cons e a ih => cases e <;> simp [csAfter, ih]

/-- The exchange lies in the first list. -/
theorem beforeExchange_left (a b : List Event) : ∀ k, k < countX a → beforeExchange k (a ++ b) = beforeExchange k a := by
  induction a with
  | nil => intro k h; simp at h
  | cons e a ih =>
    intro k h
    cases e with
    | x o i =>
      cases k with
      | zero => rfl
      | succ k => simp only [countX_x, List.cons_append, beforeExchange] at h ⊢; rw [ih k (by omega)]
    | cs b => cases k <;> simp only [countX_cs, List.cons_append, beforeExchange] at h ⊢ <;> rw [ih _ h]
    | w d => cases k <;> simp only [countX_w, List.cons_append, beforeExchange] at h ⊢ <;> rw [ih _ h]

/-- The exchange lies in the second list. -/
theorem beforeExchange_right (a b : List Event) (k : Nat) :
    beforeExchange (countX a + k) (a ++ b) = a ++ beforeExchange k b := by
  induction a with
  | nil => simp
  | cons e a ih =>
    cases e with
    | x o i =>
      rw [countX_x, show countX a + 1 + k = countX a + k + 1 by omega]
      simp only [List.cons_append, beforeExchange, ih]
    | cs b =>
      rw [countX_cs, List.cons_append, List.cons_append, ← ih]
      cases countX a + k <;> rfl
    | w d =>
      rw [countX_w, List.cons_append, List.cons_append, ← ih]
      cases countX a + k <;> rfl

/-! ## Traced procedures -/

/-- The state with other answers of the transport to come. -/
abbrev State.facing (rp : List Reply) (d : Nat) (s : State) : State := { s with replies := rp, draws := d }

/-- From `s` the in-bytes of `evs` give the run that completes in `t`, and a fault at exchange `k` of it leaves the events before
that exchange and chip select as they drove it. -/
def Replays (f : State → Run α) (s : State) (a : α) (t : State) (evs : List Event) : Prop :=
  (∀ rp d, f (s.facing ((inBytes evs).map Reply.byte ++ rp) d) = .ok a (t.facing rp d)) ∧
  ∀ k rest d, k < countX evs → ∃ u, f (s.facing (((inBytes evs).take k).map Reply.byte ++ .fault :: rest) d) = .abort u ∧
    u.events = (beforeExchange k evs).reverse ++ s.events ∧ u.cs = csAfter s.cs (beforeExchange k evs) ∧
    u.replies = rest ∧ u.draws = d

/-- What a procedure has done is in its trace, which meets `G`: the events it made, chip select as they drove it, and, when it
completes, what the same in-bytes and a fault among them give. -/
def Traced (G : List Event → Prop) (f : State → Run α) : Prop := ∀ s, ∃ evs, G evs ∧
  (f s).state.events = evs.reverse ++ s.events ∧ (f s).state.cs = csAfter s.cs evs ∧
  ∀ a t, f s = .ok a t → Replays f s a t evs

theorem traced_mono {G H : List Event → Prop} {f : State → Run α} (h : ∀ e, G e → H e) (hf : Traced G f) : Traced H f := by
  intro s
  obtain ⟨evs, hg, h1⟩ := hf s
  exact ⟨evs, h _ hg, h1⟩

/-- One procedure after another, whose first part's answer and events are known together. -/
theorem traced_then {F H : List Event → Prop} {G : α → List Event → Prop} {f : State → Run α} {g : α → State → Run β}
    (hf : Traced F f) (hg : ∀ a, Traced (G a) (g a)) (h0 : ∀ e, F e → H e)
    (h1 : ∀ s a t e e', f s = .ok a t → t.events = e.reverse ++ s.events → F e → G a e' → H (e ++ e')) :
    Traced H (fun s => (f s).andThen g) := by
  intro s
  obtain ⟨e, hF, hev, hcs, hr⟩ := hf s
  cases hx : f s with
  | abort u =>
    rw [hx] at hev hcs
    exact ⟨e, h0 _ hF, by beta_reduce; rw [hx]; exact hev, by beta_reduce; rw [hx]; exact hcs, by simp [hx]⟩
  | ok a t =>
    rw [hx] at hev hcs
    simp only [Run.state_ok] at hev hcs
    obtain ⟨e', hG, hev', hcs', hr'⟩ := hg a t
    refine ⟨e ++ e', h1 s a t e e' hx hev hF hG, ?_, ?_, ?_⟩
    · simp only [hx, Run.andThen_ok, hev', hev, List.reverse_append, List.append_assoc]
    · simp only [hx, Run.andThen_ok, hcs', hcs, csAfter_append]
    · intro b v hv
      simp only [hx, Run.andThen_ok] at hv
      obtain ⟨p1, p2⟩ := hr a t hx
      obtain ⟨q1, q2⟩ := hr' b v hv
      refine ⟨fun rp d => ?_, fun k rest d hk => ?_⟩
      · simp only [inBytes_append, List.map_append, List.append_assoc, p1, Run.andThen_ok]
        exact q1 rp d
      · by_cases hlt : k < countX e
        · obtain ⟨u, hu, hu'⟩ := p2 k rest d hlt
          refine ⟨u, ?_, ?_⟩ <;> beta_reduce
          · rw [inBytes_append, List.take_append_of_le_length (by rw [inBytes_length]; omega), hu]; rfl
          · rw [beforeExchange_left _ _ _ hlt]; exact hu'
        · obtain ⟨j, rfl⟩ := Nat.exists_eq_add_of_le (Nat.le_of_not_lt hlt)
          rw [countX_append] at hk
          obtain ⟨u, hu, h2, h3, h4⟩ := q2 j rest d (by omega)
          refine ⟨u, ?_, ?_, ?_, h4⟩ <;> beta_reduce
          · rw [inBytes_append, List.take_append, inBytes_length, Nat.add_sub_cancel_left,
              List.take_of_length_le (by rw [inBytes_length]; omega), List.map_append, List.append_assoc, p1, Run.andThen_ok, hu]
          · rw [beforeExchange_right, h2, hev, List.reverse_append, List.append_assoc]
          · rw [beforeExchange_right, h3, hcs, csAfter_append]

/-- A property of lists of events that holds of the empty one and of two one after the other. -/
structure Joins (G : List Event → Prop) : Prop where
  nil : G []
  append : ∀ a b, G a → G b → G (a ++ b)

theorem traced_andThen {G : List Event → Prop} (hG : Joins G) {f : State → Run α} {g : α → State → Run β} (hf : Traced G f)
    (hg : ∀ a, Traced G (g a)) : Traced G (fun s => (f s).andThen g) :=
  traced_then hf hg (fun _ h => h) (fun _ _ _ e e' _ _ h h' => hG.append e e' h h')

/-- A procedure without an exchange that makes the events `l`. -/
theorem traced_events {G : List Event → Prop} {a : State → α} {g : State → State} (l : State → List Event)
    (hG : ∀ s, G (l s)) (hx : ∀ s, inBytes (l s) = []) (he : ∀ s, (g s).events = (l s).reverse ++ s.events)
    (hc : ∀ s, (g s).cs = csAfter s.cs (l s)) (hr : ∀ s rp d, g (s.facing rp d) = (g s).facing rp d)
    (ha : ∀ s rp d, a (s.facing rp d) = a s) : Traced G (fun s => Run.ok (a s) (g s)) := by
  refine fun s => ⟨l s, hG s, he s, hc s, fun b t h => ?_⟩
  cases h
  refine ⟨fun rp d => ?_, fun k _ _ hk => ?_⟩
  · rw [hx, List.map_nil, List.nil_append]; exact congrArg₂ Run.ok (ha s rp d) (hr s rp d)
  · rw [← inBytes_length, hx] at hk; exact absurd hk (Nat.not_lt_zero _)

/-- A register write: no event, and neither chip select nor the transport plays a part in it. -/
structure Writes (g : State → State) : Prop where
  events : ∀ s, (g s).events = s.events
  cs : ∀ s, (g s).cs = s.cs
  facing : ∀ s rp d, g (s.facing rp d) = (g s).facing rp d

theorem traced_ok {G : List Event → Prop} (hG : Joins G) {a : State → α} {g : State → State} (hg : Writes g)
    (ha : ∀ s rp d, a (s.facing rp d) = a s) : Traced G (fun s => Run.ok (a s) (g s)) :=
  traced_events (fun _ => []) (fun _ => hG.nil) (fun _ => rfl) hg.events hg.cs hg.facing ha

theorem traced_pre {G : List Event → Prop} (hG : Joins G) {g : State → State} {f : State → Run α} (hg : Writes g)
    (hf : Traced G f) : Traced G (fun s => f (g s)) :=
  traced_andThen hG (f := fun s => .ok () (g s)) (traced_ok hG (a := fun _ => ()) hg (fun _ _ _ => rfl)) (fun _ => hf)

theorem traced_ite {G : List Event → Prop} {f g : State → Run α} {p : State → Prop} [∀ s, Decidable (p s)]
    (hp : ∀ s rp d, p (s.facing rp d) ↔ p s) (hf : Traced G f) (hg : Traced G g) :
    Traced G (fun s => if p s then f s else g s) := by
  intro s
  by_cases h : p s
  · obtain ⟨e, h1, h2, h3, h4⟩ := hf s
    refine ⟨e, h1, by simpa [h] using h2, by simpa [h] using h3, fun a t ht => ?_⟩
    simp only [h, if_true] at ht
    obtain ⟨q1, q2⟩ := h4 a t ht
    refine ⟨fun rp d => ?_, fun k rest d hk => ?_⟩
    · simp only [(hp ..).2 h, if_true]; exact q1 rp d
    · simp only [(hp ..).2 h, if_true]; exact q2 k rest d hk
  · obtain ⟨e, h1, h2, h3, h4⟩ := hg s
    refine ⟨e, h1, by simpa [h] using h2, by simpa [h] using h3, fun a t ht => ?_⟩
    simp only [h, if_false] at ht
    obtain ⟨q1, q2⟩ := h4 a t ht
    refine ⟨fun rp d => ?_, fun k rest d hk => ?_⟩
    · simp only [mt (hp ..).1 h, if_false]; exact q1 rp d
    · simp only [mt (hp ..).1 h, if_false]; exact q2 k rest d hk

theorem traced_xchg {G : List Event → Prop} (o : Byte) (h0 : G []) (h1 : ∀ b, G [.x o b]) : Traced G (xchg o) := by
  intro s
  obtain ⟨rp, d, t, ⟨b, hx, ht⟩ | ⟨hx, ht⟩⟩ := xchg_cases o s
  · refine ⟨[.x o b], h1 b, by rw [hx, ht]; rfl, by rw [hx, ht]; rfl, fun a u hu => ?_⟩
    rw [hx] at hu
    cases hu
    refine ⟨fun rp' d' => ?_, fun k rest d' hk => ?_⟩
    · rw [xchg_byte (rest := rp') o (by rfl), ht]
    · obtain rfl : k = 0 := by simpa using hk
      exact ⟨_, xchg_fault (rest := rest) o (by rfl), rfl, rfl, rfl, rfl⟩
  · exact ⟨[], h0, by rw [hx, ht]; rfl, by rw [hx, ht]; rfl, by simp [hx]⟩

theorem traced_setCs {G : List Event → Prop} (hG : Joins G) (b : Bool) (hb : G [.cs b]) {f : State → Run α} (hf : Traced G f) :
    Traced G (fun s => f (s.setCs b)) :=
  traced_andThen hG (f := fun s => .ok () (s.setCs b))
    (traced_events (fun _ => [.cs b]) (fun _ => hb) (fun _ => rfl) (fun _ => rfl) (fun _ => rfl) (fun _ _ _ => rfl)
      (a := fun _ => ()) (fun _ _ _ => rfl)) (fun _ => hf)

/-! ## The Reader and the exchange, which send no `0x69` but as the first frame byte of the request -/

/-- No exchange has the first frame byte of the operating-condition request as its out-byte. -/
def NoRequest (evs : List Event) : Prop := ∀ b, Event.x 0x69#8 b ∉ evs

theorem noRequest_joins : Joins NoRequest :=
  ⟨fun _ => by simp, fun a b ha hb x h => (List.mem_append.1 h).elim (ha x) (hb x)⟩

theorem noRequest_x {o : Byte} (h : o ≠ 0x69#8) (b : Byte) : NoRequest [.x o b] := by
  intro c hc; simp only [List.mem_singleton, Event.x.injEq] at hc; exact h hc.1.symm

theorem noRequest_cs (b : Bool) : NoRequest [.cs b] := fun c hc => by simp at hc
theorem noRequest_w (k : Delay) : NoRequest [.w k] := fun c hc => by simp at hc

theorem traced_idle : Traced NoRequest (xchg Config.idleFill) :=
  traced_xchg _ noRequest_joins.nil (noRequest_x (by decide))

theorem traced_send (l : List Byte) (h : 0x69#8 ∉ l) : Traced NoRequest (sendBytes l) := by
  induction l with
  | nil => exact traced_ok noRequest_joins (a := fun _ => ()) (g := id) ⟨fun _ => rfl, fun _ => rfl, fun _ _ _ => rfl⟩ (fun _ _ _ => rfl)
  | cons o l ih =>
    simp only [List.mem_cons, not_or] at h
    exact traced_andThen noRequest_joins (traced_xchg o noRequest_joins.nil (noRequest_x (Ne.symm h.1))) (fun _ => ih h.2)

theorem writes_id : Writes id := ⟨fun _ => rfl, fun _ => rfl, fun _ _ _ => rfl⟩

theorem traced_poll (left : Nat) : Traced NoRequest (pollLoop left) := by
  have hw : Writes State.countPoll := ⟨fun _ => rfl, fun _ => rfl, fun _ _ _ => rfl⟩
  induction left with
  | zero => exact traced_ok noRequest_joins (a := fun _ => Config.idleFill) writes_id (fun _ _ _ => rfl)
  | succ left ih =>
    refine traced_andThen noRequest_joins traced_idle (fun b => ?_)
    exact traced_ite (p := fun _ => b ≠ Config.idleFill) (fun _ _ _ => Iff.rfl)
      (traced_ok noRequest_joins (a := fun _ => b) hw (fun _ _ _ => rfl)) (traced_pre noRequest_joins hw ih)

theorem traced_readR1 : Traced NoRequest readR1 :=
  traced_pre noRequest_joins (g := fun s => { s with pollCnt := 0#4 }) ⟨fun _ => rfl, fun _ => rfl, fun _ _ _ => rfl⟩
    (traced_poll _)

theorem traced_readR3R7 (r1 : Byte) : Traced NoRequest (readR3R7 r1) := by
  refine traced_ite (p := fun _ => r1 > 0x01#8) (fun _ _ _ => Iff.rfl)
    (traced_ok noRequest_joins (a := fun _ => ()) (g := fun s => (s.openResp r1).undefPayload)
      ⟨fun _ => rfl, fun _ => rfl, fun _ _ _ => rfl⟩ (fun _ _ _ => rfl)) ?_
  refine traced_pre noRequest_joins (g := State.openResp r1) ⟨fun _ => rfl, fun _ => rfl, fun _ _ _ => rfl⟩ ?_
  refine traced_andThen noRequest_joins traced_idle fun b => ?_
  refine traced_andThen noRequest_joins (traced_pre noRequest_joins (g := State.storeResp1 b)
    ⟨fun _ => rfl, fun _ => rfl, fun _ _ _ => rfl⟩ traced_idle) fun b => ?_
  refine traced_andThen noRequest_joins (traced_pre noRequest_joins (g := State.storeResp2 b)
    ⟨fun _ => rfl, fun _ => rfl, fun _ _ _ => rfl⟩ traced_idle) fun b => ?_
  refine traced_andThen noRequest_joins (traced_pre noRequest_joins (g := State.storeResp3 b)
    ⟨fun _ => rfl, fun _ => rfl, fun _ _ _ => rfl⟩ traced_idle) fun b => ?_
  exact traced_ok noRequest_joins (a := fun _ => ()) (g := State.storeResp4 b)
    ⟨fun _ => rfl, fun _ => rfl, fun _ _ _ => rfl⟩ (fun _ _ _ => rfl)

theorem traced_store (c : RomCmd) (r1 : Byte) : Traced NoRequest (storeResponse c r1) := by
  unfold storeResponse
  by_cases hc : romShort c
  · simp only [hc, if_true]
    exact traced_ok noRequest_joins (a := fun _ => ()) (g := State.storeR1Form r1)
      ⟨fun _ => rfl, fun _ => rfl, fun _ _ _ => rfl⟩ (fun _ _ _ => rfl)
  · simp only [hc]; exact traced_readR3R7 r1

/-- After the frame: the response and the rest of the bracket (R160 C4 to C9). -/
theorem traced_answer (c : RomCmd) : Traced NoRequest (fun s => ((readR1 s).andThen fun r1 s =>
    (storeResponse c r1 s).andThen fun _ s => Run.ok r1 s).andThen fun r1 s => (xchg Config.idleFill s).andThen fun _ s =>
    (xchg Config.idleFill (s.setCs false)).andThen fun _ s => Run.ok r1 s) := by
  refine traced_andThen noRequest_joins (traced_andThen noRequest_joins traced_readR1 fun r1 => traced_andThen noRequest_joins
    (traced_store c r1) fun _ => traced_ok noRequest_joins (a := fun _ => r1) writes_id (fun _ _ _ => rfl)) fun r1 => ?_
  refine traced_andThen noRequest_joins traced_idle fun _ => traced_andThen noRequest_joins
    (traced_setCs noRequest_joins false (noRequest_cs _) traced_idle) fun _ => ?_
  exact traced_ok noRequest_joins (a := fun _ => r1) writes_id (fun _ _ _ => rfl)

/-- The events of an exchange, broken off or not: the opening of the bracket, then the first frame byte, and `0x69` nowhere after
it. -/
def Opens (o : Byte) (evs : List Event) : Prop :=
  NoRequest evs ∨ ∃ fill b post, evs = .cs true :: .x 0xFF#8 fill :: .x o b :: post ∧ NoRequest post

theorem traced_exchange (c : RomCmd) : Traced (Opens (romFrame c).b0) (commandExchange c) := by
  have hb : (romFrame c).bytes = (romFrame c).b0 :: (romFrame c).bytes.tail ∧ 0x69#8 ∉ (romFrame c).bytes.tail := by
    cases c <;> decide
  have he : commandExchange c = fun s => (xchg Config.idleFill (s.setCs true)).andThen fun _ s =>
      (xchg (romFrame c).b0 (s.storeFrame (romFrame c))).andThen fun _ s =>
      (sendBytes (romFrame c).bytes.tail s).andThen fun _ s => ((readR1 s).andThen fun r1 s =>
      (storeResponse c r1 s).andThen fun _ s => Run.ok r1 s).andThen fun r1 s => (xchg Config.idleFill s).andThen fun _ s =>
      (xchg Config.idleFill (s.setCs false)).andThen fun _ s => Run.ok r1 s := by
    funext s
    unfold commandExchange performCommand
    rw [hb.1]
    simp only [sendBytes, Run.andThen_assoc]
    rfl
  rw [he]
  have hopen : Traced (fun e => e = [.cs true] ∨ ∃ fill, e = [.cs true, .x 0xFF#8 fill])
      (fun s => xchg Config.idleFill (s.setCs true)) :=
    traced_then (f := fun s => .ok () (s.setCs true)) (F := fun e => e = [.cs true])
      (G := fun _ e => e = [] ∨ ∃ fill, e = [.x 0xFF#8 fill])
      (traced_events (fun _ => [.cs true]) (fun _ => rfl) (fun _ => rfl) (fun _ => rfl) (fun _ => rfl) (fun _ _ _ => rfl)
        (a := fun _ => ()) (fun _ _ _ => rfl))
      (fun _ => traced_xchg _ (.inl rfl) (fun b => .inr ⟨b, rfl⟩)) (fun _ h => .inl h)
      (by rintro _ _ _ _ _ _ _ rfl (rfl | ⟨fill, rfl⟩) <;> [exact .inl rfl; exact .inr ⟨fill, rfl⟩])
  have hfirst : Traced (fun e => e = [] ∨ ∃ b post, e = .x (romFrame c).b0 b :: post ∧ NoRequest post) (fun s =>
      (xchg (romFrame c).b0 (s.storeFrame (romFrame c))).andThen fun _ s =>
      (sendBytes (romFrame c).bytes.tail s).andThen fun _ s => ((readR1 s).andThen fun r1 s =>
      (storeResponse c r1 s).andThen fun _ s => Run.ok r1 s).andThen fun r1 s => (xchg Config.idleFill s).andThen fun _ s =>
      (xchg Config.idleFill (s.setCs false)).andThen fun _ s => Run.ok r1 s) := by
    refine traced_then (F := fun e => e = [] ∨ ∃ b, e = [.x (romFrame c).b0 b]) (G := fun _ => NoRequest)
      (f := fun s => xchg (romFrame c).b0 (s.storeFrame (romFrame c))) ?_ (fun _ => ?_) ?_ ?_
    · refine traced_then (f := fun s => .ok () (s.storeFrame (romFrame c))) (F := fun e => e = [])
        (G := fun _ e => e = [] ∨ ∃ b, e = [.x (romFrame c).b0 b])
        (traced_events (fun _ => []) (fun _ => rfl) (fun _ => rfl) (fun _ => rfl) (fun _ => rfl) (fun _ _ _ => rfl)
          (a := fun _ => ()) (fun _ _ _ => rfl))
        (fun _ => traced_xchg _ (.inl rfl) (fun b => .inr ⟨b, rfl⟩)) (fun _ h => .inl h) ?_
      rintro _ _ _ _ _ _ _ rfl h; exact h
    · exact traced_andThen noRequest_joins (traced_send _ hb.2) fun _ => traced_answer c
    · rintro _ (rfl | ⟨b, rfl⟩)
      · exact .inl rfl
      · exact .inr ⟨b, [], rfl, noRequest_joins.nil⟩
    · rintro s a t e e' hx hev (rfl | ⟨b, rfl⟩) h
      · obtain ⟨rp, d, u, ⟨b, h1, h2⟩ | ⟨h1, _⟩⟩ := xchg_cases (romFrame c).b0 (s.storeFrame (romFrame c))
        · rw [h1] at hx; cases hx; rw [h2] at hev; simp [State.storeFrame] at hev
        · rw [h1] at hx; cases hx
      · exact .inr ⟨b, e', rfl, h⟩
  refine traced_then (G := fun _ e => e = [] ∨ ∃ b post, e = .x (romFrame c).b0 b :: post ∧ NoRequest post) hopen
    (fun _ => hfirst) ?_ ?_
  · rintro _ (rfl | ⟨fill, rfl⟩)
    · exact .inl (noRequest_cs _)
    · exact .inl (noRequest_joins.append [_] [_] (noRequest_cs _) (noRequest_x (by decide) _))
  · rintro s a t e e' hx hev (rfl | ⟨fill, rfl⟩) h
    · obtain ⟨rp, d, u, ⟨b, h1, h2⟩ | ⟨h1, _⟩⟩ := xchg_cases Config.idleFill (s.setCs true)
      · rw [h1] at hx; cases hx; rw [h2] at hev; simp [State.setCs] at hev
      · rw [h1] at hx; cases hx
    · obtain rfl | ⟨b, post, rfl, hp⟩ := h
      · exact .inl (noRequest_joins.append [_] [_] (noRequest_cs _) (noRequest_x (by decide) _))
      · exact .inr ⟨fill, b, post, rfl, hp⟩

/-! ## The request after its prefix (R78) -/

/-- Every `0x69` of the trace comes right after a whole exchange of the prefix with a status below 2 and the opening of the next
bracket. -/
def Prefixed (evs : List Event) : Prop := ∀ (pre post : List Event) (b : Byte), evs = pre ++ .x 0x69#8 b :: post →
  ∃ (earlier : List Event) (e : ExchangeScript) (fill : Byte), Polled e.idle e.r1 = true ∧ e.r1 < 0x02#8 ∧
    pre = earlier ++ e.events .appCmd ++ [.cs true, .x 0xFF#8 fill]

theorem NoRequest.prefixed {evs : List Event} (h : NoRequest evs) : Prefixed evs := by
  rintro pre post b rfl
  exact absurd (by simp) (h b)

theorem prefixed_joins : Joins Prefixed := by
  refine ⟨noRequest_joins.nil.prefixed, fun x y hx hy pre post b h => ?_⟩
  rw [List.append_eq_append_iff] at h
  obtain ⟨l, rfl, h⟩ | ⟨l, rfl, h⟩ := h
  · obtain ⟨earlier, e, fill, h1, h2, rfl⟩ := hy l post b h
    exact ⟨x ++ earlier, e, fill, h1, h2, by simp⟩
  · cases l with
    | nil =>
      obtain ⟨earlier, e, fill, h1, h2, h3⟩ := hy [] post b (by simpa using h.symm)
      simp at h3
    | cons v l =>
      injection h with h4 h5
      subst h4
      exact hx pre l b rfl

theorem traced_attempt : Traced Prefixed negAttempt := by
  have hw : ∀ b, Writes (State.storeCaptured b) := fun _ => ⟨fun _ => rfl, fun _ => rfl, fun _ _ _ => rfl⟩
  have happ : ∀ e, Opens (romFrame .appCmd).b0 e → NoRequest e := by
    rintro e (h | ⟨fill, b, post, rfl, h⟩)
    · exact h
    · exact noRequest_joins.append [_] _ (noRequest_cs _) (noRequest_joins.append [_] _ (noRequest_x (by decide) _)
        (noRequest_joins.append [_] _ (noRequest_x (by decide) _) h))
  refine traced_then (F := NoRequest) (G := fun s55 e => if s55 < 0x02#8 then Opens 0x69#8 e else NoRequest e)
    (traced_mono happ (traced_exchange .appCmd)) (fun s55 => ?_) (fun e h => h.prefixed) ?_
  · by_cases h5 : s55 < 0x02#8
    · simp only [h5, if_true]
      refine traced_then (G := fun _ => NoRequest) (traced_exchange .opCond) (fun r1 => traced_ok noRequest_joins
        (a := fun _ => (s55, r1, true)) (hw r1) (fun _ _ _ => rfl)) (fun _ h => h) ?_
      rintro _ _ _ e e' _ _ (h | ⟨fill, b, post, rfl, h⟩) h'
      · exact .inl (noRequest_joins.append _ _ h h')
      · exact .inr ⟨fill, b, post ++ e', rfl, noRequest_joins.append _ _ h h'⟩
    · simp only [h5, if_false]
      exact traced_ok noRequest_joins (a := fun _ => (s55, s55, false)) (hw s55) (fun _ _ _ => rfl)
  · intro s s55 t e e' hx hev hn hG
    by_cases h5 : s55 < 0x02#8
    swap
    · rw [if_neg h5] at hG; exact (noRequest_joins.append _ _ hn hG).prefixed
    rw [if_pos h5] at hG
    obtain ⟨es, rp, d, hp, h⟩ | ⟨u, h, _⟩ := commandExchange_cases .appCmd s
    swap
    · rw [h] at hx; cases hx
    rw [h] at hx
    cases hx
    obtain rfl : es.events .appCmd = e := List.reverse_injective (List.append_cancel_right hev)
    obtain hG | ⟨fill, b, post, rfl, hp'⟩ := hG
    · exact (noRequest_joins.append _ _ hn hG).prefixed
    intro pre post' b' hh
    have hsplit : es.events .appCmd ++ Event.cs true :: .x 0xFF#8 fill :: .x 0x69#8 b :: post =
        (es.events .appCmd ++ [Event.cs true, .x 0xFF#8 fill]) ++ .x 0x69#8 b :: post := by simp
    rw [hsplit, List.append_eq_append_iff] at hh
    have hfst : NoRequest (es.events .appCmd ++ [Event.cs true, .x 0xFF#8 fill]) :=
      noRequest_joins.append _ _ hn (noRequest_joins.append [_] [_] (noRequest_cs _) (noRequest_x (by decide) _))
    obtain ⟨l, rfl, hl⟩ | ⟨l, hl', hl⟩ := hh
    · cases l with
      | nil => exact ⟨[], es, fill, hp, h5, by simp⟩
      | cons v l =>
        injection hl with h6 h7
        exact absurd (by rw [h7]; simp) (hp' b')
    · cases l with
      | nil => exact ⟨[], es, fill, hp, h5, by simpa using hl'.symm⟩
      | cons v l =>
        injection hl with h6 h7
        subst h6
        exact absurd (by rw [hl']; simp) (hfst b')

/-! ## INIT and every instruction -/

theorem traced_prefixed (c : RomCmd) (hc : c ≠ .opCond) : Traced Prefixed (commandExchange c) := by
  refine traced_mono ?_ (traced_exchange c)
  rintro e (h | ⟨fill, b, post, rfl, h⟩)
  · exact h.prefixed
  · exact (noRequest_joins.append [_] _ (noRequest_cs _) (noRequest_joins.append [_] _ (noRequest_x (by decide) _)
      (noRequest_joins.append [_] _ (noRequest_x (by cases c <;> first | decide | exact absurd rfl hc) _) h))).prefixed

theorem NoRequest.traced {f : State → Run α} (h : Traced NoRequest f) : Traced Prefixed f :=
  traced_mono (fun _ h => h.prefixed) h

theorem traced_answered {a : State → α} {g : State → State} (hg : Writes g) (ha : ∀ s rp d, a (s.facing rp d) = a s) :
    Traced Prefixed (fun s => Run.ok (a s) (g s)) := traced_ok prefixed_joins hg ha

theorem traced_fill (n : Nat) : Traced Prefixed (fillLoop n) := by
  induction n with
  | zero => exact traced_answered (a := fun _ => ()) writes_id (fun _ _ _ => rfl)
  | succ n ih =>
    exact traced_andThen prefixed_joins (NoRequest.traced traced_idle) fun _ =>
      traced_pre prefixed_joins (g := State.countFill) ⟨fun _ => rfl, fun _ => rfl, fun _ _ _ => rfl⟩ ih

theorem traced_idleLoop (n : Nat) : Traced Prefixed (idleLoop n) := by
  induction n with
  | zero => exact traced_answered (a := fun _ => false) writes_id (fun _ _ _ => rfl)
  | succ n ih =>
    refine traced_andThen prefixed_joins (traced_pre prefixed_joins (g := State.countIdle)
      ⟨fun _ => rfl, fun _ => rfl, fun _ _ _ => rfl⟩ (traced_prefixed .goIdle (by decide))) fun r1 => ?_
    exact traced_ite (p := fun _ => r1 = 0x01#8) (fun _ _ _ => Iff.rfl)
      (traced_answered (a := fun _ => true) writes_id (fun _ _ _ => rfl)) ih

theorem traced_begin : Traced Prefixed (fun s => Run.ok () s.beginAttempt) := by
  refine traced_events (fun s => if s.negCnt = 0#7 then [] else [.w .retry]) (fun s => ?_) (fun s => ?_) (fun s => ?_)
    (fun s => ?_) (fun s rp d => ?_) (fun _ _ _ => rfl)
  · split
    · exact noRequest_joins.nil.prefixed
    · exact (noRequest_w _).prefixed
  · split <;> rfl
  · unfold State.beginAttempt; split <;> rfl
  · unfold State.beginAttempt; split <;> rfl
  · unfold State.beginAttempt; split <;> rfl

theorem traced_negLoop (n : Nat) : Traced Prefixed (negLoop n) := by
  induction n with
  | zero => exact traced_answered (a := fun _ => some InitOutcome.opCondTimeout) writes_id (fun _ _ _ => rfl)
  | succ n ih =>
    refine traced_andThen prefixed_joins (f := fun s => negAttempt s.beginAttempt)
      (traced_andThen prefixed_joins (f := fun s => .ok () s.beginAttempt) traced_begin fun _ => traced_attempt) fun r => ?_
    exact traced_ite (p := fun _ => r.2.1 = 0x00#8) (fun _ _ _ => Iff.rfl)
      (traced_answered (a := fun _ => none) writes_id (fun _ _ _ => rfl)) ih

theorem writes_ocr (r1 : Byte) : Writes (fun s => ocrCheck r1 (s.enter .readOcr)) := by
  refine ⟨fun s => ?_, fun s => ?_, fun s rp d => ?_⟩ <;> unfold ocrCheck <;>
    simp only [State.enter] <;> split <;> first | rfl | (split <;> first | rfl | (split <;> rfl))

theorem writes_fail (x : InitOutcome) : Writes (State.failInit x) := ⟨fun _ => rfl, fun _ => rfl, fun _ _ _ => rfl⟩

theorem writes_enter (x : InitState) : Writes (State.enter x) := ⟨fun _ => rfl, fun _ => rfl, fun _ _ _ => rfl⟩

theorem traced_powerUp : Traced Prefixed powerUp :=
  traced_andThen prefixed_joins (f := fun s => .ok () { (s.setCs false).delay .settle with fillCnt := 0#4 })
    (traced_events (fun _ => [.cs false, .w .settle]) (fun _ => (noRequest_joins.append [_] [_] (noRequest_cs _)
      (noRequest_w _)).prefixed) (fun _ => rfl) (fun _ => rfl) (fun _ => rfl) (fun _ _ _ => rfl) (a := fun _ => ())
      (fun _ _ _ => rfl)) (fun _ => traced_fill _)

theorem traced_init : Traced Prefixed initProc := by
  have hend : ∀ x, Traced Prefixed (fun s => Run.ok () (State.failInit x s)) :=
    fun x => traced_answered (a := fun _ => ()) (writes_fail x) (fun _ _ _ => rfl)
  refine traced_andThen prefixed_joins (f := fun s => powerUp s.startInit) (traced_pre prefixed_joins (g := State.startInit)
    ⟨fun _ => rfl, fun _ => rfl, fun _ _ _ => rfl⟩ traced_powerUp) fun _ => ?_
  refine traced_andThen prefixed_joins (f := goIdleLoop) (traced_pre prefixed_joins (g := fun s => { s with idleCnt := 0#4 })
    ⟨fun _ => rfl, fun _ => rfl, fun _ _ _ => rfl⟩ (traced_idleLoop _)) fun ok => ?_
  refine traced_ite (p := fun _ => ok = true) (fun _ _ _ => Iff.rfl) (traced_pre prefixed_joins (writes_enter .idle) ?_) (hend _)
  refine traced_andThen prefixed_joins (f := ifCheck) (traced_andThen prefixed_joins (traced_prefixed .ifCond (by decide)) fun r1 =>
    traced_answered (a := fun s => ifVerdict r1 s.resp.b4) writes_id (fun _ _ _ => rfl)) fun v => ?_
  cases v with
  | some r => exact hend r
  | none =>
    refine traced_pre prefixed_joins (writes_enter .interfaceCheck) ?_
    refine traced_andThen prefixed_joins (f := negotiate) (traced_pre prefixed_joins (g := fun s => { s with negCnt := 0#7 })
      ⟨fun _ => rfl, fun _ => rfl, fun _ _ _ => rfl⟩ (traced_negLoop _)) fun v => ?_
    cases v with
    | some r => exact hend r
    | none =>
      refine traced_pre prefixed_joins (writes_enter .negotiating) ?_
      exact traced_andThen prefixed_joins (traced_prefixed .readOcr (by decide)) fun r1 =>
        traced_answered (a := fun _ => ()) (writes_ocr r1) (fun _ _ _ => rfl)

/-- Every instruction's procedure. -/
theorem traced_procOf (i : Instr) : Traced Prefixed (procOf i) := by
  have pure : ∀ g : State → State, Writes g → Traced Prefixed (fun s => Run.ok () (g s)) :=
    fun g hg => traced_answered (a := fun _ => ()) hg (fun _ _ _ => rfl)
  have exch : ∀ (c : RomCmd) (g : Byte → State → State), c ≠ .opCond → (∀ r, Writes (g r)) →
      Traced Prefixed (fun s => (commandExchange c s).andThen fun r s => Run.ok () (g r s)) :=
    fun c g hc hg => traced_andThen prefixed_joins (traced_prefixed c hc) fun r => pure _ (hg r)
  cases i
  · exact pure (fun s => (s.storeFrame _).writeResult _) ⟨fun _ => rfl, fun _ => rfl, fun _ _ _ => rfl⟩
  · exact traced_andThen prefixed_joins (NoRequest.traced traced_readR1) fun r =>
      pure (fun s => (s.storeR1Form r).writeResult _) ⟨fun _ => rfl, fun _ => rfl, fun _ _ _ => rfl⟩
  · exact traced_andThen prefixed_joins (NoRequest.traced (traced_readR3R7 _)) fun r =>
      pure (fun s => s.writePack5) ⟨fun _ => rfl, fun _ => rfl, fun _ _ _ => rfl⟩
  · exact pure (fun s => s.writeResult _) ⟨fun _ => rfl, fun _ => rfl, fun _ _ _ => rfl⟩
  · exact pure (fun s => s.writeResult _) ⟨fun _ => rfl, fun _ => rfl, fun _ _ _ => rfl⟩
  · exact pure (fun s => s.writeResult _) ⟨fun _ => rfl, fun _ => rfl, fun _ _ _ => rfl⟩
  · exact exch .goIdle (fun r s => s.writeResult (r.setWidth 64)) (by decide) fun _ => ⟨fun _ => rfl, fun _ => rfl, fun _ _ _ => rfl⟩
  · exact exch .ifCond (fun _ s => s.writePack5) (by decide) fun _ => ⟨fun _ => rfl, fun _ => rfl, fun _ _ _ => rfl⟩
  · exact traced_andThen prefixed_joins traced_attempt fun r =>
      pure (fun s => s.writeResult (attemptResult r.2.2 r.1 r.2.1)) ⟨fun _ => rfl, fun _ => rfl, fun _ _ _ => rfl⟩
  · exact exch .readOcr (fun _ s => s.writePack5) (by decide) fun _ => ⟨fun _ => rfl, fun _ => rfl, fun _ _ _ => rfl⟩
  · exact traced_init
  · exact exch .goIdle (fun _ s => s) (by decide) fun _ => writes_id
  · exact exch .ifCond (fun _ s => s) (by decide) fun _ => writes_id
  · exact exch .appCmd (fun _ s => s) (by decide) fun _ => writes_id
  · exact traced_andThen prefixed_joins traced_attempt fun r => pure (fun s => s) writes_id
  · exact exch .readOcr (fun _ s => s) (by decide) fun _ => writes_id

end Sys2Proof.Machine
end

