-- ==== Sys2Proof/Laws/TwoRuns.lean ====
section
/-! SUPPORT. Laws/TwoRuns.lean: two runs of a procedure from states that agree on what the procedure reads end alike
(44_init_fsm.md R196). -/

namespace Sys2Proof.Machine

variable {b1 b2 : List Event}

/-- A view of the state that the transport's answers pass through. -/
structure View (v : State → State) : Prop where
  upd : ∀ s rp dr ev, v { s with replies := rp, draws := dr, events := ev } = { v s with replies := rp, draws := dr }
  rep : ∀ s, (v s).replies = s.replies
  dr : ∀ s, (v s).draws = s.draws

/-- Two states have the same view, and have made the same events since `b1` and `b2`. -/
def Same (v : State → State) (b1 b2 : List Event) (s t : State) : Prop :=
  v s = v t ∧ ∃ evs, s.events = evs ++ b1 ∧ t.events = evs ++ b2
/-- Two runs both complete with the same answer, or both abort. -/
def Runs {α} (Q : State → State → Prop) : Run α → Run α → Prop
  | .ok a s, .ok b t => a = b ∧ Q s t
  | .abort _, .abort _ => True
  | _, _ => False

theorem runs_then {α β} {Q Q' : State → State → Prop} {r1 r2 : Run α} {f : α → State → Run β} (h : Runs Q r1 r2)
   (hf : ∀ a s t, Q s t → Runs Q' (f a s) (f a t)) : Runs Q' (r1.andThen f) (r2.andThen f) := by
  cases r1 <;> cases r2 <;> simp only [Runs] at h
  · obtain ⟨rfl, h⟩ := h; exact hf _ _ _ h
  · trivial

theorem same_map {v w : State → State} {b1 b2} {g h : State → State} (hv : ∀ s, w (g s) = h (v s)) {l : List Event} (he : ∀ s, (g s).events = l ++ s.events) {s t} (hR : Same v b1 b2 s t) : Same w b1 b2 (g s) (g t) := by
  obtain ⟨h1, evs, h2, h3⟩ := hR
  exact ⟨by rw [hv, hv, h1], l ++ evs, by rw [he, h2, List.append_assoc], by rw [he, h3, List.append_assoc]⟩

theorem runs_xchg {v} (hv : View v) {b1 b2} (o) {s t} (h : Same v b1 b2 s t) : Runs (Same v b1 b2) (xchg o s) (xchg o t) := by
  obtain ⟨h1, evs, h2, h3⟩ := h
  have hr : s.replies = t.replies := by rw [← hv.rep s, h1, hv.rep]
  have hd : s.draws = t.draws := by rw [← hv.dr s, h1, hv.dr]
  have go : ∀ rp dr b, Same v b1 b2 { s with replies := rp, draws := dr, events := .x o b :: s.events } { t with replies := rp, draws := dr, events := .x o b :: t.events } := by
    intro rp dr b
    exact ⟨(hv.upd ..).trans ((congrArg (fun u : State => { u with replies := rp, draws := dr }) h1).trans (hv.upd ..).symm), .x o b :: evs, by simp [h2], by simp [h3]⟩
  have hx' : ∀ u : State, xchg o u = (match u.replies with
     | .byte b :: rest => .ok b { u with replies := rest, draws := u.draws, events := .x o b :: u.events }
     | .fault :: rest => .abort { u with replies := rest, draws := u.draws, eng := .faulted, opStatus := .faulted, seq := none }
     | [] => match Config.freeReply u.draws with
       | .byte b => .ok b { u with replies := [], draws := u.draws + 1, events := .x o b :: u.events }
       | .fault => .abort { u with replies := [], draws := u.draws + 1, eng := .faulted, opStatus := .faulted, seq := none }) := by
    intro u
    cases hu : u.replies with
    | cons r rest =>
      cases r with
      | byte b => exact xchg_byte o hu
      | fault => exact xchg_fault o hu
    | nil =>
      unfold xchg State.drawReply
      rw [hu]
      cases hf : Config.freeReply u.draws <;> simp [State.emit, State.takeTransportFault]
  rw [hx', hx', ← hr, ← hd]
  cases s.replies with
  | cons r rest =>
    cases r with
    | byte b => exact ⟨rfl, go ..⟩
    | fault => trivial
  | nil =>
    simp only
    cases Config.freeReply s.draws with
    | byte b => exact ⟨rfl, go ..⟩
    | fault => trivial

/-! Views: each erases the registers that the rest of INIT does not read: at its start (`viewAll`), after the first `SetCS`, the
frame, the poll, each response byte, the exchange, and INIT itself (`viewEnd`).  -/
def viewAll (s : State) : State :=
  { s with moves := [], seq := none, opStatus := .none, result := ResultReg.undef, rvalid := 0, events := [], cs := false, frame := none, resp := Resp.undef, rtag := false, pollCnt := 0 }

def viewSelected (s : State) : State :=
  { s with moves := [], seq := none, opStatus := .none, result := ResultReg.undef, rvalid := 0, events := [], frame := none, resp := Resp.undef, rtag := false, pollCnt := 0 }

def viewFramed (s : State) : State :=
  { s with moves := [], seq := none, opStatus := .none, result := ResultReg.undef, rvalid := 0, events := [], resp := Resp.undef, rtag := false, pollCnt := 0 }

def viewPolled (s : State) : State :=
  { s with moves := [], seq := none, opStatus := .none, result := ResultReg.undef, rvalid := 0, events := [], resp := Resp.undef, rtag := false }

def viewByte0 (s : State) : State :=
  { s with moves := [], seq := none, opStatus := .none, result := ResultReg.undef, rvalid := 0, events := [], resp := ⟨s.resp.b0, none, none, none, none⟩ }

def viewByte1 (s : State) : State :=
  { s with moves := [], seq := none, opStatus := .none, result := ResultReg.undef, rvalid := 0, events := [], resp := ⟨s.resp.b0, s.resp.b1, none, none, none⟩ }

def viewByte2 (s : State) : State :=
  { s with moves := [], seq := none, opStatus := .none, result := ResultReg.undef, rvalid := 0, events := [], resp := ⟨s.resp.b0, s.resp.b1, s.resp.b2, none, none⟩ }

def viewByte3 (s : State) : State :=
  { s with moves := [], seq := none, opStatus := .none, result := ResultReg.undef, rvalid := 0, events := [], resp := ⟨s.resp.b0, s.resp.b1, s.resp.b2, s.resp.b3, none⟩ }

def viewDone (s : State) : State :=
  { s with moves := [], seq := none, opStatus := .none, result := ResultReg.undef, rvalid := 0, events := [] }

def viewEnd (s : State) : State :=
  { s with moves := [], seq := none, opStatus := .none, events := [] }

theorem viewAll_view : View viewAll := ⟨fun _ _ _ _ => rfl, fun _ => rfl, fun _ => rfl⟩

theorem viewSelected_view : View viewSelected := ⟨fun _ _ _ _ => rfl, fun _ => rfl, fun _ => rfl⟩

theorem viewFramed_view : View viewFramed := ⟨fun _ _ _ _ => rfl, fun _ => rfl, fun _ => rfl⟩

theorem viewPolled_view : View viewPolled := ⟨fun _ _ _ _ => rfl, fun _ => rfl, fun _ => rfl⟩

theorem viewByte0_view : View viewByte0 := ⟨fun _ _ _ _ => rfl, fun _ => rfl, fun _ => rfl⟩

theorem viewByte1_view : View viewByte1 := ⟨fun _ _ _ _ => rfl, fun _ => rfl, fun _ => rfl⟩

theorem viewByte2_view : View viewByte2 := ⟨fun _ _ _ _ => rfl, fun _ => rfl, fun _ => rfl⟩

theorem viewByte3_view : View viewByte3 := ⟨fun _ _ _ _ => rfl, fun _ => rfl, fun _ => rfl⟩

theorem viewDone_view : View viewDone := ⟨fun _ _ _ _ => rfl, fun _ => rfl, fun _ => rfl⟩

theorem runs_send {v} (hv : View v) (l) : ∀ s t, Same v b1 b2 s t → Runs (Same v b1 b2) (sendBytes l s) (sendBytes l t) := by
  induction l with
  | nil => exact fun s t h => ⟨rfl, h⟩
  | cons b l ih => exact fun s t h => runs_then (runs_xchg hv b h) (fun _ s t h => ih s t h)

theorem runs_poll (n) : ∀ s t, Same viewPolled b1 b2 s t → Runs (Same viewPolled b1 b2) (pollLoop n s) (pollLoop n t) := by
  have hc : ∀ s t, Same viewPolled b1 b2 s t → Same viewPolled b1 b2 s.countPoll t.countPoll := fun s t h => same_map (v := viewPolled) (g := State.countPoll) (h := State.countPoll) (l := []) (fun _ => rfl) (fun _ => rfl) h
  induction n with
  | zero => exact fun s t h => ⟨rfl, h⟩
  | succ n ih =>
    refine fun s t h => runs_then (runs_xchg viewPolled_view _ h) (fun b s t h => ?_)
    by_cases hb : b ≠ Config.idleFill
    · rw [if_pos hb, if_pos hb]; exact ⟨rfl, hc s t h⟩
    · rw [if_neg hb, if_neg hb]; exact ih _ _ (hc s t h)

theorem runs_store (c : RomCmd) (r1) (s t)
    (h : Same viewPolled b1 b2 s t) : Runs (Same viewDone b1 b2) (storeResponse c r1 s) (storeResponse c r1 t) := by
  unfold storeResponse
  by_cases hc : romShort c
  · rw [if_pos hc, if_pos hc]
    exact ⟨rfl, same_map (v := viewPolled) (g := State.storeR1Form r1) (h := State.storeR1Form r1) (l := []) (fun _ => rfl) (fun _ => rfl) h⟩
  · rw [if_neg hc, if_neg hc]
    unfold readR3R7
    by_cases hr : r1 > 0x01#8
    · rw [if_pos hr, if_pos hr]
      exact ⟨rfl, same_map (v := viewPolled) (g := fun s => (s.openResp r1).undefPayload) (h := fun s => (s.openResp r1).undefPayload) (l := []) (fun _ => rfl) (fun _ => rfl) h⟩
    · rw [if_neg hr, if_neg hr]
      unfold readPayload
      refine runs_then (runs_xchg viewByte0_view _ (same_map (v := viewPolled) (g := State.openResp r1) (h := State.openResp r1) (l := []) (fun _ => rfl) (fun _ => rfl) h)) (fun b s t h => ?_)
      refine runs_then (runs_xchg viewByte1_view _ (same_map (v := viewByte0) (g := State.storeResp1 b) (h := State.storeResp1 b) (l := []) (fun _ => rfl) (fun _ => rfl) h)) (fun b s t h => ?_)
      refine runs_then (runs_xchg viewByte2_view _ (same_map (v := viewByte1) (g := State.storeResp2 b) (h := State.storeResp2 b) (l := []) (fun _ => rfl) (fun _ => rfl) h)) (fun b s t h => ?_)
      refine runs_then (runs_xchg viewByte3_view _ (same_map (v := viewByte2) (g := State.storeResp3 b) (h := State.storeResp3 b) (l := []) (fun _ => rfl) (fun _ => rfl) h)) (fun b s t h => ?_)
      exact ⟨rfl, same_map (v := viewByte3) (g := State.storeResp4 b) (h := State.storeResp4 b) (l := []) (fun _ => rfl) (fun _ => rfl) h⟩

theorem runs_exch (c : RomCmd) (s t)
    (h : Same viewAll b1 b2 s t) : Runs (Same viewDone b1 b2) (commandExchange c s) (commandExchange c t) := by
  unfold commandExchange performCommand
  refine runs_then (runs_xchg viewSelected_view _ (same_map (v := viewAll) (g := State.setCs true) (h := fun s => { s with cs := true }) (l := [.cs true]) (fun _ => rfl) (fun _ => rfl) h)) (fun b s t h => ?_)
  refine runs_then (Q := Same viewDone b1 b2) ?_ (fun r1 s t h => ?_)
  · refine runs_then (runs_send viewFramed_view _ _ _ (same_map (v := viewSelected) (g := State.storeFrame (romFrame c)) (h := State.storeFrame (romFrame c)) (l := []) (fun _ => rfl) (fun _ => rfl) h)) (fun b s t h => ?_)
    refine runs_then (runs_poll _ _ _ (same_map (v := viewFramed) (g := fun s => { s with pollCnt := 0#4 }) (h := fun s => { s with pollCnt := 0#4 }) (l := []) (fun _ => rfl) (fun _ => rfl) h)) (fun r1 s t h => ?_)
    exact runs_then (runs_store c r1 s t h) (fun _ s t h => ⟨rfl, h⟩)
  · refine runs_then (runs_xchg viewDone_view _ h) (fun b s t h => ?_)
    refine runs_then (runs_xchg viewDone_view _ (same_map (v := viewDone) (g := State.setCs false) (h := fun s => { s with cs := false }) (l := [.cs false]) (fun _ => rfl) (fun _ => rfl) h)) (fun b s t h => ⟨rfl, h⟩)

theorem same_weaken {s t} (h : Same viewDone b1 b2 s t) : Same viewAll b1 b2 s t := same_map (v := viewDone) (g := id) (h := viewAll) (l := []) (fun _ => rfl) (fun _ => rfl) h

theorem runs_att (s t) (h : Same viewAll b1 b2 s t) : Runs (Same viewDone b1 b2) (negAttempt s) (negAttempt t) := by
  have hc : ∀ b s t, Same viewDone b1 b2 s t → Same viewDone b1 b2 (State.storeCaptured b s) (State.storeCaptured b t) := fun b s t h => same_map (v := viewDone) (g := State.storeCaptured b) (h := State.storeCaptured b) (l := []) (fun _ => rfl) (fun _ => rfl) h
  refine runs_then (runs_exch .appCmd s t h) (fun s55 s t h => ?_)
  by_cases h5 : s55 < 0x02#8
  · rw [if_pos h5, if_pos h5]
    exact runs_then (runs_exch .opCond s t (same_weaken h)) (fun r1 s t h => ⟨rfl, hc r1 s t h⟩)
  · rw [if_neg h5, if_neg h5]; exact ⟨rfl, hc s55 s t h⟩

theorem runs_fill (n) : ∀ s t, Same viewAll b1 b2 s t → Runs (Same viewAll b1 b2) (fillLoop n s) (fillLoop n t) := by
  induction n with
  | zero => exact fun s t h => ⟨rfl, h⟩
  | succ n ih => exact fun s t h => runs_then (runs_xchg viewAll_view _ h) (fun b s t h => ih _ _ (same_map (v := viewAll) (g := State.countFill) (h := State.countFill) (l := []) (fun _ => rfl) (fun _ => rfl) h))

theorem runs_idle (n) : ∀ s t, Same viewDone b1 b2 s t → Runs (Same viewDone b1 b2) (idleLoop n s) (idleLoop n t) := by
  induction n with
  | zero => exact fun s t h => ⟨rfl, h⟩
  | succ n ih =>
    refine fun s t h => runs_then (runs_exch .goIdle _ _ (same_weaken (same_map (v := viewDone) (g := State.countIdle) (h := State.countIdle) (l := []) (fun _ => rfl) (fun _ => rfl) h))) (fun r1 s t h => ?_)
    by_cases h1 : r1 = 0x01#8
    · rw [if_pos h1, if_pos h1]; exact ⟨rfl, h⟩
    · rw [if_neg h1, if_neg h1]; exact ih _ _ h

theorem runs_idle0 (n) : ∀ s t, Same viewAll b1 b2 s t → Runs (Same viewDone b1 b2) (idleLoop (n + 1) s) (idleLoop (n + 1) t) := by
    refine fun s t h => runs_then (runs_exch .goIdle _ _ (same_map (v := viewAll) (g := State.countIdle) (h := State.countIdle) (l := []) (fun _ => rfl) (fun _ => rfl) h)) (fun r1 s t h => ?_)
    by_cases h1 : r1 = 0x01#8
    · rw [if_pos h1, if_pos h1]; exact ⟨rfl, h⟩
    · rw [if_neg h1, if_neg h1]; exact runs_idle n _ _ h

theorem same_begin {s t} (h : Same viewDone b1 b2 s t) : Same viewDone b1 b2 s.beginAttempt t.beginAttempt := by
  have hn : s.negCnt = t.negCnt := (congrArg State.negCnt h.1 : (viewDone s).negCnt = _)
  unfold State.beginAttempt
  rw [← hn]
  by_cases h0 : s.negCnt = 0#7
  · rw [if_pos h0, if_pos h0]
    exact same_map (v := viewDone) (g := fun s' => { s' with negCnt := s.negCnt + 1#7 }) (h := fun s' => { s' with negCnt := s.negCnt + 1#7 }) (l := []) (fun _ => rfl) (fun _ => rfl) h
  · rw [if_neg h0, if_neg h0]
    exact same_map (v := viewDone) (g := fun s' => { s'.delay .retry with negCnt := s.negCnt + 1#7 }) (h := fun s' => { s' with negCnt := s.negCnt + 1#7 }) (l := [.w .retry]) (fun _ => rfl) (fun _ => rfl) h

theorem runs_neg (n) : ∀ s t, Same viewDone b1 b2 s t → Runs (Same viewDone b1 b2) (negLoop n s) (negLoop n t) := by
  induction n with
  | zero => exact fun s t h => ⟨rfl, h⟩
  | succ n ih =>
    refine fun s t h => runs_then (runs_att _ _ (same_weaken (same_begin h))) (fun r s t h => ?_)
    by_cases h1 : r.2.1 = 0x00#8
    · rw [if_pos h1, if_pos h1]; exact ⟨rfl, h⟩
    · rw [if_neg h1, if_neg h1]; exact ih _ _ h

theorem same_fail (x) {s t} (h : Same viewDone b1 b2 s t) : Same viewEnd b1 b2 (s.failInit x) (t.failInit x) :=
  same_map (v := viewDone) (g := State.failInit x) (h := fun s => viewEnd (State.failInit x s)) (l := []) (fun _ => rfl) (fun _ => rfl) h

theorem same_latch (x) {s t} (h : Same viewDone b1 b2 s t) : Same viewEnd b1 b2 (s.latchReady x) (t.latchReady x) :=
  same_map (v := viewDone) (g := State.latchReady x) (h := fun s => viewEnd (State.latchReady x s)) (l := []) (fun _ => rfl) (fun _ => rfl) h

theorem same_ocr (r1) {s t} (h : Same viewDone b1 b2 s t) : Same viewEnd b1 b2 (ocrCheck r1 s) (ocrCheck r1 t) := by
  have hr : s.resp = t.resp := (congrArg State.resp h.1 : (viewDone s).resp = _)
  unfold ocrCheck
  rw [← hr]
  by_cases h1 : r1 > 0x01#8
  · rw [if_pos h1, if_pos h1]; exact same_fail _ h
  · rw [if_neg h1, if_neg h1]
    cases s.resp.payload with
    | none => exact same_fail _ h
    | some p =>
      simp only
      split
      · exact same_latch _ h
      · exact same_fail _ h

theorem same_enter (x) {s t} (h : Same viewDone b1 b2 s t) : Same viewDone b1 b2 (s.enter x) (t.enter x) := same_map (v := viewDone) (g := State.enter x) (h := State.enter x) (l := []) (fun _ => rfl) (fun _ => rfl) h

end Sys2Proof.Machine
end

