-- ==== Sys2Proof/Tests/Slice0.lean ====
section
/-! SUPPORT. Tests/Slice0.lean: the author's own tests. Expected values are those of spec/95_test_vectors.md (its section stands
beside each test), or are written out from the encodings; `witness_<Obligation>` shows a state and operands that meet the
hypotheses of that obligation, its clauses one by one. -/

namespace Sys2Proof.Tests

-- Keeps the number of threads that check the small tests side by side low.
set_option Elab.async false

open Sys2Proof.Machine

/-! ## Helpers -/

/-- The state after reset with a card that answers these bytes. -/
def card (ins : List Byte) : State := { State.reset with replies := ins.map Reply.byte }

/-- The same with the host's next move. -/
def withMove (m : Move) (ins : List Byte) : State := { card ins with moves := [m] }

def stateOf : Result → State
  | .next t => t
  | .fault _ => State.reset
  | .refused _ => State.reset

/-- The state after one step on a request word given to a card. -/
def ran (w : Nat) (ins : List Byte) : State := stateOf (step ((card ins).withFetchWord 64 w))

/-- The in-bytes of one exchange with this response; every other in-byte is `0xFF`. -/
def exchangeIns (response : List Byte) : List Byte := List.replicate 7 0xFF#8 ++ response ++ [0xFF#8, 0xFF#8]

/-- 1.5: the clean card. -/
def cleanIns : List Byte :=
  List.replicate 10 0xFF#8 ++ exchangeIns [0x01#8] ++ exchangeIns [0x01#8, 0x00#8, 0x00#8, 0x01#8, 0xAA#8] ++
  exchangeIns [0x01#8] ++ exchangeIns [0x00#8] ++ exchangeIns [0x00#8, 0xC0#8, 0xFF#8, 0x80#8, 0x00#8]

def moveOf : Except AsmError Move → Option Move
  | .ok m => some m
  | .error _ => none

/-- The move a line of text stands for. -/
def assembled (text : String) : Option Move := moveOf (assembleText text)

/-! ## WellFormed: an operand that does not fit is refused (R87) -/

theorem test_encode_idx_must_fit : AsmLine.wf (.encode 64 0 0) = false := by decide
theorem test_encode_arg_must_fit : AsmLine.wf (.encode 0 0x100000000 0) = false := by decide
theorem test_encode_crc_must_fit : AsmLine.wf (.encode 0 0 256) = false := by decide
theorem test_encode_largest_operands_fit : AsmLine.wf (.encode 63 0xFFFFFFFF 255) = true := by decide
theorem test_readR3R7_operand_must_fit : AsmLine.wf (.readR3R7 256) = false := by decide
theorem test_decodeR1_operand_must_fit : AsmLine.wf (.decodeR1 256) = false := by decide
theorem test_decodeR7_operands_must_fit :
    AsmLine.wf (.decodeR7 256 0 0 0) = false ∧ AsmLine.wf (.decodeR7 0 256 0 0) = false ∧
    AsmLine.wf (.decodeR7 0 0 256 0) = false ∧ AsmLine.wf (.decodeR7 0 0 0 256) = false := by decide
theorem test_decodeR3_operands_must_fit :
    AsmLine.wf (.decodeR3 256 0 0 0) = false ∧ AsmLine.wf (.decodeR3 0 256 0 0) = false ∧
    AsmLine.wf (.decodeR3 0 0 256 0) = false ∧ AsmLine.wf (.decodeR3 0 0 0 256) = false := by decide

/-! ## Decoding: a word of every row, and the refused words of 8.2 -/

theorem test_decode_encode :
    decodeTableWord 64 0x1000111234567800 = some (.encode 17#6 0x12345678#32 0x00#8) := by decide +kernel
theorem test_decode_encode_idx_bit5 :
    decodeTableWord 64 0x1000200000000000 = some (.encode 32#6 0#32 0#8) := by decide +kernel
theorem test_decode_readR1 : decodeTableWord 64 0x2000000000000000 = some .readR1 := by decide +kernel
theorem test_decode_readR3R7 : decodeTableWord 64 0x3000000000000080 = some (.readR3R7 0x80#8) := by decide +kernel
theorem test_decode_decodeR1 : decodeTableWord 64 0x400000000000007F = some (.decodeR1 0x7F#8) := by decide +kernel
theorem test_decode_decodeR7 : decodeTableWord 64 0x500000F0FF025500 = some (.decodeR7 0xF0FF0255#32) := by decide +kernel
theorem test_decode_decodeR3 : decodeTableWord 64 0x600000C0FF800000 = some (.decodeR3 0xC0FF8000#32) := by decide +kernel
theorem test_decode_goIdle : decodeTableWord 64 0x8000000000000000 = some .goIdle := by decide +kernel
theorem test_decode_sendIfCond : decodeTableWord 64 0x9000000000000000 = some .sendIfCond := by decide +kernel
theorem test_decode_appOpCond : decodeTableWord 64 0xA000000000000000 = some .appOpCond := by decide +kernel
theorem test_decode_readOcr : decodeTableWord 64 0xB000000000000000 = some .readOcr := by decide +kernel
theorem test_decode_init : decodeTableWord 64 0xC000000000000000 = some .init := by decide +kernel
theorem test_decode_cmd0 : decodeTableWord 48 0x400000000095 = some .cmd0 := by decide +kernel
theorem test_decode_cmd8 : decodeTableWord 48 0x48000001AA87 = some .cmd8 := by decide +kernel
theorem test_decode_cmd55 : decodeTableWord 48 0x770000000065 = some .cmd55 := by decide +kernel
theorem test_decode_acmd41 : decodeTableWord 48 0x694000000077 = some .acmd41 := by decide +kernel
theorem test_decode_cmd58 : decodeTableWord 48 0x7A00000000FD = some .cmd58 := by decide +kernel

/-- 8.2, every row: no instruction. -/
theorem test_refused_words :
    ∀ w ∈ [0x0000000000000000, 0x7000000000000000, 0xD000000000000000, 0xE000000000000000, 0xF000000000000000,
      0x0800000000000000, 0x1000400000000000, 0x1FFFC00000000000, 0x2000000000000001, 0x2000010000000000,
      0x3000000000000100, 0x4000000000000100, 0x5000000000000001, 0x5000010000000000, 0x6000000000000080,
      0x8000000000000001, 0xC000000000000100], decodeTableWord 64 w = none := by decide +kernel

/-- 8.2: STATUS becomes 04 from reset, with no event. -/
theorem test_refused_word_status :
    statusReg (ran 0x7000000000000000 []) = 0x04#8 ∧ (ran 0x7000000000000000 []).events = [] := by decide +kernel

/-! ## Assembly (R87, R88; section 10) -/

theorem test_assemble_encode :
    assembled "ENCODE 8, 0x000001AA, 0x87" = some (.request 0x100008000001AA87#64) := by decide +kernel
theorem test_assemble_encode_rom : assembled "ENCODE CMD8" = some (.request 0x100008000001AA87#64) := by decide +kernel
theorem test_assemble_decodeR3 :
    assembled "DECODE_R3 0xC0, 0xFF, 0x80, 0x00" = some (.request 0x600000C0FF800000#64) := by decide +kernel
theorem test_assemble_decodeR3_resp : assembled "DECODE_R3 resp" = some (.decodeResp .r3) := by decide +kernel
theorem test_assemble_refuses_wide : assembled "DECODE_R1 256" = none := by decide +kernel

/-! ## The instructions, one step each -/

/-- Section 2. -/
theorem test_encode_all_ones :
    (ran 0x10003FFFFFFFFFFF []).result = ResultReg.ofWord 0x7FFFFFFFFFFF#64 ∧ (ran 0x10003FFFFFFFFFFF []).rvalid = 0xFF#8 := by
  decide +kernel
/-- Section 2. -/
theorem test_encode_big_endian_argument :
    (ran 0x1000111234567800 []).result = ResultReg.ofWord 0x511234567801#64 ∧
    (ran 0x1000111234567800 []).frame = some ⟨0x51#8, 0x12#8, 0x34#8, 0x56#8, 0x78#8, 0x01#8⟩ := by decide +kernel

/-- Section 3, every row. -/
theorem test_crc7_rows :
    crcByte 0#6 0x00000000#32 = 0x95#8 ∧ crcByte 8#6 0x000001AA#32 = 0x87#8 ∧
    crcByte 55#6 0x00000000#32 = 0x65#8 ∧ crcByte 41#6 0x40000000#32 = 0x77#8 ∧
    crcByte 58#6 0x00000000#32 = 0xFD#8 ∧ crcByte 8#6 0x00000155#32 = 0x75#8 ∧
    crcByte 41#6 0x00000000#32 = 0xE5#8 ∧ crcByte 17#6 0x00000000#32 = 0x55#8 ∧
    crcByte 9#6 0x00000000#32 = 0xAF#8 ∧ crcByte 1#6 0x00000000#32 = 0xF9#8 ∧
    crcByte 16#6 0x00000200#32 = 0x15#8 ∧ crcByte 63#6 0xFFFFFFFF#32 = 0x19#8 ∧
    crcByte 0#6 0xFFFFFFFF#32 = 0xBF#8 := by decide +kernel

/-- Section 4: nine `FF`, and the tenth byte is never requested. -/
theorem test_readR1_nine_polls :
    (ran 0x2000000000000000 (List.replicate 9 0xFF#8 ++ [0x01#8])).result = ResultReg.ofWord 0xFF#64 ∧
    (ran 0x2000000000000000 (List.replicate 9 0xFF#8 ++ [0x01#8])).replies = [.byte 0x01#8] := by decide +kernel
/-- 9.1: a fault at call 3: two exchanges, STATUS 0A, `result` still UNDEF. -/
theorem test_readR1_fault :
    statusReg (stateOf (step (State.withFetchWord { State.reset with
      replies := [.byte 0xFF#8, .byte 0xFF#8, .fault] } 64 0x2000000000000000))) = 0x0A#8 ∧
    (stateOf (step (State.withFetchWord { State.reset with
      replies := [.byte 0xFF#8, .byte 0xFF#8, .fault] } 64 0x2000000000000000))).trace =
      [.x 0xFF#8 0xFF#8, .x 0xFF#8 0xFF#8] := by decide +kernel

/-- Section 5. -/
theorem test_readR3R7_four_bytes :
    (ran 0x3000000000000000 [0x12#8, 0x34#8, 0x56#8, 0x78#8]).result = ResultReg.ofWord 0x0012345678#64 ∧
    respvReg (ran 0x3000000000000000 [0x12#8, 0x34#8, 0x56#8, 0x78#8]) = 0x3F#8 := by decide +kernel
/-- Section 5. -/
theorem test_readR3R7_short_circuit :
    (ran 0x3000000000000002 [0x01#8]).rvalid = 0xF0#8 ∧ (ran 0x3000000000000002 [0x01#8]).result.b4 = some 0x02#8 ∧
    (ran 0x3000000000000002 [0x01#8]).events = [] ∧ respvReg (ran 0x3000000000000002 [0x01#8]) = 0x21#8 := by
  decide +kernel

/-- Section 6. -/
theorem test_decodeR1 :
    (ran 0x4000000000000005 []).result = ResultReg.ofWord 0x05#64 ∧
    statusFlags 0x05#8 = ⟨true, false, true, false, false, false, false, false⟩ ∧
    statusFlags 0x80#8 = ⟨false, false, false, false, false, false, false, true⟩ := by decide +kernel

/-- 7.1. -/
theorem test_decodeR7_version_and_voltage :
    (ran 0x500000F0FF025500 []).result = ResultReg.ofWord 0x551F#64 ∧
    (ran 0x5000002F001FFF00 []).result = ResultReg.ofWord 0xFF42#64 := by decide +kernel
/-- 7.1. -/
theorem test_decodeR7_two_voltage_bits :
    (ran 0x5000000000030000 []).result = ResultReg.ofWord 0x0040#64 ∧
    (ran 0x5000000000080000 []).result = ResultReg.ofWord 0x0030#64 := by decide +kernel

/-- 7.2: bands 0 and 8. -/
theorem test_decodeR3_bands :
    (ran 0x6000004000800000 []).result = ResultReg.ofWord 0x00107#64 ∧
    (ran 0x6000004080000000 []).result = ResultReg.ofWord 0x10007#64 := by decide +kernel
/-- 7.2: bit 7 alone is not power-up, and the window is decoded all the same. -/
theorem test_decodeR3_bit7_alone : (ran 0x60000080FF800000 []).result = ResultReg.ofWord 0x1FF00#64 := by decide +kernel

/-- 8.1: the trace of GO_IDLE with plan `FF 01`. -/
theorem test_goIdle_trace :
    (ran 0x8000000000000000 (exchangeIns [0xFF#8, 0x01#8])).trace =
      [.cs true, .x 0xFF#8 0xFF#8, .x 0x40#8 0xFF#8, .x 0x00#8 0xFF#8, .x 0x00#8 0xFF#8, .x 0x00#8 0xFF#8, .x 0x00#8 0xFF#8,
       .x 0x95#8 0xFF#8, .x 0xFF#8 0xFF#8, .x 0xFF#8 0x01#8, .x 0xFF#8 0xFF#8, .cs false, .x 0xFF#8 0xFF#8] := by
  decide +kernel

/-- 8.1. -/
theorem test_sendIfCond :
    (ran 0x9000000000000000 (exchangeIns [0x01#8, 0x00#8, 0x00#8, 0x01#8, 0xAA#8])).result =
      ResultReg.ofWord 0x01000001AA#64 ∧
    countX (ran 0x9000000000000000 (exchangeIns [0x01#8, 0x00#8, 0x00#8, 0x01#8, 0xAA#8])).events = 14 := by decide +kernel
/-- 8.1. -/
theorem test_sendIfCond_short :
    (ran 0x9000000000000000 (exchangeIns [0x05#8])).result =
      ⟨none, none, none, none, some 0x05#8, some 0#8, some 0#8, some 0#8⟩ ∧
    countX (ran 0x9000000000000000 (exchangeIns [0x05#8])).events = 10 := by decide +kernel

/-- 8.1. -/
theorem test_appOpCond_sent :
    (ran 0xA000000000000000 (exchangeIns [0x00#8] ++ exchangeIns [0x01#8])).result = ResultReg.ofWord 0x10001#64 := by
  decide +kernel
/-- 8.1. -/
theorem test_appOpCond_not_sent :
    (ran 0xA000000000000000 (exchangeIns [0x05#8])).result = ResultReg.ofWord 0x00505#64 ∧
    countCs (ran 0xA000000000000000 (exchangeIns [0x05#8])).events = 2 := by decide +kernel

/-- 8.1. -/
theorem test_readOcr :
    (ran 0xB000000000000000 (exchangeIns [0x00#8, 0xC0#8, 0xFF#8, 0x80#8, 0x00#8])).result =
      ResultReg.ofWord 0x00C0FF8000#64 := by decide +kernel

/-- 1.5: scenario D. -/
theorem test_init_scenario_d :
    (ran 0xC000000000000000 cleanIns).result = ResultReg.ofWord 0x1010FFF01#64 ∧
    statusReg (ran 0xC000000000000000 cleanIns) = 0x50#8 ∧
    (ocrinfoReg (ran 0xC000000000000000 cleanIns)).value = 0xFFF#64 ∧
    countX (ran 0xC000000000000000 cleanIns).events = 68 ∧ countCs (ran 0xC000000000000000 cleanIns).events = 11 := by
  decide +kernel
/-- Section 9, the row with four negotiation attempts. -/
theorem test_init_four_attempts :
    let ins := List.replicate 10 0xFF#8 ++ exchangeIns [0x01#8] ++
      exchangeIns [0x01#8, 0x00#8, 0x00#8, 0x01#8, 0xAA#8] ++ exchangeIns [0x05#8] ++
      exchangeIns [0x01#8] ++ exchangeIns [0x01#8] ++ exchangeIns [0x01#8] ++ exchangeIns [0x01#8] ++
      exchangeIns [0x01#8] ++ exchangeIns [0x00#8] ++ exchangeIns [0x00#8, 0xC0#8, 0xFF#8, 0x80#8, 0x00#8]
    (ran 0xC000000000000000 ins).result = ResultReg.ofWord 0x4010FFF01#64 ∧
    countX (ran 0xC000000000000000 ins).events = 118 ∧ countCs (ran 0xC000000000000000 ins).events = 21 ∧
    countW .retry (ran 0xC000000000000000 ins).events = 3 := by decide +kernel

/-- R105, R160: the frame of CMD8 given to the engine (log 3), with the response of 8.1; `op_status` stays as reset left it. -/
theorem test_cmd8_frame :
    (stateOf (step ((card (exchangeIns [0x01#8, 0x00#8, 0x00#8, 0x01#8, 0xAA#8])).withFetchWord 48 0x48000001AA87))).resp =
      ⟨some 0x01#8, some 0x00#8, some 0x00#8, some 0x01#8, some 0xAA#8⟩ ∧
    (stateOf (step ((card (exchangeIns [0x01#8, 0x00#8, 0x00#8, 0x01#8, 0xAA#8])).withFetchWord 48
      0x48000001AA87))).opStatus = .none := by decide +kernel
/-- R105: the other rows send their own frames. -/
theorem test_rom_frames_go_out :
    (outBytes (stateOf (exec .cmd0 (card (exchangeIns [0x01#8])))).trace).take 7 =
      [0xFF#8, 0x40#8, 0x00#8, 0x00#8, 0x00#8, 0x00#8, 0x95#8] ∧
    (outBytes (stateOf (exec .cmd55 (card (exchangeIns [0x01#8])))).trace).take 7 =
      [0xFF#8, 0x77#8, 0x00#8, 0x00#8, 0x00#8, 0x00#8, 0x65#8] ∧
    (outBytes (stateOf (exec .cmd58 (card (exchangeIns [0x05#8])))).trace).take 7 =
      [0xFF#8, 0x7A#8, 0x00#8, 0x00#8, 0x00#8, 0x00#8, 0xFD#8] := by decide +kernel

/-- R78: the request's frame goes out after its prefix and only when the prefix's status is below 2. -/
theorem test_acmd41_goes_out_after_its_prefix :
    (((outBytes (stateOf (exec .acmd41 (card (exchangeIns [0x01#8] ++ exchangeIns [0x00#8])))).trace).drop 10).take 7 =
      [0xFF#8, 0x69#8, 0x40#8, 0x00#8, 0x00#8, 0x00#8, 0x77#8]) ∧
    0x69#8 ∉ outBytes (stateOf (exec .acmd41 (card (exchangeIns [0x05#8])))).trace ∧
    (stateOf (exec .acmd41 (card (exchangeIns [0x05#8])))).captured = some 0x05#8 := by decide +kernel

/-- 9.1: INIT on the clean card, a fault at call 25, inside the bracket: STATUS 1A, chip select left asserted, 24 exchanges. -/
theorem test_init_fault_inside_the_bracket :
    let t := stateOf (step (State.withFetchWord { State.reset with replies := (cleanIns.take 24).map Reply.byte ++ [Reply.fault] } 64
      0xC000000000000000))
    statusReg t = 0x1A#8 ∧ t.outcome = .none ∧ t.cs = true ∧ countX t.events = 24 ∧ countCs t.events = 4 ∧
    t.resp.b0 = some 0x01#8 := by decide +kernel

/-- 9.1 and P4: after a fault every request leaves STATUS 0A; reset gives 0C. -/
theorem test_faulted_until_reset :
    let s := State.reset.takeTransportFault
    statusReg (stateOf (step (s.withFetchWord 64 0x1000000000000095))) = 0x0A#8 ∧
    statusReg (stateOf (step (s.withFetchWord 64 0x7000000000000000))) = 0x0A#8 ∧
    statusReg (stateOf (step { s with moves := [.rst] })) = 0x0C#8 := by decide +kernel

/-- R83: acceptance shows ENG 1 in STATUS, OPST still NONE. -/
theorem test_start_is_busy :
    statusReg (stateOf (step (withMove (.start 0x8000000000000000#64) []))) = 0x0D#8 ∧
    (stateOf (step (withMove (.start 0x8000000000000000#64) []))).seq = some .g0 := by decide +kernel

/-- R60, R180: while INIT is in flight the host cannot use INIT_STATE (a fault of its own), and can use ENG and OPST. -/
theorem test_init_state_in_flight :
    step { acceptAt .s0 0xC#4 State.reset with moves := [.read 0 0x70#64] } = .fault .undefConsumed ∧
    hostRead 0 (acceptAt .s0 0xC#4 State.reset) = some ⟨0x0D#64, 0x8F#64⟩ := ⟨rfl, rfl⟩

/-! ## Witnesses: the hypotheses of each obligation that has some, met together by one state and one choice of operands -/

/-- Modes of the engine, for statements that ask for one. -/
def busy : State := acceptAt .g0 0x8#4 State.reset
def initBusy : State := acceptAt .s0 0xC#4 State.reset
def faulted : State := State.reset.takeTransportFault

/-- Scripts: an answer at the first poll, and at the ninth. -/
def answer (r1 : Byte) (b1 b2 b3 b4 : Byte) : ExchangeScript := ⟨⟨0xFF#8, ⟨0, 0, 0, 0, 0, 0⟩, 0x55#8, 0xAA#8⟩, 0, r1, ⟨b1, b2, b3, b4⟩⟩
def lateAnswer (r1 : Byte) : ExchangeScript := ⟨⟨0xFF#8, ⟨0, 0, 0, 0, 0, 0⟩, 0x55#8, 0xAA#8⟩, 8, r1, ⟨0, 0, 0, 0⟩⟩
def attempt (captured : Byte) : AttemptScript := ⟨answer 0x01#8 0 0 0 0, answer captured 0 0 0 0⟩
def fill : List Byte := List.replicate 10 0xFF#8
def r7 : ExchangeScript := answer 0x01#8 0x00#8 0x00#8 0x01#8 0xAA#8

/-- An initialization script at the bounds: ten failed go-idle attempts, and so many failed negotiation attempts. -/
def script (negFails : Nat) (ocr : ExchangeScript) : InitScript where
  fill := fill
  idleFails := List.replicate 10 (lateAnswer 0xFF#8)
  idleOk := lateAnswer 0x01#8
  ifCond := r7
  negFails := List.replicate negFails (attempt 0x01#8)
  negOk := attempt 0x00#8
  ocr := ocr

/-- A state whose transport gives these answers next. -/
def answering (ins : List Byte) : State := { State.reset with replies := ins.map Reply.byte ++ [] }

theorem witness_EncodingADecodedWordGivesItBack :
    decode (.request 0x30000000000000FF#64) = .ok (.readR3R7 0xFF#8) ∧ decode (.frame 0x7A00000000FD#48) = .ok .cmd58 :=
  ⟨rfl, rfl⟩

theorem witness_RequestSelectsTheRowItMatches :
    (⟨"INIT", 0xC000000000000000#64, 0xFFFFFFFFFFFFFFFF#64⟩ : RequestRow) ∈ requestRows ∧
    decode (.request 0xC000000000000000#64) = .ok .init ∧ usesIdx .init = false ∧ usesArg .init = false ∧
    usesByte .init = false ∧
    RequestRow.selects ⟨"INIT", 0xC000000000000000#64, 0xFFFFFFFFFFFFFFFF#64⟩ 0xC000000000000000#64 = true :=
  ⟨by decide, rfl, rfl, rfl, rfl, by decide⟩

theorem witness_AStepRunsTheDecodedInstruction :
    (withMove (moveOfWord (.frame 0x400000000095#48)) []).moves = moveOfWord (.frame 0x400000000095#48) :: [] ∧
    decode (.frame 0x400000000095#48) = .ok .cmd0 ∧ decodeTableWord 48 0x400000000095 = some .cmd0 ∧
    decodeTableWord 64 0x8000000000000000 = some .goIdle :=
  ⟨rfl, rfl, by decide +kernel, by decide +kernel⟩

theorem witness_EveryInstructionRunsUnlessBusy :
    State.reset.eng ≠ .busy ∧ faulted.eng ≠ .busy ∧ busy.eng = .busy := by decide

theorem witness_UnmatchedRequestsOnlySetIllegal :
    State.reset.eng = .avail ∧ (∀ r ∈ requestRows, r.selects 0x2000000000000001#64 = false) ∧
    (withMove (.request 0x2000000000000001#64) []).eng = .avail ∧
    (withMove (.request 0x2000000000000001#64) []).moves = .request 0x2000000000000001#64 :: [] ∧
    (withMove (.start 0x2000000000000001#64) []).moves = .start 0x2000000000000001#64 :: [] := by decide

theorem witness_AcceptanceStartsTheProcedure :
    (withMove (.start 0x8000000000000000#64) []).moves = .start 0x8000000000000000#64 :: [] ∧
    (withMove (.start 0x8000000000000000#64) []).eng = .avail ∧ decode (.request 0x8000000000000000#64) = .ok .goIdle ∧
    (∀ r ∈ requestRows, r.selects 0x8000000000000001#64 = false) ∧
    ({ faulted with moves := [.start 0x8000000000000000#64] } : State).eng = .faulted ∧
    ({ busy with moves := [.start 0x8000000000000000#64] } : State).eng = .busy :=
  ⟨rfl, rfl, rfl, by decide, rfl, rfl⟩

theorem witness_FaultedIsQuiescentUntilReset :
    faulted.eng = .faulted ∧
    ({ faulted with moves := [.request 0x1000000000000095#64] } : State).moves = .request 0x1000000000000095#64 :: [] ∧
    (∃ t, step { faulted with moves := [.request 0x1000000000000095#64] } = .next t) ∧
    ({ faulted with moves := [.request 0x1000000000000095#64] } : State).moves.head? ≠ some .rst ∧
    (∃ t, step { faulted with moves := [.rst] } = .next t ∧ t.eng ≠ .faulted) :=
  ⟨rfl, rfl, ⟨_, rfl⟩, by decide, ⟨_, rfl, by decide⟩⟩

theorem witness_WhileBusyThereIsNoOtherRequest :
    busy.eng = .busy ∧ ({ busy with moves := [.romFrame (romFrame .goIdle).toWord] } : State).eng = .busy ∧
    ({ busy with moves := [.read 1 1#64] } : State).moves = .read 1 1#64 :: [] ∧
    ({ busy with moves := [.read 10 1#64] } : State).moves = .read 10 1#64 :: [] ∧
    ({ busy with moves := [.read 0 0x7F#64] } : State).moves = .read 0 0x7F#64 :: [] ∧ 0x7F#64 &&& 0xFF#64 = 0x7F#64 ∧
    busy.op ≠ some 0xC#4 ∧
    initBusy.eng = .busy ∧ initBusy.op = some 0xC#4 ∧ 0x8F#64 &&& 0xFF#64 = 0x8F#64 ∧ 0x8F#64 &&& 0x70#64 = 0#64 ∧
    0x10#64 &&& 0x70#64 ≠ 0#64 := by
  decide

theorem witness_ResetGivesEveryRegisterItsValue :
    ({ busy with moves := [.rst] } : State).moves = .rst :: [] ∧ faulted.eng = .faulted ∧
    (∃ t, step { faulted with moves := [.rst] } = .next t ∧ t.eng ≠ .faulted) :=
  ⟨rfl, rfl, ⟨_, rfl, by decide⟩⟩

theorem witness_NothingStartsByItself :
    State.reset.eng ≠ .busy ∧ State.reset.moves = [] ∧ faulted.eng ≠ .busy ∧ faulted.moves = [] := by decide

/-- EncodeAnswersItsFrame, DecodeR1AnswersTheFlags, DecodeR7AnswersTheFields, DecodeR3AnswersTheFields and the statements that
ask for mode AVAIL alone. -/
theorem witness_Avail : State.reset.eng = .avail := rfl

theorem witness_WindowBitsAreTheirBands : (0 : Nat) ≤ 8 ∧ (8 : Nat) ≤ 8 := by decide

theorem witness_ReadR1ReturnsTheByteThatStopsThePoll :
    (answering [0x00#8]).eng = .avail ∧ (answering [0x00#8]).replies = List.replicate 0 (.byte 0xFF#8) ++ .byte 0x00#8 :: [] ∧
    (0x00#8 ≠ 0xFF#8 ∨ 0 = 8) ∧
    (answering (List.replicate 9 0xFF#8)).replies = List.replicate 8 (.byte 0xFF#8) ++ .byte 0xFF#8 :: [] := by decide

theorem witness_ReadR1PollsBetweenOneAndNineTimes :
    ∃ t, (answering (List.replicate 9 0xFF#8)).eng = .avail ∧ exec .readR1 (answering (List.replicate 9 0xFF#8)) = .next t ∧
      t.eng = .avail :=
  ⟨_, rfl, rfl, rfl⟩

theorem witness_ReadR1FaultKeepsWhatWasDone :
    ({ State.reset with replies := [.fault] } : State).replies = List.replicate 0 (.byte 0xFF#8) ++ .fault :: [] ∧
    ({ State.reset with replies := List.replicate 8 (.byte 0xFF#8) ++ [.fault] } : State).replies =
      List.replicate 8 (.byte 0xFF#8) ++ .fault :: [] := by decide

theorem witness_ReadR3R7ShortCircuits : State.reset.eng = .avail ∧ 0x02#8 ≤ 0x02#8 ∧ 0x02#8 ≤ 0xFF#8 := by decide

theorem witness_ReadR3R7TakesFourBytesAsTheyCome :
    (answering [0xFF#8, 0xFF#8, 0xFF#8, 0xFF#8]).eng = .avail ∧ 0x01#8 ≤ 0x01#8 ∧ 0x00#8 ≤ 0x01#8 ∧
    (answering [0xFF#8, 0xFF#8, 0xFF#8, 0xFF#8]).replies =
      .byte 0xFF#8 :: .byte 0xFF#8 :: .byte 0xFF#8 :: .byte 0xFF#8 :: [] := by decide

theorem witness_ReadR3R7FaultKeepsTheBytesBefore :
    ({ State.reset with replies := [.byte 1#8, .byte 2#8, .byte 3#8, .fault] } : State).replies =
      [1#8, 2#8, 3#8].map Reply.byte ++ .fault :: [] ∧ [1#8, 2#8, 3#8].length ≤ 3 ∧ 0x01#8 ≤ 0x01#8 ∧
    ({ State.reset with replies := [.fault] } : State).replies = ([] : List Byte).map Reply.byte ++ .fault :: [] := by decide

/-- The statuses at both sides of the check for a payload, the last poll, and no response at all. -/
theorem witness_GoIdleAnswersTheStatus :
    Polled (answer 0x01#8 0 0 0 0).idle (answer 0x01#8 0 0 0 0).r1 = true ∧
    Polled (lateAnswer 0xFF#8).idle (lateAnswer 0xFF#8).r1 = true ∧
    (answering ((lateAnswer 0xFF#8).ins .goIdle)).eng = .avail ∧
    (answering ((lateAnswer 0xFF#8).ins .goIdle)).Answers ((lateAnswer 0xFF#8).ins .goIdle) [] :=
  ⟨rfl, rfl, rfl, rfl⟩

theorem witness_SendIfCondAnswersTheResponse :
    Polled r7.idle r7.r1 = true ∧ (answering (r7.ins .ifCond)).eng = .avail ∧
    (answering (r7.ins .ifCond)).Answers (r7.ins .ifCond) [] ∧ Polled (answer 0x02#8 0 0 0 0).idle 0x02#8 = true ∧
    (answering ((answer 0x02#8 0 0 0 0).ins .ifCond)).Answers ((answer 0x02#8 0 0 0 0).ins .ifCond) [] :=
  ⟨rfl, rfl, rfl, rfl, rfl⟩

theorem witness_ReadOcrAnswersTheResponse :
    Polled r7.idle r7.r1 = true ∧ (answering (r7.ins .readOcr)).eng = .avail ∧
    (answering (r7.ins .readOcr)).Answers (r7.ins .readOcr) [] ∧ Polled (answer 0x02#8 0 0 0 0).idle 0x02#8 = true ∧
    (answering ((answer 0x02#8 0 0 0 0).ins .readOcr)).Answers ((answer 0x02#8 0 0 0 0).ins .readOcr) [] :=
  ⟨rfl, rfl, rfl, rfl, rfl⟩

theorem witness_AppOpCondSendsTheRequestAfterAGoodPrefix :
    let a := answer 0x01#8 0 0 0 0
    let r := lateAnswer 0xFF#8
    (answering (a.ins .appCmd ++ r.ins .opCond)).eng = .avail ∧ a.r1 < 0x02#8 ∧ Polled a.idle a.r1 = true ∧
    Polled r.idle r.r1 = true ∧ (answering (a.ins .appCmd ++ r.ins .opCond)).Answers (a.ins .appCmd ++ r.ins .opCond) [] :=
  ⟨rfl, by decide, rfl, rfl, rfl⟩

theorem witness_AppOpCondSendsNoRequestAfterABadPrefix :
    let a := answer 0x02#8 0 0 0 0
    (answering (a.ins .appCmd)).eng = .avail ∧ 0x02#8 ≤ a.r1 ∧ Polled a.idle a.r1 = true ∧
    (answering (a.ins .appCmd)).Answers (a.ins .appCmd) [] :=
  ⟨rfl, by decide, rfl, rfl⟩

/-- RomFramesRunTheirExchange, its first clause; the other two by the witnesses of APP_OP_COND. -/
theorem witness_RomFramesRunTheirExchange :
    RomCmd.appCmd ≠ .opCond ∧ (answering (r7.ins .appCmd)).eng = .avail ∧ Polled r7.idle r7.r1 = true ∧
    (answering (r7.ins .appCmd)).Answers (r7.ins .appCmd) [] :=
  ⟨by decide, rfl, rfl, rfl⟩

/-- TheRequestFollowsItsPrefix: a run whose trace has the request's first frame byte. -/
theorem witness_TheRequestFollowsItsPrefix :
    let s := answering (AttemptScript.ins (attempt 0x00#8))
    (∃ t, exec .acmd41 s = .next t) ∧
    (AttemptScript.events (attempt 0x00#8)) =
      (AttemptScript.events (attempt 0x00#8)).take 14 ++ .x 0x69#8 0 :: (AttemptScript.events (attempt 0x00#8)).drop 15 ∧
    (stateOf (exec .acmd41 s)).events = (AttemptScript.events (attempt 0x00#8)).reverse :=
  ⟨⟨_, rfl⟩, by decide +kernel, by decide +kernel⟩

/-- ATransportFaultLeavesWhatWasDone: a fault after `CS(0)`, before the last idle-fill byte, and one at the first byte. -/
theorem witness_ATransportFaultLeavesWhatWasDone :
    let s := answering (r7.ins .ifCond)
    s.eng = .avail ∧ (∃ t, exec .sendIfCond s = .next t ∧ t.eng = .avail ∧ t.events = (r7.events .ifCond).reverse ++ s.events) ∧
    13 < countX (r7.events .ifCond) ∧ 0 < countX (r7.events .ifCond) ∧
    csAfter false (beforeExchange 13 (r7.events .ifCond)) = false ∧
    csAfter false (beforeExchange 0 (r7.events .ifCond)) = true :=
  ⟨rfl, ⟨_, rfl, rfl, rfl⟩, by decide, by decide, by decide, by decide⟩

/-- AFaultedExchangeWritesNothingElse: at a step without an exchange, at one that is answered and at one that faults. -/
theorem witness_AFaultedExchangeWritesNothingElse :
    let g := { State.goto (.c1 .goIdle .g0) busy with replies := [.fault] }
    let h := { State.goto (.c1 .goIdle .g0) busy with replies := [.byte 0x01#8] }
    let n := { busy with replies := [.fault] }
    (g.eng = .busy ∧ g.moves = [] ∧ g.replies = .fault :: [] ∧ ∃ t, step g = .next t ∧ t.eng = .faulted) ∧
    (h.eng = .busy ∧ h.moves = [] ∧ h.replies = .byte 0x01#8 :: [] ∧ ∃ t, step h = .next t ∧ t.eng = .busy) ∧
    (n.eng = .busy ∧ n.moves = [] ∧ n.replies = .fault :: [] ∧ ∃ t, step n = .next t ∧ t.replies = n.replies) :=
  ⟨⟨rfl, rfl, rfl, _, rfl, rfl⟩, ⟨rfl, rfl, rfl, _, rfl, rfl⟩, rfl, rfl, rfl, _, rfl, rfl⟩

theorem witness_AnExchangeMakesNineEventsAndItsResponse :
    ∃ t, commandExchange .ifCond (answering (r7.ins .ifCond)) = .ok 0x01#8 t := ⟨_, rfl⟩

theorem witness_CommandOperationsLeaveInitRegistersAlone :
    (∃ t, exec .goIdle (answering (r7.ins .goIdle)) = .next t) ∧ (∃ t, exec .readOcr faulted = .next t) :=
  ⟨⟨_, rfl⟩, ⟨_, rfl⟩⟩

theorem witness_OperationsEndOkOrFaulted :
    Instr.opcode .readR1 ≠ none ∧ (∃ t, exec .readR1 (answering [0x01#8]) = .next t ∧ t.eng = .avail) ∧
    (∃ t, exec .readR1 { State.reset with replies := [.fault] } = .next t ∧ t.eng = .faulted) :=
  ⟨by decide, ⟨_, rfl, rfl⟩, ⟨_, rfl, rfl⟩⟩

theorem witness_EncoderAndDecoderMakeNoTransportCall :
    State.reset.eng = .avail ∧ (∃ idx arg crc, Instr.encode 0#6 0#32 0x95#8 = .encode idx arg crc) ∧
    (∃ arg, Instr.decodeR3 0#32 = .decodeR3 arg) :=
  ⟨rfl, ⟨_, _, _, rfl⟩, ⟨_, rfl⟩⟩

theorem witness_OperationsCompleteWhenNothingFaults :
    (answering (List.replicate 3888 0xFF#8)).eng = .avail ∧ Instr.opcode .init ≠ none ∧
    3888 ≤ (List.replicate 3888 0xFF#8).length ∧
    (answering (List.replicate 3888 0xFF#8)).Answers (List.replicate 3888 0xFF#8) [] :=
  ⟨rfl, by decide, Nat.le_of_eq List.length_replicate.symm, rfl⟩

/-- The longest INIT of R198: every status but the payloads' at the ninth poll, and every attempt used. -/
theorem witness_InitReachesReady :
    let t := script 100 (answer 0x00#8 0x40#8 0x00#8 0x80#8 0x00#8)
    (answering t.ins).eng = .avail ∧ t.wellFormed = true ∧ t.ocr.r1 ≤ 0x01#8 ∧ t.ocr.payload.b1.getLsbD 6 = true ∧
    (answering t.ins).Answers t.ins [] :=
  ⟨rfl, by decide +kernel, by decide, by decide, rfl⟩

theorem witness_InitReportsPowerUpIncomplete :
    let t := script 0 (answer 0x02#8 0x40#8 0x00#8 0x80#8 0x00#8)
    let u := script 0 (answer 0x00#8 0x80#8 0xFF#8 0x80#8 0x00#8)
    (answering t.ins).eng = .avail ∧ t.wellFormed = true ∧ 0x02#8 ≤ t.ocr.r1 ∧ (answering t.ins).Answers t.ins [] ∧
    u.wellFormed = true ∧ u.ocr.payload.b1.getLsbD 6 = false ∧ (answering u.ins).Answers u.ins [] :=
  ⟨rfl, by decide +kernel, by decide, rfl, by decide +kernel, by decide, rfl⟩

theorem witness_InitReportsIdleTimeout :
    let fails := List.replicate 10 (lateAnswer 0xFF#8)
    let ins := fill ++ goIdleIns (fails ++ [answer 0x00#8 0 0 0 0])
    (answering ins).eng = .avail ∧ fill.length = 10 ∧ fails.length = 10 ∧
    (fails ++ [answer 0x00#8 0 0 0 0]).all ExchangeScript.idleFailed = true ∧ (answering ins).Answers ins [] :=
  ⟨rfl, by decide, by decide, by decide +kernel, rfl⟩

theorem witness_InitReportsARejectedInterfaceCondition :
    let fails := List.replicate 10 (lateAnswer 0xFF#8)
    let ok := lateAnswer 0x01#8
    let rejected := answer 0x00#8 0x00#8 0x00#8 0x01#8 0xAA#8
    let mismatch := answer 0x01#8 0x00#8 0x00#8 0x01#8 0x55#8
    let ins := fill ++ goIdleIns (fails ++ [ok]) ++ rejected.ins .ifCond
    let ins' := fill ++ goIdleIns ([] ++ [ok]) ++ mismatch.ins .ifCond
    (answering ins).eng = .avail ∧ fill.length = 10 ∧ fails.length ≤ 10 ∧ fails.all ExchangeScript.idleFailed = true ∧
    ok.idleAccepted = true ∧ Polled rejected.idle rejected.r1 = true ∧ rejected.r1 ≠ 0x01#8 ∧ (answering ins).Answers ins [] ∧
    Polled mismatch.idle mismatch.r1 = true ∧ mismatch.r1 = 0x01#8 ∧ mismatch.payload.b4 ≠ 0xAA#8 ∧
    (answering ins').Answers ins' [] :=
  ⟨rfl, by decide, by decide, by decide +kernel, by decide +kernel, by decide, by decide, rfl, by decide, by decide, by decide,
    rfl⟩

theorem witness_InitReportsOpCondTimeout :
    let ok := lateAnswer 0x01#8
    let neg := List.replicate 100 (attempt 0x01#8)
    let last : AttemptScript := ⟨answer 0x05#8 0 0 0 0, r7⟩
    let ins := fill ++ goIdleIns ([] ++ [ok]) ++ r7.ins .ifCond ++ negIns (neg ++ [last])
    (answering ins).eng = .avail ∧ fill.length = 10 ∧ ok.idleAccepted = true ∧ Polled r7.idle r7.r1 = true ∧
    r7.r1 = 0x01#8 ∧ r7.payload.b4 = 0xAA#8 ∧ neg.length = 100 ∧ (neg ++ [last]).all AttemptScript.failed = true ∧
    (answering ins).Answers ins [] :=
  ⟨rfl, by decide, by decide +kernel, by decide, by decide, by decide, by simp, by decide +kernel, rfl⟩

/-- InitEndsReadyOrFailedWithAReason, InitTraceIsBounded and InitLastsAtLeastItsDelays, with both ends. -/
theorem witness_InitEnds :
    (answering cleanIns).eng = .avail ∧
    (∃ t, exec .init (answering cleanIns) = .next t ∧ t.eng = .avail ∧ t.outcome = .success) ∧
    (∃ t, exec .init (answering (List.replicate 208 0xFF#8)) = .next t ∧ t.eng = .avail ∧ t.outcome = .idleTimeout) :=
  ⟨rfl, ⟨_, exec_avail rfl rfl, by decide +kernel, by decide +kernel⟩,
    ⟨_, exec_avail rfl rfl, by decide +kernel, by decide +kernel⟩⟩

theorem witness_InitLastsAtLeastItsDelays :
    let t := script 100 (answer 0x00#8 0x40#8 0x00#8 0x80#8 0x00#8)
    ∃ u, exec .init (answering t.ins) = .next u ∧ u.eng = .avail ∧ u.negCnt = 101#7 :=
  ⟨_, exec_avail rfl rfl, by decide +kernel, by decide +kernel⟩

theorem witness_FaultedInitReportsNoOutcome :
    ∃ t, exec .init { State.reset with replies := [.fault] } = .next t ∧ t.eng = .faulted :=
  ⟨_, exec_avail rfl rfl, by decide +kernel⟩

theorem witness_InitDependsOnTheCardAlone :
    let s1 := answering cleanIns
    let s2 := { answering cleanIns with frame := some (romFrame .goIdle), captured := some 0x05#8, outcome := .idleTimeout,
                                        initState := .failed, idleCnt := 11#4, opStatus := .ok, cs := true }
    s1 ≠ s2 ∧ s1.eng = .avail ∧ s2.eng = .avail ∧ s1.replies = s2.replies ∧ s1.draws = s2.draws ∧
    (∃ t1, exec .init s1 = .next t1 ∧ t1.eng = .avail) ∧ (∃ t2, exec .init s2 = .next t2) :=
  ⟨by decide, rfl, rfl, rfl, rfl, ⟨_, exec_avail rfl rfl, by decide +kernel⟩, ⟨_, exec_avail rfl rfl⟩⟩

theorem witness_TheSequencerRunsWhatExecDoes :
    State.reset.eng = .avail ∧ firstPos .init = some .s0 ∧ firstPos (.encode 63#6 0#32 0#8) = some (.e0 63#6 0#32 0#8) := by
  decide

theorem witness_ReadsChangeNothingAndStatusIsAlwaysReadable :
    ({ busy with moves := [.read 0 0x7F#64] } : State).moves = .read 0 0x7F#64 :: [] ∧
    (∃ t, step { busy with moves := [.read 0 0x7F#64] } = .next t) ∧
    State.reset.eng ≠ .busy ∧ busy.op ≠ some 0xC#4 ∧ initBusy.eng = .busy ∧ initBusy.op = some 0xC#4 ∧
    (State.reset.eng = .avail ∧ firstPos .init = some .s0 ∧ Instr.init.opcode = some 0xC#4 ∧
      ∃ t, seqSteps 1 (acceptAt .s0 0xC#4 State.reset) = .next t ∧ t.eng = .busy) :=
  ⟨rfl, ⟨_, rfl⟩, by decide, by decide, rfl, rfl, rfl, rfl, rfl, _, rfl, rfl⟩

theorem witness_UsingAnUndefByteIsAFault :
    State.reset.eng ≠ .busy ∧ ({ State.reset with moves := [.read 8 1#64] } : State).moves = .read 8 1#64 :: [] ∧
    [State.reset.resp.b0, State.reset.resp.b1, State.reset.resp.b2, State.reset.resp.b3, State.reset.resp.b4][8 - 4]? =
      some none ∧ (1#64 : BitVec 64) ≠ 0#64 ∧
    [some 0x01#8, none, none, none, (none : Option Byte)][4 - 4]? = some (some 0x01#8) ∧ 0xFF#64 &&& 0xFF#64 = 0xFF#64 ∧
    (∃ k, k < 8 ∧ State.reset.rvalid.getLsbD k = false ∧ (0xFF00000000000000#64).extractLsb' (8 * k) 8 ≠ 0#8) ∧
    (∀ k, k < 8 → (0x00000100FF000000#64).extractLsb' (8 * k) 8 ≠ 0#8 → (0x28#8).getLsbD k = true) :=
  ⟨by decide, rfl, rfl, by decide, rfl, by decide, ⟨7, by decide⟩, by decide⟩

/-- HostRegistersShowTheirValues: the last response byte and the last result byte, without and with a value. -/
theorem witness_HostRegistersShowTheirValues :
    State.reset.eng ≠ .busy ∧
    [State.reset.resp.b0, State.reset.resp.b1, State.reset.resp.b2, State.reset.resp.b3, State.reset.resp.b4][4]? = some none ∧
    [none, none, none, none, none, none, none, (some 0xFF#8 : Option Byte)][7]? = some (some 0xFF#8) := by decide

/-- OcrInfoShowsTheLatchedFields, with and without latched fields. -/
theorem witness_OcrInfoShowsTheLatchedFields :
    State.reset.eng ≠ .busy ∧ State.reset.vwin = none ∧ State.reset.ccs = none ∧
    ({ State.reset with vwin := some 0x1FF#9, ccs := some true } : State).vwin = some 0x1FF#9 := by decide

theorem witness_ThereAreElevenHostRegisters :
    11 ≤ 11 ∧ ({ State.reset with moves := [.read 11 0#64] } : State).moves = .read 11 0#64 :: [] := by decide

theorem witness_DecodeRespUsesTheResponseBytes :
    State.reset.eng ≠ .busy ∧
    ({ State.reset with resp := ⟨some 0, some 0xC0#8, some 0xFF#8, some 0x80#8, some 0⟩, moves := [.decodeResp .r3] } :
      State).resp.b4 = some 0 ∧
    State.reset.resp.b1 = none ∧ ({ State.reset with moves := [.decodeResp .r7] } : State).moves = .decodeResp .r7 :: [] := by
  decide

theorem witness_AssembledLinesAreTheirRequestWords :
    63 < 64 ∧ 0xFFFFFFFF < 2 ^ 32 ∧ 255 < 256 ∧ (64 ≤ 64 ∨ 2 ^ 32 ≤ 0 ∨ 256 ≤ 0) ∧ 256 ≤ 256 ∧
    ((AsmLine.init, Instr.init) : AsmLine × Instr) ∈ [(.readR1, .readR1), (.init, .init)] := by decide

theorem witness_EveryStepKeepsQuiet :
    State.Quiet (withMove (.request 0x1000000000000095#64) []) ∧
    (∃ t, step (withMove (.request 0x1000000000000095#64) []) = .next t) :=
  ⟨by decide, ⟨_, rfl⟩⟩

theorem witness_EveryStepKeepsInBounds :
    busy.InBounds ∧ (∃ t, step busy = .next t) ∧ State.InBounds (withMove (.start 0xC000000000000000#64) []) ∧
    (∃ t, step (withMove (.start 0xC000000000000000#64) []) = .next t) :=
  ⟨by decide, ⟨_, rfl⟩, by decide, ⟨_, rfl⟩⟩

end Sys2Proof.Tests
end

section
/-! O60: every move of the host keeps `State.InBounds`. An operation run whole is a run of the sequencer (`procOf_sim`), a ROM
frame run alone one of `CommandExchange` or `NegAttempt`, and `bounded_seqStep` and `stepping_seqStep` carry the invariant along
the sequencer's steps. -/

namespace Sys2Proof.Machine

/-! ## Runs of the sequencer -/

theorem inBounds_seqStep {s t : State} (hs : s.InBounds) (h : seqStep s = .next t) : t.InBounds := by
  obtain ⟨hstep, hb⟩ := (inBounds_iff s).1 hs
  exact (inBounds_iff t).2 ⟨stepping_seqStep hstep h, bounded_seqStep hb h⟩

theorem inBounds_reaches {s t : State} (hs : s.InBounds) (h : Reaches s t) : t.InBounds := by
  obtain ⟨n, h⟩ := h
  induction n generalizing s with
  | zero => cases h; exact hs
  | succ n ih =>
    simp only [seqSteps] at h
    cases hx : seqStep s with
    | next v => rw [hx] at h; exact ih (inBounds_seqStep hs hx) h
    | fault r => rw [hx] at h; cases h
    | refused r => rw [hx] at h; cases h

/-! ## Acceptance and whole operations (R83) -/

theorem loopBound_firstPos {i : Instr} {p : Pos} (h : firstPos i = some p) (s : State) : s.loopBound p = true := by
  cases i <;> cases h <;> rfl

/-- An operation accepted stands at its first step, which is inside no loop. -/
theorem inBounds_acceptAt {i : Instr} {p : Pos} (h : firstPos i = some p) (o : BitVec 4) {s : State} (hs : s.InBounds) :
    (acceptAt p o s).InBounds := by
  obtain ⟨-, hcount, -, hframe⟩ := hs
  exact ⟨by simp [acceptAt, State.goto, State.accept], hcount, loopBound_firstPos h _, hframe⟩

theorem firstPos_of_opcode {i : Instr} {o : BitVec 4} (h : i.opcode = some o) : ∃ p, firstPos i = some p := by
  cases i <;> cases h <;> exact ⟨_, rfl⟩

theorem inBounds_operation {i : Instr} {o : BitVec 4} (h : i.opcode = some o) {s : State} (hs : s.InBounds) :
    (procOf i (s.accept o)).finish.InBounds := by
  obtain ⟨p, hp⟩ := firstPos_of_opcode h
  exact inBounds_reaches (inBounds_acceptAt hp o hs) (procOf_sim hp (s.accept o))

/-! ## ROM frames run alone (log 3) -/

/-- A procedure that the sequencer runs from a step outside the loops leaves the counters in range and a frame in the frame
register; where the sequencer returns to does not matter. -/
theorem counted_of_sim {α : Type} {r : Run α} {f : α → Pos} {p : Pos} {s : State} (hs : Counted s)
    (hp : (s.goto p).loopBound p = true) (h : Reaches (s.goto p) (r.landsAt f)) : Counted r.state := by
  have hb : Bounded (s.goto p) := (bounded_iff _).2 ⟨hs, hp⟩
  have hc : Counted (r.landsAt f) := ((bounded_iff _).1 (bounded_reaches hb h)).1
  cases r <;> exact hc

theorem counted_commandExchange (c : RomCmd) {s : State} (hs : Counted s) : Counted (commandExchange c s).state :=
  counted_of_sim hs rfl (commandExchange_sim c .g0 s)

theorem counted_negAttempt {s : State} (hs : Counted s) : Counted (negAttempt s).state :=
  counted_of_sim hs rfl (negAttempt_sim .a0 s)

/-- No operation is in flight and no step is left (R21, R23). -/
def Idle (s : State) : Prop := s.eng ≠ .busy ∧ s.seq = none

theorem Faulted.idle {s t : State} (h : Faulted s t) : Idle t := ⟨by simp [h.eng], h.seq⟩

theorem idle_of_inBounds {s : State} (hs : s.InBounds) (he : s.eng ≠ .busy) : Idle s :=
  ⟨he, by simpa [he] using hs.1⟩

theorem counted_of_inBounds {s : State} (hs : s.InBounds) : Counted s :=
  ((bounded_iff s).1 ((inBounds_iff s).1 hs).2).1

theorem inBounds_of_idle {s : State} (hi : Idle s) (hc : Counted s) : s.InBounds := by
  obtain ⟨he, hq⟩ := hi
  obtain ⟨hcount, hframe⟩ := hc
  exact ⟨by simp [he, hq], hcount, by simp [hq], hframe⟩

theorem idle_commandExchange (c : RomCmd) {s : State} (hs : Idle s) : Idle (commandExchange c s).state := by
  obtain ⟨e, rp, dr, -, hx⟩ | ⟨t, hx, -, hf⟩ := commandExchange_cases c s <;> rw [hx]
  · exact hs
  · exact hf.idle

theorem idle_negAttempt {s : State} (hs : Idle s) : Idle (negAttempt s).state := by
  obtain ⟨a, rp, dr, -, hx⟩ | ⟨t, hx, -, hf⟩ := negAttempt_cases s <;> rw [hx]
  · exact hs
  · exact hf.idle

/-- A procedure whose answer is dropped leaves the state of the procedure. -/
theorem Run.state_dropAnswer {α : Type} (r : Run α) : (r.andThen fun _ s => Run.ok () s).state = r.state := by
  cases r <;> rfl

theorem inBounds_frame {i : Instr} (h : i.opcode = none) {s : State} (hi : Idle s) (hc : Counted s) :
    (procOf i s).state.InBounds := by
  obtain ⟨c, hrun⟩ | hrun := frame_run h <;> rw [hrun]
  · rw [romProc, Run.state_dropAnswer]
    exact inBounds_of_idle (idle_commandExchange c hi) (counted_commandExchange c hc)
  · rw [attemptProc, Run.state_dropAnswer]
    exact inBounds_of_idle (idle_negAttempt hi) (counted_negAttempt hc)

/-! ## The step -/

theorem inBounds_exec {i : Instr} {s t : State} (hs : s.InBounds) (h : exec i s = .next t) : t.InBounds := by
  obtain he | ⟨-, rfl | rfl⟩ := exec_next_cases h
  · cases ho : i.opcode with
    | some o =>
      rw [exec_avail ho he] at h
      cases h
      exact inBounds_operation ho hs
    | none =>
      rw [exec_frame_avail ho he] at h
      cases h
      exact inBounds_frame ho (idle_of_inBounds hs (by simp [he])) (counted_of_inBounds hs)
  · exact hs
  · exact hs

theorem inBounds_rst (s : State) : s.rst.InBounds :=
  inBounds_of_idle (s := s.rst) ⟨by simp [State.rst, State.reset], rfl⟩
    ⟨(by decide : State.reset.CountersInRange), rfl⟩

theorem inBounds_runMove {m : Move} {s t : State} (hs : s.InBounds) (h : runMove m s = .next t) : t.InBounds := by
  obtain rfl | ⟨rfl, -⟩ | ⟨rfl, -⟩ | ⟨i, hx⟩ | ⟨i, p, o, -, hp, -, rfl, -⟩ | ⟨-, -, hx⟩ | ⟨-, rfl⟩ := runMove_cases h
  · exact hs
  · exact hs
  · exact hs
  · exact inBounds_exec hs hx
  · exact inBounds_acceptAt hp o hs
  · exact inBounds_seqStep hs hx
  · exact inBounds_rst s

theorem inBounds_advance {s t : State} (hs : s.InBounds) (h : advance s = .next t) : t.InBounds :=
  inBounds_runMove (m := .wait) hs h

/-- Settles O60: the next move keeps the invariant, and so does an operation that goes on when there is none. -/
theorem everyStepKeepsInBounds : Obligations.EveryStepKeepsInBounds := by
  intro s t hs h
  cases hm : s.moves with
  | nil =>
    simp only [step, hm] at h
    exact inBounds_advance hs h
  | cons m rest =>
    simp only [step, hm] at h
    exact inBounds_runMove (s := { s with moves := rest }) hs h

end Sys2Proof.Machine
end
section
/-! O7: a step on a word that decodes is `exec` of the decoded instruction (00_scope.md R7; 30_encoding.md R80, R83). -/

namespace Sys2Proof.Machine

/-- The move that hands over a word of either format runs the instruction the word decodes to. -/
theorem runMove_moveOfWord {w : InWord} {i : Instr} (h : decode w = .ok i) (s : State) :
    runMove (moveOfWord w) s = exec i s := by
  cases w with
  | request w => simp only [moveOfWord, runMove, presentRequest, h]
  | frame f => simp only [moveOfWord, runMove, issueFrame, h]

theorem step_moveOfWord {w : InWord} {i : Instr} {s : State} {rest : List Move} (hm : s.moves = moveOfWord w :: rest)
    (h : decode w = .ok i) : step s = exec i { s with moves := rest } := by
  simp only [step, hm]
  exact runMove_moveOfWord h _

theorem decode_tableWord {nbits w : Nat} {i : Instr} (h : decodeTableWord nbits w = some i) :
    decode (tableWord nbits w) = .ok i := by
  unfold decodeTableWord at h
  split at h
  · cases h; assumption
  · cases h

/-- Settles O7: both ways of handing over a word put the move of that word first in the list. -/
theorem aStepRunsTheDecodedInstruction : Obligations.AStepRunsTheDecodedInstruction :=
  ⟨fun _ _ _ _ hm h => step_moveOfWord hm h,
    fun s nbits w _ h => step_moveOfWord (s := s.withFetchWord nbits w) rfl (decode_tableWord h)⟩

end Sys2Proof.Machine
end

section
/-! O52: a read that uses a byte without a value is the reader's fault (00_scope.md R19; 10_state.md R38;
70_reset_and_hazards.md R240). -/

namespace Sys2Proof.Machine

section
variable {s : State} {rest : List Move} {n : Nat} {use : BitVec 64} {v : RegView}

/-- Outside BUSY a read goes through when every bit it uses holds a value. -/
theorem step_read_known (he : s.eng ≠ .busy) (hm : s.moves = .read n use :: rest) (hv : hostReg n s = some v)
    (huse : use &&& v.known = use) : step s = .next { s with moves := rest } :=
  (step_read hm ((hostRead_idle (s := { s with moves := rest }) he n).trans hv)).trans (if_pos huse)

/-- Outside BUSY a read that uses a bit without a value is the reader's fault. -/
theorem step_read_undef (he : s.eng ≠ .busy) (hm : s.moves = .read n use :: rest) (hv : hostReg n s = some v)
    (huse : use &&& v.known ≠ use) : step s = .fault .undefConsumed :=
  (step_read hm ((hostRead_idle (s := { s with moves := rest }) he n).trans hv)).trans (if_neg huse)

end

/-! ## RESP0 to RESP4 -/

theorem hostReg_resp {s : State} {k : Nat} {b : Option Byte}
    (h : [s.resp.b0, s.resp.b1, s.resp.b2, s.resp.b3, s.resp.b4][k]? = some b) :
    hostReg (k + 4) s = some (respReg b) := by
  match k with
  | 0 | 1 | 2 | 3 | 4 => cases h; rfl
  | k + 5 => simp at h

@[simp] theorem respReg_none_known : (respReg none).known = 0#64 := rfl

@[simp] theorem respReg_some_known (b : Byte) : (respReg (some b)).known = 0xFF#64 := rfl

/-! ## RESULT -/

theorem signExtend_ofBool (b : Bool) : (BitVec.ofBool b).signExtend 8 = if b then 0xFF#8 else 0#8 := by
  cases b <;> rfl

/-- A byte of RESULT is known as a whole, or not at all. -/
theorem byteMask_byte (v : BitVec 8) {k : Nat} (hk : k < 8) :
    (byteMask v).extractLsb' (8 * k) 8 = if v.getLsbD k then 0xFF#8 else 0#8 := by
  simp only [byteMask, signExtend_ofBool]
  interval_cases k <;>
    simp only [Nat.reduceMul, Nat.reduceLeDiff, Nat.reduceSub, BitVec.extractLsb'_append_eq_of_le,
      BitVec.extractLsb'_append_eq_right, BitVec.extractLsb'_eq_self]

/-- A 64-bit word is its eight bytes. -/
theorem eq_iff_bytes {x y : BitVec 64} : x = y ↔ ∀ k, k < 8 → x.extractLsb' (8 * k) 8 = y.extractLsb' (8 * k) 8 := by
  refine ⟨fun h _ _ => by rw [h], fun h => BitVec.eq_of_getLsbD_eq fun i hi => ?_⟩
  have hbit := congrArg (·.getLsbD (i % 8)) (h (i / 8) (by omega))
  simpa [Nat.mod_lt, Nat.div_add_mod] using hbit

/-- Every bit used is known exactly when every byte used has its `rvalid` bit 1. -/
theorem and_byteMask_eq_iff (use : BitVec 64) (v : BitVec 8) :
    use &&& byteMask v = use ↔ ∀ k, k < 8 → use.extractLsb' (8 * k) 8 ≠ 0#8 → v.getLsbD k = true := by
  refine eq_iff_bytes.trans (forall₂_congr fun k hk => ?_)
  have hones (b : Byte) : b &&& 0xFF#8 = b := BitVec.and_allOnes
  rw [BitVec.extractLsb'_and, byteMask_byte v hk]
  by_cases hv : v.getLsbD k = true
  · simp [hv, hones]
  · simp [hv, eq_comm]

/-- Settles O52: the bits a read may use are the whole byte of RESP or none of it, and in RESULT the bytes of `rvalid`. -/
theorem usingAnUndefByteIsAFault : Obligations.UsingAnUndefByteIsAFault := by
  intro s rest n use he hm
  refine ⟨fun b hb hn => ?_, ?_⟩
  · have hv : hostReg n s = some (respReg b) := by simpa [hn] using hostReg_resp hb
    cases b with
    | none =>
      have hknown : use &&& (respReg none).known = use ↔ use = 0#64 := by
        rw [respReg_none_known, BitVec.and_zero]
        exact eq_comm
      exact ⟨fun _ huse => step_read_undef he hm hv (hknown.not.2 huse),
        fun huse _ => step_read_known he hm hv (hknown.2 (huse.resolve_left (fun h => h rfl)))⟩
    | some b => exact ⟨fun h => by simp at h, fun _ huse => step_read_known he hm hv huse⟩
  · rintro rfl
    have hv : hostReg 9 s = some (resultReg s) := rfl
    refine ⟨fun ⟨k, hk, hinvalid, huse⟩ => step_read_undef he hm hv fun hall => ?_,
      fun hall => step_read_known he hm hv ((and_byteMask_eq_iff use s.rvalid).2 hall)⟩
    have hvalid := (and_byteMask_eq_iff use s.rvalid).1 hall k hk huse
    simp [hinvalid] at hvalid

end Sys2Proof.Machine
end
section
/-! O37: what one step of the sequencer does with the transport's next answer (00_scope.md R18; 60_exceptions.md R212). Each
label makes no exchange at all, or one exchange and then writes registers that are neither `eng` nor the trace. -/

namespace Sys2Proof.Machine

/-- No exchange: no answer of the transport is taken, none is recorded, and the engine is not FAULTED. -/
structure Silent (s t : State) : Prop where
  replies : t.replies = s.replies
  eng : t.eng ≠ .faulted
  events : countX t.events = countX s.events

@[simp] theorem silent_iff {s t : State} :
    Silent s t ↔ t.replies = s.replies ∧ t.eng ≠ .faulted ∧ countX t.events = countX s.events :=
  ⟨fun h => ⟨h.replies, h.eng, h.events⟩, fun ⟨hr, he, hx⟩ => ⟨hr, he, hx⟩⟩

/-- What a step may do with the transport's next answer `r`: leave it, record it in an event, or take it as the fault. -/
def UsesReply (r : Reply) (rest : List Reply) (s t : State) : Prop :=
  Silent s t ∨
  (∃ out b, r = .byte b ∧ t.replies = rest ∧ t.eng = .busy ∧ t.events = .x out b :: s.events) ∨
  (r = .fault ∧ t = { s with replies := rest, eng := .faulted, opStatus := .faulted, seq := none })

/-- A step that answers a next state does one of these with the answer the transport has next. -/
def AtMostOneExchange (s : State) (x : Result) : Prop :=
  ∀ r rest t, s.replies = r :: rest → x = .next t → UsesReply r rest s t

/-! ## The forms a label's step has -/

@[simp] theorem atMostOneExchange_next {s u : State} (h : Silent s u) : AtMostOneExchange s (.next u) := by
  rintro r rest t - ht
  cases ht
  exact .inl h

@[simp] theorem atMostOneExchange_proceed {p : Pos} {s u : State} (h : Silent s u) : AtMostOneExchange s (proceed p u) :=
  atMostOneExchange_next (u := u.goto p) ⟨h.replies, h.eng, h.events⟩

@[simp] theorem atMostOneExchange_useDefined {α : Type} {s : State} {v : Option α} {f : α → Result}
    (h : ∀ a, AtMostOneExchange s (f a)) : AtMostOneExchange s (useDefined v f) := by
  cases v with
  | none => rintro r rest t - ht; cases ht
  | some a => exact h a

@[simp] theorem atMostOneExchange_ite {c : Prop} [Decidable c] {s : State} {x y : Result} :
    AtMostOneExchange s (if c then x else y) ↔ (c → AtMostOneExchange s x) ∧ (¬ c → AtMostOneExchange s y) := by
  by_cases h : c <;> simp [h]

/-- One exchange, and then writes that leave the mode, the answers and the trace. -/
@[simp] theorem atMostOneExchange_xchgStep {out : Byte} {s : State} {g : Byte → Pos} {w : Byte → State → State}
    (he : s.eng = .busy)
    (hw : ∀ b u, (w b u).replies = u.replies ∧ (w b u).eng = u.eng ∧ (w b u).events = u.events) :
    AtMostOneExchange s (xchgStep out s fun b u => proceed (g b) (w b u)) := by
  intro r rest t hr ht
  cases r with
  | byte b =>
    rw [xchgStep, xchg_byte out hr] at ht
    cases ht
    obtain ⟨h1, h2, h3⟩ := hw b { s with replies := rest, events := .x out b :: s.events }
    exact .inr (.inl ⟨out, b, rfl, h1, h2.trans he, h3⟩)
  | fault =>
    rw [xchgStep, xchg_fault out hr] at ht
    cases ht
    exact .inr (.inr ⟨rfl, rfl⟩)

/-- What holds of the step of every procedure holds of the step at a label. -/
theorem stepAt_of_procedures {P : Result → Prop} {p : Pos} {s : State}
    (hPure : P (stepPure p s)) (hReadOps : P (stepReadOps p s)) (hPoll : P (stepPoll p s))
    (hPayload : P (stepPayload p s)) (hExchange : P (stepExchange p s)) (hAttempt : P (stepAttempt p s))
    (hCommandOps : P (stepCommandOps p s)) (hInit : P (stepInit p s)) (hPowerUp : P (stepPowerUp p s))
    (hNegotiate : P (stepNegotiate p s)) (hOcr : P (stepOcr p s)) : P (stepAt p s) := by
  cases p <;> assumption

/-! ## The labels, procedure by procedure -/

section
variable {s : State} (hs : s.eng = .busy) (p : Pos)
include hs

theorem atMostOneExchange_stepPure : AtMostOneExchange s (stepPure p s) := by
  cases p
  case e1 => exact atMostOneExchange_useDefined fun _ => atMostOneExchange_proceed (by simp [hs])
  case e0 | d0 | d1 | v0 | v1 | o0 | o1 | o2 => exact atMostOneExchange_proceed (by simp [hs])
  all_goals exact atMostOneExchange_next (by simp)

theorem atMostOneExchange_stepReadOps : AtMostOneExchange s (stepReadOps p s) := by
  unfold stepReadOps
  split <;> simp [hs]

theorem atMostOneExchange_stepPoll : AtMostOneExchange s (stepPoll p s) := by
  unfold stepPoll
  split <;> simp [hs]

theorem atMostOneExchange_stepPayload : AtMostOneExchange s (stepPayload p s) := by
  unfold stepPayload
  split <;> simp [hs]

theorem atMostOneExchange_stepExchange : AtMostOneExchange s (stepExchange p s) := by
  unfold stepExchange
  split <;> simp [hs]

theorem atMostOneExchange_stepAttempt : AtMostOneExchange s (stepAttempt p s) := by
  unfold stepAttempt
  split <;> simp [hs]

theorem atMostOneExchange_stepCommandOps : AtMostOneExchange s (stepCommandOps p s) := by
  unfold stepCommandOps
  split <;> simp [hs]

theorem atMostOneExchange_stepInit : AtMostOneExchange s (stepInit p s) := by
  unfold stepInit
  split <;> simp [hs]

theorem atMostOneExchange_stepPowerUp : AtMostOneExchange s (stepPowerUp p s) := by
  unfold stepPowerUp
  split <;> simp [hs]

theorem atMostOneExchange_stepNegotiate : AtMostOneExchange s (stepNegotiate p s) := by
  unfold stepNegotiate
  split <;> simp [hs]

theorem atMostOneExchange_stepOcr : AtMostOneExchange s (stepOcr p s) := by
  unfold stepOcr
  split <;> simp [hs, State.writeInitResult]

/-- A label belongs to one of the eleven procedures, and its step is that procedure's. -/
theorem atMostOneExchange_stepAt : AtMostOneExchange s (stepAt p s) := by
  refine stepAt_of_procedures (P := AtMostOneExchange s) ?_ ?_ ?_ ?_ ?_ ?_ ?_ ?_ ?_ ?_ ?_
  · exact atMostOneExchange_stepPure hs p
  · exact atMostOneExchange_stepReadOps hs p
  · exact atMostOneExchange_stepPoll hs p
  · exact atMostOneExchange_stepPayload hs p
  · exact atMostOneExchange_stepExchange hs p
  · exact atMostOneExchange_stepAttempt hs p
  · exact atMostOneExchange_stepCommandOps hs p
  · exact atMostOneExchange_stepInit hs p
  · exact atMostOneExchange_stepPowerUp hs p
  · exact atMostOneExchange_stepNegotiate hs p
  · exact atMostOneExchange_stepOcr hs p

theorem atMostOneExchange_seqStep : AtMostOneExchange s (seqStep s) := by
  cases hq : s.seq with
  | none =>
    rw [seqStep_idle hq]
    exact atMostOneExchange_next (by simp [hs])
  | some p =>
    rw [seqStep, hq]
    exact atMostOneExchange_stepAt hs p

end

/-- Settles O37: with no move of the host the step is the sequencer's. -/
theorem aFaultedExchangeWritesNothingElse : Obligations.AFaultedExchangeWritesNothingElse := by
  intro s t r rest hs hm hr ht
  have hseq : step s = seqStep s := by simp [step, hm, advance, hs]
  rw [hseq] at ht
  obtain ⟨hreplies, heng, hevents⟩ | hbyte | hfault := atMostOneExchange_seqStep hs r rest t hr ht
  · exact .inl ⟨hreplies, heng, hevents⟩
  · exact .inr (.inl hbyte)
  · exact .inr (.inr hfault)

end Sys2Proof.Machine
end
section
/-! O35, O58 and O59: how an instruction ends, and that a settled machine whose host lets every operation run to its end stays
settled (30_encoding.md R83; 60_exceptions.md R212; 10_state.md R21 to R38). -/

namespace Sys2Proof.Machine

/-! ## How an instruction ends (R83, R212) -/

/-- A procedure as an instruction in AVAIL leaves it: run to its end as an operation, or alone as a ROM frame (log 3). -/
theorem exec_avail_run {i : Instr} {s t : State} (he : s.eng = .avail) (h : exec i s = .next t) :
    (∃ o, i.opcode = some o ∧ t = (procOf i (s.accept o)).finish) ∨ (i.opcode = none ∧ t = (procOf i s).state) := by
  cases ho : i.opcode with
  | some o =>
    rw [exec_avail ho he] at h
    cases h
    exact .inl ⟨o, rfl, rfl⟩
  | none =>
    rw [exec_frame_avail ho he] at h
    cases h
    exact .inr ⟨rfl, rfl⟩

/-- What a transport fault that ends an instruction's procedure leaves (R212). -/
theorem procOf_abort {i : Instr} {s u : State} (h : procOf i s = .abort u) :
    Faulted s u ∧ u.result = s.result ∧ u.rvalid = s.rvalid := by
  cases ho : i.opcode with
  | some o =>
    obtain ⟨t, ht, -⟩ | ⟨t, ht, -, hres, hrv, hf⟩ := procOf_ends i (by simp [ho]) s <;> rw [h] at ht <;> cases ht
    exact ⟨hf, hres, hrv⟩
  | none =>
    obtain ⟨t, ht, -⟩ | ⟨t, ht, hk, hf⟩ := frame_cases ho s <;> rw [h] at ht <;> cases ht
    exact ⟨hf, hk.result, hk.rvalid⟩

/-- A host operation's procedure that completes leaves `rvalid` in step with `result` (R38). -/
theorem operation_completed {i : Instr} {o : BitVec 4} (ho : i.opcode = some o) {s t : State} (h : procOf i s = .ok () t) :
    t.rvalid = t.result.definedMask := by
  obtain ⟨u, hu, -, hvalid, -⟩ | ⟨u, hu, -⟩ := procOf_ends i (by simp [ho]) s <;> rw [h] at hu <;> cases hu
  exact hvalid

/-- A ROM frame that completes leaves the mode and the result (log 3). -/
theorem frame_completed {i : Instr} (ho : i.opcode = none) {s t : State} (h : procOf i s = .ok () t) :
    t.eng = s.eng ∧ t.result = s.result ∧ t.rvalid = s.rvalid := by
  obtain ⟨u, hu, hk, heng, -⟩ | ⟨u, hu, -⟩ := frame_cases ho s <;> rw [h] at hu <;> cases hu
  exact ⟨heng, hk.result, hk.rvalid⟩

/-- A host operation in AVAIL completes, with `rvalid` in step with `result`, or a transport fault ends it and leaves both. -/
theorem operation_cases {i : Instr} {o : BitVec 4} (ho : i.opcode = some o) {s t : State} (he : s.eng = .avail)
    (h : exec i s = .next t) :
    t.op = some o ∧ t.seq = none ∧ (∃ evs, t.events = evs ++ s.events) ∧
    ((t.eng = .avail ∧ t.opStatus = .ok ∧ t.rvalid = t.result.definedMask) ∨
     (t.eng = .faulted ∧ t.opStatus = .faulted ∧ t.result = s.result ∧ t.rvalid = s.rvalid)) := by
  rw [exec_avail ho he] at h
  cases h
  obtain ⟨u, hu, hop, hvalid, hev⟩ | ⟨u, hu, hop, hres, hrv, hf⟩ := procOf_ends i (by simp [ho]) (s.accept o) <;> rw [hu]
  · exact ⟨hop, rfl, hev, .inl ⟨rfl, rfl, hvalid⟩⟩
  · exact ⟨hop, hf.seq, hf.events, .inr ⟨hf.eng, hf.opStatus, hres, hrv⟩⟩

/-- Settles O35: the procedure completes and the operation with it, or a transport fault ends both. -/
theorem operationsEndOkOrFaulted : Obligations.OperationsEndOkOrFaulted := by
  intro i s t he hi h
  obtain ⟨o, ho⟩ := Option.ne_none_iff_exists'.1 hi
  rw [ho]
  exact operation_cases ho he h

/-! ## What a procedure leaves of chip select and of the host's moves (R160, R195) -/

/-- The host's moves to come are the host's, `op_status` is left to the operation's end, and chip select is not left asserted. -/
structure Deasserts (s t : State) : Prop where
  moves : t.moves = s.moves
  opStatus : t.opStatus = s.opStatus
  cs : s.cs = false → t.cs = false

theorem Deasserts.trans {a b c : State} (h : Deasserts a b) (k : Deasserts b c) : Deasserts a c :=
  ⟨k.moves.trans h.moves, k.opStatus.trans h.opStatus, fun hcs => k.cs (h.cs hcs)⟩

/-- A procedure that completes has closed every bracket it opened, and no procedure touches the host's moves. -/
def ClosesBracket (body : State → Run Unit) : Prop := ∀ s,
  (∃ t, body s = .ok () t ∧ Deasserts s t) ∨ (∃ t, body s = .abort t ∧ t.moves = s.moves)

theorem closesBracket_write {g : State → State} (hg : ∀ s, Deasserts s (g s)) :
    ClosesBracket (fun s => .ok () (g s)) := fun s => .inl ⟨g s, rfl, hg s⟩

theorem closesBracket_exchange (c : RomCmd) {g : Byte → State → State} (hg : ∀ r s, Deasserts s (g r s)) :
    ClosesBracket (fun s => (commandExchange c s).andThen fun r s => .ok () (g r s)) := by
  intro s
  beta_reduce
  obtain ⟨e, rp, dr, -, h⟩ | ⟨t, h, hk, -⟩ := commandExchange_cases c s <;> rw [h]
  · have hw := hg e.r1 { e.after c rp s with draws := dr }
    exact .inl ⟨_, rfl, hw.moves, hw.opStatus, fun _ => hw.cs rfl⟩
  · exact .inr ⟨t, rfl, hk.moves⟩

theorem closesBracket_attempt {g : Byte × Byte × Bool → State → State} (hg : ∀ r s, Deasserts s (g r s)) :
    ClosesBracket (fun s => (negAttempt s).andThen fun r s => .ok () (g r s)) := by
  intro s
  beta_reduce
  obtain ⟨a, rp, dr, -, h⟩ | ⟨t, h, hk, -⟩ := negAttempt_cases s <;> rw [h]
  · have hw := hg (a.app.r1, a.captured, a.sent) { a.after rp s with draws := dr }
    exact .inl ⟨_, rfl, hw.moves, hw.opStatus, fun _ => hw.cs rfl⟩
  · exact .inr ⟨t, rfl, hk.moves⟩

theorem closesBracket_readR1 : ClosesBracket readR1Proc := by
  intro s
  unfold readR1Proc
  obtain ⟨k, rp, dr, t, ⟨r1, -, h, rfl⟩ | ⟨-, h, rfl⟩⟩ := readR1_cases s <;> rw [h]
  · exact .inl ⟨_, rfl, rfl, rfl, id⟩
  · exact .inr ⟨_, rfl, rfl⟩

theorem closesBracket_readR3R7 (r1 : Byte) : ClosesBracket (readR3R7Proc r1) := by
  intro s
  unfold readR3R7Proc
  obtain ⟨rp, dr, t, ⟨-, h, rfl⟩ | ⟨-, h, p, rfl⟩ | ⟨-, h, ins, rs, -, -, rfl⟩⟩ := readR3R7_cases r1 s <;> rw [h]
  · exact .inl ⟨_, rfl, rfl, rfl, id⟩
  · exact .inl ⟨_, rfl, rfl, rfl, id⟩
  · exact .inr ⟨_, rfl, rfl⟩

theorem deasserts_ocrCheck (r1 : Byte) (s : State) : Deasserts s (ocrCheck r1 s) := by
  unfold ocrCheck
  split
  · exact ⟨rfl, rfl, id⟩
  · split
    · exact ⟨rfl, rfl, id⟩
    · split <;> exact ⟨rfl, rfl, id⟩

theorem deasserts_initIdle (fill : List Byte) (fails : List ExchangeScript) (last : ExchangeScript) (rest : List Reply)
    (s : State) : Deasserts s (initIdle fill fails last rest s) := ⟨rfl, rfl, fun _ => rfl⟩

theorem deasserts_initIf (fill : List Byte) (fails : List ExchangeScript) (ok e : ExchangeScript) (rest : List Reply)
    (s : State) : Deasserts s (initIf fill fails ok e rest s) :=
  (deasserts_initIdle fill fails ok [] s).trans ⟨rfl, rfl, fun _ => rfl⟩

theorem deasserts_initNeg (fill : List Byte) (fails : List ExchangeScript) (ok e : ExchangeScript) (neg : List AttemptScript)
    (last : AttemptScript) (rest : List Reply) (s : State) : Deasserts s (initNeg fill fails ok e neg last rest s) :=
  (deasserts_initIf fill fails ok e [] s).trans ⟨rfl, rfl, fun _ => rfl⟩

theorem deasserts_initOcr (sc : InitScript) (rest : List Reply) (s : State) : Deasserts s (initOcr sc rest s) :=
  (deasserts_initNeg sc.fill sc.idleFails sc.idleOk sc.ifCond sc.negFails sc.negOk [] s).trans ⟨rfl, rfl, fun _ => rfl⟩

/-- However INIT ends without a fault, its last exchange has closed its bracket. -/
theorem closesBracket_init : ClosesBracket initProc := by
  intro s
  have hfail (reason : InitOutcome) (u : State) (d : Nat) : Deasserts u (State.failInit reason { u with draws := d }) :=
    ⟨rfl, rfl, id⟩
  obtain ⟨fill, fails, last, rest, d, -, -, -, h⟩ | ⟨fill, fails, ok, e, reason, rest, d, -, -, -, -, -, -, h⟩ |
    ⟨fill, fails, ok, e, neg, last, rest, d, -, -, -, -, -, -, -, -, -, h⟩ | ⟨sc, rest, d, -, h⟩ |
    ⟨t, h, ha, -⟩ := initProc_cases s
  · exact .inl ⟨_, h, (deasserts_initIdle fill fails last rest s).trans (hfail _ _ d)⟩
  · exact .inl ⟨_, h, (deasserts_initIf fill fails ok e rest s).trans (hfail _ _ d)⟩
  · exact .inl ⟨_, h, (deasserts_initNeg fill fails ok e neg last rest s).trans (hfail _ _ d)⟩
  · have henter : Deasserts (initOcr sc rest s) (State.enter .readOcr { initOcr sc rest s with draws := d }) :=
      ⟨rfl, rfl, id⟩
    exact .inl ⟨_, h, ((deasserts_initOcr sc rest s).trans henter).trans (deasserts_ocrCheck sc.ocr.r1 _)⟩
  · exact .inr ⟨t, h, ha.moves⟩

theorem closesBracket_procOf (i : Instr) : ClosesBracket (procOf i) := by
  cases i with
  | encode idx arg crc => exact closesBracket_write fun _ => ⟨rfl, rfl, id⟩
  | readR1 => exact closesBracket_readR1
  | readR3R7 r1 => exact closesBracket_readR3R7 r1
  | decodeR1 | decodeR7 | decodeR3 => exact closesBracket_write fun _ => ⟨rfl, rfl, id⟩
  | goIdle | sendIfCond | readOcr => exact closesBracket_exchange _ fun _ _ => ⟨rfl, rfl, id⟩
  | appOpCond => exact closesBracket_attempt fun _ _ => ⟨rfl, rfl, id⟩
  | init => exact closesBracket_init
  | cmd0 | cmd8 | cmd55 | cmd58 => exact closesBracket_exchange _ fun _ _ => ⟨rfl, rfl, id⟩
  | acmd41 => exact closesBracket_attempt fun _ _ => ⟨rfl, rfl, id⟩

/-! ## An instruction keeps a settled state -/

theorem inBounds_of_settled {s : State} (hs : s.Settled) : s.InBounds := by
  obtain ⟨he, hseq, -, -, -, hcnt, hframe, -⟩ := hs
  exact inBounds_of_idle ⟨he, hseq⟩ ⟨hcnt, hframe⟩

/-- The parts of a settled state beside its bounds. -/
theorem settled_of_inBounds {s : State} (hb : s.InBounds) (he : s.eng ≠ .busy)
    (hforms : s.eng = .avail → s.cs = false ∧ s.respFormed = true) (hstatus : s.eng = .faulted ↔ s.opStatus = .faulted)
    (hvalid : s.rvalid = s.result.definedMask) (hc : s.OutcomeCoherent) : s.Settled :=
  ⟨he, (idle_of_inBounds hb he).2, hforms, hstatus, hvalid, (counted_of_inBounds hb).1, (counted_of_inBounds hb).2, hc⟩

theorem moves_of_closesBracket {body : State → Run Unit} (hb : ClosesBracket body) (s : State) :
    (body s).finish.moves = s.moves ∧ (body s).state.moves = s.moves := by
  obtain ⟨u, hu, hd⟩ | ⟨u, hu, hm⟩ := hb s <;> rw [hu]
  · exact ⟨hd.moves, hd.moves⟩
  · exact ⟨hm, hm⟩

theorem exec_moves {i : Instr} {s t : State} (h : exec i s = .next t) : t.moves = s.moves := by
  obtain he | ⟨-, rfl | rfl⟩ := exec_next_cases h
  · obtain ⟨o, -, rfl⟩ | ⟨-, rfl⟩ := exec_avail_run he h
    · exact (moves_of_closesBracket (closesBracket_procOf i) _).1
    · exact (moves_of_closesBracket (closesBracket_procOf i) s).2
  · rfl
  · rfl

/-- A procedure from a state with chip select deasserted and the response buffer formed: it completes and leaves them so, or it
aborts; INIT's results belong together either way. -/
theorem procOf_forms (i : Instr) {s : State} (hcs : s.cs = false) (hresp : s.respFormed = true) (hc : s.OutcomeCoherent) :
    (∃ t, procOf i s = .ok () t ∧ t.cs = false ∧ t.respFormed = true ∧ t.OutcomeCoherent ∧ t.opStatus = s.opStatus) ∨
    (∃ t, procOf i s = .abort t ∧ t.OutcomeCoherent) := by
  obtain ⟨t, ht, hr, hco⟩ | ⟨t, ht, hco⟩ := procOf_keeps i s hc
  · obtain ⟨u, hu, hd⟩ | ⟨u, hu, -⟩ := closesBracket_procOf i s <;> rw [ht] at hu <;> cases hu
    exact .inl ⟨t, ht, hd.cs hcs, hr hresp, hco, hd.opStatus⟩
  · exact .inr ⟨t, ht, hco⟩

/-- A transport fault leaves a settled machine in FAULTED (R212). -/
theorem settled_aborted {i : Instr} {s t : State} (h : procOf i s = .abort t) (hb : t.InBounds)
    (hvalid : s.rvalid = s.result.definedMask) (hc : t.OutcomeCoherent) : t.Settled := by
  obtain ⟨hf, hres, hrv⟩ := procOf_abort h
  exact settled_of_inBounds hb (by simp [hf.eng]) (by simp [hf.eng]) (by simp [hf.eng, hf.opStatus])
    (by rw [hrv, hres, hvalid]) hc

/-- A host operation run to its end. -/
theorem settled_operation {i : Instr} {o : BitVec 4} (ho : i.opcode = some o) {s t : State} (he : s.eng = .avail)
    (hs : s.Settled) (h : exec i s = .next t) : t.Settled := by
  have hb : t.InBounds := inBounds_exec (inBounds_of_settled hs) h
  obtain ⟨-, -, hforms, -, hvalid, -, -, hc⟩ := hs
  obtain ⟨hcs, hresp⟩ := hforms he
  rw [exec_avail ho he] at h
  obtain ⟨u, hu, hcs', hresp', hc', -⟩ | ⟨u, hu, hc'⟩ := procOf_forms i (s := s.accept o) hcs hresp hc <;>
    rw [hu] at h <;> cases h
  · exact settled_of_inBounds hb (by simp [State.complete]) (fun _ => ⟨hcs', hresp'⟩) (by simp [State.complete])
      (operation_completed ho (t := u) hu) hc'
  · exact settled_aborted hu hb hvalid hc'

/-- A ROM frame run alone (log 3). -/
theorem settled_frame {i : Instr} (ho : i.opcode = none) {s t : State} (he : s.eng = .avail) (hs : s.Settled)
    (h : exec i s = .next t) : t.Settled := by
  have hb : t.InBounds := inBounds_exec (inBounds_of_settled hs) h
  obtain ⟨hbusy, -, hforms, hstatus, hvalid, -, -, hc⟩ := hs
  obtain ⟨hcs, hresp⟩ := hforms he
  rw [exec_frame_avail ho he] at h
  obtain ⟨u, hu, hcs', hresp', hc', hst⟩ | ⟨u, hu, hc'⟩ := procOf_forms i hcs hresp hc <;> rw [hu] at h <;> cases h
  · obtain ⟨heng, hres, hrv⟩ := frame_completed ho hu
    exact settled_of_inBounds hb (by simp [heng, hbusy]) (fun _ => ⟨hcs', hresp'⟩) (by simp [heng, hst, hstatus])
      (by simp [hrv, hres, hvalid]) hc'
  · exact settled_aborted hu hb hvalid hc'

theorem settled_refuseFaulted {s : State} (he : s.eng = .faulted) (hs : s.Settled) : s.refuseFaulted.Settled := by
  obtain ⟨hbusy, hseq, hforms, -, hrest⟩ := hs
  exact ⟨hbusy, hseq, hforms, ⟨fun _ => rfl, fun _ => he⟩, hrest⟩

theorem settled_refuseIllegal {s : State} (he : s.eng = .avail) (hs : s.Settled) : s.refuseIllegal.Settled := by
  obtain ⟨hbusy, hseq, hforms, -, hrest⟩ := hs
  exact ⟨hbusy, hseq, hforms, by simp [he], hrest⟩

theorem settled_exec {i : Instr} {s t : State} (hs : s.Settled) (h : exec i s = .next t) : t.Settled := by
  obtain he | ⟨he, rfl | rfl⟩ := exec_next_cases h
  · cases ho : i.opcode with
    | some o => exact settled_operation ho he hs h
    | none => exact settled_frame ho he hs h
  · exact hs
  · exact settled_refuseFaulted he hs

/-! ## The step -/

theorem settled_rst (s : State) : s.rst.Settled :=
  ⟨by simp [State.rst, State.reset], rfl, fun _ => ⟨rfl, rfl⟩, by simp [State.rst, State.reset],
    (by decide : 0x00#8 = ResultReg.undef.definedMask), (by decide : State.reset.CountersInRange), rfl,
    (by decide : State.reset.OutcomeCoherent)⟩

/-- Every move but a start keeps a settled state, and no move adds to the moves to come. -/
theorem settled_runMove {m : Move} {s t : State} (hm : m.isStart = false) (hs : s.Settled) (h : runMove m s = .next t) :
    t.Settled ∧ t.moves = s.moves := by
  obtain rfl | ⟨rfl, he⟩ | ⟨rfl, he⟩ | ⟨i, hx⟩ | ⟨i, p, o, -, -, -, -, hstart⟩ | ⟨-, he, -⟩ | ⟨-, rfl⟩ := runMove_cases h
  · exact ⟨hs, rfl⟩
  · exact ⟨settled_refuseIllegal he hs, rfl⟩
  · exact ⟨settled_refuseFaulted he hs, rfl⟩
  · exact ⟨settled_exec hs hx, exec_moves hx⟩
  · simp [hm] at hstart
  · exact absurd he hs.1
  · exact ⟨settled_rst s, rfl⟩

/-- Settles O59: the next move is no start and keeps a settled state; with none left the engine waits. -/
theorem everyStepKeepsQuiet : Obligations.EveryStepKeepsQuiet := by
  rintro s t ⟨hs, hmoves⟩ h
  cases hm : s.moves with
  | nil =>
    simp only [step, hm] at h
    obtain ⟨ht, hrest⟩ := settled_runMove (m := .wait) rfl hs h
    exact ⟨ht, by rw [hrest, hm]; rfl⟩
  | cons m rest =>
    simp only [step, hm] at h
    simp only [hm, List.all_cons, Bool.and_eq_true, Bool.not_eq_true'] at hmoves
    obtain ⟨ht, hrest⟩ := settled_runMove (s := { s with moves := rest }) hmoves.1 hs h
    exact ⟨ht, by rw [hrest]; exact hmoves.2⟩

/-- Settles O58: the reset state is what `rst` leaves of it. -/
theorem resetMeetsTheInvariants : Obligations.ResetMeetsTheInvariants :=
  ⟨⟨settled_rst State.reset, rfl⟩, inBounds_rst State.reset⟩

end Sys2Proof.Machine
end
section
/-! O36 and O50: what a transport fault leaves of an instruction, and that the sequencer runs what `exec` does (10_state.md R23,
R25; 60_exceptions.md R212). -/

namespace Sys2Proof.Machine

/-! ## Whole operations and the sequencer -/

theorem stepping_acceptAt (p : Pos) (o : BitVec 4) (s : State) : Stepping (acceptAt p o s) := by
  simp [Stepping, acceptAt, State.goto, State.accept]

/-- Settles O50: the sequencer runs the procedure from its first step (`procOf_sim`), in BUSY until no step is left. -/
theorem theSequencerRunsWhatExecDoes : Obligations.TheSequencerRunsWhatExecDoes := by
  intro i p s he hp
  obtain ⟨o, ho⟩ := firstPos_opcode hp
  have hbegin : beginInstr i s = .next (acceptAt p o s) := by simp [beginInstr, he, hp, ho]
  have hexec : exec i s = .next (procOf i (s.accept o)).finish := exec_avail ho he
  obtain ⟨n, hn⟩ : Reaches (acceptAt p o s) (procOf i (s.accept o)).finish := procOf_sim hp (s.accept o)
  obtain ⟨-, hseq, -⟩ := operation_cases ho he hexec
  exact ⟨_, _, n, hbegin, hexec, hn, seqSteps_until (stepping_acceptAt p o s) hseq n hn⟩

/-! ## The trace of an instruction -/

theorem finish_trace (r : Run Unit) : r.finish.events = r.state.events ∧ r.finish.cs = r.state.cs := by
  cases r <;> exact ⟨rfl, rfl⟩

/-- Chip select is as the trace last drove it, however the instruction ends (R25). -/
theorem exec_traced {i : Instr} {s t : State} (h : exec i s = .next t) :
    ∃ evs, t.events = evs.reverse ++ s.events ∧ t.cs = csAfter s.cs evs := by
  obtain he | ⟨-, rfl | rfl⟩ := exec_next_cases h
  · obtain ⟨o, -, rfl⟩ | ⟨-, rfl⟩ := exec_avail_run he h
    · obtain ⟨evs, -, hev, hcs, -⟩ := traced_procOf i (s.accept o)
      obtain ⟨hfev, hfcs⟩ := finish_trace (procOf i (s.accept o))
      exact ⟨evs, hfev.trans hev, hfcs.trans hcs⟩
    · obtain ⟨evs, -, hev, hcs, -⟩ := traced_procOf i s
      exact ⟨evs, hev, hcs⟩
  · exact ⟨[], rfl, rfl⟩
  · exact ⟨[], rfl, rfl⟩

/-- An instruction that ends in AVAIL is a procedure that completed, from a state that differs in `op` and `eng` at most; where
that procedure aborts with other answers of the transport, the instruction ends so. -/
theorem exec_completed {i : Instr} {s t : State} (he : s.eng = .avail) (h : exec i s = .next t) (ht : t.eng = .avail) :
    ∃ op eng t', procOf i { s with op := op, eng := eng } = .ok () t' ∧ t'.events = t.events ∧
      ∀ rp u, procOf i { s with op := op, eng := eng, replies := rp } = .abort u →
        exec i { s with replies := rp } = .next u := by
  obtain ⟨o, ho, rfl⟩ | ⟨ho, rfl⟩ := exec_avail_run he h
  · cases hx : procOf i (s.accept o) with
    | ok a t' =>
      refine ⟨some o, .busy, t', hx, rfl, fun rp u hu => ?_⟩
      rw [exec_avail (s := { s with replies := rp }) ho he]
      exact congrArg (fun r : Run Unit => Host.Outcome.next r.finish) hu
    | abort u =>
      rw [hx, Run.finish_abort, (procOf_abort hx).1.eng] at ht
      cases ht
  · cases hx : procOf i s with
    | ok a t' =>
      refine ⟨s.op, s.eng, t', hx, rfl, fun rp u hu => ?_⟩
      rw [exec_frame_avail (s := { s with replies := rp }) ho he]
      exact congrArg (fun r : Run Unit => Host.Outcome.next r.state) hu
    | abort u =>
      rw [hx, Run.state_abort, (procOf_abort hx).1.eng] at ht
      cases ht

/-- Settles O36: the procedure is traced, so the in-bytes up to exchange `k` and a fault there leave the events before it. -/
theorem aTransportFaultLeavesWhatWasDone : Obligations.ATransportFaultLeavesWhatWasDone := by
  refine ⟨fun i s t h => exec_traced h, fun i s t evs k rest he h ht hevs hk => ?_⟩
  obtain ⟨op, eng, t', hx, hev', habort⟩ := exec_completed he h ht
  obtain ⟨l, -, hl, -, hreplay⟩ := traced_procOf i { s with op := op, eng := eng }
  obtain rfl : l = evs := by
    rw [hx, Run.state_ok, hev', hevs] at hl
    exact (List.reverse_injective (List.append_cancel_right hl)).symm
  obtain ⟨u, hu, huev, hucs, hurp, hud⟩ := (hreplay () t' hx).2 k rest s.draws hk
  obtain ⟨hf, hres, hrv⟩ := procOf_abort hu
  exact ⟨u, habort _ u hu, hf.eng, hf.opStatus, hf.seq, huev, hucs, hres, hrv, hurp, hud⟩

end Sys2Proof.Machine
end
section
/-! O12, O13, O51, O53, O54 and O55: what the host reads in each mode, and the moves it does not have while BUSY (10_state.md R40,
R41, R43; 20_memory.md R58, R60; 70_reset_and_hazards.md R230, R245). -/

namespace Sys2Proof.Machine

/-! ## The next move -/

section
variable {s : State} {m : Move} {rest : List Move}

theorem step_of_moves (hm : s.moves = m :: rest) : step s = runMove m { s with moves := rest } := by
  simp only [step, hm]

/-- From FAULTED no move but reset leads to another mode (R213). -/
theorem runMove_faulted_eng {t : State} (he : s.eng = .faulted) (h : runMove m s = .next t) (ht : t.eng ≠ .faulted) :
    m = .rst := by
  obtain rfl | ⟨rfl, -⟩ | ⟨rfl, -⟩ | ⟨i, hx⟩ | ⟨i, p, o, hav, -⟩ | ⟨-, hbusy, -⟩ | ⟨hrst, -⟩ := runMove_cases h
  · exact absurd he ht
  · exact absurd he ht
  · exact absurd he ht
  · obtain hav | ⟨-, rfl | rfl⟩ := exec_next_cases hx
    · simp [he] at hav
    · exact absurd he ht
    · exact absurd he ht
  · simp [he] at hav
  · simp [he] at hbusy
  · exact hrst

end

/-- Settles O13: `State.rst` is the reset state beside the fields that are no registers. -/
theorem resetGivesEveryRegisterItsValue : Obligations.ResetGivesEveryRegisterItsValue := by
  refine ⟨fun s rest hm => ⟨_, step_of_moves hm, ?_⟩, fun s t he h ht => ?_⟩
  · exact ⟨rfl, rfl, rfl, rfl, rfl, rfl, rfl, rfl, rfl, rfl, ⟨rfl, rfl, rfl, rfl, rfl⟩, rfl, rfl, rfl, rfl, rfl, rfl, rfl, rfl,
      rfl⟩
  · cases hm : s.moves with
    | nil =>
      have hstep : step s = .next s := by simp [step, hm, advance, he]
      rw [hstep] at h
      cases h
      exact absurd he ht
    | cons m rest =>
      rw [step_of_moves hm] at h
      exact ⟨rest, by rw [runMove_faulted_eng (s := { s with moves := rest }) he h ht]⟩

/-! ## The moves the host does not have while BUSY (R245) -/

section
variable {s : State} (he : s.eng = .busy)
include he

theorem presentIllegal_busy : presentIllegal s = .refused .operationInFlight := by simp [presentIllegal, he]

theorem presentRequest_busy (w : Request) : presentRequest w s = .refused .operationInFlight := by
  unfold presentRequest
  split
  · exact exec_busy he
  · exact presentIllegal_busy he

theorem presentStart_busy (w : Request) : presentStart w s = .refused .operationInFlight := by
  unfold presentStart
  split
  · simp [beginInstr, he]
  · exact presentIllegal_busy he

theorem presentResp_busy (k : RespKind) : presentResp k s = .refused .operationInFlight := by simp [presentResp, he]

theorem issueFrame_busy (c : RomCmd) : issueFrame (romFrame c).toWord s = .refused .operationInFlight := by
  have hdec : decode (.frame (romFrame c).toWord) = .ok (romInstr c) := by cases c <;> decide
  rw [issueFrame, hdec]
  exact exec_busy he

end

/-! ## Registers whose bits all hold a value -/

@[simp] theorem ofBits_eight_known (v : BitVec 8) : (RegView.ofBits 8 v).known = 0xFF#64 := rfl

theorem ofBits_extract {n : Nat} (v : BitVec n) {start len : Nat} (h : start + len ≤ 64) :
    (RegView.ofBits n v).value.extractLsb' start len = v.extractLsb' start len :=
  BitVec.extractLsb'_setWidth_of_le h

theorem ofBits_eight_getLsbD (v : BitVec 8) (k : Nat) : (RegView.ofBits 8 v).value.getLsbD k = v.getLsbD k := by
  by_cases hk : k < 8
  · simp [RegView.ofBits, show k < 64 by omega]
  · simp [RegView.ofBits, BitVec.getLsbD_of_ge v k (by omega)]

/-! ## STATUS (R40, R41) -/

theorem statusReg_eng (s : State) : (statusReg s).extractLsb' 0 2 = s.eng.code := BitVec.extractLsb'_append_eq_right

theorem statusReg_opStatus (s : State) : (statusReg s).extractLsb' 2 2 = s.opStatus.code := by
  simp only [statusReg, Nat.reduceLeDiff, Nat.reduceSub, BitVec.extractLsb'_append_eq_of_le,
    BitVec.extractLsb'_append_eq_right]

theorem statusReg_initState (s : State) : (statusReg s).extractLsb' 4 3 = s.initState.code := by
  simp only [statusReg, Nat.reduceLeDiff, Nat.reduceSub, BitVec.extractLsb'_append_eq_of_le,
    BitVec.extractLsb'_append_eq_right]

theorem statusReg_top (s : State) : (statusReg s).getLsbD 7 = false := by
  simp only [statusReg, BitVec.getLsbD_append]
  simp

theorem without_zero (v : RegView) : v.without 0#64 = v := by
  rw [RegView.without, BitVec.not_zero, BitVec.and_allOnes, BitVec.and_allOnes]

/-- STATUS as read in any mode: whole, but for the bits in flux while BUSY. -/
theorem hostRead_status (s : State) :
    hostRead 0 s = some ((RegView.ofBits 8 (statusReg s)).without (if s.eng = .busy then statusInFlux s else 0#64)) := by
  by_cases he : s.eng = .busy
  · rw [hostRead_busy_status he, if_pos he]
  · rw [hostRead_idle he, if_neg he, without_zero]
    rfl

theorem statusInFlux_init {s : State} (h : s.op = some 0xC#4) : statusInFlux s = 0x70#64 := if_pos h

theorem statusInFlux_other {s : State} (h : s.op ≠ some 0xC#4) : statusInFlux s = 0#64 := if_neg h

/-- INIT_STATE alone is hidden while INIT is in flight (log 19): the fields of STATUS beside it. -/
theorem without_initState_fields (s : State) :
    ((RegView.ofBits 8 (statusReg s)).without 0x70#64).value.extractLsb' 0 2 = s.eng.code ∧
    ((RegView.ofBits 8 (statusReg s)).without 0x70#64).value.extractLsb' 2 2 = s.opStatus.code ∧
    ((RegView.ofBits 8 (statusReg s)).without 0x70#64).value.getLsbD 7 = false := by
  have hones (x : BitVec 2) : x &&& 3#2 = x := BitVec.and_allOnes
  refine ⟨?_, ?_, ?_⟩
  · rw [RegView.without, BitVec.extractLsb'_and, ofBits_extract _ (by decide), statusReg_eng]
    exact hones _
  · rw [RegView.without, BitVec.extractLsb'_and, ofBits_extract _ (by decide), statusReg_opStatus]
    exact hones _
  · rw [RegView.without, BitVec.getLsbD_and, ofBits_eight_getLsbD, statusReg_top, Bool.false_and]

/-- The fields of STATUS when nothing is hidden. -/
theorem status_fields (s : State) :
    (RegView.ofBits 8 (statusReg s)).value.extractLsb' 0 2 = s.eng.code ∧
    (RegView.ofBits 8 (statusReg s)).value.extractLsb' 2 2 = s.opStatus.code ∧
    (RegView.ofBits 8 (statusReg s)).value.extractLsb' 4 3 = s.initState.code ∧
    (RegView.ofBits 8 (statusReg s)).value.getLsbD 7 = false := by
  simp only [ofBits_eight_getLsbD, ofBits_extract, Nat.reduceAdd, Nat.reduceLeDiff]
  exact ⟨statusReg_eng s, statusReg_opStatus s, statusReg_initState s, statusReg_top s⟩

/-! ## What a read does while BUSY -/

theorem and_not_eq_self_iff {w : Nat} (x m : BitVec w) : x &&& ~~~m = x ↔ x &&& m = 0#w := by
  refine ⟨fun h => ?_, fun h => BitVec.eq_of_getLsbD_eq fun i hi => ?_⟩
  · rw [← h, BitVec.and_assoc, BitVec.and_comm (~~~m), BitVec.and_not_self]
    exact BitVec.and_zero
  · have hbit := congrArg (·.getLsbD i) h
    simpa [hi] using hbit

/-- A register other than STATUS shows nothing while BUSY (R41). -/
theorem step_read_busy_other {s : State} {rest : List Move} {n : Nat} {use : BitVec 64} (he : s.eng = .busy)
    (hm : s.moves = .read n use :: rest) (h0 : n ≠ 0) (h10 : n ≤ 10) (huse : use ≠ 0#64) :
    step s = .fault .undefConsumed := by
  obtain ⟨v, hv⟩ := Option.isSome_iff_exists.1 ((hostReg_isSome n { s with moves := rest }).2 h10)
  have hread : hostRead n { s with moves := rest } = some RegView.undef := by
    rw [hostRead_busy_other (s := { s with moves := rest }) he h0, hv]
    rfl
  rw [step_read hm hread, if_neg]
  rw [RegView.undef, BitVec.and_zero]
  exact huse.symm

/-- A read of STATUS while BUSY uses its eight bits but those in flux (R41, R60). -/
theorem step_read_busy_status {s : State} {rest : List Move} {use : BitVec 64} (he : s.eng = .busy)
    (hm : s.moves = .read 0 use :: rest) :
    step s = if use &&& (0xFF#64 &&& ~~~statusInFlux s) = use then .next { s with moves := rest } else .fault .undefConsumed :=
  step_read hm (hostRead_busy_status (s := { s with moves := rest }) he)

/-- Settles O12. -/
theorem whileBusyThereIsNoOtherRequest : Obligations.WhileBusyThereIsNoOtherRequest := by
  intro s rest he
  refine ⟨fun w hm => ?_, fun w hm => ?_, fun k hm => ?_, fun c hm => ?_, fun n use hm h1 h10 huse => ?_,
    fun use hm hbits hinit => ?_, fun use hm hop huse => ?_⟩
  · rw [step_of_moves hm]
    exact presentRequest_busy (s := { s with moves := rest }) he w
  · rw [step_of_moves hm]
    exact presentStart_busy (s := { s with moves := rest }) he w
  · rw [step_of_moves hm]
    exact presentResp_busy (s := { s with moves := rest }) he k
  · rw [step_of_moves hm]
    exact issueFrame_busy (s := { s with moves := rest }) he c
  · exact step_read_busy_other he hm (by omega) h10 huse
  · rw [step_read_busy_status he hm, if_pos]
    rw [← BitVec.and_assoc, hbits, and_not_eq_self_iff]
    by_cases hop : s.op = some 0xC#4
    · rw [statusInFlux_init hop]
      exact hinit.resolve_left (fun h => h hop)
    · rw [statusInFlux_other hop]
      exact BitVec.and_zero
  · rw [step_read_busy_status he hm, if_neg]
    intro hknown
    rw [statusInFlux_init hop] at hknown
    refine huse ?_
    rw [← hknown, BitVec.and_assoc]
    exact BitVec.and_zero

/-! ## An operation in flight shows nothing of its writes (R60) -/

/-- An operation other than INIT starts outside INIT's labels. -/
theorem firstPos_ofInit {i : Instr} {p : Pos} {o : BitVec 4} (hp : firstPos i = some p) (ho : i.opcode = some o)
    (hinit : o ≠ 0xC#4) : p.ofInit = false := by
  cases i with
  | init => cases ho; exact absurd rfl hinit
  | encode | readR1 | readR3R7 | decodeR1 | decodeR7 | decodeR3 | goIdle | sendIfCond | appOpCond | readOcr =>
    cases hp
    rfl
  | cmd0 | cmd8 | cmd55 | acmd41 | cmd58 => cases hp

/-- Every register shows in flight what it showed at acceptance. -/
theorem hostRead_inFlight {i : Instr} {p : Pos} {o : BitVec 4} (hp : firstPos i = some p) (ho : i.opcode = some o)
    {s t : State} {n : Nat} (h : seqSteps n (acceptAt p o s) = .next t) (ht : t.eng = .busy) (k : Nat) :
    hostRead k t = hostRead k (acceptAt p o s) := by
  obtain ⟨hop, hst, hinit⟩ := veiled_seqSteps n (stepping_acceptAt p o s) h ht
  refine hostRead_busy_congr rfl ht hop hst (fun hne => (hinit ?_).1) k
  have hofInit : p.ofInit = false := firstPos_ofInit hp ho fun h => hne (congrArg some h)
  simp [acceptAt, State.goto, hofInit]

/-- Settles O51. -/
theorem readsChangeNothingAndStatusIsAlwaysReadable : Obligations.ReadsChangeNothingAndStatusIsAlwaysReadable := by
  refine ⟨fun s t n use rest hm h => ?_, fun s => ⟨_, hostRead_status s, ?_⟩,
    fun i p opc s t n k _ hp ho h ht => hostRead_inFlight hp ho h ht k⟩
  · cases hv : hostRead n { s with moves := rest } with
    | none => simp [step_of_moves hm, runMove, presentRead, hv] at h
    | some v =>
      rw [step_read hm hv] at h
      split at h
      · cases h; rfl
      · cases h
  · by_cases hflux : s.eng = .busy ∧ s.op = some 0xC#4
    · obtain ⟨he, hop⟩ := hflux
      rw [if_pos he, statusInFlux_init hop]
      obtain ⟨heng, hst, htop⟩ := without_initState_fields s
      exact ⟨heng, hst, htop, fun h => by simp [he, hop] at h, fun _ _ => (by decide : 0xFF#64 &&& ~~~0x70#64 = 0x8F#64)⟩
    · have hwhole : (if s.eng = .busy then statusInFlux s else 0#64) = 0#64 := by
        by_cases he : s.eng = .busy
        · rw [if_pos he, statusInFlux_other fun hop => hflux ⟨he, hop⟩]
        · exact if_neg he
      obtain ⟨heng, hst, hinit, htop⟩ := status_fields s
      rw [hwhole, without_zero]
      exact ⟨heng, hst, htop, fun _ => ⟨rfl, hinit⟩, fun he hop => absurd ⟨he, hop⟩ hflux⟩

/-! ## OCRINFO (R40, U4) -/

theorem ocrinfo_vwin (s : State) : (ocrinfoReg s).value.extractLsb' 0 9 = s.vwin.getD 0#9 ∧
    (ocrinfoReg s).known.extractLsb' 0 9 = if s.vwin.isSome then BitVec.allOnes 9 else 0#9 := by
  rw [ocrinfoReg, BitVec.extractLsb'_setWidth_of_le (by decide), BitVec.extractLsb'_setWidth_of_le (by decide),
    BitVec.extractLsb'_append_eq_right, BitVec.extractLsb'_append_eq_right]
  exact ⟨rfl, rfl⟩

theorem ocrinfo_ccs (s : State) : (ocrinfoReg s).value.getLsbD 10 = s.ccs.getD false ∧
    (ocrinfoReg s).known.getLsbD 10 = s.ccs.isSome := by
  simp only [ocrinfoReg, BitVec.getLsbD_setWidth, BitVec.getLsbD_append, BitVec.getLsbD_ofBool]
  simp

/-- The two valid bits have values in every state. -/
theorem ocrinfo_valid (s : State) :
    (ocrinfoReg s).value.getLsbD 9 = s.vwin.isSome ∧ (ocrinfoReg s).value.getLsbD 11 = s.ccs.isSome ∧
    (ocrinfoReg s).known.getLsbD 9 = true ∧ (ocrinfoReg s).known.getLsbD 11 = true := by
  simp only [ocrinfoReg, BitVec.getLsbD_setWidth, BitVec.getLsbD_append, BitVec.getLsbD_ofBool]
  simp

theorem ocrinfo_top (s : State) : (ocrinfoReg s).value.extractLsb' 12 4 = 0#4 ∧
    (ocrinfoReg s).known.extractLsb' 12 4 = 0xF#4 := by
  rw [ocrinfoReg, BitVec.extractLsb'_setWidth_of_le (by decide), BitVec.extractLsb'_setWidth_of_le (by decide)]
  simp only [Nat.reduceLeDiff, Nat.reduceSub, BitVec.extractLsb'_append_eq_of_le]
  exact ⟨rfl, rfl⟩

/-- Settles O53. -/
theorem ocrInfoShowsTheLatchedFields : Obligations.OcrInfoShowsTheLatchedFields := by
  intro s he
  obtain ⟨hvwinValid, hccsValid, hvwinKnown, hccsKnown⟩ := ocrinfo_valid s
  obtain ⟨htop, htopKnown⟩ := ocrinfo_top s
  obtain ⟨hvwin, hvwinMask⟩ := ocrinfo_vwin s
  obtain ⟨hccs, hccsMask⟩ := ocrinfo_ccs s
  refine ⟨ocrinfoReg s, hostRead_idle he 2, hvwinValid, hccsValid, htop, hvwinKnown, hccsKnown, htopKnown,
    fun w hw => ?_, fun hw => ?_, fun c hc => ?_, fun hc => ?_⟩
  · simp [hvwin, hvwinMask, hw]
  · simp [hvwinMask, hw]
  · rw [hccs, hccsMask, hc]
    exact ⟨rfl, rfl⟩
  · rw [hccsMask, hc]
    rfl

/-! ## OUTCOME, RESPV, RESP0 to RESP4, RESULT and RVALID (R40, R38) -/

theorem outcomeReg_code (s : State) : (outcomeReg s).extractLsb' 0 4 = s.outcome.code :=
  BitVec.extractLsb'_append_eq_right

theorem outcomeReg_top (s : State) : (outcomeReg s).extractLsb' 4 4 = 0#4 := BitVec.extractLsb'_append_eq_left

/-- RV and RTAG of RESPV. -/
theorem respvReg_bits (s : State) :
    (respvReg s).getLsbD 0 = s.resp.b0.isSome ∧ (respvReg s).getLsbD 1 = s.resp.b1.isSome ∧
    (respvReg s).getLsbD 2 = s.resp.b2.isSome ∧ (respvReg s).getLsbD 3 = s.resp.b3.isSome ∧
    (respvReg s).getLsbD 4 = s.resp.b4.isSome ∧ (respvReg s).getLsbD 5 = s.rtag := by
  simp only [respvReg, BitVec.getLsbD_append, BitVec.getLsbD_ofBool]
  simp

theorem respvReg_top (s : State) : (respvReg s).extractLsb' 6 2 = 0#2 := by
  simp only [respvReg, Nat.reduceLeDiff, Nat.reduceSub, BitVec.extractLsb'_append_eq_of_le]
  rfl

theorem respReg_some_value (b : Byte) : (respReg (some b)).value.extractLsb' 0 8 = b :=
  (ofBits_extract b (by decide)).trans BitVec.extractLsb'_eq_self

/-- RESULT shows each byte that holds a value in its place. -/
theorem resultReg_byte (r : ResultReg) {k : Nat} {b : Option Byte}
    (h : [r.b0, r.b1, r.b2, r.b3, r.b4, r.b5, r.b6, r.b7][k]? = some b) : r.bits.extractLsb' (8 * k) 8 = b.getD 0#8 := by
  have hk : k < 8 := by simpa using (List.getElem?_eq_some_iff.1 h).1
  interval_cases k <;> cases h <;>
    simp only [ResultReg.bits, Nat.reduceMul, Nat.reduceLeDiff, Nat.reduceSub, BitVec.extractLsb'_append_eq_of_le,
      BitVec.extractLsb'_append_eq_right, BitVec.extractLsb'_eq_self]

/-- Settles O54: outside BUSY a read gives the register's view, whose fields the lemmas above give. -/
theorem hostRegistersShowTheirValues : Obligations.HostRegistersShowTheirValues := by
  intro s he
  refine ⟨⟨_, hostRead_idle he 1, rfl, ?_, ?_⟩, ⟨_, hostRead_idle he 3, rfl, ?_⟩, fun k b hb => ?_,
    ⟨_, hostRead_idle he 9, fun k b hb => ⟨?_, ?_⟩⟩, ⟨_, hostRead_idle he 10, rfl, ?_⟩⟩
  · rw [ofBits_extract _ (by decide), outcomeReg_code]
  · rw [ofBits_extract _ (by decide), outcomeReg_top]
  · simp only [ofBits_eight_getLsbD, ofBits_extract, Nat.reduceAdd, Nat.reduceLeDiff]
    obtain ⟨h0, h1, h2, h3, h4, htag⟩ := respvReg_bits s
    exact ⟨h0, h1, h2, h3, h4, htag, respvReg_top s⟩
  · have hread : hostRead (4 + k) s = some (respReg b) := by
      rw [hostRead_idle he, Nat.add_comm]
      exact hostReg_resp hb
    refine ⟨respReg b, hread, ?_, ?_⟩
    · rintro x rfl
      exact ⟨respReg_some_known x, respReg_some_value x⟩
    · rintro rfl
      exact respReg_none_known
  · exact byteMask_byte s.rvalid (by simpa using (List.getElem?_eq_some_iff.1 hb).1)
  · rintro x rfl
    exact resultReg_byte s.result hb
  · exact (ofBits_extract s.rvalid (by decide)).trans BitVec.extractLsb'_eq_self

/-! ## Which registers there are (R58) -/

/-- Settles O55. -/
theorem thereAreElevenHostRegisters : Obligations.ThereAreElevenHostRegisters := by
  refine ⟨hostRead_isSome, fun n use rest s hn hm => ?_⟩
  have hnone : hostRead n { s with moves := rest } = none := by
    rw [← Option.not_isSome_iff_eq_none, hostRead_isSome]
    omega
  simp [step_of_moves hm, runMove, presentRead, hnone]

end Sys2Proof.Machine
end

section
/-! O1 to O4: decoding and encoding are inverse to each other, and the rows of the opcode table are what the decoder goes by
(30_encoding.md R80 to R82, R85, R105). -/

namespace Sys2Proof.Machine

/-! ## Decoding an encoded instruction -/

theorem decode_encode (i : Instr) : decode (encode i) = .ok i := by
  cases i with
  | encode | readR1 | readR3R7 | decodeR1 | decodeR7 | decodeR3 | goIdle | sendIfCond | appOpCond | readOcr | init =>
    simp [encode, decode, decodeRequest, accepted, opField_pack, rsvField_pack, idxField_pack, argField_pack, byteField_pack]
  | cmd0 | cmd8 | cmd55 | acmd41 | cmd58 => decide

/-- Settles O1: the fields of a packed word are its operands, and the five frames are those of the ROM. -/
theorem decodingAnEncodedInstructionGivesItBack : Obligations.DecodingAnEncodedInstructionGivesItBack := decode_encode

/-! ## Encoding a decoded word -/

theorem accepted_eq_ok_iff {w : Request} {z : Bool} {i j : Instr} :
    accepted w z i = .ok j ↔ rsvField w = 0#14 ∧ z = true ∧ i = j := by
  unfold accepted
  by_cases hr : rsvField w = 0#14 <;> cases z <;> simp [hr]

/-- A word that decodes has RSV = 0, and its instruction is packed from its other fields. -/
theorem decodeRequest_fields {w : Request} {i : Instr} (h : decodeRequest w = .ok i) :
    rsvField w = 0#14 ∧ encode i = .request (packRequest (opField w) (idxField w) (argField w) (byteField w)) := by
  have hop : opField w = BitVec.ofNat 4 (opField w).toNat := by simp
  simp only [decodeRequest] at h
  split at h
  case h_12 => cases h
  all_goals
    rename_i hn
    obtain ⟨hrsv, hunused, rfl⟩ := accepted_eq_ok_iff.1 h
    simp only [Bool.and_eq_true, beq_iff_eq] at hunused
    rw [hn] at hop
    exact ⟨hrsv, by simp [encode, hop, hunused]⟩

theorem decodeFrame_encode {f : FrameWord} {i : Instr} (h : decodeFrame f = .ok i) : encode i = .frame f := by
  unfold decodeFrame at h
  split_ifs at h <;> cases h <;> subst f <;> decide

theorem encode_of_decode {w : InWord} {i : Instr} (h : decode w = .ok i) : encode i = w := by
  cases w with
  | request w =>
    obtain ⟨hrsv, he⟩ := decodeRequest_fields h
    rw [he, pack_fields hrsv]
  | frame f => exact decodeFrame_encode h

/-- Settles O2. -/
theorem encodingADecodedWordGivesItBack : Obligations.EncodingADecodedWordGivesItBack := fun _ _ => encode_of_decode

/-- A word is an instruction's exactly when it decodes to it. -/
theorem decode_eq_ok_iff {w : InWord} {i : Instr} : decode w = .ok i ↔ encode i = w :=
  ⟨encode_of_decode, fun h => h ▸ decode_encode i⟩

/-! ## The rows (R82) -/

/-- A row of the opcode table by its operation code and the fields its operation uses (R81). -/
def fieldRow (m : String) (op : BitVec 4) (idx arg byte : Bool) : RequestRow where
  mnemonic := m
  code := op ++ 0#14 ++ 0#6 ++ 0#32 ++ 0#8
  mask := 0xF#4 ++ 0x3FFF#14 ++ (if idx then 0#6 else BitVec.allOnes 6) ++ (if arg then 0#32 else BitVec.allOnes 32) ++
    (if byte then 0#8 else BitVec.allOnes 8)

theorem requestRows_eq : requestRows =
    [ fieldRow "ENCODE" 0x1#4 true true true,
      fieldRow "READ_R1" 0x2#4 false false false,
      fieldRow "READ_R3R7" 0x3#4 false false true,
      fieldRow "DECODE_R1" 0x4#4 false false true,
      fieldRow "DECODE_R7" 0x5#4 false true false,
      fieldRow "DECODE_R3" 0x6#4 false true false,
      fieldRow "GO_IDLE" 0x8#4 false false false,
      fieldRow "SEND_IF_COND" 0x9#4 false false false,
      fieldRow "APP_OP_COND" 0xA#4 false false false,
      fieldRow "READ_OCR" 0xB#4 false false false,
      fieldRow "INIT" 0xC#4 false false false ] := by decide

/-- A word that meets a row is packed from the row's operation code and its own fields, of which those not used are 0. -/
theorem fieldRow_selects {m : String} {op : BitVec 4} {idx arg byte : Bool} {w : Request}
    (h : (fieldRow m op idx arg byte).selects w = true) :
    packRequest op (idxField w) (argField w) (byteField w) = w ∧ (idx = false → idxField w = 0#6) ∧
      (arg = false → argField w = 0#32) ∧ (byte = false → byteField w = 0#8) := by
  obtain ⟨hop, hrsv, hidx, harg, hbyte⟩ := (masked_iff w op _ _ _).1 (beq_iff_eq.1 h)
  refine ⟨by rw [← hop, pack_fields hrsv], ?_, ?_, ?_⟩
  · rintro rfl; exact BitVec.and_allOnes.symm.trans hidx
  · rintro rfl; exact BitVec.and_allOnes.symm.trans harg
  · rintro rfl; exact BitVec.and_allOnes.symm.trans hbyte

theorem row_of_mnemonic {r r' : RequestRow} (hr : r ∈ requestRows) (hr' : r' ∈ requestRows)
    (h : r.mnemonic = r'.mnemonic) : r = r' := by
  have hinj : ∀ r ∈ requestRows, ∀ r' ∈ requestRows, r.mnemonic = r'.mnemonic → r = r' := by decide
  exact hinj r hr r' hr' h

/-- A word that meets a row is the word of an operation of that row. -/
theorem exists_encode_of_selects {r : RequestRow} {w : Request} (hr : r ∈ requestRows) (h : r.selects w = true) :
    ∃ i, encode i = .request w ∧ i.mnemonic = r.mnemonic := by
  rw [requestRows_eq] at hr
  simp only [List.mem_cons, List.not_mem_nil, or_false] at hr
  obtain rfl | rfl | rfl | rfl | rfl | rfl | rfl | rfl | rfl | rfl | rfl := hr <;>
    obtain ⟨hw, hidx, harg, hbyte⟩ := fieldRow_selects h
  · exact ⟨.encode (idxField w) (argField w) (byteField w), congrArg _ hw, rfl⟩
  · rw [hidx rfl, harg rfl, hbyte rfl] at hw; exact ⟨.readR1, congrArg _ hw, rfl⟩
  · rw [hidx rfl, harg rfl] at hw; exact ⟨.readR3R7 (byteField w), congrArg _ hw, rfl⟩
  · rw [hidx rfl, harg rfl] at hw; exact ⟨.decodeR1 (byteField w), congrArg _ hw, rfl⟩
  · rw [hidx rfl, hbyte rfl] at hw; exact ⟨.decodeR7 (argField w), congrArg _ hw, rfl⟩
  · rw [hidx rfl, hbyte rfl] at hw; exact ⟨.decodeR3 (argField w), congrArg _ hw, rfl⟩
  · rw [hidx rfl, harg rfl, hbyte rfl] at hw; exact ⟨.goIdle, congrArg _ hw, rfl⟩
  · rw [hidx rfl, harg rfl, hbyte rfl] at hw; exact ⟨.sendIfCond, congrArg _ hw, rfl⟩
  · rw [hidx rfl, harg rfl, hbyte rfl] at hw; exact ⟨.appOpCond, congrArg _ hw, rfl⟩
  · rw [hidx rfl, harg rfl, hbyte rfl] at hw; exact ⟨.readOcr, congrArg _ hw, rfl⟩
  · rw [hidx rfl, harg rfl, hbyte rfl] at hw; exact ⟨.init, congrArg _ hw, rfl⟩

open Laws in
/-- The word of a host operation meets the row of its mnemonic. -/
theorem row_of_encode {i : Instr} {w : Request} (h : encode i = .request w) :
    ∃ r ∈ requestRows, r.mnemonic = i.mnemonic ∧ w &&& r.mask = r.code := by
  have hrow : RowMatches.Statement i := by
    cases i with
    | encode => exact RowMatches.encode ..
    | readR1 => exact RowMatches.readR1
    | readR3R7 => exact RowMatches.readR3R7 ..
    | decodeR1 => exact RowMatches.decodeR1 ..
    | decodeR7 => exact RowMatches.decodeR7 ..
    | decodeR3 => exact RowMatches.decodeR3 ..
    | goIdle => exact RowMatches.goIdle
    | sendIfCond => exact RowMatches.sendIfCond
    | appOpCond => exact RowMatches.appOpCond
    | readOcr => exact RowMatches.readOcr
    | init => exact RowMatches.init
    | cmd0 | cmd8 | cmd55 | acmd41 | cmd58 => cases h
  unfold RowMatches.Statement at hrow
  rw [h] at hrow
  exact hrow.2

/-- RSV and the fields the operation does not use are 0 in its word. -/
theorem unusedFields_of_encode {i : Instr} {w : Request} (h : encode i = .request w) :
    rsvField w = 0#14 ∧ (usesIdx i = false → idxField w = 0#6) ∧ (usesArg i = false → argField w = 0#32) ∧
    (usesByte i = false → byteField w = 0#8) := by
  cases i <;> cases h <;>
    simp [rsvField_pack, idxField_pack, argField_pack, byteField_pack, usesIdx, usesArg, usesByte]

theorem selects_iff_decode {w : Request} {r : RequestRow} (hr : r ∈ requestRows) :
    r.selects w = true ↔ ∃ i, decode (.request w) = .ok i ∧ i.mnemonic = r.mnemonic := by
  constructor
  · intro h
    obtain ⟨i, he, hm⟩ := exists_encode_of_selects hr h
    exact ⟨i, decode_eq_ok_iff.2 he, hm⟩
  · rintro ⟨i, hd, hm⟩
    obtain ⟨r', hr', hm', hsel⟩ := row_of_encode (encode_of_decode hd)
    obtain rfl := row_of_mnemonic hr hr' (hm.symm.trans hm'.symm)
    exact beq_iff_eq.2 hsel

/-- A word that no row of the table matches does not decode. -/
theorem decode_of_no_row {w : Request} (h : ∀ r ∈ requestRows, r.selects w = false) :
    ∃ e, decode (.request w) = .error e := by
  cases hd : decode (.request w) with
  | error e => exact ⟨e, rfl⟩
  | ok i =>
    obtain ⟨r, hr, -, hsel⟩ := row_of_encode (encode_of_decode hd)
    exact absurd (beq_iff_eq.2 hsel) (by simpa [RequestRow.selects] using h r hr)

/-- Settles O3: two rows that match a word have the mnemonic of the one instruction it decodes to. -/
theorem requestSelectsTheRowItMatches : Obligations.RequestSelectsTheRowItMatches := by
  refine ⟨fun w r hr => selects_iff_decode hr, fun w i hd => ?_, fun w r r' hr hr' h h' => ?_⟩
  · have he := encode_of_decode hd
    exact ⟨row_of_encode he, unusedFields_of_encode he⟩
  · obtain ⟨i, hd, hm⟩ := (selects_iff_decode hr).1 h
    obtain ⟨j, hd', hm'⟩ := (selects_iff_decode hr').1 h'
    obtain rfl : i = j := Except.ok.inj (hd.symm.trans hd')
    exact row_of_mnemonic hr hr' (hm.symm.trans hm')

/-- Settles O4, by running the decoder on the eight words. -/
theorem wordsOfTheSpecDecodeAsWritten : Obligations.WordsOfTheSpecDecodeAsWritten := by
  refine ⟨?_, ?_, ?_, ?_, ?_, ?_, ?_, ?_⟩ <;> decide

end Sys2Proof.Machine
end

section
/-! O8, O10 and O56: in which mode an instruction or a move runs, and how a request is accepted (30_encoding.md R83, R88;
60_exceptions.md R213, R214; 70_reset_and_hazards.md R240, R245). -/

namespace Sys2Proof.Machine

/-! ## Every instruction answers a next state outside BUSY -/

theorem exec_next_of_not_busy {s : State} (i : Instr) (he : s.eng ≠ .busy) : ∃ t, exec i s = .next t := by
  cases hm : s.eng with
  | avail =>
    cases ho : i.opcode with
    | some o => exact ⟨_, exec_avail ho hm⟩
    | none => exact ⟨_, exec_frame_avail ho hm⟩
  | busy => exact absurd hm he
  | faulted => exact ⟨_, exec_faulted hm⟩

/-- Settles O8. -/
theorem everyInstructionRunsUnlessBusy : Obligations.EveryInstructionRunsUnlessBusy :=
  fun i _ => ⟨exec_next_of_not_busy i, exec_busy⟩

/-! ## Acceptance (R83) -/

/-- A request that decodes is accepted in AVAIL with its OP field as the operation code. -/
theorem presentStart_accepts {s : State} {w : Request} {i : Instr} (he : s.eng = .avail) (hd : decode (.request w) = .ok i) :
    ∃ p, firstPos i = some p ∧ presentStart w s = .next (acceptAt p (opField w) s) := by
  obtain ⟨ho, hp⟩ := decodeRequest_opcode hd
  obtain ⟨p, hp⟩ := Option.isSome_iff_exists.1 hp
  exact ⟨p, hp, by simp [presentStart, hd, beginInstr, he, hp, ho]⟩

theorem presentStart_unmatched {s : State} {w : Request} (he : s.eng = .avail)
    (h : ∀ r ∈ requestRows, r.selects w = false) : presentStart w s = .next s.refuseIllegal := by
  obtain ⟨e, hd⟩ := decode_of_no_row h
  simp [presentStart, hd, presentIllegal, he]

theorem presentStart_faulted {s : State} (he : s.eng = .faulted) (w : Request) :
    presentStart w s = .next s.refuseFaulted := by
  unfold presentStart
  split
  · simp [beginInstr, he]
  · simp [presentIllegal, he]

/-- Settles O10: the step takes the move and presents its word. -/
theorem acceptanceStartsTheProcedure : Obligations.AcceptanceStartsTheProcedure := by
  intro s w rest hm
  have hstep : step s = presentStart w { s with moves := rest } := step_of_moves hm
  rw [hstep]
  exact ⟨fun i he hd => presentStart_accepts (s := { s with moves := rest }) he hd,
    fun he h => presentStart_unmatched (s := { s with moves := rest }) he h,
    fun he => presentStart_faulted (s := { s with moves := rest }) he w,
    fun he => presentStart_busy (s := { s with moves := rest }) he w⟩

/-! ## The pseudo-instructions on the response bytes (R88) -/

/-- The instruction `DECODE_R7 resp` or `DECODE_R3 resp` stands for, with the four bytes as its operand. -/
def decoderOf : RespKind → BitVec 32 → Instr
  | .r7 => .decodeR7
  | .r3 => .decodeR3

theorem presentResp_eq {s : State} (he : s.eng ≠ .busy) (k : RespKind) :
    presentResp k s = useDefined s.resp.payload fun p => exec (decoderOf k p.toArg) s := by
  unfold presentResp
  cases hm : s.eng with
  | busy => exact absurd hm he
  | avail | faulted => cases k <;> rfl

theorem payload_eq_none_iff {r : Resp} :
    r.payload = none ↔ r.b1 = none ∨ r.b2 = none ∨ r.b3 = none ∨ r.b4 = none := by
  obtain ⟨b0, b1, b2, b3, b4⟩ := r
  cases b1 <;> cases b2 <;> cases b3 <;> cases b4 <;> simp [Resp.payload]

/-- Settles O56: the move uses the four bytes when all hold values, and a byte that holds none is a fault of the host. -/
theorem decodeRespUsesTheResponseBytes : Obligations.DecodeRespUsesTheResponseBytes := by
  intro s rest he
  have hstep {k : RespKind} (hm : s.moves = .decodeResp k :: rest) :
      step s = useDefined s.resp.payload fun p => exec (decoderOf k p.toArg) { s with moves := rest } :=
    (step_of_moves hm).trans (presentResp_eq (s := { s with moves := rest }) he k)
  refine ⟨fun b1 b2 b3 b4 h1 h2 h3 h4 => ?_, fun hnone k hm => ?_⟩
  · have hp : s.resp.payload = some ⟨b1, b2, b3, b4⟩ := by simp [Resp.payload, h1, h2, h3, h4]
    rw [hp] at hstep
    exact ⟨hstep, hstep⟩
  · rw [hstep hm, payload_eq_none_iff.2 hnone]
    rfl

end Sys2Proof.Machine
end

section
/-! O57: what each line of the assembler becomes (30_encoding.md R81, R85, R87, R88). -/

namespace Sys2Proof.Machine

theorem assemble_of_wf {l : AsmLine} (h : l.wf = true) : assemble l = .ok (moveOfLine l) := if_pos h

/-- A line whose operands fit becomes the word of its instruction, and that word decodes to it. -/
theorem assemble_request {l : AsmLine} {w : Request} (i : Instr) (hwf : l.wf = true)
    (hl : moveOfLine l = moveOfWord (encode i)) (he : encode i = .request w) :
    assemble l = .ok (.request w) ∧ decode (.request w) = .ok i :=
  ⟨by rw [assemble_of_wf hwf, hl, he]; rfl, decode_eq_ok_iff.2 he⟩

theorem assemble_tooWide {l : AsmLine} (h : ¬ l.wf = true) : assemble l = .error .operandTooWide := if_neg h

/-! ## Which operands fit -/

theorem wf_encode_iff {idx arg crc : Nat} :
    (AsmLine.encode idx arg crc).wf = true ↔ idx < 64 ∧ arg < 2 ^ 32 ∧ crc < 256 := by
  simp [AsmLine.wf, fits, and_assoc]

theorem wf_readR3R7_iff {n : Nat} : (AsmLine.readR3R7 n).wf = true ↔ n < 256 := by simp [AsmLine.wf, fits]

theorem wf_decodeR1_iff {n : Nat} : (AsmLine.decodeR1 n).wf = true ↔ n < 256 := by simp [AsmLine.wf, fits]

theorem wf_decodeR7_iff {b1 b2 b3 b4 : Nat} :
    (AsmLine.decodeR7 b1 b2 b3 b4).wf = true ↔ b1 < 256 ∧ b2 < 256 ∧ b3 < 256 ∧ b4 < 256 := by
  simp [AsmLine.wf, fits, and_assoc]

theorem wf_decodeR3_iff {b1 b2 b3 b4 : Nat} :
    (AsmLine.decodeR3 b1 b2 b3 b4).wf = true ↔ b1 < 256 ∧ b2 < 256 ∧ b3 < 256 ∧ b4 < 256 := wf_decodeR7_iff

/-! ## The operands as fields -/

theorem toNat_ofNat_of_lt {n v : Nat} (h : v < 2 ^ n) : (BitVec.ofNat n v).toNat = v := by
  rw [BitVec.toNat_ofNat, Nat.mod_eq_of_lt h]

/-- Four operands that fit are the bytes of ARG, the first most significant (R85). -/
theorem toArg_payloadOfNats {b1 b2 b3 b4 : Nat} (h1 : b1 < 256) (h2 : b2 < 256) (h3 : b3 < 256) (h4 : b4 < 256) :
    (payloadOfNats b1 b2 b3 b4).toArg.toNat = b1 * 2 ^ 24 + b2 * 2 ^ 16 + b3 * 2 ^ 8 + b4 := by
  have hshift (x : Nat) {y : Nat} (hy : y < 2 ^ 8) : x <<< 8 ||| y = x * 2 ^ 8 + y := by
    rw [← Nat.shiftLeft_add_eq_or_of_lt hy, Nat.shiftLeft_eq]
  simp only [payloadOfNats, Payload.toArg, BitVec.toNat_append, toNat_ofNat_of_lt, Nat.reducePow, h1, h2, h3, h4]
  rw [hshift _ h2, hshift _ h3, hshift _ h4]
  omega

/-! ## The lines -/

theorem assemble_encode {idx arg crc : Nat} (hidx : idx < 64) (harg : arg < 2 ^ 32) (hcrc : crc < 256) :
    ∃ w, assemble (.encode idx arg crc) = .ok (.request w) ∧
      ∃ i a c, decode (.request w) = .ok (.encode i a c) ∧ i.toNat = idx ∧ a.toNat = arg ∧ c.toNat = crc := by
  obtain ⟨hasm, hdec⟩ := assemble_request (.encode (BitVec.ofNat 6 idx) (BitVec.ofNat 32 arg) (BitVec.ofNat 8 crc))
    (wf_encode_iff.2 ⟨hidx, harg, hcrc⟩) rfl rfl
  exact ⟨_, hasm, _, _, _, hdec, toNat_ofNat_of_lt hidx, toNat_ofNat_of_lt harg, toNat_ofNat_of_lt hcrc⟩

theorem assemble_readR3R7 {n : Nat} (hn : n < 256) :
    ∃ w b, assemble (.readR3R7 n) = .ok (.request w) ∧ decode (.request w) = .ok (.readR3R7 b) ∧ b.toNat = n := by
  obtain ⟨hasm, hdec⟩ := assemble_request (.readR3R7 (BitVec.ofNat 8 n)) (wf_readR3R7_iff.2 hn) rfl rfl
  exact ⟨_, _, hasm, hdec, toNat_ofNat_of_lt hn⟩

theorem assemble_decodeR1 {n : Nat} (hn : n < 256) :
    ∃ w b, assemble (.decodeR1 n) = .ok (.request w) ∧ decode (.request w) = .ok (.decodeR1 b) ∧ b.toNat = n := by
  obtain ⟨hasm, hdec⟩ := assemble_request (.decodeR1 (BitVec.ofNat 8 n)) (wf_decodeR1_iff.2 hn) rfl rfl
  exact ⟨_, _, hasm, hdec, toNat_ofNat_of_lt hn⟩

section
variable {b1 b2 b3 b4 : Nat} (h1 : b1 < 256) (h2 : b2 < 256) (h3 : b3 < 256) (h4 : b4 < 256)
include h1 h2 h3 h4

theorem assemble_decodeR7 : ∃ w a, assemble (.decodeR7 b1 b2 b3 b4) = .ok (.request w) ∧
    decode (.request w) = .ok (.decodeR7 a) ∧ a.toNat = b1 * 2 ^ 24 + b2 * 2 ^ 16 + b3 * 2 ^ 8 + b4 := by
  obtain ⟨hasm, hdec⟩ := assemble_request (.decodeR7 (payloadOfNats b1 b2 b3 b4).toArg)
    (wf_decodeR7_iff.2 ⟨h1, h2, h3, h4⟩) rfl rfl
  exact ⟨_, _, hasm, hdec, toArg_payloadOfNats h1 h2 h3 h4⟩

theorem assemble_decodeR3 : ∃ w a, assemble (.decodeR3 b1 b2 b3 b4) = .ok (.request w) ∧
    decode (.request w) = .ok (.decodeR3 a) ∧ a.toNat = b1 * 2 ^ 24 + b2 * 2 ^ 16 + b3 * 2 ^ 8 + b4 := by
  obtain ⟨hasm, hdec⟩ := assemble_request (.decodeR3 (payloadOfNats b1 b2 b3 b4).toArg)
    (wf_decodeR3_iff.2 ⟨h1, h2, h3, h4⟩) rfl rfl
  exact ⟨_, _, hasm, hdec, toArg_payloadOfNats h1 h2 h3 h4⟩

end

/-- ENCODE with a ROM name is ENCODE with the fields of that row, which fit (R88). -/
theorem assemble_encodeRom (c : RomCmd) :
    assemble (.encodeRom c) = assemble (.encode (romIndex c).toNat (romArg c).toNat (romCrc c).toNat) := by
  have hwf : (AsmLine.encode (romIndex c).toNat (romArg c).toNat (romCrc c).toNat).wf = true :=
    wf_encode_iff.2 ⟨(romIndex c).isLt, (romArg c).isLt, (romCrc c).isLt⟩
  rw [assemble_of_wf rfl, assemble_of_wf hwf]
  simp only [moveOfLine, BitVec.ofNat_toNat, BitVec.setWidth_eq]

/-- Settles O57, kind of line by kind of line. -/
theorem assembledLinesAreTheirRequestWords : Obligations.AssembledLinesAreTheirRequestWords := by
  refine ⟨fun idx arg crc => ⟨assemble_encode, fun h => assemble_tooWide ?_⟩,
    fun n => ⟨fun hn => ⟨assemble_readR3R7 hn, assemble_decodeR1 hn⟩,
      fun hn => ⟨assemble_tooWide ?_, assemble_tooWide ?_⟩⟩,
    fun b1 b2 b3 b4 => ⟨fun h1 h2 h3 h4 => ⟨assemble_decodeR7 h1 h2 h3 h4, assemble_decodeR3 h1 h2 h3 h4⟩,
      fun h => ⟨assemble_tooWide ?_, assemble_tooWide ?_⟩⟩,
    fun l i h => ?_, assemble_encodeRom, rfl, rfl⟩
  · rw [wf_encode_iff]; omega
  · rw [wf_readR3R7_iff]; omega
  · rw [wf_decodeR1_iff]; omega
  · rw [wf_decodeR7_iff]; omega
  · rw [wf_decodeR3_iff]; omega
  · simp only [List.mem_cons, Prod.mk.injEq, List.not_mem_nil, or_false] at h
    obtain ⟨rfl, rfl⟩ | ⟨rfl, rfl⟩ | ⟨rfl, rfl⟩ | ⟨rfl, rfl⟩ | ⟨rfl, rfl⟩ | ⟨rfl, rfl⟩ := h <;>
      exact ⟨_, assemble_request _ rfl rfl rfl⟩

end Sys2Proof.Machine
end

section
/-! O15 to O18: what ENCODE and the three decoders answer, bit by bit (30_encoding.md R85, R86; 40_command_encoder.md R103;
42_response_decoder.md R140 to R145). -/

namespace Sys2Proof.Machine

/-! ## Words put together from fields -/

theorem setWidth_eq_zero_append {v : Nat} (n : Nat) (x : BitVec v) : x.setWidth (n + v) = 0#n ++ x := by
  rw [BitVec.setWidth_eq_append (Nat.le_add_left ..)]
  exact BitVec.eq_of_toNat_eq (by simp)

/-- Widening two fields widens the upper one. -/
theorem setWidth_append_left {v : Nat} (n m : Nat) (x : BitVec v) (y : BitVec m) :
    (x ++ y).setWidth (n + m) = x.setWidth n ++ y := by
  ext i hi
  grind

theorem ofBool_getLsbD {w : Nat} (x : BitVec w) (k : Nat) : BitVec.ofBool (x.getLsbD k) = x.extractLsb' k 1 := by
  ext i hi
  grind

/-! ## The frame (R100, R101) -/

/-- Byte 0 is the start bit 0, the transmission bit 1 and the index. -/
theorem encodeFrame_b0 (idx : BitVec 6) (arg : BitVec 32) (crc : Byte) : (encodeFrame idx arg crc).b0 = 0b01#2 ++ idx := by
  have hidx : idx.setWidth 8 = 0#2 ++ idx := setWidth_eq_zero_append 2 idx
  rw [encodeFrame, hidx, show 0x40#8 = 0b01#2 ++ 0#6 by decide, BitVec.or_append, BitVec.or_zero, BitVec.zero_or]

/-- Byte 5 is the CRC input with its bit 0 forced to the stop bit. -/
theorem encodeFrame_b5 (idx : BitVec 6) (arg : BitVec 32) (crc : Byte) :
    (encodeFrame idx arg crc).b5 = crc.extractLsb' 1 7 ++ 1#1 := by
  have hcrc : crc.extractLsb' 1 7 ++ crc.extractLsb' 0 1 = crc :=
    (BitVec.extractLsb'_append_extractLsb'_eq_extractLsb' (by omega)).trans BitVec.extractLsb'_eq_self
  have hstop (x : BitVec 1) : x ||| 1#1 = 1#1 := BitVec.or_allOnes
  calc (encodeFrame idx arg crc).b5 = (crc.extractLsb' 1 7 ++ crc.extractLsb' 0 1) ||| (0#7 ++ 1#1) := by rw [hcrc]; rfl
    _ = crc.extractLsb' 1 7 ++ 1#1 := by rw [BitVec.or_append, BitVec.or_zero, hstop]

/-- The frame as one word: its bytes of the argument are the argument (R70). -/
theorem toWord_encodeFrame (idx : BitVec 6) (arg : BitVec 32) (crc : Byte) :
    (encodeFrame idx arg crc).toWord = packFrame idx arg (crc.extractLsb' 1 7) := by
  rw [Frame.toWord, encodeFrame_b0, encodeFrame_b5, packFrame]
  simp only [encodeFrame]
  ext i hi
  grind

/-- The result word of ENCODE (R86, R103). -/
theorem encodeResult_eq (idx : BitVec 6) (arg : BitVec 32) (crc : Byte) : (encodeFrame idx arg crc).toWord.setWidth 64 =
    0#16 ++ 0b01#2 ++ idx ++ arg ++ crc.extractLsb' 1 7 ++ 1#1 := by
  rw [toWord_encodeFrame, packFrame, setWidth_append_left 63 1, setWidth_append_left 56 7, setWidth_append_left 24 32,
    setWidth_append_left 18 6, show (0#1 ++ 1#1).setWidth 18 = 0#16 ++ 0b01#2 by decide]

/-! ## The decoded fields -/

/-- The flags put together again are the byte (R141). -/
theorem toByte_statusFlags (b : Byte) : (statusFlags b).toByte = b := by
  simp only [statusFlags, StatusFlags.toByte, ofBool_getLsbD]
  repeat rw [BitVec.extractLsb'_append_extractLsb'_eq_extractLsb' (by omega)]
  exact BitVec.extractLsb'_eq_self

theorem argPayload_append (b1 b2 b3 b4 : Byte) : argPayload (b1 ++ b2 ++ b3 ++ b4) = ⟨b1, b2, b3, b4⟩ := by
  simp only [argPayload, Nat.reduceLeDiff, Nat.reduceSub, BitVec.extractLsb'_append_eq_of_le,
    BitVec.extractLsb'_append_eq_right, BitVec.extractLsb'_eq_self]

theorem voltageAccepted_code (v : BitVec 5) : (voltageAccepted v).code =
    if v = 0x01#5 then 0#3 else if v = 0x02#5 then 1#3 else if v = 0x04#5 then 2#3 else if v = 0x08#5 then 3#3 else 4#3 := by
  unfold voltageAccepted
  split_ifs <;> rfl

/-- The result word of DECODE_R7 by its fields (R86). -/
theorem interfaceCondition_toResult (f : InterfaceCondition) :
    f.toResult = 0#48 ++ f.echo ++ 0#1 ++ f.vacc.code ++ f.version := by
  rw [InterfaceCondition.toResult, setWidth_append_left 60 4, setWidth_append_left 57 3, setWidth_append_left 56 1,
    setWidth_eq_zero_append 48]

/-- The result word of DECODE_R3 by its fields (R86). -/
theorem decodeR3Result_eq (f : OperatingCondition) (ccsValid ccsBit : Bool) : decodeR3Result f ccsValid ccsBit =
    0#47 ++ f.window ++ 0#5 ++ BitVec.ofBool ccsBit ++ BitVec.ofBool ccsValid ++ BitVec.ofBool f.powerUpComplete := by
  rw [decodeR3Result, setWidth_append_left 63 1, setWidth_append_left 62 1, setWidth_append_left 61 1,
    setWidth_append_left 56 5, setWidth_eq_zero_append 47]

/-- Capacity support is the power-up bit, or 0 without a value: either way bit 6 of byte 1 (R145). -/
theorem operatingCondition_ccsBit (p : Payload) : (operatingCondition p).ccsBit = p.b1.getLsbD 6 := by
  unfold OperatingCondition.ccsBit operatingCondition
  cases p.b1.getLsbD 6 <;> rfl

theorem operatingCondition_toResult (p : Payload) : (operatingCondition p).toResult =
    0#47 ++ p.b2 ++ p.b3.extractLsb' 7 1 ++ 0#5 ++ p.b1.extractLsb' 6 1 ++ p.b1.extractLsb' 6 1 ++ p.b1.extractLsb' 6 1 := by
  rw [OperatingCondition.toResult, operatingCondition_ccsBit, decodeR3Result_eq]
  have hwindow : 0#47 ++ (p.b2 ++ p.b3.extractLsb' 7 1) = 0#47 ++ p.b2 ++ p.b3.extractLsb' 7 1 := BitVec.append_assoc.symm
  simp only [operatingCondition, ofBool_getLsbD, hwindow]

/-! ## The operations -/

/-- Settles O15. -/
theorem encodeAnswersItsFrame : Obligations.EncodeAnswersItsFrame := by
  intro idx arg crc s he
  have hframe : encodeFrame idx arg crc = ⟨0b01#2 ++ idx, arg.extractLsb' 24 8, arg.extractLsb' 16 8, arg.extractLsb' 8 8,
      arg.extractLsb' 0 8, crc.extractLsb' 1 7 ++ 1#1⟩ := by
    rw [← encodeFrame_b0 idx arg crc, ← encodeFrame_b5 idx arg crc]
    rfl
  refine ⟨decode_encode (.encode idx arg crc), ?_⟩
  rw [exec_avail rfl he, procOf, encodeProc, encodeResult_eq, hframe]
  rfl

/-- Settles O16. -/
theorem decodeR1AnswersTheFlags : Obligations.DecodeR1AnswersTheFlags := by
  intro b s he
  refine ⟨decode_encode (.decodeR1 b), rfl, ?_⟩
  rw [exec_avail rfl he, procOf, toByte_statusFlags, setWidth_eq_zero_append 56]
  rfl

/-- Settles O17. -/
theorem decodeR7AnswersTheFields : Obligations.DecodeR7AnswersTheFields := by
  intro b1 b2 b3 b4 s he
  refine ⟨decode_encode (.decodeR7 (b1 ++ b2 ++ b3 ++ b4)), ?_⟩
  rw [exec_avail rfl he, procOf, argPayload_append, interfaceCondition_toResult]
  simp only [interfaceCondition, voltageAccepted_code]
  rfl

/-- Settles O18. -/
theorem decodeR3AnswersTheFields : Obligations.DecodeR3AnswersTheFields := by
  intro b1 b2 b3 b4 s he
  refine ⟨decode_encode (.decodeR3 (b1 ++ b2 ++ b3 ++ b4)), ?_⟩
  rw [exec_avail rfl he, procOf, argPayload_append, operatingCondition_toResult]
  rfl

end Sys2Proof.Machine
end

section
/-! O20 and O22 to O25: READ_R1 and READ_R3R7 by the transport's answers, and what a transport fault in them leaves
(41_response_reader.md R120 to R126; 60_exceptions.md R212). -/

namespace Sys2Proof.Machine

/-! ## READ_R1 -/

theorem idleExchanges_replicate (k : Nat) (b : Byte) :
    idleExchanges (List.replicate k b) = List.replicate k (Event.x Config.idleFill b) := List.map_replicate

/-- The exchanges of a poll, newest first. -/
theorem reverse_idleExchanges_pollIns (k : Nat) (r1 : Byte) : (idleExchanges (pollIns k r1)).reverse =
    .x 0xFF#8 r1 :: List.replicate k (.x 0xFF#8 0xFF#8) := by
  rw [pollIns, idleExchanges_append, idleExchanges_replicate, List.reverse_append, List.reverse_replicate]
  rfl

/-- Settles O20. -/
theorem readR1ReturnsTheByteThatStopsThePoll : Obligations.ReadR1ReturnsTheByteThatStopsThePoll := by
  intro k r1 rest s he hk hstop hr
  have hp : Polled k r1 = true :=
    polled_iff.2 ⟨Nat.succ_le_succ hk, hstop.imp_right fun h => by rw [h]; rfl⟩
  have ha : (s.accept 0x2#4).Answers (pollIns k r1) rest := by simp [State.Answers, pollIns, Config.idleFill, hr]
  rw [exec_avail rfl he, procOf, readR1Proc, readR1_answered hp ha, Run.andThen_ok, Run.finish_ok,
    reverse_idleExchanges_pollIns, setWidth_eq_zero_append 56]
  rfl

/-- A fault after `k` idle-fill bytes ends the poll, with the count and the events of the polls before it. -/
theorem pollLoop_faulted (k : Nat) :
    ∀ (left : Nat) (rest : List Reply) (s : State), k < left →
      s.replies = List.replicate k (.byte Config.idleFill) ++ .fault :: rest →
      pollLoop left s =
        .abort { s with pollCnt := s.pollCnt + BitVec.ofNat 4 k, replies := rest, eng := .faulted, opStatus := .faulted,
                        seq := none, events := List.replicate k (.x Config.idleFill Config.idleFill) ++ s.events } := by
  induction k with
  | zero =>
    intro left rest s hl hr
    obtain ⟨left, rfl⟩ := Nat.exists_eq_add_one_of_ne_zero (Nat.ne_zero_of_lt hl)
    rw [pollLoop, xchg_fault _ hr, Run.andThen_abort]
    simp
  | succ k ih =>
    intro left rest s hl hr
    obtain ⟨left, rfl⟩ := Nat.exists_eq_add_one_of_ne_zero (Nat.ne_zero_of_lt hl)
    rw [List.replicate_succ, List.cons_append] at hr
    rw [pollLoop, xchg_byte _ hr, Run.andThen_ok, if_neg (by simp), ih left rest _ (by omega) rfl]
    simp only [State.countPoll, ofNat_count, List.replicate_succ', List.append_assoc, List.cons_append, List.nil_append]

/-- Settles O22. -/
theorem readR1FaultKeepsWhatWasDone : Obligations.ReadR1FaultKeepsWhatWasDone := by
  intro k rest s he hk hr
  have hpoll := pollLoop_faulted k Config.r1PollLimit rest { s.accept 0x2#4 with pollCnt := 0#4 } (Nat.lt_succ_of_le hk) hr
  rw [exec_avail rfl he, procOf, readR1Proc, readR1, hpoll, Run.andThen_abort, Run.finish_abort]
  simp only [BitVec.zero_add]
  rfl

/-! ## READ_R3R7 -/

/-- Settles O23: a status above 1 short-circuits. -/
theorem readR3R7ShortCircuits : Obligations.ReadR3R7ShortCircuits := by
  intro r1 s he hr1
  have hshort : r1 > 0x01#8 := by bv_omega
  rw [exec_avail rfl he, procOf, readR3R7Proc, readR3R7_short _ hshort, Run.andThen_ok, writePack5_short rfl]
  rfl

/-- Settles O24. -/
theorem readR3R7TakesFourBytesAsTheyCome : Obligations.ReadR3R7TakesFourBytesAsTheyCome := by
  intro r1 b1 b2 b3 b4 rest s he hr1 hr
  have ha : (s.accept 0x3#4).Answers (Payload.bytes ⟨b1, b2, b3, b4⟩) rest := hr
  rw [exec_avail rfl he, procOf, readR3R7Proc, readR3R7_answered (BitVec.not_lt.2 hr1) ha, Run.andThen_ok,
    writePack5_full rfl]
  rfl

/-- A fault after some of the four payload bytes: those that came are stored, the others are as before (R125). -/
theorem readPayload_faulted {ins : List Byte} {rest : List Reply} {s : State} (hl : ins.length ≤ 3)
    (h : s.replies = ins.map Reply.byte ++ .fault :: rest) :
    readPayload s =
      .abort { s with resp := ⟨s.resp.b0, ins[0]?.or s.resp.b1, ins[1]?.or s.resp.b2, ins[2]?.or s.resp.b3, s.resp.b4⟩,
                      replies := rest, eng := .faulted, opStatus := .faulted, seq := none,
                      events := (idleExchanges ins).reverse ++ s.events } := by
  match ins, hl with
  | [], _ =>
    rw [readPayload, xchg_fault _ h]
    rfl
  | [b1], _ =>
    rw [readPayload, xchg_byte _ h, Run.andThen_ok, xchg_fault _ rfl]
    rfl
  | [b1, b2], _ =>
    rw [readPayload, xchg_byte _ h, Run.andThen_ok, xchg_byte _ rfl, Run.andThen_ok, xchg_fault _ rfl]
    rfl
  | [b1, b2, b3], _ =>
    rw [readPayload, xchg_byte _ h, Run.andThen_ok, xchg_byte _ rfl, Run.andThen_ok, xchg_byte _ rfl, Run.andThen_ok,
      xchg_fault _ rfl]
    rfl

/-- Settles O25. -/
theorem readR3R7FaultKeepsTheBytesBefore : Obligations.ReadR3R7FaultKeepsTheBytesBefore := by
  intro r1 ins rest s he hr1 hl hr
  have hpay := readPayload_faulted (s := (s.accept 0x3#4).openResp r1) hl hr
  rw [exec_avail rfl he, procOf, readR3R7Proc, readR3R7, if_neg (BitVec.not_lt.2 hr1), hpay, Run.andThen_abort,
    Run.finish_abort]
  rfl

end Sys2Proof.Machine
end

section
/-! O26 to O32: the command operations and the ROM frames by the card's answers, and that the operating-condition request follows
its prefix (43_command_exchange.md R160 to R166; 30_encoding.md R78). -/

namespace Sys2Proof.Machine

/-! ## The response of an exchange -/

theorem hasPayload_long {c : RomCmd} (hc : romShort c = false) (e : ExchangeScript) :
    e.hasPayload c = decide (e.r1 ≤ 0x01#8) := by
  rw [ExchangeScript.hasPayload, hc, Bool.not_false, Bool.true_and, ← decide_not]
  exact decide_eq_decide.2 BitVec.not_lt

theorem resp_short {c : RomCmd} (hc : romShort c = true) (e : ExchangeScript) :
    e.resp c = ⟨some e.r1, none, none, none, none⟩ := by
  simp [ExchangeScript.resp, hasPayload_short hc]

theorem resp_long {c : RomCmd} (hc : romShort c = false) (e : ExchangeScript) : e.resp c =
    if e.r1 ≤ 0x01#8 then ⟨some e.r1, some e.payload.b1, some e.payload.b2, some e.payload.b3, some e.payload.b4⟩
    else ⟨some e.r1, none, none, none, none⟩ := by
  simp [ExchangeScript.resp, hasPayload_long hc]

/-- PACK5 of the response of a command that elicits R3 or R7 (R86). -/
theorem writePack5_after {c : RomCmd} (hc : romShort c = false) (e : ExchangeScript) (rest : List Reply) (s : State) :
    (e.after c rest s).writePack5 = { e.after c rest s with
      result := if e.r1 ≤ 0x01#8 then
          ⟨some e.payload.b4, some e.payload.b3, some e.payload.b2, some e.payload.b1, some e.r1, some 0#8, some 0#8, some 0#8⟩
        else ⟨none, none, none, none, some e.r1, some 0#8, some 0#8, some 0#8⟩,
      rvalid := if e.r1 ≤ 0x01#8 then 0xFF#8 else 0xF0#8 } := by
  have hresp : (e.after c rest s).resp = _ := resp_long hc e
  by_cases hr : e.r1 ≤ 0x01#8
  · simp only [hr, if_true] at hresp ⊢
    exact writePack5_full hresp
  · simp only [hr, if_false] at hresp ⊢
    exact writePack5_short hresp

/-! ## The command operations -/

/-- Settles O26. -/
theorem goIdleAnswersTheStatus : Obligations.GoIdleAnswersTheStatus := by
  intro e rest s he hp ha
  rw [exec_avail rfl he, procOf, goIdleProc, commandExchange_answered (s := s.accept 0x8#4) hp ha, Run.andThen_ok,
    Run.finish_ok, setWidth_eq_zero_append 56, ExchangeScript.after, resp_short rfl]
  rfl

/-- The response of SEND_IF_COND and READ_OCR: that of the exchange, packed. -/
theorem fullResponseProc_answered {c : RomCmd} {e : ExchangeScript} {rest : List Reply} {s : State}
    (hp : Polled e.idle e.r1 = true) (ha : s.Answers (e.ins c) rest) :
    fullResponseProc c s = .ok () (e.after c rest s).writePack5 := by
  rw [fullResponseProc, commandExchange_answered hp ha, Run.andThen_ok]

/-- Settles O27. -/
theorem sendIfCondAnswersTheResponse : Obligations.SendIfCondAnswersTheResponse := by
  intro e rest s he hp ha
  rw [exec_avail rfl he, procOf, fullResponseProc_answered (s := s.accept 0x9#4) hp ha, Run.finish_ok, writePack5_after rfl,
    ExchangeScript.after, resp_long rfl]
  rfl

/-- Settles O28. -/
theorem readOcrAnswersTheResponse : Obligations.ReadOcrAnswersTheResponse := by
  intro e rest s he hp ha
  rw [exec_avail rfl he, procOf, fullResponseProc_answered (s := s.accept 0xB#4) hp ha, Run.finish_ok, writePack5_after rfl,
    ExchangeScript.after, resp_long rfl]
  rfl

/-! ## One attempt by its prefix status (R162) -/

/-- The result word of APP_OP_COND by its fields (R86). -/
theorem attemptResult_eq (sent : Bool) (s55 captured : Byte) :
    attemptResult sent s55 captured = 0#47 ++ BitVec.ofBool sent ++ s55 ++ captured := by
  rw [attemptResult, setWidth_append_left 56 8, setWidth_append_left 48 8, setWidth_eq_zero_append 47]

/-- A prefix status below 2: the request follows at once. -/
theorem negAttempt_sent {a r : ExchangeScript} {rest : List Reply} {s : State} (hs : a.r1 < 0x02#8)
    (hpa : Polled a.idle a.r1 = true) (hpr : Polled r.idle r.r1 = true)
    (h : s.Answers (a.ins .appCmd ++ r.ins .opCond) rest) : negAttempt s = .ok (a.r1, r.r1, true)
      { s with cs := false, frame := some (romFrame .opCond), pollCnt := BitVec.ofNat 4 (r.idle + 1), rtag := false,
               resp := ⟨some r.r1, none, none, none, none⟩, captured := some r.r1, replies := rest,
               events := (a.events .appCmd ++ r.events .opCond).reverse ++ s.events } := by
  have hsent : AttemptScript.sent ⟨a, r⟩ = true := by simp [AttemptScript.sent, hs]
  rw [negAttempt_answered (a := ⟨a, r⟩) (by simp [AttemptScript.polled, hpa, hpr])
    (by simpa [AttemptScript.ins, hsent] using h)]
  simp only [AttemptScript.after, AttemptScript.captured, AttemptScript.last, AttemptScript.lastCmd, AttemptScript.events, hsent,
    if_true]

/-- A prefix status of 2 or more: no request. -/
theorem negAttempt_notSent {a : ExchangeScript} {rest : List Reply} {s : State} (hs : 0x02#8 ≤ a.r1)
    (hpa : Polled a.idle a.r1 = true) (h : s.Answers (a.ins .appCmd) rest) : negAttempt s = .ok (a.r1, a.r1, false)
      { s with cs := false, frame := some (romFrame .appCmd), pollCnt := BitVec.ofNat 4 (a.idle + 1), rtag := false,
               resp := ⟨some a.r1, none, none, none, none⟩, captured := some a.r1, replies := rest,
               events := (a.events .appCmd).reverse ++ s.events } := by
  have hsent : AttemptScript.sent ⟨a, a⟩ = false := by simpa [AttemptScript.sent] using hs
  rw [negAttempt_answered (a := ⟨a, a⟩) (by simp [AttemptScript.polled, hpa]) (by simpa [AttemptScript.ins, hsent] using h)]
  simp [AttemptScript.after, AttemptScript.captured, AttemptScript.last, AttemptScript.lastCmd, AttemptScript.events, hsent]

/-- Settles O29. -/
theorem appOpCondSendsTheRequestAfterAGoodPrefix : Obligations.AppOpCondSendsTheRequestAfterAGoodPrefix := by
  intro a r rest s he hs hpa hpr ha
  rw [exec_avail rfl he, procOf, appOpCondProc, negAttempt_sent (s := s.accept 0xA#4) hs hpa hpr ha, Run.andThen_ok,
    Run.finish_ok, attemptResult_eq]
  rfl

/-- Settles O30. -/
theorem appOpCondSendsNoRequestAfterABadPrefix : Obligations.AppOpCondSendsNoRequestAfterABadPrefix := by
  intro a rest s he hs hpa ha
  rw [exec_avail rfl he, procOf, appOpCondProc, negAttempt_notSent (s := s.accept 0xA#4) hs hpa ha, Run.andThen_ok,
    Run.finish_ok, attemptResult_eq]
  rfl

/-! ## The ROM frames (log 3) -/

/-- A ROM row but the operating-condition request runs the exchange of its row. -/
theorem exec_romInstr {c : RomCmd} {s : State} (hc : c ≠ .opCond) (he : s.eng = .avail) :
    exec (romInstr c) s = .next (romProc c s).state := by
  cases c with
  | opCond => exact absurd rfl hc
  | goIdle | ifCond | appCmd | readOcr => exact exec_frame_avail rfl he

theorem resp_eq (c : RomCmd) (e : ExchangeScript) : e.resp c =
    if romShort c = false ∧ e.r1 ≤ 0x01#8 then
      ⟨some e.r1, some e.payload.b1, some e.payload.b2, some e.payload.b3, some e.payload.b4⟩
    else ⟨some e.r1, none, none, none, none⟩ := by
  cases hc : romShort c with
  | true => simp [resp_short hc]
  | false => simp [resp_long hc]

/-- Settles O31. -/
theorem romFramesRunTheirExchange : Obligations.RomFramesRunTheirExchange := by
  refine ⟨fun c e rest s hc he hp ha => ?_, fun a r rest s he hs hpa hpr ha => ?_, fun a rest s he hs hpa ha => ?_⟩
  · rw [exec_romInstr hc he, romProc, Run.state_dropAnswer, commandExchange_answered hp ha, Run.state_ok, ExchangeScript.after,
      resp_eq]
  · rw [exec_frame_avail rfl he, procOf, attemptProc, Run.state_dropAnswer, negAttempt_sent hs hpa hpr ha, Run.state_ok]
  · rw [exec_frame_avail rfl he, procOf, attemptProc, Run.state_dropAnswer, negAttempt_notSent hs hpa ha, Run.state_ok]

/-! ## The request after its prefix (R78) -/

/-- Settles O32: every procedure's trace is `Prefixed`, and outside AVAIL there is no event. -/
theorem theRequestFollowsItsPrefix : Obligations.TheRequestFollowsItsPrefix := by
  intro i s t h
  obtain he | ⟨-, rfl | rfl⟩ := exec_next_cases h
  · obtain ⟨o, -, rfl⟩ | ⟨-, rfl⟩ := exec_avail_run he h
    · obtain ⟨evs, hpre, hev, -⟩ := traced_procOf i (s.accept o)
      exact ⟨evs, (finish_trace _).1.trans hev, hpre⟩
    · obtain ⟨evs, hpre, hev, -⟩ := traced_procOf i s
      exact ⟨evs, hev, hpre⟩
  · exact ⟨[], rfl, noRequest_joins.nil.prefixed⟩
  · exact ⟨[], rfl, noRequest_joins.nil.prefixed⟩

end Sys2Proof.Machine
end

section
/-! O39: with 3888 bytes to come every host operation completes (44_init_fsm.md R198), and what it leaves of chip select. -/

namespace Sys2Proof.Machine

/-! ## The answers an operation can need (R198) -/

theorem fed_fullResponse {c : RomCmd} (hc : romShort c = false) : Fed 22 (fullResponseProc c) := by
  have hx : Fed 22 (commandExchange c) := by simpa [hc] using fed_exchange c
  exact fed_andThen (m := 0) hx fun _ => fed_ok (a := fun _ => ()) (g := State.writePack5) fun _ => ⟨rfl, rfl⟩

/-- No host operation needs more answers than INIT. -/
theorem fed_procOf {i : Instr} (hi : i.opcode ≠ none) : Fed 3888 (procOf i) := by
  have hwrite {g : State → State} (hg : ∀ s, (g s).replies = s.replies ∧ (g s).draws = s.draws) :
      Fed 3888 (fun s => Run.ok () (g s)) := fed_mono (by omega) (fed_ok (a := fun _ => ()) hg)
  have hthen {α} {f : State → Run α} {g : α → State → State} (hf : Fed 36 f)
      (hg : ∀ a s, (g a s).replies = s.replies ∧ (g a s).draws = s.draws) :
      Fed 3888 (fun s => (f s).andThen fun a s => .ok () (g a s)) :=
    fed_mono (n := 36 + 0) (by omega) (fed_andThen hf fun a => fed_ok (a := fun _ => ()) (hg a))
  cases i with
  | encode | decodeR1 | decodeR7 | decodeR3 => exact hwrite fun _ => ⟨rfl, rfl⟩
  | readR1 => exact hthen (fed_mono (by omega) fed_readR1) fun _ _ => ⟨rfl, rfl⟩
  | readR3R7 r1 => exact hthen (fed_mono (by omega) (fed_readR3R7 r1)) fun _ _ => ⟨rfl, rfl⟩
  | goIdle => exact hthen (fed_mono (n := 18) (by omega) (fed_exchange .goIdle)) fun _ _ => ⟨rfl, rfl⟩
  | sendIfCond | readOcr => exact fed_mono (by omega) (fed_fullResponse rfl)
  | appOpCond => exact hthen fed_attempt fun _ _ => ⟨rfl, rfl⟩
  | init => exact fed_init
  | cmd0 | cmd8 | cmd55 | acmd41 | cmd58 => exact absurd rfl hi

/-! ## Chip select at a procedure's end (R160, R195) -/

theorem readR1Proc_cs {s t : State} (h : readR1Proc s = .ok () t) : t.cs = s.cs := by
  unfold readR1Proc at h
  obtain ⟨k, rp, dr, u, ⟨r1, -, hu, rfl⟩ | ⟨-, hu, -⟩⟩ := readR1_cases s <;> rw [hu] at h <;> cases h
  rfl

theorem readR3R7Proc_cs {r1 : Byte} {s t : State} (h : readR3R7Proc r1 s = .ok () t) : t.cs = s.cs := by
  unfold readR3R7Proc at h
  obtain ⟨rp, dr, u, ⟨-, hu, rfl⟩ | ⟨-, hu, p, rfl⟩ | ⟨-, hu, -⟩⟩ := readR3R7_cases r1 s <;>
    rw [hu] at h <;> cases h <;> rfl

theorem cs_of_exchange {c : RomCmd} {g : Byte → State → State} (hg : ∀ r s, (g r s).cs = s.cs) {s t : State}
    (h : ((commandExchange c s).andThen fun r s => .ok () (g r s)) = .ok () t) : t.cs = false := by
  obtain ⟨e, rp, dr, -, hu⟩ | ⟨u, hu, -⟩ := commandExchange_cases c s <;> rw [hu] at h <;> cases h
  exact hg _ _

theorem appOpCondProc_cs {s t : State} (h : appOpCondProc s = .ok () t) : t.cs = false := by
  unfold appOpCondProc at h
  obtain ⟨a, rp, dr, -, hu⟩ | ⟨u, hu, -⟩ := negAttempt_cases s <;> rw [hu] at h <;> cases h
  rfl

theorem ocrCheck_cs (r1 : Byte) (s : State) : (ocrCheck r1 s).cs = s.cs := by
  unfold ocrCheck
  split
  · rfl
  · split
    · rfl
    · split <;> rfl

theorem initProc_cs {s t : State} (h : initProc s = .ok () t) : t.cs = false := by
  obtain ⟨fill, fails, last, rest, d, -, -, -, hu⟩ | ⟨fill, fails, ok, e, reason, rest, d, -, -, -, -, -, -, hu⟩ |
    ⟨fill, fails, ok, e, neg, last, rest, d, -, -, -, -, -, -, -, -, -, hu⟩ | ⟨sc, rest, d, -, hu⟩ |
    ⟨u, hu, -⟩ := initProc_cases s <;> rw [hu] at h <;> cases h
  · rfl
  · rfl
  · rfl
  · exact ocrCheck_cs sc.ocr.r1 _

/-- The operations with a bracket, all above opcode 6, leave chip select deasserted; the others leave it as it was. -/
theorem procOf_cs {i : Instr} (hi : i.opcode ≠ none) {s t : State} (h : procOf i s = .ok () t) :
    t.cs = if i.opcode.any (· ≤ 0x6#4) then s.cs else false := by
  cases i with
  | encode | decodeR1 | decodeR7 | decodeR3 =>
    cases h
    rfl
  | readR1 => exact readR1Proc_cs h
  | readR3R7 r1 => exact readR3R7Proc_cs h
  | goIdle | sendIfCond | readOcr =>
    refine cs_of_exchange ?_ h
    exact fun _ _ => rfl
  | appOpCond => exact appOpCondProc_cs h
  | init => exact initProc_cs h
  | cmd0 | cmd8 | cmd55 | acmd41 | cmd58 => exact absurd rfl hi

/-- Settles O39. -/
theorem operationsCompleteWhenNothingFaults : Obligations.OperationsCompleteWhenNothingFaults := by
  intro i ins rest s he hi hl ha
  obtain ⟨o, ho⟩ := Option.ne_none_iff_exists'.1 hi
  obtain ⟨⟨⟩, t, left, ht, hleft, -, hsuffix, hdraws⟩ := fed_procOf hi (s.accept o) ins rest hl ha
  have hcs : t.cs = if i.opcode.any (· ≤ 0x6#4) then s.cs else false := procOf_cs hi (s := s.accept o) ht
  refine ⟨t.complete, left, ?_, rfl, rfl, hcs, hsuffix, hleft, hdraws⟩
  rw [exec_avail ho he, ht, Run.finish_ok]

end Sys2Proof.Machine
end

section
/-! O40 to O44: INIT by the card's answers, from each of its stages to the state and the result word it ends with
(44_init_fsm.md R181 to R195; 30_encoding.md R86). -/

namespace Sys2Proof.Machine

/-! ## The states after INIT's stages -/

theorem initIdle_eq (fill : List Byte) (fails : List ExchangeScript) (last : ExchangeScript) (rest : List Reply) (s : State) :
    initIdle fill fails last rest s =
      { s.startInit with
        cs := false, fillCnt := 10#4, frame := some (romFrame .goIdle), pollCnt := BitVec.ofNat 4 (last.idle + 1),
        idleCnt := BitVec.ofNat 4 (fails.length + 1), resp := ⟨some last.r1, none, none, none, none⟩, rtag := false,
        replies := rest, events := (powerUpEvents fill ++ goIdleEvents (fails ++ [last])).reverse ++ s.events } := by
  rw [← initIdle_events fill fails last rest, ← BitVec.zero_add (BitVec.ofNat 4 (fails.length + 1)),
    ← resp_short (c := .goIdle) rfl]
  rfl

theorem initIf_eq (fill : List Byte) (fails : List ExchangeScript) (ok e : ExchangeScript) (rest : List Reply) (s : State) :
    initIf fill fails ok e rest s =
      { s.startInit with
        initState := .idle, cs := false, fillCnt := 10#4, frame := some (romFrame .ifCond),
        pollCnt := BitVec.ofNat 4 (e.idle + 1), idleCnt := BitVec.ofNat 4 (fails.length + 1), resp := e.resp .ifCond,
        rtag := true, replies := rest,
        events := (powerUpEvents fill ++ goIdleEvents (fails ++ [ok]) ++ e.events .ifCond).reverse ++ s.events } := by
  rw [← initIf_events fill fails ok e rest, ← BitVec.zero_add (BitVec.ofNat 4 (fails.length + 1))]
  rfl

theorem initNeg_eq (fill : List Byte) (fails : List ExchangeScript) (ok e : ExchangeScript) (neg : List AttemptScript)
    (last : AttemptScript) (rest : List Reply) (s : State) :
    initNeg fill fails ok e neg last rest s =
      { s.startInit with
        initState := .interfaceCheck, cs := false, fillCnt := 10#4, frame := some (romFrame last.lastCmd),
        pollCnt := BitVec.ofNat 4 (last.last.idle + 1), idleCnt := BitVec.ofNat 4 (fails.length + 1),
        negCnt := BitVec.ofNat 7 (neg.length + 1), resp := ⟨some last.captured, none, none, none, none⟩, rtag := false,
        captured := some last.captured, replies := rest,
        events := (powerUpEvents fill ++ goIdleEvents (fails ++ [ok]) ++ e.events .ifCond ++
          negEvents (neg ++ [last])).reverse ++ s.events } := by
  rw [← initNeg_events fill fails ok e neg last rest, ← BitVec.zero_add (BitVec.ofNat 4 (fails.length + 1))]
  rfl

theorem initOcr_eq (t : InitScript) (rest : List Reply) (s : State) :
    initOcr t rest s =
      { s.startInit with
        initState := .negotiating, cs := false, fillCnt := 10#4, frame := some (romFrame .readOcr),
        pollCnt := BitVec.ofNat 4 (t.ocr.idle + 1), idleCnt := BitVec.ofNat 4 (t.idleFails.length + 1),
        negCnt := BitVec.ofNat 7 (t.negFails.length + 1), resp := t.ocr.resp .readOcr, rtag := true,
        captured := some t.negOk.captured, replies := rest, events := t.events.reverse ++ s.events } := by
  rw [← initOcr_events t rest s, initOcr, initNeg_eq]
  rfl

/-! ## Failure (R195) -/

/-- Without capacity support and window the result word holds the counters and the outcome (R86). -/
theorem initResult_unlatched {s : State} (hccs : s.ccs = none) (hvwin : s.vwin = none) :
    s.initResult = 0#25 ++ s.negCnt ++ 0#4 ++ s.idleCnt ++ 0#20 ++ s.outcome.code := by
  have hzero (x : BitVec 40) : x ++ 0#4 ++ 0#1 ++ 0#1 ++ 0#1 ++ 0#9 ++ 0#4 = x ++ 0#20 := by
    ext i hi
    grind
  rw [State.initResult, hccs, hvwin]
  exact congrArg (· ++ s.outcome.code) (hzero _)

theorem failInit_unlatched {s : State} (hccs : s.ccs = none) (hvwin : s.vwin = none) (reason : InitOutcome) :
    s.failInit reason =
      { s with outcome := reason, initState := .failed, rvalid := 0xFF#8,
               result := ResultReg.ofWord (0#25 ++ s.negCnt ++ 0#4 ++ s.idleCnt ++ 0#20 ++ reason.code) } := by
  have hword := initResult_unlatched (s := { s with outcome := reason, initState := .failed }) hccs hvwin
  rw [State.failInit, State.writeInitResult, hword]
  rfl

/-! ## The read-OCR check (R193) -/

theorem ocrCheck_short {r1 : Byte} (hr : 0x02#8 ≤ r1) (s : State) : ocrCheck r1 s = s.failInit .powerUpIncomplete := by
  have hlt : r1 > 0x01#8 := by bv_omega
  rw [ocrCheck, if_pos hlt]

theorem payload_of_resp {e : ExchangeScript} (hr : e.r1 ≤ 0x01#8) : (e.resp .readOcr).payload = some e.payload := by
  rw [resp_long rfl, if_pos hr]
  rfl

theorem ocrCheck_payload {e : ExchangeScript} (hr : e.r1 ≤ 0x01#8) {s : State} (hs : s.resp = e.resp .readOcr) :
    ocrCheck e.r1 s =
      if e.payload.b1.getLsbD 6 = true then s.latchReady (operatingCondition e.payload)
      else s.failInit .powerUpIncomplete := by
  rw [ocrCheck, if_neg (BitVec.not_lt.2 hr), hs, payload_of_resp hr]
  rfl

/-- A status of 2 or more, or a clear power-up bit (R193). -/
theorem ocrCheck_incomplete {e : ExchangeScript} (h : 0x02#8 ≤ e.r1 ∨ e.payload.b1.getLsbD 6 = false) {s : State}
    (hs : s.resp = e.resp .readOcr) : ocrCheck e.r1 s = s.failInit .powerUpIncomplete := by
  by_cases hr : e.r1 ≤ 0x01#8
  · have hbit : e.payload.b1.getLsbD 6 = false := h.resolve_left (by bv_omega)
    rw [ocrCheck_payload hr hs, if_neg (ne_true_of_eq_false hbit)]
  · exact ocrCheck_short (by bv_omega) s

/-- The power-up bit is shown: capacity support is 1 and the window is latched (R194). -/
theorem latchReady_poweredUp {p : Payload} (h : p.b1.getLsbD 6 = true) (s : State) :
    s.latchReady (operatingCondition p) =
      { s with ccs := some true, vwin := some (p.b2 ++ p.b3.extractLsb' 7 1), outcome := .success, initState := .ready,
               result := ResultReg.ofWord (0#25 ++ s.negCnt ++ 0#4 ++ s.idleCnt ++ 0#4 ++ 1#1 ++ 1#1 ++ 1#1 ++
                 (p.b2 ++ p.b3.extractLsb' 7 1) ++ 0#4 ++ 1#4),
               rvalid := 0xFF#8 } := by
  have hccs : (operatingCondition p).capacitySupport = some true := by simp [operatingCondition, h]
  rw [State.latchReady, hccs]
  rfl

/-! ## From the answers to the stages (R181) -/

theorem answers_append {s : State} {xs ys : List Byte} {rest : List Reply} (h : s.Answers (xs ++ ys) rest) :
    s.Answers xs (ys.map Reply.byte ++ rest) := by
  simpa [State.Answers] using h

theorem ifVerdict_accepted {e : ExchangeScript} (h1 : e.r1 = 0x01#8) (h2 : e.payload.b4 = 0xAA#8) :
    ifVerdict e.r1 (e.resp .ifCond).b4 = none := by
  rw [ifVerdict_resp, if_neg (not_not.2 h1), if_neg (not_not.2 h2)]

theorem ifVerdict_rejected {e : ExchangeScript} (h : e.r1 ≠ 0x01#8 ∨ e.payload.b4 ≠ 0xAA#8) :
    ifVerdict e.r1 (e.resp .ifCond).b4 = some (if e.r1 ≠ 0x01#8 then .ifCondRejected else .echoMismatch) := by
  rw [ifVerdict_resp]
  by_cases h1 : e.r1 = 0x01#8
  · rw [if_neg (not_not.2 h1), if_neg (not_not.2 h1), if_pos (h.resolve_left (not_not.2 h1))]
  · rw [if_pos h1, if_pos h1]

/-- Up to an interface condition that passes, INIT is its negotiation (R181 S4). -/
theorem initProc_checked {fill : List Byte} {fails : List ExchangeScript} {ok e : ExchangeScript} {rest : List Reply}
    {s : State} (hf : fill.length = Config.fillCount) (hl : fails.length + 1 ≤ Config.idleLimit)
    (hall : fails.all ExchangeScript.idleFailed = true) (hok : ok.idleAccepted = true) (hp : Polled e.idle e.r1 = true)
    (h1 : e.r1 = 0x01#8) (h2 : e.payload.b4 = 0xAA#8)
    (h : s.Answers (fill ++ goIdleIns (fails ++ [ok]) ++ e.ins .ifCond) rest) :
    initProc s = initNegotiate ((initIf fill fails ok e rest s).enter .interfaceCheck) := by
  rw [initProc_accepted hf hl hall hok (answers_append h), initCheck_passed hp (ifVerdict_accepted h1 h2) rfl]

/-- A negotiation that ends is followed by the read-OCR exchange and its check (R181 S5, S6). -/
theorem initProc_wellFormed {t : InitScript} {rest : List Reply} {s : State} (hw : t.wellFormed = true)
    (h : s.Answers t.ins rest) : initProc s = .ok () (ocrCheck t.ocr.r1 ((initOcr t rest s).enter .readOcr)) := by
  obtain ⟨hfill, hidle, hfails, hok, hpif, h1, h2, hneg, hnfails, hnok, hpocr⟩ := wellFormed_parts hw
  rw [initProc_checked hfill hidle hfails hok hpif h1 h2 (answers_append (answers_append h)), initNegotiate,
    negotiate_accepted hneg hnfails hnok (rest := (t.ocr.ins .readOcr).map Reply.byte ++ rest) rfl, Run.andThen_ok]
  exact congrArg (Run.andThen · _) (commandExchange_answered hpocr rfl)

/-- 101 failed attempts end INIT (R191). -/
theorem initProc_opCondTimeout {fill : List Byte} {fails : List ExchangeScript} {ok e : ExchangeScript}
    {neg : List AttemptScript} {last : AttemptScript} {rest : List Reply} {s : State}
    (hf : fill.length = Config.fillCount) (hl : fails.length + 1 ≤ Config.idleLimit)
    (hall : fails.all ExchangeScript.idleFailed = true) (hok : ok.idleAccepted = true) (hp : Polled e.idle e.r1 = true)
    (h1 : e.r1 = 0x01#8) (h2 : e.payload.b4 = 0xAA#8) (hn : neg.length + 1 = Config.negLimit)
    (hnall : (neg ++ [last]).all AttemptScript.failed = true)
    (h : s.Answers (fill ++ goIdleIns (fails ++ [ok]) ++ e.ins .ifCond ++ negIns (neg ++ [last])) rest) :
    initProc s = .ok () ((initNeg fill fails ok e neg last rest s).failInit .opCondTimeout) := by
  rw [initProc_checked hf hl hall hok hp h1 h2 (answers_append h), initNegotiate, negotiate_exhausted hn hnall rfl,
    Run.andThen_ok]
  rfl

/-! ## INIT -/

theorem exec_init {s t : State} (he : s.eng = .avail) (h : initProc (s.accept 0xC#4) = .ok () t) :
    exec .init s = .next t.complete := by
  rw [exec_avail rfl he, procOf, h, Run.finish_ok]

/-- Settles O40. -/
theorem initReachesReady : Obligations.InitReachesReady := by
  intro t rest s he hw hr hbit ha
  obtain ⟨-, -, -, -, -, -, -, -, -, hnok, -⟩ := wellFormed_parts hw
  rw [exec_init he (initProc_wellFormed (s := s.accept 0xC#4) hw ha), ocrCheck_payload hr rfl, if_pos hbit,
    latchReady_poweredUp hbit, initOcr_eq, (accepted_iff.1 hnok).2, resp_long rfl, if_pos hr]
  rfl

/-- Settles O41. -/
theorem initReportsPowerUpIncomplete : Obligations.InitReportsPowerUpIncomplete := by
  intro t rest s he hw hocr ha
  obtain ⟨-, -, -, -, -, -, -, -, -, hnok, -⟩ := wellFormed_parts hw
  rw [exec_init he (initProc_wellFormed (s := s.accept 0xC#4) hw ha), ocrCheck_incomplete hocr rfl,
    failInit_unlatched rfl rfl, initOcr_eq, (accepted_iff.1 hnok).2]
  rfl

/-- Settles O42. -/
theorem initReportsIdleTimeout : Obligations.InitReportsIdleTimeout := by
  intro fill fails last rest s he hfill hl hall ha
  have hword : 0xB000002#64 = 0#25 ++ 0#7 ++ 0#4 ++ BitVec.ofNat 4 (10 + 1) ++ 0#20 ++ InitOutcome.idleTimeout.code := by decide
  rw [hword, exec_init he (initProc_idleTimeout (s := s.accept 0xC#4) hfill (by rw [hl]; rfl) hall ha),
    failInit_unlatched rfl rfl, initIdle_eq, hl]
  rfl

/-- Settles O43. -/
theorem initReportsARejectedInterfaceCondition : Obligations.InitReportsARejectedInterfaceCondition := by
  intro fill fails ok e rest s he hfill hl hall hok hp hbad ha
  have hproc : initProc (s.accept 0xC#4) = .ok () ((initIf fill fails ok e rest (s.accept 0xC#4)).failInit
      (if e.r1 ≠ 0x01#8 then .ifCondRejected else .echoMismatch)) := by
    rw [initProc_accepted (s := s.accept 0xC#4) hfill (Nat.succ_le_succ hl) hall hok (answers_append ha),
      initCheck_rejected hp (ifVerdict_rejected hbad) rfl]
  have hcode : (if e.r1 ≠ 0x01#8 then InitOutcome.ifCondRejected else .echoMismatch).code =
      if e.r1 ≠ 0x01#8 then 3#4 else 4#4 := apply_ite _ _ _ _
  have hzero : 0#36 = 0#25 ++ 0#7 ++ 0#4 := by decide
  rw [hzero, exec_init he hproc, failInit_unlatched rfl rfl, hcode, initIf_eq]
  rfl

/-- Settles O44. -/
theorem initReportsOpCondTimeout : Obligations.InitReportsOpCondTimeout := by
  intro fill fails ok e neg last rest s he hfill hl hall hok hp h1 h2 hn hnall ha
  rw [exec_init he (initProc_opCondTimeout (s := s.accept 0xC#4) hfill (Nat.succ_le_succ hl) hall hok hp h1 h2
    (by rw [hn]; rfl) hnall ha), failInit_unlatched rfl rfl, initNeg_eq, hn]
  rfl

end Sys2Proof.Machine
end

section
/-! O5 and O6: what the encoder keeps of its inputs, and the frames of the command ROM (40_command_encoder.md R101, R104 to R107). -/

namespace Sys2Proof.Machine

/-- The CRC input enters a frame by its bits 7 to 1 alone (R101, R107). -/
theorem encodeFrame_congr_crc7 (idx : BitVec 6) (arg : BitVec 32) {crc crc' : Byte}
    (h : crc.extractLsb' 1 7 = crc'.extractLsb' 1 7) : encodeFrame idx arg crc = encodeFrame idx arg crc' := by
  have hb5 : (encodeFrame idx arg crc).b5 = (encodeFrame idx arg crc').b5 := by rw [encodeFrame_b5, encodeFrame_b5, h]
  exact congrArg (fun b => { encodeFrame idx arg crc with b5 := b }) hb5

theorem extractLsb'_one_append (c7 : BitVec 7) (x : BitVec 1) : (c7 ++ x).extractLsb' 1 7 = c7 := by
  rw [BitVec.extractLsb'_append_eq_of_le (by decide)]
  exact BitVec.extractLsb'_eq_self

/-- Settles O5: byte 0 and byte 5 are known by their fields, and two CRC inputs with the same bits 7 to 1 give one frame. -/
theorem everyFrameCarriesItsFields : Obligations.EveryFrameCarriesItsFields := by
  intro idx arg crc
  rw [encodeFrame_b0, encodeFrame_b5]
  refine ⟨toWord_encodeFrame idx arg crc, ?start, ?transmission, BitVec.extractLsb'_append_eq_right, ?stop, fun c7 x y => ?bit0⟩
  case start => rw [BitVec.getLsbD_append]; rfl
  case transmission => rw [BitVec.getLsbD_append]; rfl
  case stop => rw [BitVec.getLsbD_append]; rfl
  case bit0 =>
    exact encodeFrame_congr_crc7 idx arg ((extractLsb'_one_append c7 x).trans (extractLsb'_one_append c7 y).symm)

/-- The FRAME48 word of a row is its frame's: both are the fields of the row, packed (R70, R105). -/
theorem encode_romInstr (c : RomCmd) : encode (romInstr c) = .frame (romFrame c).toWord := by
  rw [romFrame, toWord_encodeFrame]
  cases c <;> rfl

/-- The constants of the ROM are the CRC bytes of their rows (R106), by running the CRC on each. -/
theorem romCrc_eq_crcByte (c : RomCmd) : romCrc c = crcByte (romIndex c) (romArg c) := by
  cases c <;> decide +kernel

/-- Settles O6. -/
theorem romFramesAreTheirRowsWithTheirCrc : Obligations.RomFramesAreTheirRowsWithTheirCrc := fun c =>
  ⟨rfl, encode_romInstr c, encode_romInstr c ▸ decode_encode (romInstr c), romCrc_eq_crcByte c⟩

end Sys2Proof.Machine
end

section
/-! O21: how many exchanges a READ_R1 that completes has made, whatever the transport answers (41_response_reader.md R121). -/

namespace Sys2Proof.Machine

@[simp] theorem countX_reverse (l : List Event) : countX l.reverse = countX l := List.countP_reverse

/-- What READ_R1 leaves when it ends in AVAIL: the poll stopped (R121), for a transport fault would leave it FAULTED (R212). -/
theorem exec_readR1_completed {s t : State} (he : s.eng = .avail) (h : exec .readR1 s = .next t) (ht : t.eng = .avail) :
    ∃ k r1, Polled k r1 = true ∧ t.resp.b0 = some r1 ∧ t.events = (idleExchanges (pollIns k r1)).reverse ++ s.events := by
  rw [exec_avail rfl he, procOf, readR1Proc] at h
  obtain ⟨k, rp, dr, u, ⟨r1, hp, hr, rfl⟩ | ⟨-, hr, rfl⟩⟩ := readR1_cases (s.accept 0x2#4) <;> rw [hr] at h <;> cases h
  case inl => exact ⟨k, r1, hp, rfl, rfl⟩
  case inr => cases ht

/-- Settles O21: the poll's bound gives the number of exchanges, and its stop that `0xFF` is the ninth answer. -/
theorem readR1PollsBetweenOneAndNineTimes : Obligations.ReadR1PollsBetweenOneAndNineTimes := by
  intro s t he h ht
  obtain ⟨k, r1, hp, hresp, hevents⟩ := exec_readR1_completed he h ht
  obtain ⟨hbound, hstop⟩ := polled_iff.1 hp
  refine ⟨k, r1, Nat.le_of_succ_le_succ hbound, fun hr1 => ?nine, hresp, ?events, ?count⟩
  case nine => exact Nat.succ.inj (hstop.resolve_left (absurd hr1))
  case events => rw [hevents, reverse_idleExchanges_pollIns, List.cons_append]
  case count => rw [hevents, countX_append, countX_reverse, countX_idleExchanges, pollIns_length]; omega

end Sys2Proof.Machine
end

section
/-! O19: the bits of the voltage window and the bands of an R3 response (30_encoding.md R76; 42_response_decoder.md R147). -/

namespace Sys2Proof.Machine

/-- Bit `k` of the window is the bit of band `k` in the response (R76). -/
theorem getLsbD_operatingCondition_window (p : Payload) (k : Nat) :
    (operatingCondition p).window.getLsbD k = if k = 0 then p.b3.getLsbD 7 else p.b2.getLsbD (k - 1) := by
  have happend : (operatingCondition p).window.getLsbD k =
      if k < 1 then (p.b3.extractLsb' 7 1).getLsbD k else p.b2.getLsbD (k - 1) := BitVec.getLsbD_append
  rw [happend]
  cases k <;> simp

/-- A word with one bit alone, for the widths of a byte and of the window. -/
theorem getLsbD_one_shiftLeft {w k : Nat} (hk : k < w) (i : Nat) : (1#w <<< k).getLsbD i = decide (k = i) := by
  rw [← BitVec.twoPow_eq, BitVec.getLsbD_twoPow, decide_eq_true hk, Bool.true_and]

/-- When bytes 2 and 3 hold the bit of band `k` alone, the bit of band `i` is set for `i = k` only. -/
theorem getLsbD_bandAlone {k : Nat} (hk : k ≤ 8) (i : Nat) :
    (if i = 0 then (if k = 0 then 0x80#8 else 0x00#8).getLsbD 7
      else (if k = 0 then 0x00#8 else 1#8 <<< (k - 1)).getLsbD (i - 1)) = decide (k = i) := by
  cases k with
  | zero => cases i <;> simp
  | succ j =>
    cases i with
    | zero => simp
    | succ n => simpa using getLsbD_one_shiftLeft hk n

/-- Settles O19: the window is compared with `1 <<< k` band by band. -/
theorem windowBitsAreTheirBands : Obligations.WindowBitsAreTheirBands := by
  refine ⟨fun p k _ => getLsbD_operatingCondition_window p k, fun b1 b4 k hk => BitVec.eq_of_getLsbD_eq fun i _ => ?_⟩
  rw [getLsbD_operatingCondition_window, getLsbD_bandAlone hk, getLsbD_one_shiftLeft (Nat.lt_succ_of_le hk)]

end Sys2Proof.Machine
end

section
/-! O33 and O34: the events of a command exchange that completes, and that the four command operations write none of INIT's
registers (43_command_exchange.md R161, R167). -/

namespace Sys2Proof.Machine

/-! ## The out-bytes of an exchange (R161) -/

/-- Bytes sent one by one are the out-bytes of their events, whatever comes in for them. -/
theorem outBytes_zipWith_x {outs ins : List Byte} (h : outs.length = ins.length) :
    outBytes (List.zipWith Event.x outs ins) = outs := by
  induction outs generalizing ins with
  | nil => rfl
  | cons o outs ih =>
    cases ins with
    | nil => cases h
    | cons b ins => rw [List.zipWith_cons_cons, outBytes_x, ih (Nat.succ.inj h)]

/-- Idle-fill bytes stand before the frame and after it; the two after the response are those around `CS(0)`. -/
theorem outBytes_exchange (e : ExchangeScript) (c : RomCmd) :
    outBytes (e.events c) =
      0xFF#8 :: (romFrame c).bytes ++ List.replicate ((e.responseIns c).length + 2) 0xFF#8 := by
  have hframe : outBytes (List.zipWith Event.x (romFrame c).bytes e.discarded.frame.bytes) = (romFrame c).bytes :=
    outBytes_zipWith_x rfl
  simp [ExchangeScript.events, hframe, List.replicate_add, Config.idleFill]

/-- An exchange that completes has answered by a script within the poll's bound, and ends with chip select deasserted. -/
theorem commandExchange_completed {c : RomCmd} {r1 : Byte} {s t : State} (h : commandExchange c s = .ok r1 t) :
    ∃ e : ExchangeScript, Polled e.idle e.r1 = true ∧ t.events = (e.events c).reverse ++ s.events ∧ t.cs = false := by
  obtain ⟨e, rp, dr, hp, hx⟩ | ⟨u, hx, -⟩ := commandExchange_cases c s <;> rw [hx] at h <;> cases h
  exact ⟨e, hp, rfl, rfl⟩

/-- Settles O33: the counts are those of the script's events, and the bounds of `n` those of its poll and payload. -/
theorem anExchangeMakesNineEventsAndItsResponse : Obligations.AnExchangeMakesNineEventsAndItsResponse := by
  intro c r1 s t h
  obtain ⟨e, hp, hevents, hcs⟩ := commandExchange_completed h
  obtain ⟨hmin, hmax⟩ := responseIns_bounds hp c
  exact ⟨e, (e.responseIns c).length, hevents, rfl, countCs_exchange e c, rfl, countX_exchange e c, outBytes_exchange e c,
    hmin, hmax, hcs⟩

/-! ## INIT's registers (R167) -/

/-- The registers no operation but INIT writes. -/
def State.initRegisters (s : State) :
    InitState × InitOutcome × Option Bool × Option (BitVec 9) × BitVec 4 × BitVec 7 × BitVec 4 :=
  (s.initState, s.outcome, s.ccs, s.vwin, s.idleCnt, s.negCnt, s.fillCnt)

theorem initRegisters_eq_iff {s t : State} : t.initRegisters = s.initRegisters ↔
    t.initState = s.initState ∧ t.outcome = s.outcome ∧ t.ccs = s.ccs ∧ t.vwin = s.vwin ∧ t.idleCnt = s.idleCnt ∧
    t.negCnt = s.negCnt ∧ t.fillCnt = s.fillCnt := by
  simp only [State.initRegisters, Prod.mk.injEq]

theorem KeepsAttempt.initRegisters {s t : State} (h : KeepsAttempt s t) : t.initRegisters = s.initRegisters :=
  initRegisters_eq_iff.2 ⟨h.initState, h.outcome, h.ccs, h.vwin, h.idleCnt, h.negCnt, h.fillCnt⟩

/-- The end of an operation writes `op_status`, `eng` and `seq` alone (R83). -/
theorem initRegisters_finish (r : Run Unit) : r.finish.initRegisters = r.state.initRegisters := by
  cases r <;> rfl

theorem initRegisters_commandExchange (c : RomCmd) (s : State) :
    (commandExchange c s).state.initRegisters = s.initRegisters := by
  obtain ⟨e, rp, dr, -, h⟩ | ⟨t, h, hk, -⟩ := commandExchange_cases c s <;> rw [h]
  · rfl
  · exact hk.attempt.initRegisters

theorem initRegisters_negAttempt (s : State) : (negAttempt s).state.initRegisters = s.initRegisters := by
  obtain ⟨a, rp, dr, -, h⟩ | ⟨t, h, hk, -⟩ := negAttempt_cases s <;> rw [h]
  · rfl
  · exact hk.initRegisters

/-- A write of other registers after a procedure leaves INIT's registers as the procedure does. -/
theorem initRegisters_andThen_write {α : Type} {r : Run α} {g : α → State → State} {s : State}
    (hr : r.state.initRegisters = s.initRegisters) (hg : ∀ a t, (g a t).initRegisters = t.initRegisters) :
    (r.andThen fun a t => .ok () (g a t)).state.initRegisters = s.initRegisters :=
  Run.andThen_rel (R := fun s t => t.initRegisters = s.initRegisters) (fun hab hbc => hbc.trans hab) hr hg

/-- The four command operations (R163 to R166). -/
def IsCommandOp (i : Instr) : Prop := i = .goIdle ∨ i = .sendIfCond ∨ i = .appOpCond ∨ i = .readOcr

theorem initRegisters_procOf {i : Instr} (hi : IsCommandOp i) (s : State) :
    (procOf i s).state.initRegisters = s.initRegisters := by
  obtain rfl | rfl | rfl | rfl := hi
  · exact initRegisters_andThen_write (initRegisters_commandExchange .goIdle s) fun _ _ => rfl
  case inr.inl => exact initRegisters_andThen_write (initRegisters_commandExchange .ifCond s) fun _ _ => rfl
  case inr.inr.inl => exact initRegisters_andThen_write (initRegisters_negAttempt s) fun _ _ => rfl
  case inr.inr.inr => exact initRegisters_andThen_write (initRegisters_commandExchange .readOcr s) fun _ _ => rfl

/-- Settles O34: the procedure keeps INIT's registers however it ends, and so do acceptance, completion and the refusal in
FAULTED. -/
theorem commandOperationsLeaveInitRegistersAlone : Obligations.CommandOperationsLeaveInitRegistersAlone := by
  intro i s t hi h
  refine initRegisters_eq_iff.1 ?_
  obtain he | ⟨-, rfl | rfl⟩ := exec_next_cases h
  · obtain ⟨o, -, rfl⟩ | ⟨-, rfl⟩ := exec_avail_run he h
    · exact (initRegisters_finish _).trans (initRegisters_procOf hi (s.accept o))
    · exact initRegisters_procOf hi s
  · rfl
  · rfl

end Sys2Proof.Machine
end

section
/-! O45 to O47: how an INIT ends, by the answers its stages took, and the bounds on its trace (44_init_fsm.md R190, R193 to R198;
60_exceptions.md R212). -/

namespace Sys2Proof.Machine

/-! ## An INIT completes or faults (R212) -/

theorem exec_init_completed {s t : State} (he : s.eng = .avail) (h : exec .init s = .next t) (ht : t.eng = .avail) :
    ∃ u, initProc (s.accept 0xC#4) = .ok () u ∧ t = u.complete := by
  rw [exec_avail rfl he, procOf] at h
  cases h
  cases hu : initProc (s.accept 0xC#4) with
  | ok a u => exact ⟨u, rfl, rfl⟩
  | abort u =>
    rw [hu, Run.finish_abort, (procOf_abort (i := .init) hu).1.eng] at ht
    cases ht

/-- A transport fault is the only way into FAULTED, and it leaves an unfinished INIT. -/
theorem exec_init_faulted {s t : State} (he : s.eng = .avail) (h : exec .init s = .next t) (ht : t.eng = .faulted) :
    InitAborted (s.accept 0xC#4) t ∧ Faulted (s.accept 0xC#4) t := by
  rw [exec_avail rfl he, procOf] at h
  cases h
  obtain ⟨_, _, _, _, _, -, -, -, hu⟩ | ⟨_, _, _, _, _, _, _, -, -, -, -, -, -, hu⟩ |
    ⟨_, _, _, _, _, _, _, _, -, -, -, -, -, -, -, -, -, hu⟩ | ⟨_, _, _, -, hu⟩ | ⟨u, hu, haborted, hfaulted⟩ :=
    initProc_cases (s.accept 0xC#4) <;> rw [hu] at ht ⊢
  case inr.inr.inr.inr => exact ⟨haborted, hfaulted⟩
  all_goals cases ht

/-- Settles O46: an INIT that ends in FAULTED is an unfinished one. -/
theorem faultedInitReportsNoOutcome : Obligations.FaultedInitReportsNoOutcome := by
  intro s t he h ht
  obtain ⟨haborted, hfaulted⟩ := exec_init_faulted he h ht
  refine ⟨haborted.outcome, haborted.ccs, haborted.vwin, ?ready, ?failed, haborted.result, haborted.rvalid, hfaulted.opStatus⟩
  all_goals obtain hst | hst | hst | hst := haborted.initState <;> rw [hst] <;> decide

/-! ## The stages of an INIT that completes -/

/-- What the card has answered, stage by stage: the fill bytes, the go-idle attempts, the interface-condition exchange (one or
none), the negotiation attempts, and the read-OCR exchange (one or none). -/
structure InitStages where
  fill : List Byte
  idle : List ExchangeScript
  ifCond : List ExchangeScript
  neg : List AttemptScript
  ocr : List ExchangeScript

def InitStages.events (g : InitStages) : List Event :=
  powerUpEvents g.fill ++ goIdleEvents g.idle ++ g.ifCond.flatMap (·.events .ifCond) ++ negEvents g.neg ++
    g.ocr.flatMap (·.events .readOcr)

/-- The stages of an INIT that reaches its read-OCR check. -/
def InitScript.stages (sc : InitScript) : InitStages :=
  ⟨sc.fill, sc.idleFails ++ [sc.idleOk], [sc.ifCond], sc.negFails ++ [sc.negOk], [sc.ocr]⟩

theorem stages_events (sc : InitScript) : sc.stages.events = sc.events := by
  simp [InitScript.stages, InitStages.events, InitScript.events]

/-- The bounds of the stages (R182, R183, R188): without an interface-condition exchange every go-idle attempt was made. -/
structure InitStages.Bounded (g : InitStages) : Prop where
  fill : g.fill.length = 10
  idle_pos : 1 ≤ g.idle.length
  idle_le : g.idle.length ≤ 11
  ifCond_le : g.ifCond.length ≤ 1
  checked : g.idle.length = 11 ∨ g.ifCond.length = 1
  neg_le : g.neg.length ≤ 101
  ocr_le : g.ocr.length ≤ 1
  idle_polled : ∀ e ∈ g.idle, Polled e.idle e.r1 = true
  ifCond_polled : ∀ e ∈ g.ifCond, Polled e.idle e.r1 = true
  neg_polled : ∀ a ∈ g.neg, a.polled = true
  ocr_polled : ∀ e ∈ g.ocr, Polled e.idle e.r1 = true

/-- What the stages leave before INIT reports how it ended: nothing is latched, and the attempts are counted. -/
structure InitStages.Reach (g : InitStages) (s v : State) : Prop where
  ccs : v.ccs = none
  vwin : v.vwin = none
  negCnt : v.negCnt = BitVec.ofNat 7 g.neg.length
  events : v.events = g.events.reverse ++ s.events

theorem polled_of_idleFailed {l : List ExchangeScript} (h : l.all ExchangeScript.idleFailed = true) :
    ∀ e ∈ l, Polled e.idle e.r1 = true :=
  fun e he => (idleFailed_iff.1 (List.all_eq_true.1 h e he)).1

theorem polled_of_failed {l : List AttemptScript} (h : l.all AttemptScript.failed = true) : ∀ a ∈ l, a.polled = true :=
  fun a ha => (failed_iff.1 (List.all_eq_true.1 h a ha)).1

theorem bounded_idleTimeout {fill : List Byte} {idle : List ExchangeScript} (hfill : fill.length = Config.fillCount)
    (hidle : idle.length = Config.idleLimit) (hall : idle.all ExchangeScript.idleFailed = true) :
    InitStages.Bounded ⟨fill, idle, [], [], []⟩ where
  fill := hfill
  idle_pos := hidle ▸ by decide
  idle_le := hidle.le
  ifCond_le := Nat.zero_le 1
  checked := .inl hidle
  neg_le := Nat.zero_le 101
  ocr_le := Nat.zero_le 1
  idle_polled := polled_of_idleFailed hall
  ifCond_polled := List.forall_mem_nil _
  neg_polled := List.forall_mem_nil _
  ocr_polled := List.forall_mem_nil _

/-- The stages up to the interface-condition exchange, and then those after it. -/
theorem bounded_checked {fill : List Byte} {fails : List ExchangeScript} {ok e : ExchangeScript} {neg : List AttemptScript}
    {ocr : List ExchangeScript} (hfill : fill.length = Config.fillCount) (hidle : fails.length + 1 ≤ Config.idleLimit)
    (hall : fails.all ExchangeScript.idleFailed = true) (hok : ok.idleAccepted = true) (he : Polled e.idle e.r1 = true)
    (hneg : neg.length ≤ Config.negLimit) (hnpolled : ∀ a ∈ neg, a.polled = true) (hocr : ocr.length ≤ 1)
    (hopolled : ∀ o ∈ ocr, Polled o.idle o.r1 = true) : InitStages.Bounded ⟨fill, fails ++ [ok], [e], neg, ocr⟩ where
  fill := hfill
  idle_pos := by simp
  idle_le := List.length_append.trans_le hidle
  ifCond_le := le_rfl
  checked := .inr rfl
  neg_le := hneg
  ocr_le := hocr
  idle_polled := List.forall_mem_append.2
    ⟨polled_of_idleFailed hall, List.forall_mem_singleton.2 (idleAccepted_iff.1 hok).1⟩
  ifCond_polled := List.forall_mem_singleton.2 he
  neg_polled := hnpolled
  ocr_polled := hopolled

theorem bounded_stages {sc : InitScript} (h : sc.wellFormed = true) : sc.stages.Bounded := by
  obtain ⟨hfill, hidle, hfails, hok, hpif, -, -, hneg, hnfails, hnok, hpocr⟩ := wellFormed_parts h
  exact bounded_checked hfill hidle hfails hok hpif (List.length_append.trans_le hneg)
    (List.forall_mem_append.2 ⟨polled_of_failed hnfails, List.forall_mem_singleton.2 (accepted_iff.1 hnok).1⟩) le_rfl
    (List.forall_mem_singleton.2 hpocr)

theorem ifVerdict_isFailure {r1 : Byte} {echo : Option Byte} {reason : InitOutcome}
    (h : ifVerdict r1 echo = some reason) : reason.isFailure = true := by
  unfold ifVerdict at h
  split at h
  · cases h; rfl
  · split at h <;> cases h; rfl

/-- An INIT that completes: its stages, and then a failure with its reason or the read-OCR response that shows the power-up bit
(R193 to R195). -/
theorem initProc_completed {s u : State} (h : initProc s = .ok () u) : ∃ (g : InitStages) (v : State),
    g.Bounded ∧ g.Reach s v ∧
    ((∃ reason : InitOutcome, reason.isFailure = true ∧ u = v.failInit reason) ∨
     (∃ sc : InitScript, sc.wellFormed = true ∧ sc.ocr.r1 ≤ 0x01#8 ∧ g = sc.stages ∧ v.resp = sc.ocr.resp .readOcr ∧
        sc.ocr.payload.b1.getLsbD 6 = true ∧ u = v.latchReady (operatingCondition sc.ocr.payload))) := by
  obtain ⟨fill, fails, last, rest, d, hfill, hl, hall, hu⟩ |
    ⟨fill, fails, ok, e, reason, rest, d, hfill, hl, hall, hok, hp, hv, hu⟩ |
    ⟨fill, fails, ok, e, neg, last, rest, d, hfill, hl, hall, hok, hp, -, -, hn, hnall, hu⟩ | ⟨sc, rest, d, hw, hu⟩ |
    ⟨v, hu, -⟩ := initProc_cases s <;> rw [h] at hu <;> cases hu
  case inl =>
    exact ⟨⟨fill, fails ++ [last], [], [], []⟩, { initIdle fill fails last rest s with draws := d },
      bounded_idleTimeout hfill (List.length_append.trans hl) hall,
      ⟨rfl, rfl, rfl, by simp [InitStages.events, initIdle_events, negEvents]⟩, .inl ⟨.idleTimeout, rfl, rfl⟩⟩
  case inr.inl =>
    exact ⟨⟨fill, fails ++ [ok], [e], [], []⟩, { initIf fill fails ok e rest s with draws := d },
      bounded_checked hfill hl hall hok hp (Nat.zero_le _) (List.forall_mem_nil _) (Nat.zero_le _) (List.forall_mem_nil _),
      ⟨rfl, rfl, rfl, by simp [InitStages.events, initIf_events, negEvents]⟩, .inl ⟨reason, ifVerdict_isFailure hv, rfl⟩⟩
  case inr.inr.inl =>
    exact ⟨⟨fill, fails ++ [ok], [e], neg ++ [last], []⟩, { initNeg fill fails ok e neg last rest s with draws := d },
      bounded_checked hfill hl hall hok hp (List.length_append.trans hn).le (polled_of_failed hnall) (Nat.zero_le _)
        (List.forall_mem_nil _),
      ⟨rfl, rfl, by rw [List.length_append]; rfl, by simp [InitStages.events, initNeg_events]⟩,
      .inl ⟨.opCondTimeout, rfl, rfl⟩⟩
  case inr.inr.inr.inl =>
    refine ⟨sc.stages, State.enter .readOcr { initOcr sc rest s with draws := d }, bounded_stages hw,
      ⟨rfl, rfl, ?negCnt, ?events⟩, ?ending⟩
    case negCnt => rw [InitScript.stages, List.length_append]; rfl
    case events => rw [stages_events]; exact initOcr_events sc rest s
    case ending =>
      by_cases hready : sc.ocr.r1 ≤ 0x01#8 ∧ sc.ocr.payload.b1.getLsbD 6 = true
      · obtain ⟨hr, hbit⟩ := hready
        exact .inr ⟨sc, hw, hr, rfl, rfl, hbit, (ocrCheck_payload hr rfl).trans (if_pos hbit)⟩
      · refine .inl ⟨.powerUpIncomplete, rfl, ocrCheck_incomplete ?_ rfl⟩
        by_cases hr : sc.ocr.r1 ≤ 0x01#8
        · exact .inr (Bool.eq_false_of_not_eq_true fun hbit => hready ⟨hr, hbit⟩)
        · exact .inl (by bv_omega)

/-- Settles O45: either ending of `initProc_completed` shows in the registers it writes. -/
theorem initEndsReadyOrFailedWithAReason : Obligations.InitEndsReadyOrFailedWithAReason := by
  intro s t he h ht
  obtain ⟨u, hu, rfl⟩ := exec_init_completed he h ht
  obtain ⟨g, v, -, hreach, ⟨reason, hreason, rfl⟩ | ⟨sc, -, hr, -, hresp, hbit, rfl⟩⟩ := initProc_completed hu
  case inl => exact ⟨rfl, rfl, rfl, .inr ⟨rfl, hreason, hreach.ccs, hreach.vwin⟩⟩
  case inr =>
    rw [resp_long rfl, if_pos hr] at hresp
    rw [latchReady_poweredUp hbit]
    refine ⟨rfl, rfl, rfl, .inl ⟨rfl, rfl, rfl, sc.ocr.payload.b2, sc.ocr.payload.b3, ?_, ?_, rfl⟩⟩
    · exact congrArg Resp.b2 hresp
    · exact congrArg Resp.b3 hresp

/-! ## Counting the events of the stages (R190, R198) -/

theorem countP_flatMap_bounds {α : Type} {p : Event → Bool} {f : α → List Event} {l : List α} {lo hi : Nat}
    (h : ∀ a ∈ l, lo ≤ (f a).countP p ∧ (f a).countP p ≤ hi) :
    l.length * lo ≤ (l.flatMap f).countP p ∧ (l.flatMap f).countP p ≤ l.length * hi := by
  have hlo : ∀ n ∈ l.map (List.countP p ∘ f), lo ≤ n := List.forall_mem_map.2 fun a ha => (h a ha).1
  have hhi : ∀ n ∈ l.map (List.countP p ∘ f), n ≤ hi := List.forall_mem_map.2 fun a ha => (h a ha).2
  rw [List.countP_flatMap]
  exact ⟨by simpa using List.card_nsmul_le_sum _ _ hlo, by simpa using List.sum_le_card_nsmul _ _ hhi⟩

/-- The negotiation's events are its attempts' and the waits between them (R190). -/
theorem countP_negEvents (p : Event → Bool) : ∀ l : List AttemptScript, (negEvents l).countP p =
    (l.flatMap AttemptScript.events).countP p + if p (.w .retry) then l.length - 1 else 0
  | [] => by simp [negEvents]
  | [a] => by simp [negEvents]
  | a :: b :: rest => by
    have ih := countP_negEvents p (b :: rest)
    by_cases hp : p (.w .retry) = true <;> simp [negEvents, hp] at ih ⊢ <;> omega

theorem countX_exchanges {c : RomCmd} {l : List ExchangeScript} (h : ∀ e ∈ l, Polled e.idle e.r1 = true) :
    l.length * 10 ≤ countX (l.flatMap (·.events c)) ∧
      countX (l.flatMap (·.events c)) ≤ l.length * if romShort c then 18 else 22 := by
  refine countP_flatMap_bounds fun e he => ?_
  obtain ⟨hmin, hmax⟩ := responseIns_bounds (h e he) c
  have hcount : (e.events c).countP Event.isX = 9 + (e.responseIns c).length := countX_exchange e c
  rw [hcount]
  refine ⟨Nat.add_le_add_left hmin 9, (Nat.add_le_add_left hmax 9).trans_eq ?_⟩
  exact apply_ite (9 + ·) _ _ _

theorem countX_goIdleEvents {l : List ExchangeScript} (h : ∀ e ∈ l, Polled e.idle e.r1 = true) :
    l.length * 10 ≤ countX (goIdleEvents l) ∧ countX (goIdleEvents l) ≤ l.length * 18 :=
  countX_exchanges (c := .goIdle) h

theorem countCs_exchanges (c : RomCmd) (l : List ExchangeScript) : countCs (l.flatMap (·.events c)) = l.length * 2 :=
  have h := countP_flatMap_bounds (l := l) fun e _ => ⟨(countCs_exchange e c).ge, (countCs_exchange e c).le⟩
  h.2.antisymm h.1

theorem countW_exchanges (k : Delay) (c : RomCmd) (l : List ExchangeScript) : countW k (l.flatMap (·.events c)) = 0 :=
  have h := countP_flatMap_bounds (l := l) fun e _ => ⟨Nat.zero_le _, (countW_exchange k e c).le⟩
  Nat.le_zero.1 h.2

theorem countX_negEvents {l : List AttemptScript} (h : ∀ a ∈ l, a.polled = true) :
    l.length * 10 ≤ countX (negEvents l) ∧ countX (negEvents l) ≤ l.length * 36 := by
  have hneg : countX (negEvents l) = _ := countP_negEvents Event.isX l
  rw [hneg]
  exact countP_flatMap_bounds fun a ha => countX_attempt (h a ha)

theorem countCs_negEvents (l : List AttemptScript) :
    l.length * 2 ≤ countCs (negEvents l) ∧ countCs (negEvents l) ≤ l.length * 4 := by
  have hneg : countCs (negEvents l) = _ := countP_negEvents Event.isCs l
  rw [hneg]
  refine countP_flatMap_bounds fun a _ => ?_
  have hcount : a.events.countP Event.isCs = if a.sent then 4 else 2 := countCs_attempt a
  rw [hcount]
  split <;> decide

theorem countW_negEvents (k : Delay) (l : List AttemptScript) :
    countW k (negEvents l) = if k = .retry then l.length - 1 else 0 := by
  have hneg : countW k (negEvents l) = _ := countP_negEvents (· == Event.w k) l
  have hattempts := (countP_flatMap_bounds (l := l) fun a _ => ⟨Nat.zero_le _, (countW_attempt k a).le⟩).2
  rw [hneg, Nat.le_zero.1 hattempts]
  cases k <;> simp

theorem countX_powerUp (fill : List Byte) : countX (powerUpEvents fill) = fill.length := by simp [powerUpEvents]

theorem countCs_powerUp (fill : List Byte) : countCs (powerUpEvents fill) = 1 := by simp [powerUpEvents]

theorem countW_powerUp (k : Delay) (fill : List Byte) : countW k (powerUpEvents fill) = if k = .settle then 1 else 0 := by
  cases k <;> simp [powerUpEvents]

namespace InitStages

variable {g : InitStages}

/-- One settle wait in power-up, and the retry waits between the attempts (R190). -/
theorem countW_events (k : Delay) : countW k g.events = match k with | .settle => 1 | .retry => g.neg.length - 1 := by
  simp only [events, goIdleEvents, countW_append, countW_powerUp, countW_exchanges, countW_negEvents]
  cases k <;> simp

/-- The exchanges: 10 fill bytes, at most 18 for each go-idle attempt, 36 for each negotiation attempt and 22 for the other
two commands (R198). -/
theorem Bounded.countX_events (h : g.Bounded) : 30 ≤ countX g.events ∧ countX g.events ≤ 3888 := by
  have hidle := countX_goIdleEvents h.idle_polled
  have hif : _ ∧ _ ≤ g.ifCond.length * 22 := countX_exchanges (c := .ifCond) h.ifCond_polled
  have hocr : _ ∧ _ ≤ g.ocr.length * 22 := countX_exchanges (c := .readOcr) h.ocr_polled
  have hneg := countX_negEvents h.neg_polled
  obtain ⟨hfill, hpos, hle, hifle, hchecked, hnegle, hocrle, -⟩ := h
  simp only [events, countX_append, countX_powerUp]
  omega

theorem Bounded.countCs_events (h : g.Bounded) : 5 ≤ countCs g.events ∧ countCs g.events ≤ 431 := by
  have hneg := countCs_negEvents g.neg
  obtain ⟨-, hpos, hle, hifle, hchecked, hnegle, hocrle, -⟩ := h
  simp only [events, goIdleEvents, countCs_append, countCs_powerUp, countCs_exchanges]
  omega

end InitStages

/-! ## The least trace of a successful INIT (R198) -/

theorem countX_exchange_payload {e : ExchangeScript} {c : RomCmd} (hc : romShort c = false) (hr : e.r1 ≤ 0x01#8) :
    14 ≤ countX (e.events c) := by
  have hpayload : e.hasPayload c = true := by simp [ExchangeScript.hasPayload, hc, BitVec.not_lt.2 hr]
  rw [countX_exchange, responseIns_length, if_pos hpayload]
  omega

theorem countX_attempt_sent {a : AttemptScript} (hs : a.sent = true) : 20 ≤ countX a.events := by
  rw [AttemptScript.events, if_pos hs, countX_append, countX_exchange, countX_exchange, responseIns_length,
    responseIns_length]
  omega

/-- The negotiation's last attempt is among its events. -/
theorem countP_negEvents_last (p : Event → Bool) (l : List AttemptScript) (a : AttemptScript) :
    a.events.countP p ≤ (negEvents (l ++ [a])).countP p := by
  rw [countP_negEvents, List.flatMap_append, List.countP_append, List.flatMap_singleton]
  omega

/-- An INIT that reaches Ready has read two payloads and sent the operating-condition request. -/
theorem counts_ready {sc : InitScript} (h : sc.wellFormed = true) (hr : sc.ocr.r1 ≤ 0x01#8) :
    68 ≤ countX sc.events ∧ 11 ≤ countCs sc.events := by
  have hb := bounded_stages h
  obtain ⟨hfill, -, -, -, -, hif, -, -, -, hok, -⟩ := wellFormed_parts h
  have hsent := sent_of_accepted (accepted_iff.1 hok).2
  have hidle : _ ≤ countX (goIdleEvents (sc.idleFails ++ [sc.idleOk])) := (countX_goIdleEvents hb.idle_polled).1
  have hifx := countX_exchange_payload (c := .ifCond) rfl (BitVec.le_of_eq hif)
  have hocrx := countX_exchange_payload (c := .readOcr) rfl hr
  have hnegx : _ ≤ countX (negEvents (sc.negFails ++ [sc.negOk])) := countP_negEvents_last Event.isX sc.negFails sc.negOk
  have hnegcs : _ ≤ countCs (negEvents (sc.negFails ++ [sc.negOk])) :=
    countP_negEvents_last Event.isCs sc.negFails sc.negOk
  have h20 : 20 ≤ sc.negOk.events.countP Event.isX := countX_attempt_sent hsent
  have h4 : sc.negOk.events.countP Event.isCs = 4 := (countCs_attempt sc.negOk).trans (if_pos hsent)
  have hfill10 : sc.fill.length = 10 := hfill
  have hpos := hb.idle_pos
  have hidlecs : countCs (goIdleEvents (sc.idleFails ++ [sc.idleOk])) = _ := countCs_exchanges .goIdle sc.stages.idle
  rw [InitScript.events]
  simp only [countX_append, countX_powerUp, countCs_append, countCs_powerUp, countCs_exchange]
  omega

/-- Settles O47: the bounds of the stages add up, and a failure is never SUCCESS. -/
theorem initTraceIsBounded : Obligations.InitTraceIsBounded := by
  intro s t he h ht
  obtain ⟨u, hu, rfl⟩ := exec_init_completed he h ht
  obtain ⟨g, v, hb, hreach, hend⟩ := initProc_completed hu
  have hkeeps : u.events = v.events ∧ u.negCnt = v.negCnt := by
    obtain ⟨reason, -, rfl⟩ | ⟨sc, -, -, -, -, -, rfl⟩ := hend <;> exact ⟨rfl, rfl⟩
  have hcount : u.negCnt.toNat = g.neg.length := by
    rw [hkeeps.2, hreach.negCnt, BitVec.toNat_ofNat]
    exact Nat.mod_eq_of_lt (hb.neg_le.trans_lt (by decide))
  have hretry : countW .retry g.events = g.neg.length - 1 := InitStages.countW_events .retry
  obtain ⟨hxmin, hxmax⟩ := hb.countX_events
  obtain ⟨hcsmin, hcsmax⟩ := hb.countCs_events
  refine ⟨g.events, hkeeps.1.trans hreach.events, InitStages.countW_events .settle, ?waits, ?limit, hxmin, hxmax, hcsmin,
    hcsmax, fun hsuccess => ?success⟩
  case waits => exact hretry.trans (congrArg (· - 1) hcount.symm)
  case limit => exact hretry.trans_le (Nat.sub_le_sub_right hb.neg_le 1)
  case success =>
    obtain ⟨reason, hreason, rfl⟩ | ⟨sc, hw, hr, rfl, -⟩ := hend
    · cases hsuccess
      cases hreason
    · rw [stages_events]
      exact counts_ready hw hr

end Sys2Proof.Machine
end

section
/-! O49: two runs of INIT from states with the same answers of the transport to come leave the same registers and have made the
same events (44_init_fsm.md R181, R196). -/

namespace Sys2Proof.Machine

/-! ## Two runs, stage by stage -/

section
variable {b1 b2 : List Event} {s t : State}

/-- A write of registers that shows in the next view as a write on the view before. -/
theorem Same.write {v w : State → State} {g h : State → State} (hs : Same v b1 b2 s t) (hv : ∀ s, w (g s) = h (v s))
    (he : ∀ s, (g s).events = s.events) : Same w b1 b2 (g s) (g t) :=
  same_map (l := []) hv he hs

/-- Once an exchange is made, the two runs have the same response. -/
theorem Same.resp (hs : Same viewDone b1 b2 s t) : s.resp = t.resp :=
  (congrArg State.resp hs.1 : (viewDone s).resp = (viewDone t).resp)

theorem runs_ok {α : Type} {Q : State → State → Prop} {a b : α} (hab : a = b) (hq : Q s t) :
    Runs Q (.ok a s) (.ok b t) := ⟨hab, hq⟩

theorem runs_powerUp (h : Same viewAll b1 b2 s t) : Runs (Same viewAll b1 b2) (powerUp s) (powerUp t) :=
  runs_fill _ _ _ (same_map (g := fun s => { (s.setCs false).delay .settle with fillCnt := 0#4 })
    (h := fun s => { s with fillCnt := 0#4 }) (l := [.w .settle, .cs false]) (fun _ => rfl) (fun _ => rfl) h)

theorem runs_goIdleLoop (h : Same viewAll b1 b2 s t) : Runs (Same viewDone b1 b2) (goIdleLoop s) (goIdleLoop t) :=
  runs_idle0 _ _ _ (h.write (g := fun s => { s with idleCnt := 0#4 }) (h := fun s => { s with idleCnt := 0#4 })
    (fun _ => rfl) (fun _ => rfl))

theorem runs_ifCheck (h : Same viewDone b1 b2 s t) : Runs (Same viewDone b1 b2) (ifCheck s) (ifCheck t) :=
  runs_then (runs_exch .ifCond _ _ (same_weaken h)) fun r1 _ _ h =>
    runs_ok (congrArg (fun r : Resp => ifVerdict r1 r.b4) h.resp) h

theorem runs_negotiate (h : Same viewDone b1 b2 s t) : Runs (Same viewDone b1 b2) (negotiate s) (negotiate t) :=
  runs_neg _ _ _ (h.write (g := fun s => { s with negCnt := 0#7 }) (h := fun s => { s with negCnt := 0#7 })
    (fun _ => rfl) (fun _ => rfl))

/-! ## Two runs of INIT, from its last step to the whole -/

theorem runs_readOcr (h : Same viewDone b1 b2 s t) : Runs (Same viewEnd b1 b2) (initReadOcr s) (initReadOcr t) :=
  runs_then (runs_exch .readOcr _ _ (same_weaken h)) fun r1 _ _ h => runs_ok rfl (same_ocr r1 (same_enter .readOcr h))

theorem runs_initNegotiate (h : Same viewDone b1 b2 s t) :
    Runs (Same viewEnd b1 b2) (initNegotiate s) (initNegotiate t) := by
  refine runs_then (runs_negotiate h) fun failure s t h => ?_
  cases failure with
  | some reason => exact runs_ok rfl (same_fail reason h)
  | none => exact runs_readOcr (same_enter .negotiating h)

theorem runs_initCheck (h : Same viewDone b1 b2 s t) : Runs (Same viewEnd b1 b2) (initCheck s) (initCheck t) := by
  refine runs_then (runs_ifCheck h) fun failure s t h => ?_
  cases failure with
  | some reason => exact runs_ok rfl (same_fail reason h)
  | none => exact runs_initNegotiate (same_enter .interfaceCheck h)

theorem runs_init (h : Same viewAll b1 b2 s.startInit t.startInit) :
    Runs (Same viewEnd b1 b2) (initProc s) (initProc t) := by
  refine runs_then (runs_powerUp h) fun _ s t h => runs_then (runs_goIdleLoop h) fun ok s t h => ?_
  cases ok with
  | false => exact runs_ok rfl (same_fail .idleTimeout h)
  | true => exact runs_initCheck (same_enter .idle h)

end

/-! ## The whole operation -/

/-- Acceptance and step S0 write every register that the rest of INIT reads, so only the transport's answers are left to
differ (R181 S0, R196). -/
theorem same_startInit {s t : State} (o : BitVec 4) (hr : s.replies = t.replies) (hd : s.draws = t.draws) :
    Same viewAll s.events t.events (s.accept o).startInit (t.accept o).startInit := by
  refine ⟨?_, [], rfl, rfl⟩
  simp only [viewAll, State.startInit, State.accept, hr, hd]

/-- The end of an operation writes the registers the last view erases, the host's moves apart (R83). -/
theorem complete_eq_of_viewEnd {s t : State} (h : viewEnd s = viewEnd t) :
    s.complete = { t.complete with moves := s.moves, events := s.events } :=
  congrArg (fun u : State => { u.complete with moves := s.moves, events := s.events }) h

/-- Settles O49: the second run completes because the first does, and the last view of the two is one. -/
theorem initDependsOnTheCardAlone : Obligations.InitDependsOnTheCardAlone := by
  intro s1 s2 t1 t2 he1 he2 hr hd h1 h2 ht
  obtain ⟨u1, hu1, rfl⟩ := exec_init_completed he1 h1 ht
  have hruns : Runs (Same viewEnd s1.events s2.events) (initProc (s1.accept 0xC#4)) (initProc (s2.accept 0xC#4)) :=
    runs_init (same_startInit 0xC#4 hr hd)
  rw [exec_avail rfl he2, procOf] at h2
  cases h2
  rw [hu1] at hruns
  cases hu2 : initProc (s2.accept 0xC#4) <;> rw [hu2] at hruns
  case abort => exact hruns.elim
  case ok u2 =>
    obtain ⟨-, hview, hevents⟩ := hruns
    exact ⟨complete_eq_of_viewEnd hview, hevents⟩

end Sys2Proof.Machine
end

section
/-! O9, O11 and O38: a request that no row matches, what the host's moves can do in FAULTED, and the four operations that make no
transport call (60_exceptions.md R211, R213, R214). -/

namespace Sys2Proof.Machine

/-! ## A request that no row matches (R214) -/

theorem presentRequest_unmatched {s : State} {w : Request} (he : s.eng = .avail)
    (h : ∀ r ∈ requestRows, r.selects w = false) : presentRequest w s = .next s.refuseIllegal := by
  obtain ⟨e, hd⟩ := decode_of_no_row h
  simp [presentRequest, hd, presentIllegal, he]

/-- Settles O9: the step takes the move and presents its word, whole or to be run step by step. -/
theorem unmatchedRequestsOnlySetIllegal : Obligations.UnmatchedRequestsOnlySetIllegal := by
  intro s w rest he h hm
  obtain hm | hm := hm <;> rw [step_of_moves hm]
  · exact presentRequest_unmatched (s := { s with moves := rest }) he h
  · exact presentStart_unmatched (s := { s with moves := rest }) he h

/-! ## FAULTED (R213) -/

/-- A word that decodes is an operation's, which FAULTED turns away; one that does not is turned away before its legality is
looked at. -/
theorem presentRequest_faulted {s : State} (he : s.eng = .faulted) (w : Request) :
    presentRequest w s = .next s.refuseFaulted := by
  unfold presentRequest
  split
  case h_1 i hd =>
    obtain ⟨ho, -⟩ := decodeRequest_opcode hd
    rw [exec_faulted he, ho]
    rfl
  case h_2 => simp only [presentIllegal, he]

/-- In FAULTED a move other than reset changes `op_status` at most. -/
theorem runMove_faulted {m : Move} {s t : State} (he : s.eng = .faulted) (h : runMove m s = .next t) (hm : m ≠ .rst) :
    t = s ∨ t = s.refuseFaulted := by
  obtain ht | ⟨-, hav⟩ | ⟨ht, -⟩ | ⟨i, hx⟩ | ⟨i, p, o, hav, -⟩ | ⟨-, hbusy, -⟩ | ⟨hrst, -⟩ := runMove_cases h
  · exact .inl ht
  · simp [he] at hav
  · exact .inr ht
  · obtain hav | ⟨-, ht⟩ := exec_next_cases hx
    · simp [he] at hav
    · exact ht
  · simp [he] at hav
  · simp [he] at hbusy
  · exact absurd hrst hm

/-- In FAULTED a step that is no reset takes the host's move, if there is one, and changes `op_status` at most. -/
theorem step_faulted {s t : State} (he : s.eng = .faulted) (h : step s = .next t) (hm : s.moves.head? ≠ some .rst) :
    t = { s with moves := s.moves.tail } ∨ t = { s with moves := s.moves.tail, opStatus := .faulted } := by
  cases hmoves : s.moves with
  | nil =>
    have hstep : step s = .next s := by simp [step, hmoves, advance, he]
    obtain rfl : s = t := by rw [hstep] at h; injection h
    exact .inl (by rw [List.tail_nil, ← hmoves])
  | cons m rest =>
    rw [step_of_moves hmoves] at h
    exact runMove_faulted (s := { s with moves := rest }) he h (by simpa [hmoves] using hm)

/-- Settles O11. -/
theorem faultedIsQuiescentUntilReset : Obligations.FaultedIsQuiescentUntilReset := by
  refine ⟨fun s w rest he hm => ?_, fun s t he h hm => ?_, resetGivesEveryRegisterItsValue.2⟩
  · obtain hm | hm := hm <;> rw [step_of_moves hm]
    · exact presentRequest_faulted (s := { s with moves := rest }) he w
    · exact presentStart_faulted (s := { s with moves := rest }) he w
  · obtain rfl | rfl := step_faulted he h hm
    · exact ⟨rfl, .inl rfl⟩
    · exact ⟨rfl, .inr rfl⟩

/-! ## ENCODE and the three decoders (R211) -/

/-- Between acceptance and completion the Command Encoder and the Response Decoder write `frame`, `result` and `rvalid` at most. -/
theorem exec_encoder_or_decoder {i : Instr} {s : State} (he : s.eng = .avail)
    (hi : (∃ idx arg crc, i = .encode idx arg crc) ∨ (∃ b, i = .decodeR1 b) ∨ (∃ arg, i = .decodeR7 arg) ∨
      ∃ arg, i = .decodeR3 arg) :
    ∃ opc f r v, exec i s = .next { s.accept opc with frame := f, result := r, rvalid := v }.complete := by
  obtain ⟨idx, arg, crc, rfl⟩ | ⟨b, rfl⟩ | ⟨arg, rfl⟩ | ⟨arg, rfl⟩ := hi
  · exact ⟨0x1#4, some (encodeFrame idx arg crc), _, _, exec_avail rfl he⟩
  · exact ⟨0x4#4, s.frame, _, _, exec_avail rfl he⟩
  · exact ⟨0x5#4, s.frame, _, _, exec_avail rfl he⟩
  · exact ⟨0x6#4, s.frame, _, _, exec_avail rfl he⟩

/-- Settles O38. -/
theorem encoderAndDecoderMakeNoTransportCall : Obligations.EncoderAndDecoderMakeNoTransportCall := by
  intro i s he hi
  obtain ⟨opc, f, r, v, h⟩ := exec_encoder_or_decoder he hi
  exact ⟨_, h, rfl, rfl, rfl, rfl, rfl, rfl, rfl, rfl⟩

end Sys2Proof.Machine
end

section
/-! O14 and O48: what the engine does when the host makes no move, and how long an INIT lasts at least
(70_reset_and_hazards.md R232, R251). -/

namespace Sys2Proof.Machine

/-! ## No move of the host (R232) -/

theorem step_of_no_moves {s : State} (hm : s.moves = []) : step s = advance s := by simp only [step, hm]

/-- Only an operation in flight goes on by itself. -/
theorem advance_of_not_busy {s : State} (he : s.eng ≠ .busy) : advance s = .next s := by
  cases hmode : s.eng with
  | busy => exact absurd hmode he
  | avail => simp only [advance, hmode]
  | faulted => simp only [advance, hmode]

/-- Settles O14. -/
theorem nothingStartsByItself : Obligations.NothingStartsByItself := fun _ he hm =>
  (step_of_no_moves hm).trans (advance_of_not_busy he)

/-! ## The least duration of an INIT (R251) -/

/-- A trace with one settle wait lasts at least the settle delay and its retry delays. -/
theorem leastMs_of_one_settle {l : List Event} {n : Nat} (hs : countW .settle l = 1) (hr : countW .retry l = n) :
    leastMs l = Config.tSettleMs + n * Config.tRetryMs := by
  rw [leastMs_eq, hs, hr, Nat.one_mul]

/-- Settles O48: the waits of the trace are those `initTraceIsBounded` counts. -/
theorem initLastsAtLeastItsDelays : Obligations.InitLastsAtLeastItsDelays := by
  intro s t he h ht
  obtain ⟨evs, hevents, hsettle, hretry, -⟩ := initTraceIsBounded s t he h ht
  have hms := leastMs_of_one_settle hsettle hretry
  refine ⟨evs, hevents, ?settle, hms, fun hneg => ?all⟩
  case settle => exact hms ▸ Nat.le_add_right Config.tSettleMs _
  case all =>
    rw [hms, hneg]
    decide

end Sys2Proof.Machine
end
